-- ==== Sys2Proof/Word.lean ====
section
/-! DEFINITION. The word types of the TRSP DSP core and the type of binary64 values, with their plainest readings. -/

namespace Sys2Proof

/-- A host-visible word or a DMEM word: 64 bits (rule R6). -/
abbrev Word := BitVec 64

/-- An integer field of a register or the command word: 32 bits (rules R6, R38, R40 to R42). -/
abbrev Word32 := BitVec 32

/-- A byte, as the host bus exposes the bytes of a word (rule R74). -/
abbrev Byte := BitVec 8

/-- A binary64 value (rule R10). A finite value keeps its sign, biased exponent (0 to 2046) and fraction.
All NaN encodings are one value here: no rule depends on a NaN's sign or payload (rule R13). (DEDUCED,
safe, log 23.) -/
inductive F64 where
  | nan
  | inf (neg : Bool)
  | fin (neg : Bool) (exp : Fin 2047) (frac : Fin 4503599627370496)
  deriving DecidableEq, Repr

namespace F64

/-- `isnan` (rule R12). -/
def isNaN : F64 → Bool
  | .nan => true
  | _ => false

/-- `isfinite` (rule R12): neither infinite nor NaN. -/
def isFinite : F64 → Bool
  | .fin _ _ _ => true
  | _ => false

/-- The sign bit; a NaN has none here. -/
def isNeg : F64 → Bool
  | .nan => false
  | .inf s => s
  | .fin s _ _ => s

/-- A zero of either sign. -/
def isZero : F64 → Bool
  | .fin _ e f => e.val == 0 && f.val == 0
  | _ => false

/-- The magnitude of a finite value in units of `2^-1074`, the smallest subnormal: the value is this number of
units, with the value's sign. A value that is not finite has 0 units. -/
def units : F64 → Nat
  | .fin _ e f => if e.val = 0 then f.val else (4503599627370496 + f.val) * 2 ^ (e.val - 1)
  | _ => 0

/-- A finite value as a signed whole number of units of `2^-1074`. -/
def toInt : F64 → Int
  | .fin s e f => if s then -((F64.fin s e f).units : Int) else ((F64.fin s e f).units : Int)
  | _ => 0

/-- `+0.0`. -/
def zero : F64 := .fin false 0 0

/-- `1.0`, encoding `0x3FF0000000000000`. -/
def one : F64 := .fin false 1023 0

/-- The exact sign flip `-.a` (rule R11). -/
def neg : F64 → F64
  | .nan => .nan
  | .inf s => .inf !s
  | .fin s e f => .fin (!s) e f

/-- The magnitude of a value. -/
def abs : F64 → F64
  | .nan => .nan
  | .inf _ => .inf false
  | .fin _ e f => .fin false e f

end F64

end Sys2Proof
end

