-- ==== Sys2Proof/Machine/Float64.lean ====
section
/-! DEFINITION. binary64 arithmetic of rules R10 to R12 and R14: operands become exact integers, the result is computed exactly and then rounded once, to nearest with ties to even. Subnormals are kept. IEEE 754's results at infinities, signed zeros and NaN are PRESUMED, unsafe, log 24. -/

namespace Sys2Proof
namespace F64

/-! ### The encoding (rule R10) -/

/-- `F(v)`: the binary64 value whose encoding is `v` (rules R9, R10): sign bit 63, biased exponent bits 62:52,
fraction bits 51:0. -/
def ofWord (v : Word) : F64 :=
  let s := v.toNat / 2 ^ 63 == 1
  let e := v.toNat / 2 ^ 52 % 2 ^ 11
  let f := v.toNat % 2 ^ 52
  if h : e < 2047 then .fin s ⟨e, h⟩ ⟨f, Nat.mod_lt _ (by decide)⟩
  else if f = 0 then .inf s
  else .nan

/-- Bits 62:0 of the encoding of a value that is not NaN. They order magnitudes: a larger magnitude has larger bits. -/
def magBits : F64 → Nat
  | .nan => 0
  | .inf _ => 2047 * 2 ^ 52
  | .fin _ e f => e.val * 2 ^ 52 + f.val

/-- The encoding of a value that is not NaN (rule R10). -/
def bits (a : F64) : Word :=
  BitVec.ofNat 64 ((if a.isNeg then 2 ^ 63 else 0) + a.magBits)

/-! ### Rounding (rule R11: to nearest, ties to even) -/

/-- The value of `n` units of `2^-1074` when `n` has at most 53 significant bits; infinity from `2^1024` up. -/
def ofUnits (neg : Bool) (n : Nat) : F64 :=
  if n < 2 ^ 52 then .fin neg 0 (Fin.ofNat _ n)
  else
    let l := n.log2
    if 2098 ≤ l then .inf neg
    else .fin neg (Fin.ofNat _ (l - 51)) (Fin.ofNat _ (n / 2 ^ (l - 52)))

/-- How many low bits of `t` units lie below the last place of a binary64 value of that size: none up to 53 bits. -/
def shiftFor (t : Nat) : Nat := t.log2 - 52

/-- The quotient `num / den` rounded to an integer, to nearest, ties to even. -/
def divNearestEven (num den : Nat) : Nat :=
  let q := num / den
  let r := num % den
  if den < 2 * r then q + 1
  else if 2 * r = den ∧ q % 2 = 1 then q + 1
  else q

/-- The binary64 value nearest to `± num / den` units of `2^-1074`, ties to even. -/
def round (neg : Bool) (num den : Nat) : F64 :=
  let sh := shiftFor (num / den)
  ofUnits neg (divNearestEven num (den * 2 ^ sh) * 2 ^ sh)

/-- A signed exact sum of `z / den` units, rounded; an exact zero takes the sign `zeroNeg`. -/
def roundInt (z : Int) (den : Nat) (zeroNeg : Bool) : F64 :=
  if z = 0 then .fin zeroNeg 0 0 else round (decide (z < 0)) z.natAbs den

/-! ### The operations of rule R11 -/

/-- `a +. b`. An exact zero sum is `−0.0` only when both operands are negative zeros. -/
def add : F64 → F64 → F64
  | .nan, _ => .nan
  | _, .nan => .nan
  | .inf s, .inf t => if s = t then .inf s else .nan
  | .inf s, .fin _ _ _ => .inf s
  | .fin _ _ _, .inf t => .inf t
  | .fin s e f, .fin t d g => roundInt ((F64.fin s e f).toInt + (F64.fin t d g).toInt) 1 (s && t)

/-- `a -. b`. -/
def sub (a b : F64) : F64 := add a (neg b)

/-- `a *. b`. -/
def mul : F64 → F64 → F64
  | .nan, _ => .nan
  | _, .nan => .nan
  | .inf s, b => if b.isZero then .nan else .inf (s ^^ b.isNeg)
  | a, .inf t => if a.isZero then .nan else .inf (a.isNeg ^^ t)
  | .fin s e f, .fin t d g => round (s ^^ t) ((F64.fin s e f).units * (F64.fin t d g).units) (2 ^ 1074)

/-- `a /. b`. A nonzero finite value over a zero is an infinity; zero over zero is NaN. -/
def div : F64 → F64 → F64
  | .nan, _ => .nan
  | _, .nan => .nan
  | .inf _, .inf _ => .nan
  | .inf s, .fin t _ _ => .inf (s ^^ t)
  | .fin s _ _, .inf t => .fin (s ^^ t) 0 0
  | .fin s e f, .fin t d g =>
    if (F64.fin t d g).isZero then
      if (F64.fin s e f).isZero then .nan else .inf (s ^^ t)
    else round (s ^^ t) ((F64.fin s e f).units * 2 ^ 1074) (F64.fin t d g).units

/-- The integer square root by binary digits: `k` further digits of the root of `n` below the root `r` found so far. -/
def rootDigits (n : Nat) : Nat → Nat → Nat
  | 0, r => r
  | k + 1, r => rootDigits n k (if (r + 2 ^ k) * (r + 2 ^ k) ≤ n then r + 2 ^ k else r)

/-- `⌊√n⌋` for `n < 2^112`. -/
def root56 (n : Nat) : Nat := rootDigits n 56 0

/-- `sqrt64(a)`. The root of `n` units is `√(n·2^1074)` units; it is found to 55 digits, with one digit more that
says whether anything is left, which is enough to round it. `sqrt64(−0.0)` is `−0.0`; a negative value gives NaN. -/
def sqrt : F64 → F64
  | .nan => .nan
  | .inf s => if s then .nan else .inf false
  | .fin s e f =>
    if (F64.fin s e f).isZero then .fin s 0 0
    else if s then .nan
    else
      let n := (F64.fin s e f).units * 2 ^ 1074
      let h := (n.log2 - 108) / 2
      let r := root56 (n / 4 ^ h)
      let rest := if r * r * 4 ^ h = n then 0 else 1
      round false ((2 * r + rest) * 2 ^ h) 2

/-- `fma64(a, b, c)`: `a*b + c` with one rounding. -/
def fma (a b c : F64) : F64 :=
  match a, b, c with
  | .nan, _, _ => .nan
  | _, .nan, _ => .nan
  | _, _, .nan => .nan
  | .fin s e f, .fin t d g, .fin u x y =>
    let p : Int := (F64.fin s e f).toInt * (F64.fin t d g).toInt
    roundInt (p + (F64.fin u x y).toInt * 2 ^ 1074) (2 ^ 1074) ((s ^^ t) && u)
  | .fin _ _ _, .fin _ _ _, .inf u => .inf u
  | a, b, c => add (mul a b) c

/-- `i2f(n)`: the conversion of a whole number; exact for `n < 2^53` (rule R11). -/
def ofNat (n : Nat) : F64 := round false (n * 2 ^ 1074) 1

/-! ### Comparisons (rule R12: false when either operand is NaN; `+0.0 == -0.0`) -/

/-- The order of the values that are not NaN: the signed magnitude bits. -/
def ord (a : F64) : Int := if a.isNeg then -(a.magBits : Int) else (a.magBits : Int)

/-- `a < b` -/
def lt (a b : F64) : Bool := !a.isNaN && !b.isNaN && decide (a.ord < b.ord)

/-- `a <= b` -/
def le (a b : F64) : Bool := !a.isNaN && !b.isNaN && decide (a.ord ≤ b.ord)

/-- `a == b` -/
def eq (a b : F64) : Bool := !a.isNaN && !b.isNaN && decide (a.ord = b.ord)

/-! ### The multiply-accumulate step (rule R14) -/

/-- `mac(acc, a, b)`. -/
def mac (fused : Bool) (acc a b : F64) : F64 :=
  if fused then fma a b acc else add acc (mul a b)

/-- `msub(acc, a, b)`. -/
def msub (fused : Bool) (acc a b : F64) : F64 :=
  if fused then fma (neg a) b acc else sub acc (mul a b)

/-! ### The constants of rules R16, R151 and R221 -/

/-- `PI64`, encoding `0x400921FB54442D18`. -/
def pi64 : F64 := ofWord 0x400921FB54442D18

/-- `C054`, encoding `0x3FE147AE147AE148`. -/
def c054 : F64 := ofWord 0x3FE147AE147AE148

/-- `C046`, encoding `0x3FDD70A3D70A3D71`. -/
def c046 : F64 := ofWord 0x3FDD70A3D70A3D71

/-- `0.5` -/
def half : F64 := .fin false 1022 0

/-- `2.0` -/
def two : F64 := .fin false 1024 0

/-- `10.0`, `1.25 · 2^3` -/
def ten : F64 := .fin false 1026 1125899906842624

end F64
end Sys2Proof
end

