-- ==== Sys2Proof/Machine/Exact.lean ====
section
/-! DEFINITION. The exact results of rule R17 (a): the real-number value of each formula of the source on binary64 inputs. No step computes them; they say what a conforming result is near to. -/

namespace Sys2Proof
namespace F64

/-- The real number a finite value stands for (rule R10). -/
noncomputable def toReal (a : F64) : ℝ := (a.toInt : ℝ) / 2 ^ 1074

/-- The unit in the last place of binary64 at the real number `x` (rule R19, "ulp"): `2^-1074` for zero and the
subnormal range. Rule R15 (d) does not say whether the unit is that of the exact value or of the value returned; it is
taken at the exact value (DESIGN CHOICE, unsafe, log 29). -/
noncomputable def ulp (x : ℝ) : ℝ := if x = 0 then 2 ^ (-1074 : ℤ) else 2 ^ (max (Int.log 2 |x|) (-1022) - 52)

/-- Within one unit in the last place of the exact value (rule R15 (d)). -/
def Faithful (r : F64) (x : ℝ) : Prop := r.isFinite = true ∧ |r.toReal - x| ≤ ulp x

/-- A finite value within an absolute distance `tol` of the exact value (rule R17, `FP_TOL`; DEDUCED, log 3). -/
def Within (tol : ℝ) (r : F64) (x : ℝ) : Prop := r.isFinite = true ∧ |r.toReal - x| ≤ tol

/-- The value `w` a tolerant datapath delivers conforms (rule R17 (a)), `r` being the reference result and `x` the exact
result of its word: within `tol` of a real exact result, or, where the reference overflows or is NaN, the reference's value;
and the reference's value where there is no real exact result. What conforms where the reference is not finite the spec
leaves open (rules R17, R199, R223; DESIGN CHOICE, unsafe, log 28). -/
def Conforms (tol : ℝ) (r : F64) (x : Option ℝ) (w : F64) : Prop :=
  match x with
  | some x => w.Within tol x ∨ (r.isFinite = false ∧ w = r)
  | none => w = r

/-- The order of the values that are not NaN, with the two infinities (rule R12). A NaN has no place in it; 0 stands for
none. -/
noncomputable def toEReal : F64 → EReal
  | .nan => 0
  | .inf s => if s then ⊥ else ⊤
  | .fin s e f => ((F64.fin s e f).toReal : EReal)

/-- The last fraction bit of a finite value is 0. -/
def lastBitZero : F64 → Bool
  | .nan => false
  | .inf _ => false
  | .fin _ _ f => f.val % 2 == 0

/-- `r` is the real number `x` rounded to nearest, ties to even (rule R11): below the overflow bound no finite value is
nearer than `r`, and of two values equally near `r` is the one whose last bit is 0; from the bound on `r` is the
infinity of `x`'s sign. A result for a nonzero `x` keeps its sign. -/
structure RoundsTo (r : F64) (x : ℝ) : Prop where
  sign : x ≠ 0 → r.isNeg = decide (x < 0)
  finite : r.isFinite = true ↔ |x| < 2 ^ 1024 - 2 ^ 970
  infinite : r.isFinite = false → r = .inf (decide (x < 0))
  nearest : r.isFinite = true → ∀ c : F64, c.isFinite = true → |r.toReal - x| ≤ |c.toReal - x|
  even : r.isFinite = true → ∀ c : F64, c.isFinite = true → c.toReal ≠ r.toReal →
    |c.toReal - x| = |r.toReal - x| → r.lastBitZero = true

end F64

namespace Exact

/-- `sinc(x) = sin(πx)/(πx)`, `sinc(0) = 1` (rule R154). -/
noncomputable def sinc (x : ℝ) : ℝ := if x = 0 then 1 else Real.sin (Real.pi * x) / (Real.pi * x)

/-- `h[i]·w[i]` of rule R154 for `n ≥ 2` taps. -/
noncomputable def windowed (fc : ℝ) (n i : Nat) : ℝ :=
  sinc (2 * fc * (i - ((n : ℝ) - 1) / 2)) * (0.54 - 0.46 * Real.cos (2 * Real.pi * i / ((n : ℝ) - 1)))

/-- `tap[i]` (rules R153, R154). -/
noncomputable def tap (fc : ℝ) (n i : Nat) : ℝ :=
  if n = 1 then 1 else windowed fc n i / ∑ j ∈ Finset.range n, windowed fc n j

/-- The zero-padded sample `xz(j)` (rule R170). -/
noncomputable def padded (sig : List ℝ) (j : Int) : ℝ :=
  if 0 ≤ j ∧ j < sig.length then sig.getD j.toNat 0 else 0

/-- `out[i] = Σ h[k]·xz(i − k + cI)` (rule R173). -/
noncomputable def conv (sig h : List ℝ) (i : Nat) : ℝ :=
  ∑ k ∈ Finset.range h.length, h.getD k 0 * padded sig ((i : Int) - k + ((h.length - 1) / 2 : Nat))

/-- The real part of `Spectrum[k]` (rule R192). -/
noncomputable def binRe (sig : List ℝ) (k : Nat) : ℝ :=
  ∑ n ∈ Finset.range sig.length, sig.getD n 0 * Real.cos (2 * Real.pi * k * n / sig.length)

/-- The imaginary part of `Spectrum[k]` (rule R192). -/
noncomputable def binIm (sig : List ℝ) (k : Nat) : ℝ :=
  -∑ n ∈ Finset.range sig.length, sig.getD n 0 * Real.sin (2 * Real.pi * k * n / sig.length)

/-- `|re + i·im|` (rule R198). -/
noncomputable def mag (re im : ℝ) : ℝ := Real.sqrt (re ^ 2 + im ^ 2)

/-- `Σ r[i]²` (rule R223). -/
noncomputable def signalPower (r : List ℝ) : ℝ := (r.map fun x => x ^ 2).sum

/-- `Σ (t[i] − r[i])²` (rule R223). -/
noncomputable def noisePower (r t : List ℝ) : ℝ := (List.zipWith (fun x y => (y - x) ^ 2) r t).sum

/-- `10·log10(Σ r[i]² / Σ (t[i] − r[i])²)` (rule R223). -/
noncomputable def snr (r t : List ℝ) : ℝ := 10 * Real.logb 10 (signalPower r / noisePower r t)

/-! ### The exact result of one output word, where there is a real one

Each looks at the operands of its own word alone. -/

/-- All of the values are finite. -/
def finiteAll (xs : List F64) : Bool := xs.all F64.isFinite

/-- `tap[i]` (rule R154), when the exact sum is not zero. -/
noncomputable def tap? (fc : ℝ) (n i : Nat) : Option ℝ :=
  if n ≠ 1 ∧ ∑ j ∈ Finset.range n, windowed fc n j = 0 then none else some (tap fc n i)

/-- The padded sample `xz(j)` is finite (rule R170). -/
def finiteSample (sig : List F64) (j : Int) : Bool :=
  if 0 ≤ j ∧ j < sig.length then (sig.getD j.toNat F64.zero).isFinite else true

/-- `out[i]` of rule R173, when every tap and every sample under the taps is finite. -/
noncomputable def conv? (sig h : List F64) (i : Nat) : Option ℝ :=
  if finiteAll h && (List.range h.length).all fun k => finiteSample sig ((i : Int) - k + ((h.length - 1) / 2 : Nat)) then
    some (conv (sig.map F64.toReal) (h.map F64.toReal) i)
  else none

/-- The real part of bin `k` (rule R192), when every sample is finite. -/
noncomputable def binRe? (sig : List F64) (k : Nat) : Option ℝ :=
  if finiteAll sig then some (binRe (sig.map F64.toReal) k) else none

/-- The imaginary part of bin `k` (rule R192), when every sample is finite. -/
noncomputable def binIm? (sig : List F64) (k : Nat) : Option ℝ :=
  if finiteAll sig then some (binIm (sig.map F64.toReal) k) else none

/-- The magnitude of one bin (rule R198), when both components are finite. -/
noncomputable def mag? (re im : F64) : Option ℝ :=
  if re.isFinite && im.isFinite then some (mag re.toReal im.toReal) else none

/-- The magnitude of a bin without NaN, with infinity for a bin with an infinite component (rules R198, R229 (e)). -/
noncomputable def magOrTop (re im : F64) : EReal :=
  if re.isFinite && im.isFinite then (mag re.toReal im.toReal : EReal) else ⊤

/-- The SNR (rule R223), when every sample is finite and neither sum is zero. -/
noncomputable def snr? (r t : List F64) : Option ℝ :=
  if finiteAll r = true ∧ finiteAll t = true ∧ signalPower (r.map F64.toReal) ≠ 0 ∧
      noisePower (r.map F64.toReal) (t.map F64.toReal) ≠ 0 then
    some (snr (r.map F64.toReal) (t.map F64.toReal))
  else none

/-- `k*·fs/N` (rule R229 (e)). -/
noncomputable def freq (k : Nat) (fs : ℝ) (n : Nat) : ℝ := k * fs / n

end Exact
end Sys2Proof
end

