-- ==== Sys2Proof/Laws/Rounding.lean ====
section
/-! SUPPORT. What rounding does (rule R11): the rounded value is a binary64 value nearest to the exact quotient, even on a tie, and an infinity exactly from the overflow bound on. -/

namespace Sys2Proof
namespace F64

/-- A whole number of units with at most 53 significant bits, none of them below the last place. -/
def Fits (n : Nat) : Prop := ∃ m k, n = m * 2 ^ k ∧ m < 2 ^ 53 ∧ (k = 0 ∨ 2 ^ 52 ≤ m) ∧ k ≤ 2045

theorem units_fits (y : F64) : Fits y.units := by
  cases y with
  | nan => exact ⟨0, 0, by simp [units]⟩
  | inf s => exact ⟨0, 0, by simp [units]⟩
  | fin s e f =>
    have hf := f.isLt
    have he := e.isLt
    by_cases h : e.val = 0
    · exact ⟨f.val, 0, by simp [units, h], by omega, .inl rfl, by omega⟩
    · exact ⟨4503599627370496 + f.val, e.val - 1, by simp [units, h], by omega, .inr (by omega), by omega⟩

theorem units_fin_neg (s t : Bool) (e f) : (F64.fin s e f).units = (F64.fin t e f).units := rfl

/-- The integer nearest to a quotient is at most half away from it. -/
theorem divNearestEven_half (num : Nat) {den : Nat} (hd : 0 < den) :
    2 * (divNearestEven num den * den) ≤ 2 * num + den ∧ 2 * num ≤ 2 * (divNearestEven num den * den) + den := by
  have h := Nat.div_add_mod num den
  have hr := Nat.mod_lt num hd
  simp only [divNearestEven]
  have e1 : num / den * den = den * (num / den) := Nat.mul_comm _ _
  have e2 : (num / den + 1) * den = den * (num / den) + den := by ring
  split
  · rw [e2]; omega
  · split
    · rw [e2]; omega
    · rw [e1]; omega

/-- No whole multiple of the divisor is nearer to the dividend than the rounded one. -/
theorem divNearestEven_nearest (num : Nat) {den : Nat} (hd : 0 < den) (b : Nat) :
    |((divNearestEven num den * den : Nat) : Int) - num| ≤ |((b * den : Nat) : Int) - num| := by
  obtain ⟨h1, h2⟩ := divNearestEven_half num hd
  generalize divNearestEven num den = a at *
  rcases lt_trichotomy a b with h | h | h
  · have : a * den + den ≤ b * den := by nlinarith
    rw [abs_le, abs_of_nonneg (by omega)]
    omega
  · rw [h]
  · have : b * den + den ≤ a * den := by nlinarith
    rw [abs_le, abs_of_nonpos (by omega)]
    omega

theorem shiftFor_pos_bounds {t : Nat} (h : shiftFor t ≠ 0) :
    2 ^ (52 + shiftFor t) ≤ t ∧ t < 2 ^ (53 + shiftFor t) := by
  unfold shiftFor at *
  have ht : t ≠ 0 := by rintro rfl; simp at h
  have e1 : 52 + (t.log2 - 52) = t.log2 := by omega
  have e2 : 53 + (t.log2 - 52) = t.log2 + 1 := by omega
  rw [e1, e2]
  exact ⟨Nat.log2_self_le ht, Nat.lt_log2_self⟩

theorem shiftFor_zero_bound {t : Nat} (h : shiftFor t = 0) : t < 2 ^ 53 := by
  unfold shiftFor at h
  rcases Nat.eq_zero_or_pos t with rfl | ht
  · decide
  · have := Nat.lt_log2_self (n := t)
    exact lt_of_lt_of_le this (Nat.pow_le_pow_right (by decide) (by omega))

/-- The units a value is rounded to, before they are encoded. -/
def roundedUnits (num den : Nat) : Nat :=
  divNearestEven num (den * 2 ^ shiftFor (num / den)) * 2 ^ shiftFor (num / den)

theorem round_eq (s : Bool) (num den : Nat) : round s num den = ofUnits s (roundedUnits num den) := rfl

/-- No whole number of units that fits a binary64 value is nearer to the exact quotient than the rounded one. -/
theorem roundedUnits_nearest (num : Nat) {den : Nat} (hd : 0 < den) {n : Nat} (hn : Fits n) :
    |((roundedUnits num den * den : Nat) : Int) - num| ≤ |((n * den : Nat) : Int) - num| := by
  obtain ⟨m, k, rfl, hm, hk, -⟩ := hn
  unfold roundedUnits
  set sh := shiftFor (num / den) with hsh
  have hD : 0 < den * 2 ^ sh := by positivity
  have near := divNearestEven_nearest num hD
  generalize divNearestEven num (den * 2 ^ sh) = a at *
  have ea : a * 2 ^ sh * den = a * (den * 2 ^ sh) := by ring
  rw [ea]
  by_cases hks : sh ≤ k
  · have := near (m * 2 ^ (k - sh))
    have e : m * 2 ^ (k - sh) * (den * 2 ^ sh) = m * 2 ^ k * den := by
      rw [← Nat.sub_add_cancel hks, pow_add, Nat.sub_add_cancel hks]; ring
    rwa [e] at this
  · have h0 : sh ≠ 0 := by omega
    have hb := (shiftFor_pos_bounds (hsh ▸ h0)).1
    rw [← hsh] at hb
    have hnum : 2 ^ (52 + sh) * den ≤ num :=
      le_trans (Nat.mul_le_mul_right _ hb) (Nat.div_mul_le_self _ _)
    have hlt : m * 2 ^ k ≤ 2 ^ (52 + sh) := by
      have : m * 2 ^ k ≤ 2 ^ 53 * 2 ^ k := Nat.mul_le_mul_right _ hm.le
      rw [← pow_add] at this
      exact this.trans (Nat.pow_le_pow_right (by decide) (by omega))
    have hmul : m * 2 ^ k * den ≤ 2 ^ (52 + sh) * den := Nat.mul_le_mul_right _ hlt
    have := near (2 ^ 52)
    have e : 2 ^ 52 * (den * 2 ^ sh) = 2 ^ (52 + sh) * den := by rw [pow_add]; ring
    rw [e] at this
    refine this.trans ?_
    rw [abs_of_nonpos (by omega), abs_of_nonpos (by omega)]
    omega

/-- The quotient in units of the last place has at most 53 bits, and 53 bits whenever bits were dropped. -/
theorem roundedDigits_bounds (num : Nat) {den : Nat} (hd : 0 < den) :
    divNearestEven num (den * 2 ^ shiftFor (num / den)) ≤ 2 ^ 53 ∧
      (shiftFor (num / den) = 0 ∨ 2 ^ 52 ≤ divNearestEven num (den * 2 ^ shiftFor (num / den))) := by
  refine ⟨?_, ?_⟩
  all_goals
    set sh := shiftFor (num / den) with hsh
    have hD : 0 < den * 2 ^ sh := by positivity
    obtain ⟨h1, h2⟩ := divNearestEven_half num hD
    generalize divNearestEven num (den * 2 ^ sh) = a at *
  · have hn : num < den * 2 ^ (53 + sh) := by
      have ht : num / den < 2 ^ (53 + sh) := by
        by_cases h0 : sh = 0
        · have := shiftFor_zero_bound (hsh ▸ h0); simpa [h0] using this
        · have := (shiftFor_pos_bounds (hsh ▸ h0)).2; rwa [← hsh] at this
      rw [Nat.mul_comm]; exact (Nat.div_lt_iff_lt_mul hd).1 ht
    have e : den * 2 ^ (53 + sh) = 2 ^ 53 * (den * 2 ^ sh) := by rw [pow_add]; ring
    rw [e] at hn
    by_contra hc
    have : (2 ^ 53 + 1) * (den * 2 ^ sh) ≤ a * (den * 2 ^ sh) := Nat.mul_le_mul_right _ (by omega)
    rw [Nat.add_mul, Nat.one_mul] at this
    omega
  · by_cases h0 : sh = 0
    · exact .inl h0
    · right
      have hb := (shiftFor_pos_bounds (hsh ▸ h0)).1
      rw [← hsh] at hb
      have hnum : 2 ^ (52 + sh) * den ≤ num :=
        le_trans (Nat.mul_le_mul_right _ hb) (Nat.div_mul_le_self _ _)
      have e : 2 ^ (52 + sh) * den = 2 ^ 52 * (den * 2 ^ sh) := by rw [pow_add]; ring
      rw [e] at hnum
      by_contra hc
      have : (a + 1) * (den * 2 ^ sh) ≤ 2 ^ 52 * (den * 2 ^ sh) := Nat.mul_le_mul_right _ (by omega)
      rw [Nat.add_mul, Nat.one_mul] at this
      omega

/-- The rounded units have at most 53 significant bits, or are a power of two one binade up. -/
theorem roundedUnits_form (num : Nat) {den : Nat} (hd : 0 < den) :
    ∃ a sh, roundedUnits num den = a * 2 ^ sh ∧ a ≤ 2 ^ 53 ∧ (sh = 0 ∨ 2 ^ 52 ≤ a) :=
  ⟨_, _, rfl, roundedDigits_bounds num hd⟩

theorem log2_mul_pow {a : Nat} (ha : a ≠ 0) (k : Nat) : (a * 2 ^ k).log2 = a.log2 + k := by
  rw [Nat.log2_eq_iff (by positivity)]
  constructor
  · rw [pow_add]; exact Nat.mul_le_mul_right _ (Nat.log2_self_le ha)
  · have : a < 2 ^ (a.log2 + 1) := Nat.lt_log2_self
    have e : 2 ^ (a.log2 + k + 1) = 2 ^ (a.log2 + 1) * 2 ^ k := by rw [← pow_add]; congr 1; omega
    rw [e]; exact Nat.mul_lt_mul_of_pos_right this (by positivity)

/-- A number of units that fits is encoded without a change. -/
theorem ofUnits_of_fits (s : Bool) {n : Nat} (h : Fits n) : (ofUnits s n).isFinite = true ∧ (ofUnits s n).units = n := by
  obtain ⟨m, k, rfl, hm, hk, hk'⟩ := h
  by_cases hs : m * 2 ^ k < 2 ^ 52
  · simp only [ofUnits, hs, if_true, isFinite, units, true_and]
    simp [Fin.ofNat]; omega
  · have h52 : 2 ^ 52 ≤ m := by
      rcases hk with rfl | h
      · simpa using hs
      · exact h
    have hm0 : m ≠ 0 := by omega
    have hl : m.log2 = 52 := (Nat.log2_eq_iff hm0).2 ⟨h52, hm⟩
    have hlog : (m * 2 ^ k).log2 = 52 + k := by rw [log2_mul_pow hm0, hl]
    have hdiv : m * 2 ^ k / 2 ^ (52 + k - 52) = m := by
      rw [Nat.add_sub_cancel_left]; exact Nat.mul_div_cancel _ (by positivity)
    have hnot : ¬ 2098 ≤ 52 + k := by omega
    simp only [ofUnits, hs, if_false, hlog, hnot, hdiv, isFinite, units, true_and]
    have he : (52 + k - 51) % 2047 = k + 1 := by omega
    have hf : m % 4503599627370496 = m - 4503599627370496 := by omega
    simp only [Fin.ofNat, he, hf]
    have : 4503599627370496 + (m - 4503599627370496) = m := by omega
    simp [this]

theorem ofUnits_isNeg (s : Bool) (n : Nat) : (ofUnits s n).isNeg = s := by
  simp only [ofUnits]; split
  · rfl
  · split <;> rfl

/-- The rounded units fit, unless they reach `2^1024` and the result is an infinity. -/
theorem round_cases (s : Bool) (num : Nat) {den : Nat} (hd : 0 < den) :
    (round s num den = .inf s ∧ 2 ^ 2098 ≤ roundedUnits num den) ∨ Fits (roundedUnits num den) := by
  obtain ⟨a, sh, he, ha, hsh⟩ := roundedUnits_form num hd
  rw [round_eq, he]
  by_cases hbig : 2 ^ 2098 ≤ a * 2 ^ sh
  · left
    refine ⟨?_, hbig⟩
    have h0 : a * 2 ^ sh ≠ 0 := by
      intro h; rw [h] at hbig; exact absurd hbig (not_le.2 (Nat.two_pow_pos 2098))
    have hl : 2098 ≤ (a * 2 ^ sh).log2 := (Nat.le_log2 h0).2 hbig
    have h52 : ¬ a * 2 ^ sh < 2 ^ 52 := by
      have : (2 : Nat) ^ 52 ≤ 2 ^ 2098 := Nat.pow_le_pow_right (by decide) (by decide)
      omega
    simp only [ofUnits, h52, if_false, hl, if_true]
  · right
    push Not at hbig
    rcases Nat.lt_or_ge a (2 ^ 53) with h | h
    · refine ⟨a, sh, rfl, h, hsh, ?_⟩
      rcases hsh with rfl | h52
      · omega
      · by_contra hc
        have h1 : 2 ^ (52 + sh) ≤ a * 2 ^ sh := by rw [pow_add]; exact Nat.mul_le_mul_right _ h52
        have h2 : (2 : Nat) ^ 2098 ≤ 2 ^ (52 + sh) := Nat.pow_le_pow_right (by decide) (by omega)
        omega
    · have ha' : a = 2 ^ 53 := by omega
      subst ha'
      refine ⟨2 ^ 52, sh + 1, by rw [pow_succ]; ring, by decide, .inr le_rfl, ?_⟩
      by_contra hc
      have h2 : (2 : Nat) ^ 2098 ≤ 2 ^ (53 + sh) := Nat.pow_le_pow_right (by decide) (by omega)
      rw [pow_add] at h2
      omega

/-- A rounded value that is finite holds the rounded units. -/
theorem round_units (s : Bool) (num : Nat) {den : Nat} (hd : 0 < den) (h : (round s num den).isFinite = true) :
    (round s num den).units = roundedUnits num den := by
  rcases round_cases s num hd with ⟨e, -⟩ | hf
  · rw [e] at h; simp [isFinite] at h
  · rw [round_eq]; exact (ofUnits_of_fits s hf).2

theorem round_isNeg (s : Bool) (num den : Nat) : (round s num den).isNeg = s := by
  rw [round_eq]; exact ofUnits_isNeg _ _

/-- Rounding is to nearest (rule R11): no binary64 magnitude is nearer to the exact quotient than a finite result. -/
theorem round_nearest (s : Bool) (num : Nat) {den : Nat} (hd : 0 < den) (h : (round s num den).isFinite = true)
    (y : F64) :
    |(((round s num den).units * den : Nat) : Int) - num| ≤ |((y.units * den : Nat) : Int) - num| := by
  rw [round_units s num hd h]; exact roundedUnits_nearest num hd (units_fits y)

/-- A quotient that is a whole number of units that fits is not changed. -/
theorem round_exact (s : Bool) {n : Nat} (h : Fits n) {den : Nat} (hd : 0 < den) :
    (round s (n * den) den).isFinite = true ∧ (round s (n * den) den).units = n := by
  have near := roundedUnits_nearest (n * den) hd h
  simp only [sub_self, abs_zero, abs_nonpos_iff] at near
  have e : roundedUnits (n * den) den = n := by
    have : roundedUnits (n * den) den * den = n * den := by omega
    exact Nat.eq_of_mul_eq_mul_right hd this
  rw [round_eq, e]
  exact ofUnits_of_fits s h

/-! ### Ties and overflow -/

/-- A dividend halfway between two multiples of the divisor is rounded to an even quotient. -/
theorem divNearestEven_tie {num den : Nat} (hd : 0 < den)
    (h : 2 * (divNearestEven num den * den) = 2 * num + den ∨ 2 * (divNearestEven num den * den) + den = 2 * num) :
    divNearestEven num den % 2 = 0 := by
  have h1 := Nat.div_add_mod num den
  have hr := Nat.mod_lt num hd
  have e1 : num / den * den = den * (num / den) := Nat.mul_comm _ _
  have e2 : (num / den + 1) * den = den * (num / den) + den := by ring
  simp only [divNearestEven] at *
  split at h
  · rw [e2] at h; omega
  · split at h
    · rename_i h2 h3; rw [if_neg h2, if_pos h3]; omega
    · rename_i h2 h3; rw [if_neg h2, if_neg h3]; rw [e1] at h; omega

/-- When another whole number of units that fits is equally near, the rounded one is even in its last place. -/
theorem roundedUnits_even (num : Nat) {den : Nat} (hd : 0 < den) {n : Nat} (hn : Fits n) (hne : n ≠ roundedUnits num den)
    (ht : |((n * den : Nat) : Int) - num| = |((roundedUnits num den * den : Nat) : Int) - num|) :
    divNearestEven num (den * 2 ^ shiftFor (num / den)) % 2 = 0 := by
  obtain ⟨m, k, rfl, hm, hk, -⟩ := hn
  unfold roundedUnits at hne ht
  set sh := shiftFor (num / den) with hsh
  have hD : 0 < den * 2 ^ sh := by positivity
  obtain ⟨b1, b2⟩ := divNearestEven_half num hD
  have near := divNearestEven_nearest num hD
  have tie := divNearestEven_tie (num := num) hD
  generalize divNearestEven num (den * 2 ^ sh) = a at *
  have ea : a * 2 ^ sh * den = a * (den * 2 ^ sh) := by ring
  rw [ea] at ht
  generalize hDD : den * 2 ^ sh = D at *
  by_contra hodd
  have s1 : 2 * (a * D) ≠ 2 * num + D := fun h => hodd (tie (.inl h))
  have s2 : 2 * (a * D) + D ≠ 2 * num := fun h => hodd (tie (.inr h))
  by_cases hks : sh ≤ k
  · have e : m * 2 ^ k * den = m * 2 ^ (k - sh) * D := by
      rw [← hDD, ← Nat.sub_add_cancel hks, pow_add, Nat.sub_add_cancel hks]; ring
    have e0 : m * 2 ^ k = m * 2 ^ (k - sh) * 2 ^ sh := by
      rw [mul_assoc, ← pow_add, Nat.sub_add_cancel hks]
    rw [e] at ht
    rw [e0] at hne
    generalize m * 2 ^ (k - sh) = b at *
    have hab : b ≠ a := fun h => hne (by rw [h])
    rcases Nat.lt_or_gt_of_ne hab with h | h
    · have : b * D + D ≤ a * D := by nlinarith
      rcases abs_cases (((a * D : Nat) : Int) - num) with ⟨h, _⟩ | ⟨h, _⟩ <;>
        rcases abs_cases (((b * D : Nat) : Int) - num) with ⟨h2, _⟩ | ⟨h2, _⟩ <;> rw [h, h2] at ht <;> omega
    · have : a * D + D ≤ b * D := by nlinarith
      rcases abs_cases (((a * D : Nat) : Int) - num) with ⟨h, _⟩ | ⟨h, _⟩ <;>
        rcases abs_cases (((b * D : Nat) : Int) - num) with ⟨h2, _⟩ | ⟨h2, _⟩ <;> rw [h, h2] at ht <;> omega
  · have h0 : sh ≠ 0 := by omega
    have hb := (shiftFor_pos_bounds (hsh ▸ h0)).1
    rw [← hsh] at hb
    have hnum : 2 ^ (52 + sh) * den ≤ num :=
      le_trans (Nat.mul_le_mul_right _ hb) (Nat.div_mul_le_self _ _)
    have hlt : m * 2 ^ k < 2 ^ (52 + sh) := by
      have : m * 2 ^ k < 2 ^ 53 * 2 ^ k := Nat.mul_lt_mul_of_pos_right hm (by positivity)
      rw [← pow_add] at this
      exact this.trans_le (Nat.pow_le_pow_right (by decide) (by omega))
    have hmul : m * 2 ^ k * den < 2 ^ (52 + sh) * den := Nat.mul_lt_mul_of_pos_right hlt hd
    have := near (2 ^ 52)
    have e : 2 ^ 52 * D = 2 ^ (52 + sh) * den := by rw [← hDD, pow_add]; ring
    rw [e, ← ht] at this
    rw [abs_of_nonpos (by omega), abs_of_nonpos (by omega)] at this
    omega

/-- A finite result that is even in its last place has last bit 0. -/
theorem round_lastBit (s : Bool) (num : Nat) {den : Nat} (hd : 0 < den) (h : (round s num den).isFinite = true)
    (he : divNearestEven num (den * 2 ^ shiftFor (num / den)) % 2 = 0) : (round s num den).lastBitZero = true := by
  obtain ⟨h1, h2⟩ := roundedDigits_bounds num hd
  rw [round_eq] at h ⊢
  unfold roundedUnits at h ⊢
  generalize divNearestEven num (den * 2 ^ shiftFor (num / den)) = a at *
  generalize shiftFor (num / den) = sh at *
  simp only [ofUnits] at h ⊢
  by_cases hs : a * 2 ^ sh < 2 ^ 52
  · rw [if_pos hs]
    have : sh = 0 := by
      rcases h2 with h2 | h2
      · exact h2
      · have : a ≤ a * 2 ^ sh := Nat.le_mul_of_pos_right _ (by positivity)
        omega
    subst this
    simp only [lastBitZero, Fin.ofNat, pow_zero, mul_one, beq_iff_eq]
    omega
  · rw [if_neg hs] at h ⊢
    by_cases hl : 2098 ≤ (a * 2 ^ sh).log2
    · rw [if_pos hl] at h; simp [isFinite] at h
    · rw [if_neg hl]
      simp only [lastBitZero, Fin.ofNat, beq_iff_eq]
      have h52 : 2 ^ 52 ≤ a := by
        rcases h2 with rfl | h2
        · simpa using hs
        · exact h2
      have ha0 : a ≠ 0 := by omega
      have hdiv : a * 2 ^ sh / 2 ^ ((a * 2 ^ sh).log2 - 52) % 2 = 0 := by
        rw [log2_mul_pow ha0]
        rcases Nat.lt_or_ge a (2 ^ 53) with h | h
        · have : a.log2 = 52 := (Nat.log2_eq_iff ha0).2 ⟨h52, h⟩
          rw [this, Nat.add_sub_cancel_left, Nat.mul_div_cancel _ (by positivity)]
          exact he
        · have ha' : a = 2 ^ 53 := by omega
          have : a.log2 = 53 := by rw [ha']; exact Nat.log2_two_pow
          have e : 2 ^ 53 * 2 ^ sh = 2 ^ 52 * 2 ^ (sh + 1) := by rw [pow_succ]; ring
          rw [this, ha', show 53 + sh - 52 = sh + 1 by omega, e, Nat.mul_div_cancel _ (by positivity)]
          norm_num
      omega

theorem two_pow_2098 : (2 : Nat) ^ 2098 = 2 ^ 54 * 2 ^ 2044 := by
  have : 2098 = 54 + 2044 := rfl
  rw [this, pow_add]

theorem two_pow_below {k : Nat} (h : k < 2098) : 2 ^ k ≤ 2 ^ 53 * 2 ^ 2044 := by
  rw [← pow_add]; exact Nat.pow_le_pow_right (by decide) (by omega)

theorem two_pow_beyond {k : Nat} (h : 2098 ≤ k) : 2 ^ 54 * 2 ^ 2044 ≤ 2 ^ k := by
  rw [← two_pow_2098]; exact Nat.pow_le_pow_right (by decide) h

theorem two_pow_last {k : Nat} (h : k = 2045) : 2 ^ k = 2 * 2 ^ 2044 := by
  subst h; exact pow_succ' 2 2044

/-- The result is finite exactly when the rounded units lie below `2^1024`. -/
theorem round_finite_units (s : Bool) (num : Nat) {den : Nat} (hd : 0 < den) :
    (round s num den).isFinite = true ↔ roundedUnits num den < 2 ^ 54 * 2 ^ 2044 := by
  rcases round_cases s num hd with ⟨e, h⟩ | h
  · rw [two_pow_2098] at h
    rw [e]; simp only [isFinite, Bool.false_eq_true, false_iff]; exact not_lt.2 h
  · rw [round_eq]
    refine iff_of_true (ofUnits_of_fits s h).1 ?_
    obtain ⟨m, k, e, hm, -, hk⟩ := h
    have h1 : m * 2 ^ k < 2 ^ (53 + k) := by
      rw [pow_add]; exact Nat.mul_lt_mul_of_pos_right hm (by positivity)
    rw [e, ← two_pow_2098]
    exact h1.trans_le (Nat.pow_le_pow_right (by decide) (by omega))

/-- In the last binade: the quotient stays below an even bound exactly when the dividend stays below half a step under
it. -/
theorem last_place {bound a step num half : Nat} (hb : bound % 2 = 0) (hs : 0 < step) (ha : a ≤ bound)
    (b1 : 2 * (a * step) ≤ 2 * num + step) (b2 : 2 * num ≤ 2 * (a * step) + step)
    (tie : 2 * (a * step) = 2 * num + step ∨ 2 * (a * step) + step = 2 * num → a % 2 = 0)
    (hh : half * 2 + step = 2 * (bound * step)) : a < bound ↔ num < half := by
  constructor
  · intro h
    have h1 : (a + 1) * step ≤ bound * step := Nat.mul_le_mul_right _ h
    rw [Nat.add_mul, Nat.one_mul] at h1
    by_contra hc
    have h2 : (a + 1) * step = bound * step := by rw [Nat.add_mul, Nat.one_mul]; omega
    have h3 := Nat.eq_of_mul_eq_mul_right hs h2
    have h4 := tie (.inr (by omega))
    omega
  · intro h
    by_contra hc
    obtain rfl : a = bound := by omega
    omega

/-- Rounding overflows exactly from half a last place below `2^1024` on. -/
theorem round_finite_iff (s : Bool) (num : Nat) {den : Nat} (hd : 0 < den) :
    (round s num den).isFinite = true ↔ num < (2 ^ 54 - 1) * 2 ^ 2044 * den := by
  rw [round_finite_units s num hd]
  unfold roundedUnits
  obtain ⟨h1, h2⟩ := roundedDigits_bounds num hd
  have hzero := @shiftFor_zero_bound (num / den)
  have hpos := @shiftFor_pos_bounds (num / den)
  generalize shiftFor (num / den) = sh at *
  have hD : 0 < den * 2 ^ sh := by positivity
  obtain ⟨b1, b2⟩ := divNearestEven_half num hD
  have tie := divNearestEven_tie (num := num) hD
  have hle : num / den * den ≤ num := Nat.div_mul_le_self _ _
  have hlt : num < (num / den + 1) * den := by
    have := Nat.lt_mul_div_succ num hd; rwa [Nat.mul_comm] at this
  have below : sh < 2045 → 2 ^ (53 + sh) ≤ 2 ^ 53 * 2 ^ 2044 := fun h => two_pow_below (by omega)
  have beyond : 2045 < sh → 2 ^ 54 * 2 ^ 2044 ≤ 2 ^ (52 + sh) := fun h => two_pow_beyond (by omega)
  have last : sh = 2045 → 2 ^ sh = 2 * 2 ^ 2044 := two_pow_last
  generalize divNearestEven num (den * 2 ^ sh) = a at *
  have hP : 0 < 2 ^ 2044 := Nat.two_pow_pos 2044
  generalize 2 ^ 2044 = P at *
  rcases Nat.lt_trichotomy sh 2045 with hs | hs | hs
  · refine iff_of_true ?_ ?_
    · have h3 : a * 2 ^ sh ≤ 2 ^ (53 + sh) := by rw [pow_add]; exact Nat.mul_le_mul_right _ h1
      have := below hs
      omega
    · have ht : num / den < 2 ^ (53 + sh) := by
        by_cases h0 : sh = 0
        · have := hzero h0; subst h0; simpa using this
        · exact (hpos h0).2
      have h3 : num / den + 1 ≤ (2 ^ 54 - 1) * P := by
        have := below hs
        omega
      exact hlt.trans_le (Nat.mul_le_mul_right _ h3)
  · have e0 := last hs
    rw [e0]
    have e1 : a * (2 * P) < 2 ^ 54 * P ↔ a < 2 ^ 53 := by
      constructor
      · intro h; by_contra hc
        have := Nat.mul_le_mul_right (2 * P) (not_lt.1 hc)
        omega
      · intro h
        have : a * (2 * P) + 2 * P ≤ 2 ^ 53 * (2 * P) := by
          rw [← Nat.succ_mul]; exact Nat.mul_le_mul_right _ h
        omega
    rw [e1]
    have e2 : (2 ^ 54 - 1) * P * den * 2 + den * (2 * P) = 2 * (2 ^ 53 * (den * (2 * P))) := by ring
    rw [← e0] at e2
    exact last_place (by norm_num) hD h1 b1 b2 tie e2
  · have h0 : sh ≠ 0 := by omega
    refine iff_of_false (not_lt.2 ?_) (not_lt.2 ?_)
    · have ha : 2 ^ 52 ≤ a := h2.resolve_left h0
      have h3 : 2 ^ (52 + sh) ≤ a * 2 ^ sh := by rw [pow_add]; exact Nat.mul_le_mul_right _ ha
      exact (beyond hs).trans h3
    · have h3 := (beyond hs).trans (hpos h0).1
      have h4 : (2 ^ 54 - 1) * P ≤ num / den := by omega
      exact (Nat.mul_le_mul_right _ h4).trans hle

/-! ### The operations on finite values -/

theorem add_fin (s t : Bool) (e d) (f g) : add (.fin s e f) (.fin t d g) =
    roundInt ((F64.fin s e f).toInt + (F64.fin t d g).toInt) 1 (s && t) := rfl

theorem mul_fin (s t : Bool) (e d) (f g) : mul (.fin s e f) (.fin t d g) =
    round (s ^^ t) ((F64.fin s e f).units * (F64.fin t d g).units) (2 ^ 1074) := rfl

theorem div_fin (s t : Bool) (e d) (f g) (h : (F64.fin t d g).isZero = false) : div (.fin s e f) (.fin t d g) =
    round (s ^^ t) ((F64.fin s e f).units * 2 ^ 1074) (F64.fin t d g).units := by
  have hn : ¬ (F64.fin t d g).isZero = true := by rw [h]; decide
  unfold div
  exact if_neg hn

theorem fma_fin (s t u : Bool) (e d x) (f g y) : fma (.fin s e f) (.fin t d g) (.fin u x y) =
    roundInt ((F64.fin s e f).toInt * (F64.fin t d g).toInt + (F64.fin u x y).toInt * 2 ^ 1074) (2 ^ 1074)
      ((s ^^ t) && u) := rfl

/-- Only a zero has no units. -/
theorem units_eq_zero_iff (s : Bool) (e) (f) : (F64.fin s e f).units = 0 ↔ (F64.fin s e f).isZero = true := by
  simp only [units, isZero, Bool.and_eq_true, beq_iff_eq]
  split
  · exact ⟨fun h => ⟨‹_›, h⟩, fun h => h.2⟩
  · refine iff_of_false (Nat.ne_of_gt (by positivity)) (fun h => ‹¬ _› h.1)

/-- Two finite values with the same sign and the same units are the same value. -/
theorem fin_ext (s t : Bool) (e d) (f g) (hs : s = t) (hu : (F64.fin s e f).units = (F64.fin t d g).units) :
    F64.fin s e f = .fin t d g := by
  subst hs
  have hf := f.isLt
  have hg := g.isLt
  have key : e.val = d.val ∧ f.val = g.val := by
    simp only [units] at hu
    by_cases he : e.val = 0 <;> by_cases hd : d.val = 0
    · rw [if_pos he, if_pos hd] at hu; omega
    · rw [if_pos he, if_neg hd] at hu
      have := Nat.le_mul_of_pos_right (4503599627370496 + g.val) (Nat.two_pow_pos (d.val - 1))
      omega
    · rw [if_neg he, if_pos hd] at hu
      have := Nat.le_mul_of_pos_right (4503599627370496 + f.val) (Nat.two_pow_pos (e.val - 1))
      omega
    · rw [if_neg he, if_neg hd] at hu
      have log : ∀ x k : Nat, x < 4503599627370496 → ((4503599627370496 + x) * 2 ^ k).log2 = 52 + k := fun x k hx => by
        have h1 : (4503599627370496 + x).log2 = 52 :=
          (Nat.log2_eq_iff (by omega)).2 ⟨by norm_num, by norm_num; omega⟩
        rw [log2_mul_pow (by omega), h1]
      have l1 := log f.val (e.val - 1) hf
      have l2 := log g.val (d.val - 1) hg
      rw [hu, l2] at l1
      have h1 : e.val - 1 = d.val - 1 := by omega
      rw [h1] at hu
      have := Nat.eq_of_mul_eq_mul_right (Nat.two_pow_pos _) hu
      omega
  rw [Fin.ext key.1, Fin.ext key.2]

end F64
end Sys2Proof
end

