-- ==== Sys2Proof/Machine/ElementaryWitness.lean ====
section
/-! DEFINITION. The type of the functions `SIN64`, `COS64`, `LOG10_64` with law (d) of rule R15, and one value of it: it shows that such functions exist and is never used by the machine, whose functions are an opaque choice. -/

namespace Sys2Proof

/-- Functions that meet law (d) of rule R15: for finite operands each result lies within one unit in the last place
of the exact real value. (Laws (a) to (c) are built into Machine/Elementary.lean.) -/
structure ElementaryFunctions where
  sin : F64 → F64
  cos : F64 → F64
  log10 : F64 → F64
  sin_faithful : ∀ a : F64, a.isFinite = true → (sin a).Faithful (Real.sin a.toReal)
  cos_faithful : ∀ a : F64, a.isFinite = true → (cos a).Faithful (Real.cos a.toReal)
  log10_faithful : ∀ a : F64, a.isFinite = true → 0 < a.toReal → (log10 a).Faithful (Real.logb 10 a.toReal)

namespace ElementaryWitness

/-- The binary64 value nearest to a rational number. -/
def ofRat (q : ℚ) : F64 := F64.round (decide (q < 0)) (q.num.natAbs * 2 ^ 1074) q.den

/-- A finite value as a rational number. -/
def toRat (a : F64) : ℚ := (a.toInt : ℚ) / 2 ^ 1074

theorem toRat_cast (a : F64) : ((toRat a : ℚ) : ℝ) = a.toReal := by
  simp [toRat, F64.toReal]

theorem natAbs_toInt (a : F64) : a.toInt.natAbs = a.units := by
  cases a with
  | nan => rfl
  | inf s => rfl
  | fin s e f => simp only [F64.toInt]; split <;> simp

theorem toInt_eq (a : F64) : a.toInt = if a.isNeg then -(a.units : Int) else a.units := by
  cases a with
  | nan => rfl
  | inf s => cases s <;> rfl
  | fin s e f => rfl

/-- A binary64 magnitude within half a unit in the last place of a real number below `2^1023`. -/
theorem exists_near (x : ℝ) (hx : |x| < 2 ^ 1023) :
    ∃ n : Nat, F64.Fits n ∧ |(n : ℝ) - |x| * 2 ^ 1074| ≤ F64.ulp x * 2 ^ 1074 / 2 := by
  by_cases h0 : x = 0
  · refine ⟨0, ⟨0, 0, by simp⟩, ?_⟩
    simp [h0, F64.ulp]
  have hpos : 0 < |x| := abs_pos.2 h0
  set l := Int.log 2 |x| with hl
  have h1 : (2 : ℝ) ^ l ≤ |x| := by simpa using Int.zpow_log_le_self (b := 2) (by decide) hpos
  have h2 : |x| < (2 : ℝ) ^ (l + 1) := by simpa using Int.lt_zpow_succ_log_self (b := 2) (by decide) |x|
  have hl1023 : l < 1023 := by
    by_contra hc
    have : (2 : ℝ) ^ (1023 : ℤ) ≤ 2 ^ l := zpow_le_zpow_right₀ (by norm_num) (by omega)
    have e : (2 : ℝ) ^ (1023 : ℤ) = 2 ^ (1023 : ℕ) := zpow_natCast 2 1023
    rw [e] at this
    linarith
  -- the shift of the last place, in units
  set sh : Nat := (max l (-1022) + 1022).toNat with hsh
  have hshZ : ((sh : Nat) : ℤ) = max l (-1022) + 1022 := by rw [hsh]; exact Int.toNat_of_nonneg (by omega)
  have hulp : F64.ulp x * 2 ^ 1074 = (2 : ℝ) ^ sh := by
    have e : (2 : ℝ) ^ 1074 = 2 ^ (1074 : ℤ) := (zpow_natCast 2 1074).symm
    rw [F64.ulp, if_neg h0, e, ← zpow_add₀ (by norm_num), ← zpow_natCast, hshZ]
    congr 1; omega
  set X := |x| * 2 ^ 1074 with hX
  have hX0 : 0 ≤ X := by positivity
  have hXup : X < 2 ^ (53 + sh) := by
    have : |x| < 2 ^ (max l (-1022) + 1) := h2.trans_le (zpow_le_zpow_right₀ (by norm_num) (by omega))
    have e1 : (2 : ℝ) ^ (53 + sh) = 2 ^ (max l (-1022) + 1) * 2 ^ 1074 := by
      rw [← zpow_natCast, ← zpow_natCast (2 : ℝ) 1074, ← zpow_add₀ (by norm_num)]
      congr 1; push_cast; omega
    rw [e1]; exact mul_lt_mul_of_pos_right this (by positivity)
  have hXlow : sh = 0 ∨ (2 : ℝ) ^ (52 + sh) ≤ X := by
    by_cases hm : l ≤ -1022
    · left; omega
    · right
      have e1 : (2 : ℝ) ^ (52 + sh) = 2 ^ l * 2 ^ 1074 := by
        rw [← zpow_natCast, ← zpow_natCast (2 : ℝ) 1074, ← zpow_add₀ (by norm_num)]
        congr 1; push_cast; omega
      rw [e1]; exact mul_le_mul_of_nonneg_right h1 (by positivity)
  set a : Nat := ⌊X / 2 ^ sh + 1 / 2⌋₊ with ha
  have hq0 : 0 ≤ X / 2 ^ sh + 1 / 2 := by positivity
  have ha1 : (a : ℝ) ≤ X / 2 ^ sh + 1 / 2 := Nat.floor_le hq0
  have ha2 : X / 2 ^ sh + 1 / 2 < a + 1 := Nat.lt_floor_add_one _
  have hp : (0 : ℝ) < 2 ^ sh := by positivity
  have hXq : X = X / 2 ^ sh * 2 ^ sh := by field_simp
  have haup : a ≤ 2 ^ 53 := by
    have : X / 2 ^ sh < 2 ^ 53 := by rw [div_lt_iff₀ hp, ← pow_add]; exact hXup
    have h3 : (a : ℝ) < 2 ^ 53 + 1 := by linarith
    have h4 : a < 2 ^ 53 + 1 := by exact_mod_cast h3
    omega
  have halow : sh = 0 ∨ 2 ^ 52 ≤ a := by
    rcases hXlow with h | h
    · exact .inl h
    · right
      have : (2 : ℝ) ^ 52 ≤ X / 2 ^ sh := by rw [le_div_iff₀ hp, ← pow_add]; exact h
      have h3 : (2 : ℝ) ^ 52 < a + 1 := by linarith
      have h4 : 2 ^ 52 < a + 1 := by exact_mod_cast h3
      omega
  have hsh2045 : sh ≤ 2044 := by omega
  refine ⟨a * 2 ^ sh, ?_, ?_⟩
  · rcases Nat.lt_or_ge a (2 ^ 53) with h | h
    · exact ⟨a, sh, rfl, h, halow, by omega⟩
    · have : a = 2 ^ 53 := by omega
      exact ⟨2 ^ 52, sh + 1, by rw [this, pow_succ, pow_succ]; ring, by norm_num, .inr le_rfl, by omega⟩
  · rw [hulp]
    push_cast
    have e : (a : ℝ) * 2 ^ sh - X = ((a : ℝ) - X / 2 ^ sh) * 2 ^ sh := by rw [sub_mul, ← hXq]
    rw [e, abs_mul, abs_of_pos hp]
    have : |(a : ℝ) - X / 2 ^ sh| ≤ 1 / 2 := by rw [abs_le]; constructor <;> linarith
    nlinarith

theorem ulp_ge (x : ℝ) : (2 : ℝ) ^ (-1074 : ℤ) ≤ F64.ulp x := by
  unfold F64.ulp; split
  · exact le_rfl
  · exact zpow_le_zpow_right₀ (by norm_num) (by omega)

theorem toReal_eq (a : F64) : a.toReal = (if a.isNeg then -(a.units : ℝ) else a.units) / 2 ^ 1074 := by
  rw [F64.toReal, toInt_eq]; split <;> simp

/-- The nearest binary64 value of a close enough rational approximation is faithful. -/
theorem ofRat_faithful (x : ℝ) (hx : |x| < 2 ^ 1000) (q : ℚ) (hq : |(q : ℝ) - x| ≤ 2 ^ (-1076 : ℤ)) :
    (ofRat q).Faithful x := by
  have hx' : |x| < 2 ^ 1023 := hx.trans (pow_lt_pow_right₀ (by norm_num) (by norm_num))
  obtain ⟨n, hn, hnear⟩ := exists_near x hx'
  have hden : 0 < q.den := q.den_pos
  have hdenR : (0 : ℝ) < q.den := by exact_mod_cast hden
  set num := q.num.natAbs * 2 ^ 1074 with hnum
  have hP : (0 : ℝ) < 2 ^ 1074 := by positivity
  have eP : (2 : ℝ) ^ (-1074 : ℤ) * 2 ^ 1074 = 1 := by
    rw [← zpow_natCast (2 : ℝ) 1074, ← zpow_add₀ (by norm_num)]; norm_num
  have eP' : (2 : ℝ) ^ (-1076 : ℤ) * 2 ^ 1074 = 1 / 4 := by
    rw [← zpow_natCast (2 : ℝ) 1074, ← zpow_add₀ (by norm_num)]; norm_num
  -- the exact quotient is |q| in units
  have hQ : (num : ℝ) / q.den = |(q : ℝ)| * 2 ^ 1074 := by
    have e : |(q : ℝ)| = (q.num.natAbs : ℝ) / q.den := by
      rw [Rat.cast_def, abs_div, abs_of_pos hdenR, Nat.cast_natAbs, Int.cast_abs]
    rw [e, hnum]; push_cast; ring
  set Q := |(q : ℝ)| * 2 ^ 1074 with hQdef
  set X := |x| * 2 ^ 1074 with hXdef
  have hXQ : |X - Q| ≤ 1 / 4 := by
    rw [hXdef, hQdef, ← sub_mul, abs_mul, abs_of_pos hP, ← eP']
    refine mul_le_mul_of_nonneg_right ?_ hP.le
    rw [abs_sub_comm]; exact (abs_abs_sub_abs_le _ _).trans hq
  have nearR : ∀ m : Nat, F64.Fits m → |(F64.roundedUnits num q.den : ℝ) - Q| ≤ |(m : ℝ) - Q| := by
    intro m hm
    have h := F64.roundedUnits_nearest num hden hm
    have hc : |((F64.roundedUnits num q.den * q.den : ℝ)) - num| ≤ |(m * q.den : ℝ) - num| := by exact_mod_cast h
    have e : ∀ y : ℝ, |y - Q| = |y * q.den - num| / q.den := by
      intro y
      have e0 : y - Q = (y * q.den - num) / q.den := by
        rw [sub_div, mul_div_cancel_right₀ _ hdenR.ne', hQ]
      rw [e0, abs_div, abs_of_pos hdenR]
    rw [e, e]; exact div_le_div_of_nonneg_right hc hdenR.le
  -- the result is finite
  have hQ0 : 0 ≤ Q := by positivity
  have hfin : (F64.round (decide (q < 0)) num q.den).isFinite = true := by
    rcases F64.round_cases (decide (q < 0)) num hden with ⟨-, hbig⟩ | hf
    · exfalso
      have h0 := nearR 0 ⟨0, 0, by simp⟩
      have hR : (F64.roundedUnits num q.den : ℝ) ≤ 2 * Q := by
        have := (abs_le.1 h0).2
        simp only [Nat.cast_zero, zero_sub, abs_neg, abs_of_nonneg hQ0] at this
        linarith
      have hbig' : (2 : ℝ) ^ 2098 ≤ F64.roundedUnits num q.den := by exact_mod_cast hbig
      have hXb : X < 2 ^ 2074 := by
        have e : (2 : ℝ) ^ 2074 = 2 ^ 1000 * 2 ^ 1074 :=
          (by norm_num : 1000 + 1074 = 2074) ▸ pow_add (2 : ℝ) 1000 1074
        rw [e]; exact mul_lt_mul_of_pos_right hx hP
      have h1 := (abs_le.1 hXQ).1
      have e2 : (2 : ℝ) ^ 2098 = 2 ^ 2074 * 2 ^ 24 :=
        (by norm_num : 2074 + 24 = 2098) ▸ pow_add (2 : ℝ) 2074 24
      have e3 : (1 : ℝ) ≤ 2 ^ 2074 := one_le_pow₀ (by norm_num)
      rw [e2] at hbig'
      generalize (2 : ℝ) ^ 2074 = B at *
      norm_num at hbig'
      linarith only [hbig', hR, h1, hXb, e3]
    · rw [F64.round_eq]; exact (F64.ofUnits_of_fits _ hf).1
  refine ⟨hfin, ?_⟩
  have hq2 : |(ofRat q).toReal - q| ≤ |(n : ℝ) - Q| / 2 ^ 1074 := by
    have hu : (ofRat q).units = F64.roundedUnits num q.den := F64.round_units _ _ hden hfin
    have hs : (ofRat q).isNeg = decide (q < 0) := F64.round_isNeg _ _ _
    rw [toReal_eq, hu, hs]
    have key : |(F64.roundedUnits num q.den : ℝ) / 2 ^ 1074 - abs (q : ℝ)| ≤ |(n : ℝ) - Q| / 2 ^ 1074 := by
      have e : (F64.roundedUnits num q.den : ℝ) / 2 ^ 1074 - |(q : ℝ)|
          = ((F64.roundedUnits num q.den : ℝ) - Q) / 2 ^ 1074 := by
        rw [hQdef, sub_div, mul_div_assoc, div_self hP.ne', mul_one]
      rw [e, abs_div, abs_of_pos hP]
      exact div_le_div_of_nonneg_right (nearR n hn) hP.le
    by_cases hneg : q < 0
    · have hneg' : (q : ℝ) < 0 := by exact_mod_cast hneg
      rw [abs_of_neg hneg'] at key
      simp only [hneg, decide_true, if_true, neg_div]
      rw [← abs_neg] at key
      convert key using 2; ring
    · have hneg' : 0 ≤ (q : ℝ) := by exact_mod_cast not_lt.1 hneg
      rw [abs_of_nonneg hneg'] at key
      simpa [hneg] using key
  have hnQ : |(n : ℝ) - Q| ≤ F64.ulp x * 2 ^ 1074 / 2 + 1 / 4 := by
    calc |(n : ℝ) - Q| = |((n : ℝ) - X) + (X - Q)| := by ring_nf
      _ ≤ |(n : ℝ) - X| + |X - Q| := abs_add_le _ _
      _ ≤ _ := add_le_add hnear hXQ
  have hfinal : |(ofRat q).toReal - x| ≤ |(ofRat q).toReal - q| + |(q : ℝ) - x| := abs_sub_le _ _ _
  have hU := ulp_ge x
  have h3 : |(n : ℝ) - Q| / 2 ^ 1074 ≤ F64.ulp x / 2 + 2 ^ (-1076 : ℤ) := by
    rw [div_le_iff₀ hP, add_mul, eP']; linarith
  have e4 : (2 : ℝ) ^ (-1076 : ℤ) = 2 ^ (-1074 : ℤ) / 4 := by
    have := eP'; have := eP
    have h : (2 : ℝ) ^ (-1076 : ℤ) = 2 ^ (-1074 : ℤ) * 2 ^ (-2 : ℤ) := by rw [← zpow_add₀ (by norm_num)]; norm_num
    rw [h]; norm_num; ring
  rw [e4] at hq h3
  have hUp : (0 : ℝ) < 2 ^ (-1074 : ℤ) := by positivity
  generalize (2 : ℝ) ^ (-1074 : ℤ) = u at *
  linarith

/-! ### Sine and cosine by partial sums of the exponential series -/

/-- The real part of `i^m`. -/
def rePow (m : Nat) : ℚ := if m % 4 = 0 then 1 else if m % 4 = 2 then -1 else 0

/-- The imaginary part of `i^m`. -/
def imPow (m : Nat) : ℚ := if m % 4 = 1 then 1 else if m % 4 = 3 then -1 else 0

theorem I_pow (m : Nat) : Complex.I ^ m = ((rePow m : ℚ) : ℝ) + ((imPow m : ℚ) : ℝ) * Complex.I := by
  rw [Complex.I_pow_eq_pow_mod]
  have : m % 4 < 4 := Nat.mod_lt _ (by decide)
  unfold rePow imPow
  interval_cases h : m % 4 <;> simp [pow_succ]

/-- The first `n` terms of the exponential series at `i·q`: the real parts, weighted by `w`. -/
def partialSum (w : Nat → ℚ) (q : ℚ) (n : Nat) : ℚ := ∑ m ∈ Finset.range n, w m * (q ^ m / m.factorial)

/-- `n` terms are enough for an error below `2^-1076`. -/
def enough (q : ℚ) (n : Nat) : Bool := decide (|q| / (n + 1) ≤ 1 / 2 ∧ |q| ^ n / n.factorial * 2 ≤ 1 / 2 ^ 1076)

theorem exists_enough (q : ℚ) : ∃ n, enough q n = true := by
  have h1 := FloorSemiring.tendsto_pow_div_factorial_atTop (K := ℝ) |(q : ℝ)|
  have h2 : Filter.Tendsto (fun n : ℕ => |(q : ℝ)| * (1 / ((n : ℝ) + 1))) Filter.atTop (nhds 0) := by
    simpa using (tendsto_one_div_add_atTop_nhds_zero_nat (𝕜 := ℝ)).const_mul |(q : ℝ)|
  have e1 := h1.eventually_le_const (u := 1 / 2 ^ 1076 / 2) (by positivity)
  have e2 := h2.eventually_le_const (u := 1 / 2) (by norm_num)
  obtain ⟨n, a, b⟩ := (e1.and e2).exists
  refine ⟨n, ?_⟩
  simp only [enough, decide_eq_true_eq]
  constructor
  · have : ((|q| / (n + 1) : ℚ) : ℝ) ≤ ((1 / 2 : ℚ) : ℝ) := by
      push_cast; rw [mul_one_div] at b; exact b
    exact_mod_cast this
  · have : ((|q| ^ n / n.factorial * 2 : ℚ) : ℝ) ≤ ((1 / 2 ^ 1076 : ℚ) : ℝ) := by push_cast; linarith
    exact_mod_cast this

/-- The number of terms used. -/
def terms (q : ℚ) : Nat := Nat.find (exists_enough q)

theorem exp_error (q : ℚ) :
    ‖Complex.exp (((q : ℝ) : ℂ) * Complex.I)
      - (((partialSum rePow q (terms q) : ℚ) : ℝ) + ((partialSum imPow q (terms q) : ℚ) : ℝ) * Complex.I)‖
      ≤ 2 ^ (-1076 : ℤ) := by
  have hs := Nat.find_spec (exists_enough q)
  change enough q (terms q) = true at hs
  simp only [enough, decide_eq_true_eq] at hs
  generalize terms q = n at *
  obtain ⟨h1, h2⟩ := hs
  have hnorm : ‖((q : ℝ) : ℂ) * Complex.I‖ = |(q : ℝ)| := by simp
  have h1' : ‖((q : ℝ) : ℂ) * Complex.I‖ / (n.succ : ℝ) ≤ 1 / 2 := by
    rw [hnorm]
    have : ((|q| / (n + 1) : ℚ) : ℝ) ≤ ((1 / 2 : ℚ) : ℝ) := by exact_mod_cast h1
    push_cast at this ⊢; exact this
  have hb := Complex.exp_bound' h1'
  rw [hnorm] at hb
  have hsum : ∑ m ∈ Finset.range n, (((q : ℝ) : ℂ) * Complex.I) ^ m / (m.factorial : ℂ)
      = ((partialSum rePow q n : ℚ) : ℝ) + ((partialSum imPow q n : ℚ) : ℝ) * Complex.I := by
    simp only [partialSum]
    push_cast
    rw [Finset.sum_mul, ← Finset.sum_add_distrib]
    refine Finset.sum_congr rfl fun m _ => ?_
    rw [mul_pow, I_pow]; push_cast; ring
  rw [hsum] at hb
  refine hb.trans ?_
  have : ((|q| ^ n / n.factorial * 2 : ℚ) : ℝ) ≤ ((1 / 2 ^ 1076 : ℚ) : ℝ) := by exact_mod_cast h2
  push_cast at this
  have e : (2 : ℝ) ^ (-1076 : ℤ) = 1 / 2 ^ 1076 := by rw [zpow_neg, one_div]; norm_cast
  rw [e]; exact this

theorem cos_error (q : ℚ) : |((partialSum rePow q (terms q) : ℚ) : ℝ) - Real.cos q| ≤ 2 ^ (-1076 : ℤ) := by
  have h := (Complex.abs_re_le_norm _).trans (exp_error q)
  rw [Complex.sub_re, Complex.exp_ofReal_mul_I_re, abs_sub_comm] at h
  simpa using h

theorem sin_error (q : ℚ) : |((partialSum imPow q (terms q) : ℚ) : ℝ) - Real.sin q| ≤ 2 ^ (-1076 : ℤ) := by
  have h := (Complex.abs_im_le_norm _).trans (exp_error q)
  rw [Complex.sub_im, Complex.exp_ofReal_mul_I_im, abs_sub_comm] at h
  simpa using h

/-! ### The logarithm by counting digits of a high power -/

/-- `⌊2^k · log10 q⌋ / 2^k`: the number of decimal digits of `q^(2^k)`. -/
def logApprox (k : Nat) (q : ℚ) : ℚ := (Int.log 10 (q ^ (2 ^ k)) : ℚ) / 2 ^ k

theorem log_error (k : Nat) {q : ℚ} (hq : 0 < q) :
    |((logApprox k q : ℚ) : ℝ) - Real.logb 10 q| ≤ 1 / 2 ^ k := by
  have hp : 0 < q ^ (2 ^ k) := by positivity
  have h1 := Int.zpow_log_le_self (b := 10) (by decide) hp
  have h2 := Int.lt_zpow_succ_log_self (b := 10) (by decide) (q ^ (2 ^ k))
  set l := Int.log 10 (q ^ (2 ^ k)) with hl
  have hqR : (0 : ℝ) < q := by exact_mod_cast hq
  have h1' : (10 : ℝ) ^ l ≤ (q : ℝ) ^ (2 ^ k) := by have := Rat.cast_le (K := ℝ) |>.2 h1; push_cast at this; exact this
  have h2' : (q : ℝ) ^ (2 ^ k) < (10 : ℝ) ^ (l + 1) := by
    have := Rat.cast_lt (K := ℝ) |>.2 h2; push_cast at this; exact this
  have g1 : (l : ℝ) ≤ (2 ^ k : ℕ) * Real.logb 10 q := by
    rw [← Real.logb_pow, Real.le_logb_iff_rpow_le (by norm_num) (by positivity), Real.rpow_intCast]; exact h1'
  have g2 : ((2 ^ k : ℕ) : ℝ) * Real.logb 10 q < l + 1 := by
    rw [← Real.logb_pow, Real.logb_lt_iff_lt_rpow (by norm_num) (by positivity)]
    have : ((l : ℝ) + 1) = ((l + 1 : ℤ) : ℝ) := by push_cast; ring
    rw [this, Real.rpow_intCast]; exact h2'
  have hK : (0 : ℝ) < 2 ^ k := by positivity
  push_cast at g1 g2
  rw [logApprox, ← hl]
  push_cast
  have e : (l : ℝ) / 2 ^ k - Real.logb 10 q = (l - 2 ^ k * Real.logb 10 q) / 2 ^ k := by field_simp
  rw [e, abs_div, abs_of_pos hK]
  refine div_le_div_of_nonneg_right ?_ hK.le
  rw [abs_le]; constructor <;> linarith

theorem units_lt (a : F64) : a.units < 2 ^ 2098 := by
  obtain ⟨m, k, e, hm, -, hk⟩ := F64.units_fits a
  rw [e]
  calc m * 2 ^ k < 2 ^ 53 * 2 ^ k := Nat.mul_lt_mul_of_pos_right hm (by positivity)
    _ = 2 ^ (53 + k) := (pow_add _ _ _).symm
    _ ≤ 2 ^ 2098 := Nat.pow_le_pow_right (by decide) (by omega)

theorem logb_bound (a : F64) (hpos : 0 < a.toReal) : |Real.logb 10 a.toReal| < 2 ^ 1000 := by
  have hP : (0 : ℝ) < 2 ^ 1074 := by positivity
  have hle : (2 : ℝ) ^ 1074 ≤ 10 ^ 1074 := pow_le_pow_left₀ (by norm_num) (by norm_num) _
  have h1 : (1 : ℤ) ≤ a.toInt := by
    have : (0 : ℝ) < a.toInt := by rw [F64.toReal] at hpos; exact (div_pos_iff_of_pos_right hP).1 hpos
    have : (0 : ℤ) < a.toInt := by exact_mod_cast this
    omega
  have h1R : (1 : ℝ) ≤ a.toInt := by exact_mod_cast h1
  have h2R : (a.toInt : ℝ) ≤ 2 ^ 2098 := by
    have h := units_lt a
    have e := natAbs_toInt a
    have : a.toInt ≤ ((2 ^ 2098 : Nat) : ℤ) := by omega
    have : (a.toInt : ℝ) ≤ (((2 ^ 2098 : Nat) : ℤ) : ℝ) := Int.cast_le.2 this
    push_cast at this; exact this
  have hlo : (10 : ℝ) ^ (-1074 : ℤ) ≤ a.toReal := by
    rw [F64.toReal, zpow_neg, ← one_div, le_div_iff₀ hP, div_mul_eq_mul_div, one_mul, div_le_iff₀ (by positivity)]
    have e : (10 : ℝ) ^ (1074 : ℤ) = 10 ^ 1074 := zpow_natCast 10 1074
    rw [e]
    calc (2 : ℝ) ^ 1074 ≤ 10 ^ 1074 := hle
      _ = 1 * 10 ^ 1074 := (one_mul _).symm
      _ ≤ a.toInt * 10 ^ 1074 := mul_le_mul_of_nonneg_right h1R (by positivity)
  have hhi : a.toReal ≤ (10 : ℝ) ^ (1024 : ℤ) := by
    rw [F64.toReal, div_le_iff₀ hP]
    refine h2R.trans ?_
    have e : (10 : ℝ) ^ (1024 : ℤ) = 10 ^ 1024 := zpow_natCast 10 1024
    have e2 : (2 : ℝ) ^ 2098 = 2 ^ 1024 * 2 ^ 1074 := (by norm_num : 1024 + 1074 = 2098) ▸ pow_add (2 : ℝ) 1024 1074
    rw [e, e2]
    exact mul_le_mul_of_nonneg_right (pow_le_pow_left₀ (by norm_num) (by norm_num) _) hP.le
  have g1 : (-1074 : ℝ) ≤ Real.logb 10 a.toReal := by
    rw [Real.le_logb_iff_rpow_le (by norm_num) hpos]
    have : (-1074 : ℝ) = ((-1074 : ℤ) : ℝ) := by push_cast; ring
    rw [this, Real.rpow_intCast]; exact hlo
  have g2 : Real.logb 10 a.toReal ≤ 1024 := by
    rw [Real.logb_le_iff_le_rpow (by norm_num) hpos]
    have : (1024 : ℝ) = ((1024 : ℤ) : ℝ) := by push_cast; ring
    rw [this, Real.rpow_intCast]; exact hhi
  have g3 : (2 : ℝ) ^ 11 ≤ 2 ^ 1000 := pow_le_pow_right₀ (by norm_num) (by norm_num)
  refine lt_of_lt_of_le ?_ g3
  rw [abs_lt]; constructor <;> norm_num <;> linarith

/-- One triple of functions that meets law (d) of rule R15. -/
def functions : ElementaryFunctions where
  sin a := ofRat (partialSum imPow (toRat a) (terms (toRat a)))
  cos a := ofRat (partialSum rePow (toRat a) (terms (toRat a)))
  log10 a := ofRat (logApprox 1076 (toRat a))
  sin_faithful a _ := by
    refine ofRat_faithful _ ?_ _ ?_
    · exact (Real.abs_sin_le_one _).trans_lt (one_lt_pow₀ (by norm_num) (by norm_num))
    · rw [← toRat_cast]; exact sin_error _
  cos_faithful a _ := by
    refine ofRat_faithful _ ?_ _ ?_
    · exact (Real.abs_cos_le_one _).trans_lt (one_lt_pow₀ (by norm_num) (by norm_num))
    · rw [← toRat_cast]; exact cos_error _
  log10_faithful a _ hpos := by
    refine ofRat_faithful _ ?_ _ ?_
    · exact logb_bound a hpos
    · have hq : 0 < toRat a := by
        have := toRat_cast a ▸ hpos; exact_mod_cast this
      have h := log_error 1076 hq
      rw [toRat_cast] at h
      have e : (2 : ℝ) ^ (-1076 : ℤ) = 1 / 2 ^ 1076 := by rw [zpow_neg, one_div]; norm_cast
      rw [e]; exact h

end ElementaryWitness
end Sys2Proof
end

