-- ==== Sys2Proof/Config.lean ====
section
/-! DEFINITION. The parameters of rule R5: what one implementation fixes (the type Config), and the values the spec leaves open (opaque constants, which nothing can evaluate). -/

namespace Sys2Proof

/-- Which reference algorithm fixes the bits of `RFFT` (parameter `FFT_REF`, rule R193). -/
inductive FftRef where
  | direct
  | radix2
  deriving DecidableEq, Repr, Inhabited

/-- Which of the two levels of rule R17 the datapath meets. (DEDUCED, safe, log 2.) -/
inductive Datapath where
  /-- Every computed output word is the reference result (R17 (b)). -/
  | reference
  /-- Every computed output word is a draw: any word a conforming datapath may deliver (R17 (a)). -/
  | tolerant
  deriving DecidableEq, Repr, Inhabited

/-- The parameters of rule R5 that one implementation fixes. They are plain data: a state carries them, and a claim
about every state is a claim about every configuration. (DESIGN CHOICE, safe, log 1.) -/
structure Config where
  /-- `BLOCK_BASE` as a multiple of `0x0200_0000` (rule R72). -/
  blockIndex : Nat
  /-- `DMEM_WORDS - 16`, so that `16 ≤ DMEM_WORDS ≤ 2^21` (rule R5). -/
  dmemExtra : Fin 2097137
  /-- `MAC_FUSED` (rule R14). -/
  macFused : Bool
  /-- `FFT_REF` (rule R193). -/
  fftRef : FftRef
  /-- The level of rule R17. -/
  datapath : Datapath
  /-- `FP_TOL` (rule R17) is `tolNum / (tolDen + 1)`. -/
  tolNum : Nat
  tolDen : Nat
  deriving DecidableEq, Repr, Inhabited

namespace Config

/-- `BLOCK_BASE` (rule R72). -/
def blockBase (c : Config) : Nat := c.blockIndex * 0x02000000

/-- `DMEM_WORDS` (rule R70). -/
def dmemWords (c : Config) : Nat := 16 + c.dmemExtra.val

/-- `FP_TOL` (rule R17). -/
def fpTol (c : Config) : ℚ := (c.tolNum : ℚ) / (c.tolDen + 1)

/-- The configuration of the block at hand: open (rule R5). -/
opaque implementation : Config

end Config

/-- The sign and the fraction less one of a NaN encoding: any of them (rule R13). -/
structure NanBits where
  neg  : Bool
  frac : Fin 4503599627370495
  deriving DecidableEq, Repr, Inhabited

/-- `NAN_OUT` (rules R5, R13): the NaN encoding that the `n`-th delivered word takes when its value is NaN: open.
(Numbering the delivered words is a DESIGN CHOICE, safe, log 4.) -/
opaque Config.nanOut : Nat → NanBits

/-- A computation of the block, with the values it is a function of (rule R175, conflict C9): the coefficients of a design,
a convolution, a spectrum, the magnitudes of a spectrum, an SNR, and a peak search over the bins it reads. `LPF` makes the
first two (rule R177). (DEDUCED, unsafe, log 31.) -/
inductive Operation where
  | taps (cutoff : F64) (count : Nat)
  | conv (sig coefficients : List F64)
  | rfft (sig : List F64)
  | mag (bins : List (F64 × F64))
  | snr (ref test : List F64)
  | peak (derived : Bool) (bins : List (F64 × F64)) (rate : F64) (length : Nat)
  deriving DecidableEq, Repr

/-- The word a tolerant datapath computes at place `n` of an operation, when the state lists none for it (rule R17 (a)): open.
(DEDUCED, safe, log 2.) -/
opaque Config.freeWord : Operation → Nat → Word

/-- A choice of the functions `SIN64`, `COS64`, `LOG10_64`: open, but for law (d) of rule R15. (DEDUCED,
safe, log 5.) -/
opaque Config.elementaryChoice [Inhabited ElementaryFunctions] : ElementaryFunctions

/-- `SIN64`, `COS64`, `LOG10_64` of rule R5 (before laws (b) and (c) of rule R15, see Machine/Elementary.lean). -/
def Config.elementary : ElementaryFunctions := @Config.elementaryChoice ⟨ElementaryWitness.functions⟩

end Sys2Proof
end

