-- ==== Sys2Proof/Syntax.lean ====
section
/-! DEFINITION. The commands of the TRSP DSP core, one constructor per row of spec/opcode_table.json, and the fields of a command word. -/

namespace Sys2Proof

/-- The nine commands (rules R102, R103). A command word carries no operand: all operands are the parameter
registers (rule R104), so no constructor has a field. -/
inductive Instr where
  /-- `nop` (rule R130) -/
  | nop
  /-- `firdes` (rule R152) -/
  | firdes
  /-- `conv.zero` (rule R172): boundary policy zero-padding -/
  | convZero
  /-- `lpf.zero` (rule R176): boundary policy zero-padding -/
  | lpfZero
  /-- `rfft` (rule R195) -/
  | rfft
  /-- `mag` (rule R201) -/
  | mag
  /-- `snr` (rule R221) -/
  | snr
  /-- `peak.orig` (rule R227), the original length taken from `ORIG_LEN` -/
  | peakOrig
  /-- `peak.derive` (rule R227), the original length derived as `2·(A_LEN − 1)` -/
  | peakDerive
  deriving DecidableEq, Repr

/-- The fields of a `CMD32` command word (rule R100), legal or not. -/
structure CommandFields where
  opc  : BitVec 8
  mode : BitVec 8
  rsv  : BitVec 16
  deriving DecidableEq, Repr

/-- The fields of each command's word (rules R102, R103). -/
def Instr.fields : Instr → CommandFields
  | .nop        => ⟨0x00, 0x00, 0⟩
  | .firdes     => ⟨0x01, 0x00, 0⟩
  | .convZero   => ⟨0x02, 0x00, 0⟩
  | .lpfZero    => ⟨0x03, 0x00, 0⟩
  | .rfft       => ⟨0x04, 0x00, 0⟩
  | .mag        => ⟨0x05, 0x00, 0⟩
  | .snr        => ⟨0x06, 0x00, 0⟩
  | .peakOrig   => ⟨0x07, 0x00, 0⟩
  | .peakDerive => ⟨0x07, 0x01, 0⟩

end Sys2Proof
end

