-- ==== Sys2Proof/WellFormed.lean ====
section
/-! DEFINITION. Which command-word fields are legal (rules R103, R105, R106). -/

namespace Sys2Proof

/-- The reserved bits are zero (rule R100: "reserved; must be 0"). -/
def CommandFields.reservedClear (f : CommandFields) : Bool := f.rsv == 0

/-- The opcode is one of `0x00` to `0x07` (rule R102; `0x08` to `0xFF` are reserved). -/
def CommandFields.opcodeDefined (f : CommandFields) : Bool := f.opc.ult 8

/-- The mode is legal for its opcode (rule R103): `0x00`, and for `PEAK` also `0x01`. For `CONV` and `LPF` this
leaves only `BND = 0`; the "reflect" value 1 and the values 2 and 3 are illegal (rule R106). -/
def CommandFields.modeLegal (f : CommandFields) : Bool :=
  f.mode == 0 || (f.opc == 0x07 && f.mode == 0x01)

/-- A command word's fields are legal: none of the three conditions of rule R105 holds. -/
def CommandFields.wellFormed (f : CommandFields) : Bool :=
  f.reservedClear && f.opcodeDefined && f.modeLegal

/-- An instruction is well-formed when the fields of its word are legal. -/
def Instr.wellFormed (i : Instr) : Bool := i.fields.wellFormed

end Sys2Proof
end

