-- ==== Sys2Proof/Decode.lean ====
section
/-! DEFINITION. The decoder of the command word, total on every 32-bit word and rejecting by name (rule R107), and the encoder (rule R108). -/

namespace Sys2Proof

/-- Why a command word is illegal (rule R105, one constructor per condition). -/
inductive Illegal where
  /-- `RSV ≠ 0` -/
  | reservedBits
  /-- `OPC` in `0x08` to `0xFF` -/
  | reservedOpcode
  /-- `MODE` is not a legal value of its `OPC` -/
  | reservedMode
  deriving DecidableEq, Repr

/-- What a command word decodes to. -/
inductive Decoded where
  | command (i : Instr)
  | illegal (why : Illegal)
  deriving DecidableEq, Repr

/-- The fields of a command word (rule R100): `OPC` bits 7:0, `MODE` bits 15:8, `RSV` bits 31:16. -/
def fieldsOf (w : BitVec 32) : CommandFields :=
  ⟨w.extractLsb' 0 8, w.extractLsb' 8 8, w.extractLsb' 16 16⟩

/-- The command word made of its fields (rule R100), `{RSV, MODE, OPC}`. -/
def wordOf (f : CommandFields) : BitVec 32 := f.rsv ++ f.mode ++ f.opc

/-- A command whose mode must be zero. -/
def plainMode (mode : BitVec 8) (i : Instr) : Decoded :=
  if mode = 0x00 then .command i else .illegal .reservedMode

/-- `decode` of rule R107. -/
def decode (w : BitVec 32) : Decoded :=
  let f := fieldsOf w
  if f.rsv ≠ 0 then .illegal .reservedBits
  else if f.opc = 0x00 then plainMode f.mode .nop
  else if f.opc = 0x01 then plainMode f.mode .firdes
  else if f.opc = 0x02 then plainMode f.mode .convZero
  else if f.opc = 0x03 then plainMode f.mode .lpfZero
  else if f.opc = 0x04 then plainMode f.mode .rfft
  else if f.opc = 0x05 then plainMode f.mode .mag
  else if f.opc = 0x06 then plainMode f.mode .snr
  else if f.opc = 0x07 then
    if f.mode = 0x01 then .command .peakDerive else plainMode f.mode .peakOrig
  else .illegal .reservedOpcode

/-- The command word of each command, written from the table of rule R108. -/
def encode : Instr → BitVec 32
  | .nop        => 0x00000000
  | .firdes     => 0x00000001
  | .convZero   => 0x00000002
  | .lpfZero    => 0x00000003
  | .rfft       => 0x00000004
  | .mag        => 0x00000005
  | .snr        => 0x00000006
  | .peakOrig   => 0x00000007
  | .peakDerive => 0x00000107

/-- The instruction a decoded word gives, if it is a command. -/
def Decoded.instr? : Decoded → Option Instr
  | .command i => some i
  | .illegal _ => none

/-- The command word whose low `nbits` bits are `w`'s and whose other bits are zero. -/
def tableWord (nbits w : Nat) : BitVec 32 := BitVec.ofNat 32 (w % 2 ^ nbits)

/-- The instruction the decoder reads from a row of the opcode table. -/
def decodeTableWord (nbits w : Nat) : Option Instr := (decode (tableWord nbits w)).instr?

end Sys2Proof
end

