-- ==== Sys2Proof/Machine/State.lean ====
section
/-! DEFINITION. The state of the TRSP DSP core (rule R30), the reasons a step can stop, and the state after power-on reset (rule R270). -/

namespace Sys2Proof
namespace Machine

/-- DMEM as bytes at host offsets (rules R72, R74), in one canonical form: addresses strictly rising, and only bytes that
hold a specified value. An address that is not listed reads as nothing: its value is unspecified (rules R94, R274).
(DEDUCED, safe, log 9.) -/
abbrev Memory := List Host.Cell

/-- The canonical form of memory. -/
abbrev Memory.wf (m : Memory) : Prop := m.Pairwise (fun a b => a.1 < b.1)

/-- The parameter registers (rules R38, R40 to R45). The registers of 32 bits read as zero in bits 63:32. -/
structure Params where
  /-- `CMD` (R38) -/
  cmd : BitVec 32
  /-- `A_BASE` (R40) -/
  aBase : BitVec 32
  /-- `A_LEN` (R41) -/
  aLen : BitVec 32
  /-- `B_BASE` (R40) -/
  bBase : BitVec 32
  /-- `B_LEN` (R41) -/
  bLen : BitVec 32
  /-- `D_BASE` (R40) -/
  dBase : BitVec 32
  /-- `NTAPS` (R42) -/
  nTaps : BitVec 32
  /-- `CUTOFF` (R43) -/
  cutoff : Word
  /-- `FS` (R44) -/
  fs : Word
  /-- `ORIG_LEN` (R45) -/
  origLen : BitVec 32
  deriving DecidableEq, Repr

/-- The parameter registers after reset (rule R270): all zero. -/
def Params.reset : Params := ⟨0, 0, 0, 0, 0, 0, 0, 0, 0, 0⟩

/-- The engine state (rule R55): `IDLE`, or `RUN` with `cur`, the copy of the parameter registers taken when the start
was accepted. -/
inductive Phase where
  | idle
  | run (cur : Params)
  deriving DecidableEq, Repr

/-- Read, or write of a word. -/
inductive AccessKind where
  | read
  | write (v : Word)
  deriving DecidableEq, Repr

/-- A host access (rule R73): its bus byte address, its width in bytes, and what it does. -/
structure Access where
  addr : Nat
  width : Nat
  kind : AccessKind
  deriving DecidableEq, Repr

/-- What happens next at the block's edge. The list of moves in the state is the outside world, and the latency
`LAT` of rule R285: a command completes at the first engine move after its start, or when nothing else can happen.
(DEDUCED, safe, log 6, 14, 20, 21.) -/
inductive Move where
  /-- The host makes an access (rule R86). -/
  | host (a : Access)
  /-- The engine reaches the completion of the command it runs; nothing happens when it is idle. -/
  | engine
  /-- The reset input is pulsed (rule R270; DESIGN CHOICE, safe, log 15). -/
  | powerOn
  deriving DecidableEq, Repr

/-- The block's answer to a host access. (The model's own: DESIGN CHOICE, safe, log 8.) -/
inductive Reply where
  /-- A read's data. -/
  | data (v : Word)
  /-- A write was taken (whatever it changed). -/
  | done
  /-- A bus error response (rule R73). -/
  | busError
  deriving DecidableEq, Repr

/-- The machine state. -/
structure State where
  /-- The implementation's parameters (R5); `CAPS` reads from them (R33). -/
  cfg : Config
  /-- `CTRL.IE` (R34) -/
  ie : Bool
  /-- `STATUS.DONE` (R36) -/
  done : Bool
  /-- `STATUS.ERRF` (R36) -/
  errf : Bool
  /-- `STATUS.OVR` (R36) -/
  ovr : Bool
  /-- `CMD`, `A_BASE`, …, `ORIG_LEN` (R38, R40 to R45) -/
  params : Params
  /-- `ERR.CODE` (R39) -/
  errCode : BitVec 8
  /-- `ERR.OP` (R39) -/
  errOp : BitVec 8
  /-- `RES0` (R46) -/
  res0 : Word
  /-- `RES1` bits 31:0 (R47) -/
  res1 : BitVec 32
  /-- `D_LEN` bits 31:0 (R48) -/
  dLen : BitVec 32
  /-- The engine (R55); `STATUS.BUSY` reads from it. -/
  phase : Phase
  /-- DMEM (R70) -/
  dmem : Memory
  /-- The model's own: what happens next at the block's edge (R86, R285). -/
  moves : List Move
  /-- The model's own: the answer to the last host access (R73, R75). -/
  reply : Option Reply
  /-- The model's own: how many output words have been delivered; the index of the next NaN encoding (R13). -/
  draws : Nat
  /-- The model's own: the function a tolerant datapath computes, as far as it is listed: operations with the words of
  their results (R17 (a), R175). No step changes it. -/
  drawn : List (Operation × List Word)
  deriving DecidableEq, Repr

/-- Why the machine stops with a fault. -/
inductive Fault where
  /-- A command or a host read needs DMEM word `w`, which nothing has written since power-on or which an abort left
  unspecified. Rules R94 and R274 make this a fault of the model. Safe: hardware goes on with some value. -/
  | unspecifiedWord (w : Nat)
  deriving DecidableEq, Repr

/-- Why a step has no meaning. -/
inductive Refusal where
  /-- An instruction that has no meaning in this model; raised by no arm that gives one. Safe. -/
  | notModelled (mnemonic : String)
  deriving DecidableEq, Repr

/-- The state after power-on reset of a block with configuration `c` (rule R270): every register of rule R32 at its
reset value, the engine idle, every DMEM word unspecified. The four fields of the model's own are at values the log
names (DESIGN CHOICE, log 2, 4, 6, 8). -/
def State.resetWith (c : Config) : State where
  cfg := c
  ie := false
  done := false
  errf := false
  ovr := false
  params := Params.reset
  errCode := 0
  errOp := 0
  res0 := 0
  res1 := 0
  dLen := 0
  phase := .idle
  dmem := []
  moves := []
  reply := none
  draws := 0
  drawn := []

/-- The state after power-on reset of the implementation at hand, whose configuration is open (rule R5). -/
def State.reset : State := State.resetWith Config.implementation

end Machine
end Sys2Proof
end

