-- ==== Sys2Proof/Machine/Flags.lean ====
section
/-! DEFINITION. The flags: the bits of STATUS, and the interrupt output (rules R36, R54, R55, R250). The block has no other flags, and no command sets one for an arithmetic event (rule R54). -/

namespace Sys2Proof
namespace Machine

/-- A bit in place `n` of a word. -/
def bitAt (b : Bool) (n : Nat) : Word := if b then BitVec.ofNat 64 (2 ^ n) else 0

/-- `STATUS.BUSY`: 1 exactly when `phase = RUN` (rule R55). -/
def State.busy (s : State) : Bool :=
  match s.phase with
  | .idle => false
  | .run _ => true

/-- What a read of `STATUS` returns (rule R36): `BUSY`, `DONE`, `ERRF`, `OVR` in bits 0 to 3, reserved bits 0. -/
def State.statusWord (s : State) : Word :=
  bitAt s.busy 0 ||| bitAt s.done 1 ||| bitAt s.errf 2 ||| bitAt s.ovr 3

/-- The output `irq` (rule R250), at every instant. -/
def State.irq (s : State) : Bool := s.ie && s.done

/-- The flags of an accepted start (rule R121); `BUSY` comes with the phase. -/
def State.clearForStart (s : State) : State := { s with done := false, errf := false }

/-- The flag of a refused start or of a discarded parameter write (rules R50, R122). -/
def State.overrun (s : State) : State := { s with ovr := true }

/-- A host write of `v` to `STATUS` (rule R37): a 1 clears `DONE`, `ERRF`, `OVR`; nothing else changes. -/
def State.clearFlags (s : State) (v : Word) : State :=
  { s with
    done := s.done && !v.getLsbD 1
    errf := s.errf && !v.getLsbD 2
    ovr := s.ovr && !v.getLsbD 3 }

end Machine
end Sys2Proof
end

