-- ==== Sys2Proof/Machine/Operands.lean ====
section
/-! DEFINITION. The operands of each command and the checks made on them before anything is read (rules R84, R85, R104, R124, R125, R128). -/

namespace Sys2Proof
namespace Machine

/-- The operands of the command: the copy `cur` taken at the accepted start (rules R55, R121). Outside a command they
are the live registers, of which an accepted start makes the copy. (DESIGN CHOICE, safe, log 16.) -/
def State.operands (s : State) : Params :=
  match s.phase with
  | .idle => s.params
  | .run cur => cur

/-- A buffer: base word address and number of words (rule R84). -/
structure Buffer where
  base : Nat
  words : Nat
  deriving DecidableEq, Repr

/-- `in_range` (rule R84), over unbounded integers. -/
def Buffer.inRange (b : Buffer) (dmemWords : Nat) : Bool := decide (b.base + b.words ≤ dmemWords) || b.words == 0

/-- `overlap` (rule R85). -/
def Buffer.overlap (a b : Buffer) : Bool :=
  decide (0 < a.words) && decide (0 < b.words) && decide (a.base < b.base + b.words) && decide (b.base < a.base + a.words)

/-- `(A_BASE, A_LEN)`, a signal (rule R81). -/
def Params.signalA (p : Params) : Buffer := ⟨p.aBase.toNat, p.aLen.toNat⟩

/-- `(A_BASE, 2·A_LEN)`, a spectrum (rule R82). -/
def Params.spectrumA (p : Params) : Buffer := ⟨p.aBase.toNat, 2 * p.aLen.toNat⟩

/-- `(B_BASE, B_LEN)`, coefficients or a test signal (rules R81, R83). -/
def Params.bufferB (p : Params) : Buffer := ⟨p.bBase.toNat, p.bLen.toNat⟩

/-- `(B_BASE, NTAPS)`, where `LPF` writes its coefficients. -/
def Params.tapsB (p : Params) : Buffer := ⟨p.bBase.toNat, p.nTaps.toNat⟩

/-- `(D_BASE, n)`. -/
def Params.destD (p : Params) (n : Nat) : Buffer := ⟨p.dBase.toNat, n⟩

/-- The number of words of a half spectrum of `n` samples: `2·(floor(n/2)+1)` (rules R48, R82, R195). -/
def spectrumWords (n : Nat) : Nat := 2 * (n / 2 + 1)

/-- The source buffers of each command, in order (rule R128). -/
def sources (i : Instr) (p : Params) : List Buffer :=
  match i with
  | .nop => []
  | .firdes => []
  | .convZero => [p.signalA, p.bufferB]
  | .lpfZero => [p.signalA]
  | .rfft => [p.signalA]
  | .mag => [p.spectrumA]
  | .snr => [p.signalA, p.bufferB]
  | .peakOrig => [p.spectrumA]
  | .peakDerive => [p.spectrumA]

/-- The destination buffers of each command, in order (rule R128). -/
def destinations (i : Instr) (p : Params) : List Buffer :=
  match i with
  | .nop => []
  | .firdes => [p.destD p.nTaps.toNat]
  | .convZero => [p.destD p.aLen.toNat]
  | .lpfZero => [p.tapsB, p.destD p.aLen.toNat]
  | .rfft => [p.destD (spectrumWords p.aLen.toNat)]
  | .mag => [p.destD p.aLen.toNat]
  | .snr => []
  | .peakOrig => []
  | .peakDerive => []

end Machine
end Sys2Proof
end

