-- ==== Sys2Proof/Machine/Checks.lean ====
section
/-! DEFINITION. The boundary checks of each command, by class and in the fixed order (rules R124, R125, R240, R241, R243). They read registers only. -/

namespace Sys2Proof
namespace Machine

/-- The error codes (rule R240); 0 stands for success and is no error. -/
inductive ErrorCode where
  | invalidParameter
  | lengthMismatch
  | degenerateInput
  | illegalCommand
  | range
  | aliased
  deriving DecidableEq, Repr

/-- `ERR.CODE` of each error (rule R240). -/
def ErrorCode.code : ErrorCode → BitVec 8
  | .invalidParameter => 1
  | .lengthMismatch => 2
  | .degenerateInput => 3
  | .illegalCommand => 4
  | .range => 5
  | .aliased => 6

/-- `c` when the condition holds. -/
def failIf (cond : Bool) (c : ErrorCode) : Option ErrorCode := if cond then some c else none

/-- The tap count and cutoff checks of `FIRDES` and `LPF` (rules R150, R176): `numTaps ≥ 1`, then the cutoff in
`(0, 0.5]`; a NaN cutoff fails. -/
def designInvalid (p : Params) : Option ErrorCode :=
  let fc := F64.ofWord p.cutoff
  (failIf (p.nTaps.toNat < 1) .invalidParameter).or
    (failIf (!(F64.lt F64.zero fc && F64.le fc F64.half)) .invalidParameter)

/-- The sample-rate check of `PEAK` (rule R226): positive and finite. -/
def rateInvalid (p : Params) : Option ErrorCode :=
  let fs := F64.ofWord p.fs
  failIf (!(fs.isFinite && F64.lt F64.zero fs)) .invalidParameter

/-- `INVALID_PARAMETER` checks, in the order each rule lists them (rules R150, R172, R176, R226). -/
def invalidCheck (i : Instr) (p : Params) : Option ErrorCode :=
  match i with
  | .nop => none
  | .firdes => designInvalid p
  | .convZero => failIf (p.bLen.toNat < 1) .invalidParameter
  | .lpfZero => designInvalid p
  | .rfft => none
  | .mag => none
  | .snr => none
  | .peakOrig => (rateInvalid p).or (failIf (p.origLen.toNat == 0) .invalidParameter)
  | .peakDerive => rateInvalid p

/-- `LENGTH_MISMATCH` checks (rules R220, R226). -/
def lengthCheck (i : Instr) (p : Params) : Option ErrorCode :=
  match i with
  | .nop => none
  | .firdes => none
  | .convZero => none
  | .lpfZero => none
  | .rfft => none
  | .mag => none
  | .snr => failIf (p.aLen.toNat != p.bLen.toNat) .lengthMismatch
  | .peakOrig => failIf (p.origLen.toNat / 2 + 1 != p.aLen.toNat) .lengthMismatch
  | .peakDerive => none

/-- `DEGENERATE_INPUT` checks of an empty input (rules R172, R176, R190, R200, R220, R226). -/
def degenerateCheck (i : Instr) (p : Params) : Option ErrorCode :=
  match i with
  | .nop => none
  | .firdes => none
  | .convZero => failIf (p.aLen.toNat == 0) .degenerateInput
  | .lpfZero => failIf (p.aLen.toNat == 0) .degenerateInput
  | .rfft => failIf (p.aLen.toNat == 0) .degenerateInput
  | .mag => failIf (p.aLen.toNat == 0) .degenerateInput
  | .snr => failIf (p.aLen.toNat == 0) .degenerateInput
  | .peakOrig => failIf (p.aLen.toNat < 2) .degenerateInput
  | .peakDerive => failIf (p.aLen.toNat < 2) .degenerateInput

/-- The `RANGE` check over the buffers of the command's row: sources, then destinations (rules R124, R128). -/
def rangeCheck (dmemWords : Nat) (i : Instr) (p : Params) : Option ErrorCode :=
  failIf ((sources i p ++ destinations i p).any fun b => !b.inRange dmemWords) .range

/-- Whether some pair of rule R125 overlaps: each destination against every source and every later destination. -/
def overlapsAny (srcs : List Buffer) : List Buffer → Bool
  | [] => false
  | d :: ds => (srcs ++ ds).any d.overlap || overlapsAny srcs ds

/-- The `ALIAS` check (rule R125). -/
def aliasCheck (i : Instr) (p : Params) : Option ErrorCode :=
  failIf (overlapsAny (sources i p) (destinations i p)) .aliased

/-- Checks 2 to 6 of rule R124, in order: the first that fails. (Check 1, `ILLEGAL_COMMAND`, is the decoder's; check 7
is made by the design, rule R151.) -/
def boundaryCheck (dmemWords : Nat) (i : Instr) (p : Params) : Option ErrorCode :=
  (invalidCheck i p).or ((lengthCheck i p).or ((degenerateCheck i p).or ((rangeCheck dmemWords i p).or (aliasCheck i p))))

end Machine
end Sys2Proof
end

