-- ==== Sys2Proof/Machine/Elementary.lean ====
section
/-! DEFINITION. SIN64, COS64 and LOG10_64 with laws (a) to (c) of rule R15 built in; law (d) comes with the opaque choice they are made from. -/

namespace Sys2Proof
namespace F64

/-- `SIN64` (rule R15): odd, `+0.0` at `+0.0`, NaN at an infinity or NaN. -/
def sin64 (a : F64) : F64 :=
  if !a.isFinite then .nan
  else if a.isZero then a
  else if a.isNeg then neg (Config.elementary.sin (neg a))
  else Config.elementary.sin a

/-- `COS64` (rule R15): even, `1.0` at a zero, NaN at an infinity or NaN. -/
def cos64 (a : F64) : F64 :=
  if !a.isFinite then .nan
  else if a.isZero then one
  else Config.elementary.cos (abs a)

/-- `LOG10_64` (rule R15): `−inf` at `+0.0`, `+0.0` at `1.0`, `+inf` at `+inf`, NaN at a negative number or NaN. The
rule says nothing of `−0.0`: the value there is open (DEDUCED, safe, log 5). -/
def log10 (a : F64) : F64 :=
  match a with
  | .nan => .nan
  | .inf s => if s then .nan else .inf false
  | .fin s e f =>
    if (F64.fin s e f).isZero then
      if s then Config.elementary.log10 (.fin s e f) else .inf true
    else if s then .nan
    else if F64.fin s e f = one then zero
    else Config.elementary.log10 (.fin s e f)

end F64
end Sys2Proof
end

