-- ==== Sys2Proof/Machine/Memory.lean ====
section
/-! DEFINITION. The operations on DMEM: bytes at host offsets, and 64-bit words made of eight of them, little-endian (rules R70, R74 to R77). -/

namespace Sys2Proof
namespace Machine

/-- The byte at address `a`; nothing when its value is unspecified (rules R94, R274). -/
def Memory.read : Memory → Nat → Option Byte
  | [], _ => none
  | (k, v) :: m, a => if k = a then some v else Memory.read m a

/-- Store the byte `v` at address `a`, keeping the addresses in order. -/
def Memory.write : Memory → Nat → Byte → Memory
  | [], a, v => [(a, v)]
  | (k, u) :: m, a, v =>
    if a < k then (a, v) :: (k, u) :: m
    else if a = k then (a, v) :: m
    else (k, u) :: Memory.write m a v

/-- Make the byte at address `a` unspecified. -/
def Memory.erase (m : Memory) (a : Nat) : Memory := m.filter (fun c => c.1 != a)

/-- `n` bytes from address `a`, as a number, the byte at the lowest address least significant (rule R74). -/
def Memory.readBytes (m : Memory) (a : Nat) : Nat → Option Nat
  | 0 => some 0
  | n + 1 =>
    match Memory.read m a, Memory.readBytes m (a + 1) n with
    | some b, some r => some (b.toNat + 256 * r)
    | _, _ => none

/-- Store the low `n` bytes of the number `v` from address `a`, the least significant at the lowest address (rule R74). -/
def Memory.writeBytes (m : Memory) (a : Nat) : Nat → Nat → Memory
  | 0, _ => m
  | n + 1, v => Memory.writeBytes (Memory.write m a (BitVec.ofNat 8 v)) (a + 1) n (v / 256)

/-- Make `n` bytes from address `a` unspecified. -/
def Memory.eraseBytes (m : Memory) (a : Nat) : Nat → Memory
  | 0 => m
  | n + 1 => Memory.eraseBytes (Memory.erase m a) (a + 1) n

/-- The host offset of the DMEM window (rule R72). -/
def dmemWindow : Nat := 0x01000000

/-- The host offset of byte 0 of DMEM word `w` (rules R72, R74). -/
def wordAddr (w : Nat) : Nat := dmemWindow + 8 * w

/-- `MemRead(w, 8)` (rules R75, R76): the word at DMEM word address `w`, when all of it is specified. -/
def Memory.readWord (m : Memory) (w : Nat) : Option Word :=
  (Memory.readBytes m (wordAddr w) 8).map (BitVec.ofNat 64)

/-- `MemWrite(w, 8, v)` (rules R75, R77). -/
def Memory.writeWord (m : Memory) (w : Nat) (v : Word) : Memory :=
  Memory.writeBytes m (wordAddr w) 8 v.toNat

/-- Make DMEM word `w` unspecified (rule R274). -/
def Memory.forgetWord (m : Memory) (w : Nat) : Memory := Memory.eraseBytes m (wordAddr w) 8

/-- The `n` words from word address `w`, or the first one whose value is unspecified. -/
def Memory.readWords (m : Memory) (w : Nat) : Nat → Except Nat (List Word)
  | 0 => .ok []
  | n + 1 =>
    match Memory.readWord m w with
    | none => .error w
    | some v =>
      match Memory.readWords m (w + 1) n with
      | .ok vs => .ok (v :: vs)
      | .error e => .error e

/-- Store words from word address `w` on. -/
def Memory.writeWords (m : Memory) (w : Nat) : List Word → Memory
  | [] => m
  | v :: vs => Memory.writeWords (Memory.writeWord m w v) (w + 1) vs

/-- Make `n` words from word address `w` on unspecified. -/
def Memory.forgetWords (m : Memory) (w : Nat) : Nat → Memory
  | 0 => m
  | n + 1 => Memory.forgetWords (Memory.forgetWord m w) (w + 1) n

end Machine
end Sys2Proof
end

