-- ==== Sys2Proof/Machine/Ops.lean ====
section
/-! DEFINITION. The operations the commands share: reading buffers, delivering output words, completing with success (rule R126) and ending with an error (rule R246). -/

namespace Sys2Proof
namespace Machine

/-- The outcome of a step of this machine. -/
abbrev Result := Host.Outcome State Fault Refusal

/-! ### Completion -/

/-- `ERR.OP`: the `OPC` field `cur.CMD[7:0]` (rules R39, R242). -/
def State.opcode (s : State) : BitVec 8 := s.operands.cmd.extractLsb' 0 8

/-- Completion with success, `count` words written at `D_BASE` (rules R48, R126). -/
def complete (count : Nat) (s : State) : State :=
  { s with
    dLen := BitVec.ofNat 32 count
    errOp := s.opcode
    errCode := 0
    done := true
    phase := .idle }

/-- `raise Error(CODE)` (rule R246): the one way a command ends with an error, the block's "trap entry". It records
`{OP, CODE}` in `ERR`, clears `D_LEN`, sets `DONE` and `ERRF` and leaves the engine idle; nothing else changes. -/
def raiseError (c : ErrorCode) (s : State) : State :=
  { s with
    errOp := s.opcode
    errCode := c.code
    dLen := 0
    done := true
    errf := true
    phase := .idle }

/-- The host's acknowledgement of a completion (rules R37, R110 `ack`, R247): the block's only "return". -/
def acknowledge (s : State) : State := s.clearFlags 0xE

/-! ### Reading operands -/

/-- The rest `k` of a command on the binary64 values of a buffer, or the model's fault when one of its words is
unspecified (rules R81, R94). (DEDUCED, safe, log 26.) -/
def withBuffer (s : State) (b : Buffer) (k : List F64 → Result) : Result :=
  match Memory.readWords s.dmem b.base b.words with
  | .ok ws => k (ws.map F64.ofWord)
  | .error w => .fault (.unspecifiedWord w)

/-- Checks 2 to 6 of rule R124 before the rest `k` of command `i`. -/
def guarded (i : Instr) (s : State) (k : Params → Result) : Result :=
  match boundaryCheck s.cfg.dmemWords i s.operands with
  | some c => .next (raiseError c s)
  | none => k s.operands

/-! ### Output words -/

/-- The encoding of a NaN with given sign and fraction: exponent all ones, fraction not zero (rule R13). -/
def nanWord (b : NanBits) : Word :=
  BitVec.ofNat 64 ((if b.neg then 2 ^ 63 else 0) + 2047 * 2 ^ 52 + (b.frac.val + 1))

/-- `W(f)` (rule R9) for the `n`-th delivered word: a NaN takes the open encoding `NAN_OUT` (rule R13). (DESIGN
CHOICE, safe, log 4.) -/
def encodeF64 (n : Nat) (a : F64) : Word :=
  if a.isNaN then nanWord (Config.nanOut n) else a.bits

/-- The word a tolerant datapath computes at place `j` of the operation `op` (rule R17 (a); DEDUCED, safe, log 2): a function
of the operation and the values it works on, the same whenever they are the same (rule R175; DEDUCED, unsafe, log 31). -/
def State.drawnWord (s : State) (op : Operation) (j : Nat) : Word :=
  ((s.drawn.find? fun e => decide (e.1 = op)).bind (·.2[j]?)).getD (Config.freeWord op j)

/-- The value computed at place `j` of the operation `op`, whose reference result is `a` (rule R17). -/
def State.computed (s : State) (op : Operation) (j : Nat) (a : F64) : F64 :=
  match s.cfg.datapath with
  | .reference => a
  | .tolerant => F64.ofWord (s.drawnWord op j)

/-- The output word for place `j` of the operation `op`, the `j`-th word delivered from now, whose reference result is `a`
(rules R13, R17). -/
def State.outputWord (s : State) (op : Operation) (j : Nat) (a : F64) : Word :=
  encodeF64 (s.draws + j) (s.computed op j a)

/-- The output words of the operation `op`, from place `j` on, for the reference results `vs` (rule R17). -/
def State.outputWords (s : State) (op : Operation) (j : Nat) : List F64 → List Word
  | [] => []
  | a :: vs => s.outputWord op j a :: s.outputWords op (j + 1) vs

/-- `n` output words have been delivered. -/
def State.delivered (n : Nat) (s : State) : State := { s with draws := s.draws + n }

/-- Store words in DMEM from word address `w` on (rule R77). -/
def storeWords (w : Nat) (ws : List Word) (s : State) : State :=
  { s with dmem := Memory.writeWords s.dmem w ws }

/-- The result words of the operation `op`, with reference results `vs`, stored at `D_BASE` and the command completed with
success (rules R126, R127). -/
def completeWith (p : Params) (op : Operation) (vs : List F64) (s : State) : State :=
  complete vs.length (State.delivered vs.length (storeWords p.dBase.toNat (s.outputWords op 0 vs) s))

end Machine
end Sys2Proof
end

