-- ==== Sys2Proof/Machine/Control.lean ====
section
/-! DEFINITION. NOP (rule R130). -/

namespace Sys2Proof
namespace Machine

/-- `nop` (rule R130): no checks, no DMEM access; completes with success, `D_LEN = 0`. -/
def execNop (s : State) : Result := .next (complete 0 s)

end Machine
end Sys2Proof
end

