-- ==== Sys2Proof/Machine/FilterDesign.lean ====
section
/-! DEFINITION. The FIR coefficient generator: the design function and FIRDES (rules R150 to R153, R155, R156). -/

namespace Sys2Proof
namespace Machine

open F64 (mul add sub div sin64 cos64)

/-- The last index of the lower half, `floor((n − 1) / 2)` (rule R151). -/
def lowerHalf (n : Nat) : Nat := (n - 1) / 2

/-- The sinc factor `hs` of rule R151 at index `i`, with `sinc(0) = 1`. For a very small `fc` rule R158 (c) says that it
rounds to `1.0`; the laws of rule R15 allow a `SIN64` for which it does not, and the laws are followed (DEDUCED, safe,
log 32). -/
def sincFactor (fc : F64) (n i : Nat) : F64 :=
  let c := div (F64.ofNat (n - 1)) F64.two
  let d := sub (F64.ofNat i) c
  let t := mul (mul F64.two fc) d
  if F64.eq t F64.zero then F64.one
  else
    let a := mul F64.pi64 t
    div (sin64 a) a

/-- The Hamming window `w` of rule R151 at index `i`. -/
def hamming (n i : Nat) : F64 :=
  sub F64.c054
    (mul F64.c046 (cos64 (div (mul (mul F64.two F64.pi64) (F64.ofNat i)) (F64.ofNat (n - 1)))))

/-- `g[i]` of rule R151 for `i` in the lower half. -/
def unnormalized (fc : F64) (n i : Nat) : F64 := mul (sincFactor fc n i) (hamming n i)

/-- The `n` values whose lower half is `xs`, mirrored: value `i` is value `n − 1 − i` (rules R151, R155). -/
def mirror {α : Type} (n : Nat) (xs : List α) (dflt : α) : List α :=
  (List.range n).map fun i => xs.getD (min i (n - 1 - i)) dflt

/-- `g` of rule R151, all `n` values. -/
def prototypeTaps (fc : F64) (n : Nat) : List F64 :=
  mirror n ((List.range (lowerHalf n + 1)).map (unnormalized fc n)) F64.zero

/-- The sum `S` of rule R151, in ascending order from `+0.0` (rule R18). -/
def dcGain (g : List F64) : F64 := g.foldl add F64.zero

/-- `design(fc, n)` of rule R151: the reference coefficients, or nothing when the sum is not a positive finite number
(rule R156). One tap is the exact `1.0` (rule R153). -/
def design (fc : F64) (n : Nat) : Option (List F64) :=
  if n = 1 then some [F64.one]
  else
    let g := prototypeTaps fc n
    let total := dcGain g
    if total.isFinite && F64.lt F64.zero total then some (g.map fun x => div x total) else none

/-- How many words of a design are delivered by the datapath: the lower half, but for the exact single tap. -/
def tapDraws (n : Nat) : Nat := if n = 1 then 0 else lowerHalf n + 1

/-- The `n` coefficient words of a design, the lower half delivered and mirrored bit for bit (rules R17, R155); the
single tap is exact (rules R18, R153). Nothing when the design fails, by the reference sum (DEDUCED, unsafe on a tolerant
datapath, log 19). -/
def State.tapWords (s : State) (fc : F64) (n : Nat) : Option (List Word) :=
  match design fc n with
  | none => none
  | some taps =>
    if n = 1 then some [F64.one.bits]
    else some (mirror n (s.outputWords (.taps fc n) 0 (taps.take (lowerHalf n + 1))) 0)

/-- `firdes` (rule R152): the coefficients at `D_BASE`; `D_LEN = NTAPS`. -/
def execFirdes (s : State) : Result :=
  guarded .firdes s fun p =>
    let n := p.nTaps.toNat
    match s.tapWords (F64.ofWord p.cutoff) n with
    | none => .next (raiseError .degenerateInput s)
    | some ws => .next (complete n (State.delivered (tapDraws n) (storeWords p.dBase.toNat ws s)))

end Machine
end Sys2Proof
end

