-- ==== Sys2Proof/Machine/Convolution.lean ====
section
/-! DEFINITION. The convolution engine: CONV and LPF (rules R170 to R172, R176). -/

namespace Sys2Proof
namespace Machine

/-- The zero-padded sample `xz(j)` (rule R170). -/
def paddedSample (sig : List F64) (j : Int) : F64 :=
  if 0 ≤ j ∧ j < sig.length then sig.getD j.toNat F64.zero else F64.zero

/-- The integer center `cI = floor((M − 1) / 2)` (rule R171). For even `M` the window that rule's derived sentence names is
not the one of this center; the center is followed (DEDUCED, safe, log 30). -/
def center (m : Nat) : Nat := (m - 1) / 2

/-- Output `i` of `conv` (rule R172): every tap, in ascending order from `+0.0`. For even `M` it weights the samples
`i − M/2` to `i + M/2 − 1` (DEDUCED, safe, log 30). Where rule R174 (c) to (f) write an output shorter, the sum of rules R172
and R14 is followed (DEDUCED, unsafe, log 33): with `MAC_FUSED` one tap gives `−0.0` for a negative product that rounds to
zero, against (e); a sample `−0.0` comes out `+0.0` and an infinite one under a zero tap gives NaN, against (c); two samples
`−0.0` give `+0.0`, against (d); an infinite tap makes NaN only where it meets a zero, against (f). -/
def convAt (fused : Bool) (sig h : List F64) (i : Nat) : F64 :=
  (List.range h.length).foldl
    (fun acc k => F64.mac fused acc (h.getD k F64.zero) (paddedSample sig ((i : Int) - k + center h.length)))
    F64.zero

/-- `conv(sig, h, N, M)` of rule R172. -/
def conv (fused : Bool) (sig h : List F64) : List F64 :=
  (List.range sig.length).map (convAt fused sig h)

/-- `conv.zero` (rule R172). -/
def execConvZero (s : State) : Result :=
  guarded .convZero s fun p =>
    withBuffer s p.signalA fun sig =>
      withBuffer s p.bufferB fun h =>
        .next (completeWith p (.conv sig h) (conv s.cfg.macFused sig h) s)

/-- `lpf.zero` (rule R176): design, then convolve with the coefficients written; the coefficients go to `B_BASE`, the
output to `D_BASE`, and `D_LEN` counts the output only. (DEDUCED, safe, log 25.) -/
def execLpfZero (s : State) : Result :=
  guarded .lpfZero s fun p =>
    let n := p.nTaps.toNat
    match s.tapWords (F64.ofWord p.cutoff) n with
    | none => .next (raiseError .degenerateInput s)
    | some taps =>
      withBuffer s p.signalA fun sig =>
        let h := taps.map F64.ofWord
        let out := (State.delivered (tapDraws n) s).outputWords (.conv sig h) 0 (conv s.cfg.macFused sig h)
        let stored := storeWords p.dBase.toNat out (storeWords p.bBase.toNat taps s)
        .next (complete sig.length (State.delivered (tapDraws n + sig.length) stored))

end Machine
end Sys2Proof
end

