-- ==== Sys2Proof/Machine/Spectral.lean ====
section
/-! DEFINITION. The spectral transform and the magnitude: RFFT and MAG (rules R190 to R196, R198, R200, R201). -/

namespace Sys2Proof
namespace Machine

open F64 (mul add sub div sin64 cos64 neg)

/-- A complex value: real part and imaginary part (rule R82). -/
abbrev Bin := F64 × F64

/-! ### Twiddle factors (rule R191) -/

/-- `-1.0` -/
def minusOne : F64 := neg F64.one

/-- The twiddle `(C[m], S[m])` where it is not a mirror: the exact quarter-wave values, else cosine and sine of the
rounded angle. -/
def twiddleDirect (n m : Nat) : Bin :=
  if m = 0 then (F64.one, F64.zero)
  else if 2 * m = n then (minusOne, F64.zero)
  else if 4 * m = n then (F64.zero, F64.one)
  else if 4 * m = 3 * n then (F64.zero, minusOne)
  else
    let a := div (mul (mul F64.two F64.pi64) (F64.ofNat m)) (F64.ofNat n)
    (cos64 a, sin64 a)

/-- `twiddle(N, m)` (rule R191): the upper half mirrors the lower half exactly. At `2m = N` the sine is `+0.0` as the
rule's table has it (DEDUCED, safe, log 22). -/
def twiddle (n m : Nat) : Bin :=
  if m = 0 ∨ 2 * m = n ∨ 4 * m = n ∨ 4 * m = 3 * n ∨ 2 * m < n then twiddleDirect n m
  else
    let t := twiddleDirect n (n - m)
    (t.1, neg t.2)

/-! ### The direct form (rule R194) -/

/-- Bin `k` of `dft_direct`: ascending `n` from `+0.0`. For `N = 1` and a sample that is not finite the imaginary part is NaN,
as rules R194 and R197 (f) have it, against R197 (b); for `N = 2` a zero bin may have the other sign than the sum of R197 (c)
(DEDUCED, unsafe, log 27). -/
def dftBin (fused : Bool) (sig : List F64) (k : Nat) : Bin :=
  (List.range sig.length).foldl
    (fun acc n =>
      let t := twiddle sig.length (k * n % sig.length)
      let x := sig.getD n F64.zero
      (F64.mac fused acc.1 x t.1, F64.msub fused acc.2 x t.2))
    (F64.zero, F64.zero)

/-- `dft_direct(sig, N)`: bins `0 .. floor(N/2)`. -/
def dftDirect (fused : Bool) (sig : List F64) : List Bin :=
  (List.range (sig.length / 2 + 1)).map (dftBin fused sig)

/-! ### The radix-2 form (rule R196) -/

/-- `bitrev_L(n)`: the `L` low bits of `n` reversed. -/
def bitrev : Nat → Nat → Nat
  | 0, _ => 0
  | l + 1, n => (n % 2) * 2 ^ l + bitrev l (n / 2)

/-- The butterfly at positions `p` and `p + span/2` with twiddle index `t` (rule R196; unfused). -/
def butterfly (n t : Nat) (u b : Bin) : Bin × Bin :=
  let w := twiddle n t
  let wr := w.1
  let wi := neg w.2
  let vr := sub (mul wr b.1) (mul wi b.2)
  let vi := add (mul wr b.2) (mul wi b.1)
  ((add u.1 vr, add u.2 vi), (sub u.1 vr, sub u.2 vi))

/-- One stage: each position takes part in exactly one butterfly of the stage, so the stage gives every position's new
value from the old array. (DEDUCED, safe, log 17.) -/
def stage (n span : Nat) (a : List Bin) : List Bin :=
  (List.range n).map fun p =>
    let j := p % span
    if j < span / 2 then
      (butterfly n (j * (n / span)) (a.getD p (F64.zero, F64.zero)) (a.getD (p + span / 2) (F64.zero, F64.zero))).1
    else
      (butterfly n ((j - span / 2) * (n / span)) (a.getD (p - span / 2) (F64.zero, F64.zero))
        (a.getD p (F64.zero, F64.zero))).2

/-- The stages with `span = 2, 4, …, 2^l`. -/
def stages (n : Nat) (a : List Bin) : Nat → List Bin
  | 0 => a
  | l + 1 => stage n (2 ^ (l + 1)) (stages n a l)

/-- `fft_radix2(sig, N)` for `N = 2^L` (rule R196): bins `0 .. N/2`. Where rule R197 (c), (d), (f), (g) differ (signs of
zeros, sums that overflow, samples that are NaN or infinite, shifted impulses, which give the twiddle row only up to
rounding), rule R196's pseudocode is followed (DEDUCED, unsafe, log 27). -/
def fftRadix2 (sig : List F64) : List Bin :=
  let n := sig.length
  let l := n.log2
  let a := (List.range n).map fun k => (sig.getD (bitrev l k) F64.zero, F64.zero)
  (stages n a l).take (n / 2 + 1)

/-! ### RFFT -/

/-- A power of two with `N ≥ 2` (rule R193). -/
def isPow2 (n : Nat) : Bool := decide (2 ≤ n) && 2 ^ n.log2 == n

/-- The reference spectrum (rule R193). -/
def spectrum (cfg : Config) (sig : List F64) : List Bin :=
  match cfg.fftRef with
  | .direct => dftDirect cfg.macFused sig
  | .radix2 => if isPow2 sig.length then fftRadix2 sig else dftDirect cfg.macFused sig

/-- The words' values of a spectrum: real part then imaginary part of each bin (rule R82). -/
def interleave : List Bin → List F64
  | [] => []
  | b :: bs => b.1 :: b.2 :: interleave bs

/-- `rfft` (rule R195). -/
def execRfft (s : State) : Result :=
  guarded .rfft s fun p =>
    withBuffer s p.signalA fun sig =>
      .next (completeWith p (.rfft sig) (interleave (spectrum s.cfg sig)) s)

/-! ### MAG -/

/-- `mag(re, im)` (rule R198): unfused, whatever `MAC_FUSED` says. -/
def magnitude (b : Bin) : F64 := F64.sqrt (add (mul b.1 b.1) (mul b.2 b.2))

/-- The bins of a spectrum's words (rule R82). -/
def binsOf : List F64 → List Bin
  | re :: im :: rest => (re, im) :: binsOf rest
  | _ => []

/-- `mag` (rule R201). -/
def execMag (s : State) : Result :=
  guarded .mag s fun p =>
    withBuffer s p.spectrumA fun vs =>
      .next (completeWith p (.mag (binsOf vs)) ((binsOf vs).map magnitude) s)

end Machine
end Sys2Proof
end

