-- ==== Sys2Proof/Machine/Quality.lean ====
section
/-! DEFINITION. The quality analyzer: SNR and PEAK (rules R220 to R222, R225 to R228). -/

namespace Sys2Proof
namespace Machine

open F64 (mul add sub div)

/-! ### SNR -/

/-- The noise and signal sums of rule R221, in ascending order from `+0.0`, squares unfused. -/
def powerSums (ref test : List F64) : F64 × F64 :=
  (ref.zip test).foldl
    (fun acc rt =>
      let d := sub rt.2 rt.1
      (add acc.1 (mul d d), add acc.2 (mul rt.1 rt.1)))
    (F64.zero, F64.zero)

/-- The reference SNR of rule R221 for a noise sum that is not zero. -/
def snrOf (sums : F64 × F64) : F64 := mul F64.ten (F64.log10 (div sums.2 sums.1))

/-- `snr` (rule R221): `RES0` is `+inf` exactly when the noise sum is zero (rule R222); the test is the
reference sum's on every datapath (DEDUCED, unsafe on a tolerant one, log 19). -/
def execSnr (s : State) : Result :=
  guarded .snr s fun p =>
    withBuffer s p.signalA fun ref =>
      withBuffer s p.bufferB fun test =>
        let sums := powerSums ref test
        if F64.eq sums.1 F64.zero then
          .next (complete 0 { s with res0 := (F64.inf false).bits })
        else
          .next (complete 0 (State.delivered 1 { s with res0 := s.outputWord (.snr ref test) 0 (snrOf sums) }))

/-! ### PEAK -/

/-- What the search of rule R227 found: the bin, and whether its magnitude is NaN. -/
structure Peak where
  bin : Nat
  isNaN : Bool
  deriving DecidableEq, Repr

/-- The search of rule R227 from bin `k` on, `n` bins to go, with the best bin so far and its magnitude. It reads each
bin as it comes to it and stops at the first whose magnitude is NaN (rule R228 (b)); a later bin wins only with a larger
magnitude (rule R228 (a)). The error is the first unspecified word it reads. A search of no bins finds none (bin 0); the
checks of rule R226 leave at least one. (DEDUCED, safe, log 26; DESIGN CHOICE, safe, log 16.) -/
def peakSearch (m : Memory) (base k : Nat) (best : Option (Nat × F64)) : Nat → Except Nat Peak
  | 0 => .ok ⟨(best.map (·.1)).getD 0, false⟩
  | n + 1 =>
    match Memory.readWord m (base + 2 * k), Memory.readWord m (base + 2 * k + 1) with
    | none, _ => .error (base + 2 * k)
    | some _, none => .error (base + 2 * k + 1)
    | some re, some im =>
      let mk := magnitude (F64.ofWord re, F64.ofWord im)
      if mk.isNaN then .ok ⟨k, true⟩
      else
        match best with
        | none => peakSearch m base (k + 1) (some (k, mk)) n
        | some b => peakSearch m base (k + 1) (if F64.lt b.2 mk then some (k, mk) else some b) n

/-- The bins that the search of rule R227 reads from bin `k` on, `n` bins to go: all of them, or those up to the first whose
magnitude is NaN. An unspecified word, which stops the search, ends the list. -/
def peakBins (m : Memory) (base k : Nat) : Nat → List Bin
  | 0 => []
  | n + 1 =>
    match Memory.readWord m (base + 2 * k), Memory.readWord m (base + 2 * k + 1) with
    | none, _ => []
    | some _, none => []
    | some re, some im =>
      let b := (F64.ofWord re, F64.ofWord im)
      b :: if (magnitude b).isNaN then [] else peakBins m base (k + 1) n

/-- The bin `k*` reported (rules R17, R228, R229 (e)): the reference bin; a tolerant datapath may report another bin of
the searched range, unless a NaN decided. (DEDUCED, unsafe, log 18.) -/
def State.peakBin (s : State) (op : Operation) (count : Nat) (r : Peak) : Nat :=
  match s.cfg.datapath with
  | .reference => r.bin
  | .tolerant =>
    let k := (s.drawnWord op 0).toNat
    if !r.isNaN && decide (1 ≤ k) && decide (k < count) then k else r.bin

/-- `freq = k*·fs/N` (rule R227). -/
def peakFreq (k : Nat) (fs : F64) (n : Nat) : F64 := div (mul (F64.ofNat k) fs) (F64.ofNat n)

/-- The operation of a peak search with the operands `p` for the original length `n`. -/
def Params.peakOperation (p : Params) (m : Memory) (derived : Bool) (n : Nat) : Operation :=
  .peak derived (peakBins m p.aBase.toNat 1 (p.aLen.toNat - 1)) (F64.ofWord p.fs) n

/-- The search from bin 1 and the results of rule R227 for the original length `n`. -/
def peakWith (s : State) (p : Params) (derived : Bool) (n : Nat) : Result :=
  match peakSearch s.dmem p.aBase.toNat 1 none (p.aLen.toNat - 1) with
  | .error w => .fault (.unspecifiedWord w)
  | .ok r =>
    let op := p.peakOperation s.dmem derived n
    let k := s.peakBin op p.aLen.toNat r
    .next (complete 0 (State.delivered 2
      { s with
        res0 := s.outputWord op 1 (peakFreq k (F64.ofWord p.fs) n)
        res1 := BitVec.ofNat 32 k }))

/-- `peak.orig` (rule R227, `NSRC = 0`): the original length is `ORIG_LEN`. -/
def execPeakOrig (s : State) : Result :=
  guarded .peakOrig s fun p => peakWith s p false p.origLen.toNat

/-- `peak.derive` (rule R227, `NSRC = 1`): the original length is `2·(A_LEN − 1)`. -/
def execPeakDerive (s : State) : Result :=
  guarded .peakDerive s fun p => peakWith s p true (2 * (p.aLen.toNat - 1))

end Machine
end Sys2Proof
end

