-- ==== Sys2Proof/Machine/Dispatch.lean ====
section
/-! DEFINITION. One arm per command (rule R102). -/

namespace Sys2Proof
namespace Machine

def exec (i : Instr) (s : State) : Host.Outcome State Fault Refusal :=
  match i with
  | .nop => Sys2Proof.Machine.execNop s
  | .firdes => Sys2Proof.Machine.execFirdes s
  | .convZero => Sys2Proof.Machine.execConvZero s
  | .lpfZero => Sys2Proof.Machine.execLpfZero s
  | .rfft => Sys2Proof.Machine.execRfft s
  | .mag => Sys2Proof.Machine.execMag s
  | .snr => Sys2Proof.Machine.execSnr s
  | .peakOrig => Sys2Proof.Machine.execPeakOrig s
  | .peakDerive => Sys2Proof.Machine.execPeakDerive s

end Machine
end Sys2Proof
end

