-- ==== Sys2Proof/Machine/Registers.lean ====
section
/-! DEFINITION. The register window: the eighteen registers, what a read returns, and the host writes that only touch one register (rules R31 to R34, R36 to R51). -/

namespace Sys2Proof
namespace Machine

/-- The registers of rule R32. -/
inductive Reg where
  | id | caps | ctrl | status | cmd | err | aBase | aLen | bBase | bLen | dBase | nTaps | cutoff | fs | origLen
  | res0 | res1 | dLen
  deriving DecidableEq, Repr

/-- The register at an 8-byte aligned offset of the register window (rule R32); none at the reserved offsets `0x090` to
`0xFF8`. -/
def Reg.at? (o : Nat) : Option Reg :=
  match o with
  | 0x000 => some .id
  | 0x008 => some .caps
  | 0x010 => some .ctrl
  | 0x018 => some .status
  | 0x020 => some .cmd
  | 0x028 => some .err
  | 0x030 => some .aBase
  | 0x038 => some .aLen
  | 0x040 => some .bBase
  | 0x048 => some .bLen
  | 0x050 => some .dBase
  | 0x058 => some .nTaps
  | 0x060 => some .cutoff
  | 0x068 => some .fs
  | 0x070 => some .origLen
  | 0x078 => some .res0
  | 0x080 => some .res1
  | 0x088 => some .dLen
  | _ => none

/-- `ID` (rule R31). -/
def idWord : Word := 0x5452535000070001

/-- `CAPS` (rule R33): `DMEM_WORDS` in bits 31:0, `MAC_FUSED` in bit 32, `FFT_RADIX2` in bit 33. -/
def capsWord (c : Config) : Word :=
  BitVec.ofNat 64 c.dmemWords ||| bitAt c.macFused 32 ||| bitAt (c.fftRef == .radix2) 33

/-- A 32-bit field in bits 31:0 of a register (`zext_64`). -/
def zext64 (v : BitVec 32) : Word := v.setWidth 64

/-- What a host read of a register returns (rules R31 to R48, R51): its current value, busy or not, with no effect. -/
def readReg (s : State) : Reg → Word
  | .id => idWord
  | .caps => capsWord s.cfg
  | .ctrl => bitAt s.ie 2
  | .status => s.statusWord
  | .cmd => zext64 s.params.cmd
  | .err => ((s.errOp ++ s.errCode : BitVec 16)).setWidth 64
  | .aBase => zext64 s.params.aBase
  | .aLen => zext64 s.params.aLen
  | .bBase => zext64 s.params.bBase
  | .bLen => zext64 s.params.bLen
  | .dBase => zext64 s.params.dBase
  | .nTaps => zext64 s.params.nTaps
  | .cutoff => s.params.cutoff
  | .fs => s.params.fs
  | .origLen => zext64 s.params.origLen
  | .res0 => s.res0
  | .res1 => zext64 s.res1
  | .dLen => zext64 s.dLen

/-- The parameter registers with register `r` set to the writable bits of `v` (rules R38, R40 to R45, R50); unchanged
for a register that is no parameter register. -/
def Params.set (p : Params) (r : Reg) (v : Word) : Params :=
  match r with
  | .cmd => { p with cmd := v.setWidth 32 }
  | .aBase => { p with aBase := v.setWidth 32 }
  | .aLen => { p with aLen := v.setWidth 32 }
  | .bBase => { p with bBase := v.setWidth 32 }
  | .bLen => { p with bLen := v.setWidth 32 }
  | .dBase => { p with dBase := v.setWidth 32 }
  | .nTaps => { p with nTaps := v.setWidth 32 }
  | .cutoff => { p with cutoff := v }
  | .fs => { p with fs := v }
  | .origLen => { p with origLen := v.setWidth 32 }
  | .id => p
  | .caps => p
  | .ctrl => p
  | .status => p
  | .err => p
  | .res0 => p
  | .res1 => p
  | .dLen => p

/-- A host write to a parameter register (rule R50): discarded while the engine is busy, which sets `OVR`. -/
def writeParam (r : Reg) (v : Word) (s : State) : State :=
  if s.busy then s.overrun else { s with params := s.params.set r v }

end Machine
end Sys2Proof
end

