-- ==== Sys2Proof/Machine/HostPort.lean ====
section
/-! DEFINITION. The host port: start requests, soft reset and abort, and every host access (rules R35, R72 to R75, R79, R120 to R122, R270, R273, R274). -/

namespace Sys2Proof
namespace Machine

/-! ### Start -/

/-- An accepted start (rule R121): the parameter registers are copied, `DONE` and `ERRF` are cleared, the engine runs. -/
def acceptStart (s : State) : State := { s.clearForStart with phase := .run s.params }

/-- A start request (rules R120 to R122): accepted when idle; refused when busy, which sets `OVR`. -/
def startRequest (s : State) : State := if s.busy then s.overrun else acceptStart s

/-! ### Reset -/

/-- The state with every register but `ID` and `CAPS` at its reset value and the engine idle; DMEM is not touched
(rules R270, R273). -/
def resetRegisters (s : State) : State :=
  { s with
    ie := false
    done := false
    errf := false
    ovr := false
    params := Params.reset
    errCode := 0
    errOp := 0
    res0 := 0
    res1 := 0
    dLen := 0
    phase := .idle }

/-- Check 7 of rule R124: a design whose sum is not a positive finite number fails (rule R151). -/
def designFails (i : Instr) (p : Params) : Bool :=
  match i with
  | .firdes => (design (F64.ofWord p.cutoff) p.nTaps.toNat).isNone
  | .lpfZero => (design (F64.ofWord p.cutoff) p.nTaps.toNat).isNone
  | .nop => false
  | .convZero => false
  | .rfft => false
  | .mag => false
  | .snr => false
  | .peakOrig => false
  | .peakDerive => false

/-- The buffers whose words an abort of the command with operands `cur` leaves unspecified (rule R274): its destination
buffers, but none for an illegal command or one that fails its checks. (DEDUCED, unsafe, log 13.) -/
def abortedBuffers (dmemWords : Nat) (cur : Params) : List Buffer :=
  match decode cur.cmd with
  | .illegal _ => []
  | .command i =>
    if (boundaryCheck dmemWords i cur).isSome || designFails i cur then [] else destinations i cur

/-- DMEM with the words of the buffers unspecified. -/
def forgetBuffers (m : Memory) : List Buffer → Memory
  | [] => m
  | b :: bs => forgetBuffers (Memory.forgetWords m b.base b.words) bs

/-- DMEM after an abort (rule R274); an idle engine has nothing to abort. -/
def State.abortedDmem (s : State) : Memory :=
  match s.phase with
  | .idle => s.dmem
  | .run cur => forgetBuffers s.dmem (abortedBuffers s.cfg.dmemWords cur)

/-- Soft reset (rule R273). -/
def softReset (s : State) : State := { resetRegisters s with dmem := s.abortedDmem }

/-- Power-on reset of a running block (rule R270): as soft reset, and every DMEM word is unspecified.
(What becomes of the model's own fields: DESIGN CHOICE, safe, log 15.) -/
def powerOnReset (s : State) : State := { resetRegisters s with dmem := [], reply := none }

/-! ### Register writes -/

/-- A host write of `v` to `CTRL` (rule R35): soft reset alone when bit 1 is set; else `IE`, then a start request. -/
def writeCtrl (v : Word) (s : State) : State :=
  if v.getLsbD 1 then softReset s
  else
    let t : State := { s with ie := v.getLsbD 2 }
    if v.getLsbD 0 then startRequest t else t

/-- A host write of `v` to a register (rules R31 to R50). Writes to read-only registers are ignored. -/
def writeReg (r : Reg) (v : Word) (s : State) : State :=
  match r with
  | .ctrl => writeCtrl v s
  | .status => s.clearFlags v
  | .cmd => writeParam .cmd v s
  | .aBase => writeParam .aBase v s
  | .aLen => writeParam .aLen v s
  | .bBase => writeParam .bBase v s
  | .bLen => writeParam .bLen v s
  | .dBase => writeParam .dBase v s
  | .nTaps => writeParam .nTaps v s
  | .cutoff => writeParam .cutoff v s
  | .fs => writeParam .fs v s
  | .origLen => writeParam .origLen v s
  | .id => s
  | .caps => s
  | .err => s
  | .res0 => s
  | .res1 => s
  | .dLen => s

/-! ### The address map -/

/-- Where a host access goes (rules R72, R73). -/
inductive Target where
  /-- Not one of the 32 MiB the block decodes: the access is not the block's (DEDUCED, safe, log 12). -/
  | elsewhere
  /-- Misaligned, not 8 bytes wide, or unmapped. -/
  | busError
  /-- A register, or a reserved offset of the register window. -/
  | register (r : Option Reg)
  /-- DMEM word `w`. -/
  | dmem (w : Nat)
  deriving DecidableEq, Repr

/-- The bytes the block decodes from `BLOCK_BASE` on: 32 MiB (rule R72). -/
def windowBytes : Nat := 0x02000000

/-- The target of an access at offset `o` of the block's window. -/
def targetAt (dmemWords width o : Nat) : Target :=
  if width ≠ 8 ∨ o % 8 ≠ 0 then .busError
  else if o < 0x1000 then .register (Reg.at? o)
  else if o < dmemWindow then .busError
  else if (o - dmemWindow) / 8 < dmemWords then .dmem ((o - dmemWindow) / 8)
  else .busError

/-- The target of a host access (rules R72, R73). -/
def target (c : Config) (a : Access) : Target :=
  if a.addr < c.blockBase ∨ c.blockBase + windowBytes ≤ a.addr then .elsewhere
  else targetAt c.dmemWords a.width (a.addr - c.blockBase)

/-! ### Accesses -/

/-- The access goes to DMEM. -/
def Target.isDmem : Target → Bool
  | .elsewhere => false
  | .busError => false
  | .register _ => false
  | .dmem _ => true

/-- Whether a host access waits: an access to DMEM while the engine is busy (rule R79). One that gets a bus error
is answered at once (DEDUCED, unsafe, log 11). -/
def held (s : State) (a : Access) : Bool := s.busy && (target s.cfg a).isDmem

/-- The state with the answer to a host access. -/
def State.answer (r : Reply) (s : State) : State := { s with reply := some r }

/-- A host access to a register (rules R49, R51): a reserved offset reads as zero and ignores writes. -/
def accessReg (r : Option Reg) (k : AccessKind) (s : State) : State :=
  match k, r with
  | .read, some r => s.answer (.data (readReg s r))
  | .read, none => s.answer (.data 0)
  | .write v, some r => (writeReg r v s).answer .done
  | .write _, none => s.answer .done

/-- A host access to DMEM word `w` (rule R75): all 64 bits, unchanged; a read of an unspecified word is a fault of the
model (rule R94). -/
def accessDmem (w : Nat) (k : AccessKind) (s : State) : Result :=
  match k with
  | .read =>
    match Memory.readWord s.dmem w with
    | some v => .next (s.answer (.data v))
    | none => .fault (.unspecifiedWord w)
  | .write v => .next ({ s with dmem := Memory.writeWord s.dmem w v }.answer .done)

/-- An access with the given target (rules R72 to R75, R244). -/
def performAt (g : Target) (k : AccessKind) (s : State) : Result :=
  match g with
  | .elsewhere => .next s
  | .busError => .next (s.answer .busError)
  | .register r => .next (accessReg r k s)
  | .dmem w => accessDmem w k s

/-- A host access that is not held. -/
def perform (a : Access) (s : State) : Result := performAt (target s.cfg a) a.kind s

end Machine
end Sys2Proof
end

