-- ==== Sys2Proof/Machine/Engine.lean ====
section
/-! DEFINITION. The engine's move and the block's cycle (rules R55, R79, R86, R123, R127, R252, R285), and how a command word is put before the engine. -/

namespace Sys2Proof
namespace Machine

/-- The running command reaches its completion (rules R123, R126, R127): the copied command word is decoded, and the whole
command is performed; an illegal word ends with `ILLEGAL_COMMAND`. An idle engine does nothing (rule R259). (DEDUCED,
safe, log 10.) -/
def engineMove (s : State) : Result :=
  match s.phase with
  | .idle => .next s
  | .run cur =>
    match decode cur.cmd with
    | .command i => exec i s
    | .illegal _ => .next (raiseError .illegalCommand s)

/-- One step of the block: the next move of the list happens. A host access that is held (rule R79) stays first in the
list and the engine completes instead. With no move left the engine completes what it runs: every command completes
(rule R285). (DEDUCED, safe, log 6.) -/
def cycle (s : State) : Result :=
  match s.moves with
  | [] => engineMove s
  | .engine :: rest => engineMove { s with moves := rest }
  | .powerOn :: rest => .next (powerOnReset { s with moves := rest })
  | .host a :: rest => if held s a then engineMove s else perform a { s with moves := rest }

/-- The state in which the command word `w` has been written to `CMD`, its start has been accepted (rule R121), and the
next move is its completion. -/
def loadCommand (s : State) (w : BitVec 32) : State :=
  let t := acceptStart { s with params := { s.params with cmd := w } }
  { t with moves := .engine :: s.moves }

end Machine
end Sys2Proof
end

