-- ==== Sys2Proof/Machine/Step.lean ====
section
/-! DEFINITION. The step function, and how a row's command word is put where the next step runs it. -/

namespace Sys2Proof
namespace Machine

/-- One step of the TRSP DSP core. -/
def step (s : State) : Host.Outcome State Fault Refusal := cycle s

/-- The command word of a row in `CMD`, its start accepted, its completion the next move. The block fetches no
instruction (rule R56): a command is the value of `CMD` when its start is accepted (rule R90). (DESIGN
CHOICE, safe, log 7.) -/
def State.withFetchWord (s : State) (nbits w : Nat) : State := loadCommand s (tableWord nbits w)

end Machine
end Sys2Proof
end

