-- ==== Sys2Proof/Safety.lean ====
section
/-! DEFINITION. The terms claims use: the machine's invariant, when a command runs normally, what a frame leaves alone, and what a conforming datapath delivers. -/

namespace Sys2Proof
namespace Machine

/-! ### The invariant -/

/-- What holds of every state a run reaches. -/
structure State.Inv (s : State) : Prop where
  /-- DMEM is in canonical form. -/
  canonical : Memory.wf s.dmem
  /-- Only bytes of the DMEM window exist (rules R70, R72). -/
  inWindow : ∀ c ∈ s.dmem, dmemWindow ≤ c.1 ∧ c.1 < dmemWindow + 8 * s.cfg.dmemWords
  /-- A word is specified as a whole or not at all (rules R73, R77: every access moves a whole word). -/
  wholeWords : ∀ w j k, j < 8 → k < 8 →
    (Memory.read s.dmem (wordAddr w + j)).isSome = (Memory.read s.dmem (wordAddr w + k)).isSome
  /-- The copied operands of a running command equal the live registers (rule R55). -/
  operandsLive : ∀ cur, s.phase = .run cur → cur = s.params
  /-- `BUSY = 1` and `DONE = 1` never hold together (rule R36), nor do `BUSY = 1` and `ERRF = 1` (rule R121). -/
  busyNotDone : s.busy = true → s.done = false ∧ s.errf = false
  /-- `ERRF` stands only beside a nonzero error code (rules R36, R246). -/
  errorHasCode : s.errf = true → s.errCode ≠ 0
  /-- The codes 7 to 255 are never reported (rule R240). -/
  codeReported : s.errCode.toNat ≤ 6
  /-- `D_LEN` is 0 after a command that ended in error (rules R48, R246). -/
  errorWritesNothing : s.errCode ≠ 0 → s.dLen = 0
  /-- `D_LEN` never exceeds the size of DMEM (rules R48, R124). -/
  lengthInRange : s.dLen.toNat ≤ s.cfg.dmemWords

/-! ### Buffers -/

/-- The buffer lies inside DMEM (rule R84). -/
def Buffer.Inside (b : Buffer) (s : State) : Prop := b.base + b.words ≤ s.cfg.dmemWords

/-- Two buffers have no word in common (rule R85). -/
def Buffer.Apart (a b : Buffer) : Prop := a.base + a.words ≤ b.base ∨ b.base + b.words ≤ a.base

/-- Every word of the buffer has a specified value (rule R94). -/
def Buffer.Specified (b : Buffer) (s : State) : Prop :=
  ∀ i, i < b.words → (Memory.readWord s.dmem (b.base + i)).isSome = true

/-- The buffer holds these binary64 values, in order (rules R81 to R83). -/
def Buffer.Holds (b : Buffer) (s : State) (vs : List F64) : Prop :=
  vs.length = b.words ∧ ∀ i, i < b.words → (Memory.readWord s.dmem (b.base + i)).map F64.ofWord = vs[i]?

/-- The buffer holds a spectrum's bins, real part then imaginary part of each (rule R82). -/
def Buffer.HoldsBins (b : Buffer) (s : State) (bins : List Bin) : Prop :=
  b.words = 2 * bins.length ∧ ∀ k, k < bins.length →
    ∃ re im, Memory.readWord s.dmem (b.base + 2 * k) = some re ∧ Memory.readWord s.dmem (b.base + 2 * k + 1) = some im ∧
      bins[k]? = some (F64.ofWord re, F64.ofWord im)

/-- Every byte of DMEM outside the buffers reads as before. -/
def SameOutside (s t : State) (bs : List Buffer) : Prop :=
  ∀ a, (∀ b ∈ bs, a < wordAddr b.base ∨ wordAddr b.base + 8 * b.words ≤ a) → Memory.read t.dmem a = Memory.read s.dmem a

/-- What no command changes when it completes: the configuration, `CTRL`, `OVR`, the parameter registers, and what
waits at the block's edge (rules R126, R246). -/
structure CommandLeaves (s t : State) : Prop where
  cfg : t.cfg = s.cfg
  ie : t.ie = s.ie
  ovr : t.ovr = s.ovr
  params : t.params = s.params
  moves : t.moves = s.moves
  reply : t.reply = s.reply

/-- Completion with success, `count` words written at `D_BASE` (rule R126). -/
structure Succeeded (s t : State) (count : Nat) : Prop where
  dLen : t.dLen = BitVec.ofNat 32 count
  errCode : t.errCode = 0
  errOp : t.errOp = s.operands.cmd.extractLsb' 0 8
  done : t.done = true
  errf : t.errf = s.errf
  idle : t.phase = .idle

/-- The number of words the command writes at `D_BASE` when it succeeds (rule R48). -/
def resultWords (i : Instr) (p : Params) : Nat :=
  match i with
  | .nop => 0
  | .firdes => p.nTaps.toNat
  | .convZero => p.aLen.toNat
  | .lpfZero => p.aLen.toNat
  | .rfft => spectrumWords p.aLen.toNat
  | .mag => p.aLen.toNat
  | .snr => 0
  | .peakOrig => 0
  | .peakDerive => 0

/-! ### Steps of the host -/

/-- A host write of `v` at offset `o` of the block (rules R72, R73). -/
def hostWrite (c : Config) (o : Nat) (v : Word) : Access := ⟨c.blockBase + o, 8, .write v⟩

/-- A host read at offset `o` of the block (rules R72, R73). -/
def hostRead (c : Config) (o : Nat) : Access := ⟨c.blockBase + o, 8, .read⟩

/-- The step in which the host makes the access `a`; the moves that were waiting come after it. -/
def State.hostStep (s : State) (a : Access) : Result := step { s with moves := .host a :: s.moves }

/-- A move that aborts a running command: a reset pulse, or a host write to `CTRL` with bit 1 set (rules R270, R273). -/
def Move.resets (c : Config) : Move → Bool
  | .engine => false
  | .powerOn => true
  | .host a =>
    match a.kind, target c a with
    | .write v, .register (some .ctrl) => v.getLsbD 1
    | _, _ => false

/-! ### When a command runs normally -/

/-- A cutoff in `(0, 0.5]` (rule R150). -/
def Params.CutoffLegal (p : Params) : Prop :=
  F64.lt F64.zero (F64.ofWord p.cutoff) = true ∧ F64.le (F64.ofWord p.cutoff) F64.half = true

/-- A positive finite sample rate (rule R226). -/
def Params.RateLegal (p : Params) : Prop :=
  (F64.ofWord p.fs).isFinite = true ∧ F64.lt F64.zero (F64.ofWord p.fs) = true

/-- The design has a positive finite sum (rules R151, R156). -/
def Params.DesignExists (p : Params) : Prop := (design (F64.ofWord p.cutoff) p.nTaps.toNat).isSome = true

/-- The bins a peak search may read: all but bin 0 (rule R227). -/
def Params.searchedA (p : Params) : Buffer := ⟨p.aBase.toNat + 2, 2 * (p.aLen.toNat - 1)⟩

/-- The state and operands with which command `i` runs to completion with success: every check of its rule passes, and
every word it may read is specified. -/
def Ready (i : Instr) (s : State) : Prop :=
  let p := s.operands
  match i with
  | .nop => True
  | .firdes => 1 ≤ p.nTaps.toNat ∧ p.CutoffLegal ∧ (p.destD p.nTaps.toNat).Inside s ∧ p.DesignExists
  | .convZero =>
    1 ≤ p.bLen.toNat ∧ 1 ≤ p.aLen.toNat ∧
    p.signalA.Inside s ∧ p.bufferB.Inside s ∧ (p.destD p.aLen.toNat).Inside s ∧
    (p.destD p.aLen.toNat).Apart p.signalA ∧ (p.destD p.aLen.toNat).Apart p.bufferB ∧
    p.signalA.Specified s ∧ p.bufferB.Specified s
  | .lpfZero =>
    1 ≤ p.nTaps.toNat ∧ p.CutoffLegal ∧ 1 ≤ p.aLen.toNat ∧
    p.signalA.Inside s ∧ p.tapsB.Inside s ∧ (p.destD p.aLen.toNat).Inside s ∧
    p.tapsB.Apart p.signalA ∧ p.tapsB.Apart (p.destD p.aLen.toNat) ∧ (p.destD p.aLen.toNat).Apart p.signalA ∧
    p.DesignExists ∧ p.signalA.Specified s
  | .rfft =>
    1 ≤ p.aLen.toNat ∧ p.signalA.Inside s ∧ (p.destD (spectrumWords p.aLen.toNat)).Inside s ∧
    (p.destD (spectrumWords p.aLen.toNat)).Apart p.signalA ∧ p.signalA.Specified s
  | .mag =>
    1 ≤ p.aLen.toNat ∧ p.spectrumA.Inside s ∧ (p.destD p.aLen.toNat).Inside s ∧
    (p.destD p.aLen.toNat).Apart p.spectrumA ∧ p.spectrumA.Specified s
  | .snr =>
    1 ≤ p.aLen.toNat ∧ p.aLen = p.bLen ∧ p.signalA.Inside s ∧ p.bufferB.Inside s ∧
    p.signalA.Specified s ∧ p.bufferB.Specified s
  | .peakOrig =>
    p.RateLegal ∧ 1 ≤ p.origLen.toNat ∧ p.origLen.toNat / 2 + 1 = p.aLen.toNat ∧ 2 ≤ p.aLen.toNat ∧
    p.spectrumA.Inside s ∧ p.searchedA.Specified s
  | .peakDerive =>
    p.RateLegal ∧ 2 ≤ p.aLen.toNat ∧ p.spectrumA.Inside s ∧ p.searchedA.Specified s

/-! ### Conforming datapaths (rule R17) -/

/-- The word the datapath computes at place `j` of `op` conforms, for the reference result `r` and the exact result `x`. -/
def DrawConforms (s : State) (op : Operation) (j : Nat) (r : F64) (x : Option ℝ) : Prop :=
  F64.Conforms (s.cfg.fpTol : ℝ) r x (F64.ofWord (s.drawnWord op j))

/-- The same for a component of a bin. When a sample is not finite the word may also be NaN, as rule R197 (f) has it where
the radix-2 reference gives a number (log 27). -/
def BinDrawConforms (s : State) (op : Operation) (j : Nat) (r : F64) (x : Option ℝ) : Prop :=
  DrawConforms s op j r x ∨ (x = none ∧ F64.ofWord (s.drawnWord op j) = .nan)

/-- The bin `k` the reference reports (rules R227, R228), `bins` being the searched bins, number 1 first: the lowest whose
magnitude is NaN if there is one, else the lowest with the largest magnitude. -/
def ReferencePeak (bins : List Bin) (k : Nat) : Prop :=
  1 ≤ k ∧ k ≤ bins.length ∧
  let mag := fun j : Nat => magnitude (bins.getD (j - 1) (F64.zero, F64.zero))
  (((mag k).isNaN = true ∧ ∀ j, 1 ≤ j → j < k → (mag j).isNaN = false) ∨
    (∀ j, 1 ≤ j → j ≤ bins.length → (mag j).isNaN = false ∧ F64.le (mag j) (mag k) = true ∧
      (j < k → F64.lt (mag j) (mag k) = true)))

/-- The reported bin `k` conforms (rule R229 (e)), `bins` being the searched bins, number 1 first, none with a NaN
magnitude: its exact magnitude lies within `2·FP_TOL` of every larger one, and it is the lowest of the bins with an infinite
component if there is one; or some reference magnitude overflows and it is the reference's bin `ref` (rule R228 (c)). -/
def PeakConforms (tol : ℝ) (bins : List Bin) (ref k : Nat) : Prop :=
  1 ≤ k ∧ k ≤ bins.length ∧
  ((∀ (j : Nat) (a b : Bin), bins[j]? = some a → bins[k - 1]? = some b →
      Exact.magOrTop a.1 a.2 ≤ Exact.magOrTop b.1 b.2 + ((2 * tol : ℝ) : EReal) ∧
      (Exact.magOrTop a.1 a.2 = ⊤ → k ≤ j + 1)) ∨
    ((∃ b ∈ bins, (magnitude b).isFinite = false) ∧ k = ref))

/-- The words a tolerant datapath will deliver for command `i` are those of a conforming implementation (rules R17, R154,
R173, R192, R198, R223, R224, R229 (e)): every computed word is bounded by the exact result of its own operands. -/
def ConformingDraws (i : Instr) (s : State) : Prop :=
  let p := s.operands
  let fc := F64.ofWord p.cutoff
  let n := p.nTaps.toNat
  match i with
  | .nop => True
  | .firdes => TapDraws s fc n
  | .convZero => ∀ sig h : List F64, p.signalA.Holds s sig → p.bufferB.Holds s h →
      ∀ k, k < sig.length → DrawConforms s (.conv sig h) k (convAt s.cfg.macFused sig h k) (Exact.conv? sig h k)
  | .lpfZero => TapDraws s fc n ∧
      ∀ (sig : List F64) (words : List Word), p.signalA.Holds s sig → s.tapWords fc n = some words →
        let h := words.map F64.ofWord
        ∀ k, k < sig.length → DrawConforms s (.conv sig h) k (convAt s.cfg.macFused sig h k) (Exact.conv? sig h k)
  | .rfft => ∀ sig : List F64, p.signalA.Holds s sig → ∀ (k : Nat) (b : Bin), (spectrum s.cfg sig)[k]? = some b →
      BinDrawConforms s (.rfft sig) (2 * k) b.1 (Exact.binRe? sig k) ∧
      BinDrawConforms s (.rfft sig) (2 * k + 1) b.2 (Exact.binIm? sig k)
  | .mag => ∀ bins : List Bin, p.spectrumA.HoldsBins s bins →
      ∀ (k : Nat) (b : Bin), bins[k]? = some b → DrawConforms s (.mag bins) k (magnitude b) (Exact.mag? b.1 b.2)
  | .snr => ∀ r t : List F64, p.signalA.Holds s r → p.bufferB.Holds s t →
      F64.eq (powerSums r t).1 F64.zero = false →
      DrawConforms s (.snr r t) 0 (snrOf (powerSums r t)) (Exact.snr? r t)
  | .peakOrig => PeakDraws s p false p.origLen.toNat
  | .peakDerive => PeakDraws s p true (2 * (p.aLen.toNat - 1))
where
  /-- The coefficients drawn for a design: the lower half. -/
  TapDraws (s : State) (fc : F64) (n : Nat) : Prop :=
    n ≠ 1 → ∀ taps, design fc n = some taps → ∀ k, k ≤ lowerHalf n →
      DrawConforms s (.taps fc n) k (taps.getD k F64.zero) (Exact.tap? fc.toReal n k)
  /-- The bin drawn conforms unless a NaN decides, and the frequency drawn conforms for the bin reported. -/
  PeakDraws (s : State) (p : Params) (derived : Bool) (n : Nat) : Prop :=
    let op := p.peakOperation s.dmem derived n
    ∀ r, peakSearch s.dmem p.aBase.toNat 1 none (p.aLen.toNat - 1) = .ok r →
      (r.isNaN = false → ∀ bins : List Bin, p.searchedA.HoldsBins s bins →
        PeakConforms (s.cfg.fpTol : ℝ) bins r.bin (s.drawnWord op 0).toNat) ∧
      (let k := s.peakBin op p.aLen.toNat r
       DrawConforms s op 1 (peakFreq k (F64.ofWord p.fs) n) (some (Exact.freq k (F64.ofWord p.fs).toReal n)))

end Machine
end Sys2Proof
end

