-- ==== Sys2Proof/Certificates/Slice0/Obligations.lean ====
section
/-! DEFINITION. The statements for the provers: one definition per obligation, from the numbered rules of the spec. -/

open Sys2Proof Sys2Proof.Machine

/-! ### Command words -/

/-- Rule R108: each of the nine command words decodes to the command its mnemonic names. -/
def Obligations.NineWordsDecode : Prop :=
  decode 0x00000000 = .command .nop ∧ decode 0x00000001 = .command .firdes ∧
  decode 0x00000002 = .command .convZero ∧ decode 0x00000003 = .command .lpfZero ∧
  decode 0x00000004 = .command .rfft ∧ decode 0x00000005 = .command .mag ∧
  decode 0x00000006 = .command .snr ∧ decode 0x00000007 = .command .peakOrig ∧
  decode 0x00000107 = .command .peakDerive

/-- Rule R107: a word decodes to a command exactly when it is that command's word of rule R108; the decoder and the encoder
agree in both directions, and every command's word is well-formed. -/
def Obligations.DecodeEncodeAgree : Prop :=
  (∀ (w : BitVec 32) (i : Instr), decode w = .command i ↔ w = encode i) ∧
  (∀ i : Instr, i.wellFormed = true ∧ fieldsOf (encode i) = i.fields ∧ wordOf i.fields = encode i)

/-- Rules R105 and R123: a command word is illegal exactly under one of the three conditions, and an accepted start with an
illegal word completes with `ILLEGAL_COMMAND` and the word's low byte in `ERR`, and changes nothing else. -/
def Obligations.IllegalCommandWords : Prop :=
  (∀ w : BitVec 32, (∃ why, decode w = .illegal why) ↔
    (fieldsOf w).rsv ≠ 0 ∨ 8 ≤ (fieldsOf w).opc.toNat ∨
      ¬ ((fieldsOf w).mode = 0 ∨ ((fieldsOf w).opc = 7 ∧ (fieldsOf w).mode = 1))) ∧
  (∀ (s : State) (cur : Params) (why : Illegal), s.phase = .run cur → decode cur.cmd = .illegal why →
    engineMove s = .next { s with
      errCode := 4, errOp := cur.cmd.extractLsb' 0 8, dLen := 0, done := true, errf := true, phase := .idle })

/-- Rules R123, R285: the engine's move with a legal command word is that command's meaning, whether the move is next in the
list, the list is empty, or the next move is a host access to DMEM, which waits.
Where the completion falls is the model's choice, log 6. -/
def Obligations.StepRunsDecodedCommand : Prop :=
  ∀ (s : State) (cur : Params) (i : Instr), s.phase = .run cur → decode cur.cmd = .command i →
    (s.moves = [] → step s = exec i s) ∧
    (∀ rest, s.moves = .engine :: rest → step s = exec i { s with moves := rest }) ∧
    (∀ a rest w, s.moves = .host a :: rest → target s.cfg a = .dmem w → step s = exec i s)

/-- Rule R90: a command is the value of `CMD` when the start is accepted. Putting a command's word in place, the next step is
that command's meaning in the state in which its start has just been accepted.
Putting the word in place is the model's choice, log 7. -/
def Obligations.FetchWordRunsCommand : Prop :=
  ∀ (s : State) (i : Instr),
    step (s.withFetchWord 32 (encode i).toNat) =
      exec i { s with
        params := { s.params with cmd := encode i }, done := false, errf := false,
        phase := .run { s.params with cmd := encode i } }

/-! ### Start, reset and the control registers -/

/-- Rules R121, R122: a start request while the engine is idle copies the parameter registers, clears `DONE` and `ERRF`,
sets `BUSY`, drops `irq`, and changes neither `OVR` nor a result register; while a command runs it sets `OVR` and has no
other effect. (`IE` is the same write's, rule R35.)
`reply` and the list of moves are the model's own, log 6 and 8. -/
def Obligations.StartRequests : Prop :=
  ∀ (s : State) (v : Word), v.getLsbD 0 = true → v.getLsbD 1 = false →
    (s.phase = .idle → ∃ t, s.hostStep (hostWrite s.cfg 0x010 v) = .next t ∧
      t = { s with ie := v.getLsbD 2, done := false, errf := false, phase := .run s.params, reply := some .done } ∧
      t.busy = true ∧ t.irq = false) ∧
    (∀ cur, s.phase = .run cur →
      s.hostStep (hostWrite s.cfg 0x010 v) = .next { s with ie := v.getLsbD 2, ovr := true, reply := some .done })

/-- Rule R35: a write to `CTRL` performs the soft reset alone when bit 1 is set; else it sets `IE`, and then makes a start
request when bit 0 is set. The bits above bit 2 are ignored. -/
def Obligations.ControlWriteOrder : Prop :=
  ∀ (s : State) (v : Word),
    (v.getLsbD 1 = true → s.hostStep (hostWrite s.cfg 0x010 v) = .next ((softReset s).answer .done)) ∧
    (v.getLsbD 1 = false → v.getLsbD 0 = false →
      s.hostStep (hostWrite s.cfg 0x010 v) = .next ({ s with ie := v.getLsbD 2 }.answer .done)) ∧
    (v.getLsbD 1 = false → v.getLsbD 0 = true →
      s.hostStep (hostWrite s.cfg 0x010 v) = .next ((startRequest { s with ie := v.getLsbD 2 }).answer .done)) ∧
    s.hostStep (hostWrite s.cfg 0x010 v) = s.hostStep (hostWrite s.cfg 0x010 (v &&& 7))

/-- Rules R273, R274: a soft reset puts every register but `ID` and `CAPS` at its reset value and the engine in `IDLE`; DMEM
keeps its contents, but every word of the destination buffers of the command it aborts is unspecified. An illegal command,
one that fails its checks and one without a destination buffer change no DMEM word.
That the computed design check counts as a check is the model's reading, log 13. -/
def Obligations.SoftResetAborts : Prop :=
  ∀ (s : State) (v : Word), v.getLsbD 1 = true →
    ∃ t, s.hostStep (hostWrite s.cfg 0x010 v) = .next t ∧
      t = { State.resetWith s.cfg with
        dmem := t.dmem, moves := s.moves, reply := some .done, draws := s.draws, drawn := s.drawn } ∧
      (s.phase = .idle → t.dmem = s.dmem) ∧
      (∀ cur why, s.phase = .run cur → decode cur.cmd = .illegal why → t.dmem = s.dmem) ∧
      (∀ cur i, s.phase = .run cur → decode cur.cmd = .command i →
        (boundaryCheck s.cfg.dmemWords i cur ≠ none ∨ designFails i cur = true ∨ destinations i cur = [] → t.dmem = s.dmem) ∧
        (boundaryCheck s.cfg.dmemWords i cur = none → designFails i cur = false →
          SameOutside s t (destinations i cur) ∧
          ∀ b ∈ destinations i cur, ∀ j, j < b.words → Memory.readWord t.dmem (b.base + j) = none))

/-- Rule R50: a write to a parameter register is discarded while the engine is busy, which sets `OVR`; else the register
takes the written value masked to its writable bits. Nothing else changes. -/
def Obligations.ParameterWrites : Prop :=
  ∀ (s : State) (o : Nat) (r : Reg) (v : Word),
    (o, r) ∈ [(0x020, Reg.cmd), (0x030, Reg.aBase), (0x038, Reg.aLen), (0x040, Reg.bBase), (0x048, Reg.bLen),
      (0x050, Reg.dBase), (0x058, Reg.nTaps), (0x060, Reg.cutoff), (0x068, Reg.fs), (0x070, Reg.origLen)] →
    (s.busy = true → s.hostStep (hostWrite s.cfg o v) = .next { s with ovr := true, reply := some .done }) ∧
    (s.busy = false → ∃ t, s.hostStep (hostWrite s.cfg o v) = .next t ∧
      t = { s with params := t.params, reply := some .done } ∧
      readReg t r = (if r = .cutoff ∨ r = .fs then v else v &&& 0xFFFFFFFF) ∧
      ∀ q, q ≠ r → readReg t q = readReg s q)

/-- Rule R37: a write to `STATUS` clears the bits among `DONE`, `ERRF` and `OVR` in which it has a 1, busy or not, and
changes nothing else. -/
def Obligations.StatusWriteClears : Prop :=
  ∀ (s : State) (v : Word),
    s.hostStep (hostWrite s.cfg 0x018 v) = .next { s with
      done := s.done && !v.getLsbD 1, errf := s.errf && !v.getLsbD 2, ovr := s.ovr && !v.getLsbD 3,
      reply := some .done }

/-- Rules R32, R51: a read of a register returns its value at once, busy or not, and changes nothing. -/
def Obligations.RegisterReadsReturnValue : Prop :=
  ∀ (s : State) (o : Nat) (r : Reg),
    (o, r) ∈ [(0x000, Reg.id), (0x008, Reg.caps), (0x010, Reg.ctrl), (0x018, Reg.status), (0x020, Reg.cmd),
      (0x028, Reg.err), (0x030, Reg.aBase), (0x038, Reg.aLen), (0x040, Reg.bBase), (0x048, Reg.bLen),
      (0x050, Reg.dBase), (0x058, Reg.nTaps), (0x060, Reg.cutoff), (0x068, Reg.fs), (0x070, Reg.origLen),
      (0x078, Reg.res0), (0x080, Reg.res1), (0x088, Reg.dLen)] →
    s.hostStep (hostRead s.cfg o) = .next { s with reply := some (.data (readReg s r)) }

/-- Rules R34, R36, R39 to R48: the bits a read of each register returns. -/
def Obligations.RegisterLayouts : Prop :=
  ∀ s : State,
    (readReg s .ctrl = if s.ie = true then 4 else 0) ∧
    ((readReg s .status).getLsbD 0 = s.busy ∧ (readReg s .status).getLsbD 1 = s.done ∧
      (readReg s .status).getLsbD 2 = s.errf ∧ (readReg s .status).getLsbD 3 = s.ovr ∧
      (readReg s .status).toNat < 16) ∧
    ((readReg s .err).toNat = s.errCode.toNat + 256 * s.errOp.toNat) ∧
    (readReg s .cmd).toNat = s.params.cmd.toNat ∧
    (readReg s .aBase).toNat = s.params.aBase.toNat ∧ (readReg s .aLen).toNat = s.params.aLen.toNat ∧
    (readReg s .bBase).toNat = s.params.bBase.toNat ∧ (readReg s .bLen).toNat = s.params.bLen.toNat ∧
    (readReg s .dBase).toNat = s.params.dBase.toNat ∧ (readReg s .nTaps).toNat = s.params.nTaps.toNat ∧
    (readReg s .origLen).toNat = s.params.origLen.toNat ∧
    readReg s .cutoff = s.params.cutoff ∧ readReg s .fs = s.params.fs ∧ readReg s .res0 = s.res0 ∧
    (readReg s .res1).toNat = s.res1.toNat ∧ (readReg s .dLen).toNat = s.dLen.toNat

/-- Rules R31, R49 and the access codes of rule R32: `ID` always reads its constant; the reserved offsets read 0; a write to
a read-only register or to a reserved offset is ignored, busy or not. -/
def Obligations.ReservedAndReadOnly : Prop :=
  ∀ (s : State) (v : Word),
    s.hostStep (hostRead s.cfg 0x000) = .next { s with reply := some (.data 0x5452535000070001) } ∧
    (∀ o, 0x090 ≤ o → o ≤ 0xFF8 → o % 8 = 0 →
      s.hostStep (hostRead s.cfg o) = .next { s with reply := some (.data 0) } ∧
      s.hostStep (hostWrite s.cfg o v) = .next { s with reply := some .done }) ∧
    (∀ o ∈ [0x000, 0x008, 0x028, 0x078, 0x080, 0x088],
      s.hostStep (hostWrite s.cfg o v) = .next { s with reply := some .done })

/-- Rule R33: `CAPS` reports `DMEM_WORDS`, `MAC_FUSED` and the `RFFT` reference, and no step changes it. -/
def Obligations.CapsReportsConfiguration : Prop :=
  ∀ s : State,
    ((readReg s .caps).extractLsb' 0 32).toNat = s.cfg.dmemWords ∧
    (readReg s .caps).getLsbD 32 = s.cfg.macFused ∧
    (readReg s .caps).getLsbD 33 = decide (s.cfg.fftRef = .radix2) ∧
    (readReg s .caps).extractLsb' 34 30 = 0 ∧
    (∀ v, s.hostStep (hostWrite s.cfg 0x008 v) = .next { s with reply := some .done }) ∧
    (∀ t, step s = .next t → readReg t .caps = readReg s .caps)

/-! ### The bus -/

/-- Rule R73: an access that is not 8 bytes wide, is misaligned or falls on an unmapped offset gets a bus error response, and
changes no register, DMEM word or status bit.
That such an access is answered at once also while a command runs is the model's reading, log 11. -/
def Obligations.BusErrorsChangeNothing : Prop :=
  ∀ (s : State) (o width : Nat) (k : AccessKind), o < 0x02000000 →
    width ≠ 8 ∨ o % 8 ≠ 0 ∨ (0x1000 ≤ o ∧ o < 0x01000000) ∨ 0x01000000 + 8 * s.cfg.dmemWords ≤ o →
    s.hostStep ⟨s.cfg.blockBase + o, width, k⟩ = .next { s with reply := some .busError }

/-- Rules R74, R75: a host write stores all 64 bits of the word in DMEM word `w`, byte `j` of the word, bits `8j+7 : 8j`, at
host offset `8w + j` of the window, and leaves every other byte; a host read returns the word stored. (While the engine is
idle; rule R79 holds the access otherwise.) -/
def Obligations.HostReachesMemory : Prop :=
  ∀ (s : State) (w : Nat), w < s.cfg.dmemWords → s.busy = false →
    (∀ v, ∃ t, s.hostStep (hostWrite s.cfg (0x01000000 + 8 * w) v) = .next t ∧
      t = { s with dmem := t.dmem, reply := some .done } ∧
      Memory.readWord t.dmem w = some v ∧
      (∀ j, j < 8 → Memory.read t.dmem (0x01000000 + 8 * w + j) = some (v.extractLsb' (8 * j) 8)) ∧
      SameOutside s t [⟨w, 1⟩]) ∧
    (∀ v, Memory.readWord s.dmem w = some v →
      s.hostStep (hostRead s.cfg (0x01000000 + 8 * w)) = .next { s with reply := some (.data v) })

/-- Rule R79: a host access to DMEM made while the engine is busy waits until the running command completes, and is then
performed on the DMEM the command left; no access to a register waits.
That a held access makes the command complete next is the model's choice, log 6. -/
def Obligations.MemoryAccessHeldWhileBusy : Prop :=
  ∀ (s : State) (a : Access),
    (∀ w, target s.cfg a = .dmem w → s.busy = true →
      s.hostStep a = engineMove { s with moves := .host a :: s.moves } ∧
      ∀ t, s.hostStep a = .next t → t.busy = false ∧ t.moves = .host a :: s.moves ∧
        step t = accessDmem w a.kind { t with moves := s.moves }) ∧
    (∀ r, target s.cfg a = .register r → s.hostStep a = .next (accessReg r a.kind s))

/-- Rules R51, R55, R80: while a command runs, whatever the host does, its operands stay the live parameter registers, and
`ERR`, `RES0`, `RES1`, `D_LEN` and DMEM keep what they held. Rules R120, R259: an idle engine does nothing by itself, and
the engine goes from idle to busy only by a host write to `CTRL` with bit 0 set and bit 1 clear.
The list of moves is the model's own, log 6. -/
def Obligations.BusyKeepsOperandsAndResults : Prop :=
  (∀ (s t : State) (cur : Params), s.phase = .run cur → step s = .next t → t.busy = true →
    t.phase = .run cur ∧ t.params = s.params ∧ t.errCode = s.errCode ∧ t.errOp = s.errOp ∧ t.res0 = s.res0 ∧
    t.res1 = s.res1 ∧ t.dLen = s.dLen ∧ t.dmem = s.dmem) ∧
  (∀ s : State, s.phase = .idle → engineMove s = .next s ∧ (s.moves = [] → step s = .next s) ∧
    ∀ rest, s.moves = .engine :: rest → step s = .next { s with moves := rest }) ∧
  (∀ s t : State, s.phase = .idle → step s = .next t → t.busy = true →
    ∃ a rest v, s.moves = .host a :: rest ∧ a.kind = .write v ∧ target s.cfg a = .register (some .ctrl) ∧
      v.getLsbD 0 = true ∧ v.getLsbD 1 = false)

/-! ### Unspecified words -/

/-- Rule R94: a host read of a word that nothing has written is a fault, and so is a command that reads one. (A `PEAK` reads
its bins in order, and none after one whose magnitude is NaN.)
Which words a command needs: log 26. -/
def Obligations.UnspecifiedReadsFault : Prop :=
  (∀ (s : State) (w : Nat), w < s.cfg.dmemWords → s.busy = false → Memory.readWord s.dmem w = none →
    s.hostStep (hostRead s.cfg (0x01000000 + 8 * w)) = .fault (.unspecifiedWord w)) ∧
  (∀ (s : State) (i : Instr) (b : Buffer), i ∈ [Instr.convZero, .lpfZero, .rfft, .mag, .snr] →
    boundaryCheck s.cfg.dmemWords i s.operands = none → designFails i s.operands = false →
    b ∈ sources i s.operands → ¬ b.Specified s →
    ∃ w, Memory.readWord s.dmem w = none ∧ exec i s = .fault (.unspecifiedWord w)) ∧
  (∀ (s : State) (i : Instr) (k : Nat), i ∈ [Instr.peakOrig, .peakDerive] →
    boundaryCheck s.cfg.dmemWords i s.operands = none → 1 ≤ k → k < s.operands.aLen.toNat →
    (∀ j, 1 ≤ j → j < k → ∃ re im, Memory.readWord s.dmem (s.operands.aBase.toNat + 2 * j) = some re ∧
      Memory.readWord s.dmem (s.operands.aBase.toNat + 2 * j + 1) = some im ∧
      (magnitude (F64.ofWord re, F64.ofWord im)).isNaN = false) →
    (Memory.readWord s.dmem (s.operands.aBase.toNat + 2 * k) = none →
      exec i s = .fault (.unspecifiedWord (s.operands.aBase.toNat + 2 * k))) ∧
    ((Memory.readWord s.dmem (s.operands.aBase.toNat + 2 * k)).isSome = true →
      Memory.readWord s.dmem (s.operands.aBase.toNat + 2 * k + 1) = none →
      exec i s = .fault (.unspecifiedWord (s.operands.aBase.toNat + 2 * k + 1))))

/-- Rule R94: a step stops only because a word of DMEM that it needs is unspecified, and no step is refused. -/
def Obligations.StepStopsOnlyOnUnspecified : Prop :=
  ∀ s : State,
    (∀ f, step s = .fault f → ∃ w, f = .unspecifiedWord w ∧ w < s.cfg.dmemWords ∧ Memory.readWord s.dmem w = none) ∧
    (∀ r, step s ≠ .refused r)

/-! ### Errors -/

/-- Rule R246: a command that ends with an error writes `ERR`, clears `D_LEN`, sets `DONE` and `ERRF`, leaves the engine
idle, and changes nothing else; its code is one of rule R240, and each error reports its own code. -/
def Obligations.ErrorCompletionEffects : Prop :=
  (∀ (i : Instr) (s t : State), exec i s = .next t → t.errCode ≠ 0 →
    t = { s with
      errOp := s.operands.cmd.extractLsb' 0 8, errCode := t.errCode, dLen := 0, done := true, errf := true,
      phase := .idle } ∧
    t.errCode.toNat ≤ 6) ∧
  (∀ s : State, (raiseError .invalidParameter s).errCode = 1 ∧ (raiseError .lengthMismatch s).errCode = 2 ∧
    (raiseError .degenerateInput s).errCode = 3 ∧ (raiseError .illegalCommand s).errCode = 4 ∧
    (raiseError .range s).errCode = 5 ∧ (raiseError .aliased s).errCode = 6)

/-- Rule R150: the checks of `FIRDES`, in order. -/
def Obligations.FirdesChecks : Prop :=
  ∀ s : State,
    (s.operands.nTaps.toNat < 1 ∨ ¬ s.operands.CutoffLegal →
      exec .firdes s = .next (raiseError .invalidParameter s)) ∧
    (1 ≤ s.operands.nTaps.toNat → s.operands.CutoffLegal →
      s.cfg.dmemWords < s.operands.dBase.toNat + s.operands.nTaps.toNat →
      exec .firdes s = .next (raiseError .range s)) ∧
    ((F64.ofWord s.operands.cutoff).isNaN = true → ¬ s.operands.CutoffLegal)

/-- Rule R172: the checks of `CONV`, in the order of rule R124. -/
def Obligations.ConvChecks : Prop :=
  ∀ s : State,
    let n := s.operands.aLen.toNat
    let m := s.operands.bLen.toNat
    let a := s.operands.aBase.toNat
    let b := s.operands.bBase.toNat
    let d := s.operands.dBase.toNat
    (m < 1 → exec .convZero s = .next (raiseError .invalidParameter s)) ∧
    (1 ≤ m → n = 0 → exec .convZero s = .next (raiseError .degenerateInput s)) ∧
    (1 ≤ m → 1 ≤ n → s.cfg.dmemWords < a + n ∨ s.cfg.dmemWords < b + m ∨ s.cfg.dmemWords < d + n →
      exec .convZero s = .next (raiseError .range s)) ∧
    (1 ≤ m → 1 ≤ n → a + n ≤ s.cfg.dmemWords → b + m ≤ s.cfg.dmemWords → d + n ≤ s.cfg.dmemWords →
      (d < a + n ∧ a < d + n) ∨ (d < b + m ∧ b < d + n) → exec .convZero s = .next (raiseError .aliased s))

/-- Rule R176: the checks of `LPF`, in the order of rule R124. -/
def Obligations.LpfChecks : Prop :=
  ∀ s : State,
    let n := s.operands.aLen.toNat
    let m := s.operands.nTaps.toNat
    let a := s.operands.aBase.toNat
    let b := s.operands.bBase.toNat
    let d := s.operands.dBase.toNat
    (m < 1 ∨ ¬ s.operands.CutoffLegal → exec .lpfZero s = .next (raiseError .invalidParameter s)) ∧
    (1 ≤ m → s.operands.CutoffLegal → n = 0 → exec .lpfZero s = .next (raiseError .degenerateInput s)) ∧
    (1 ≤ m → s.operands.CutoffLegal → 1 ≤ n →
      s.cfg.dmemWords < a + n ∨ s.cfg.dmemWords < b + m ∨ s.cfg.dmemWords < d + n →
      exec .lpfZero s = .next (raiseError .range s)) ∧
    (1 ≤ m → s.operands.CutoffLegal → 1 ≤ n →
      a + n ≤ s.cfg.dmemWords → b + m ≤ s.cfg.dmemWords → d + n ≤ s.cfg.dmemWords →
      (b < a + n ∧ a < b + m) ∨ (b < d + n ∧ d < b + m) ∨ (d < a + n ∧ a < d + n) →
      exec .lpfZero s = .next (raiseError .aliased s))

/-- Rules R151, R156: past every other check, `FIRDES` and `LPF` end with `DEGENERATE_INPUT` exactly when the design sum is
not a positive finite number. (The spec has seen no legal operands with such a sum.)
On a tolerant datapath too the sum is the reference's: the model's reading, log 19. -/
def Obligations.DesignSumRefused : Prop :=
  ∀ s : State,
    (boundaryCheck s.cfg.dmemWords .firdes s.operands = none →
      (exec .firdes s = .next (raiseError .degenerateInput s) ↔ ¬ s.operands.DesignExists)) ∧
    (boundaryCheck s.cfg.dmemWords .lpfZero s.operands = none →
      (exec .lpfZero s = .next (raiseError .degenerateInput s) ↔ ¬ s.operands.DesignExists))

/-- Rules R190, R200: the checks of `RFFT` and of `MAG`, in order. -/
def Obligations.SpectralChecks : Prop :=
  ∀ s : State,
    let n := s.operands.aLen.toNat
    let w := 2 * (n / 2 + 1)
    let a := s.operands.aBase.toNat
    let d := s.operands.dBase.toNat
    (n = 0 → exec .rfft s = .next (raiseError .degenerateInput s) ∧ exec .mag s = .next (raiseError .degenerateInput s)) ∧
    (1 ≤ n →
      (s.cfg.dmemWords < a + n ∨ s.cfg.dmemWords < d + w → exec .rfft s = .next (raiseError .range s)) ∧
      (a + n ≤ s.cfg.dmemWords → d + w ≤ s.cfg.dmemWords → d < a + n → a < d + w →
        exec .rfft s = .next (raiseError .aliased s)) ∧
      (s.cfg.dmemWords < a + 2 * n ∨ s.cfg.dmemWords < d + n → exec .mag s = .next (raiseError .range s)) ∧
      (a + 2 * n ≤ s.cfg.dmemWords → d + n ≤ s.cfg.dmemWords → d < a + 2 * n → a < d + n →
        exec .mag s = .next (raiseError .aliased s)))

/-- Rule R220: the checks of `SNR`, in order; it has no overlap check. -/
def Obligations.SnrChecks : Prop :=
  ∀ s : State,
    let n := s.operands.aLen.toNat
    let a := s.operands.aBase.toNat
    let b := s.operands.bBase.toNat
    (n ≠ s.operands.bLen.toNat → exec .snr s = .next (raiseError .lengthMismatch s)) ∧
    (n = s.operands.bLen.toNat → n = 0 → exec .snr s = .next (raiseError .degenerateInput s)) ∧
    (n = s.operands.bLen.toNat → 1 ≤ n → s.cfg.dmemWords < a + n ∨ s.cfg.dmemWords < b + n →
      exec .snr s = .next (raiseError .range s)) ∧
    (n = s.operands.bLen.toNat → 1 ≤ n → a + n ≤ s.cfg.dmemWords → b + n ≤ s.cfg.dmemWords →
      ∀ t, exec .snr s = .next t → t.errCode = 0)

/-- Rule R226: the checks of `PEAK`, in order, for both length sources. -/
def Obligations.PeakChecks : Prop :=
  ∀ s : State,
    let m := s.operands.aLen.toNat
    let a := s.operands.aBase.toNat
    let orig := s.operands.origLen.toNat
    (¬ s.operands.RateLegal → exec .peakOrig s = .next (raiseError .invalidParameter s) ∧
      exec .peakDerive s = .next (raiseError .invalidParameter s)) ∧
    (s.operands.RateLegal →
      (orig = 0 → exec .peakOrig s = .next (raiseError .invalidParameter s)) ∧
      (1 ≤ orig → orig / 2 + 1 ≠ m → exec .peakOrig s = .next (raiseError .lengthMismatch s)) ∧
      (1 ≤ orig → orig / 2 + 1 = m → m < 2 → exec .peakOrig s = .next (raiseError .degenerateInput s)) ∧
      (1 ≤ orig → orig / 2 + 1 = m → 2 ≤ m → s.cfg.dmemWords < a + 2 * m →
        exec .peakOrig s = .next (raiseError .range s)) ∧
      (m < 2 → exec .peakDerive s = .next (raiseError .degenerateInput s)) ∧
      (2 ≤ m → s.cfg.dmemWords < a + 2 * m → exec .peakDerive s = .next (raiseError .range s)))

/-! ### Each command's result -/

/-- Rule R130: `NOP` completes with success, `D_LEN = 0`, `ERR = 0`, and changes nothing else. A start right after reset runs
it, and it ends with `ERR = 0`, `D_LEN = 0` and `STATUS = 2`.
That it ends at the engine's move that comes next is the model's form of the latency, log 6; the rule says no time. -/
def Obligations.NopCompletes : Prop :=
  (∀ s : State, exec .nop s = .next { s with
    dLen := 0, errCode := 0, errOp := s.operands.cmd.extractLsb' 0 8, done := true, phase := .idle }) ∧
  (∀ (s : State) (cur : Params), s.phase = .run cur → cur.cmd = 0 →
    engineMove s = .next { s with dLen := 0, errCode := 0, errOp := 0, done := true, phase := .idle }) ∧
  (∀ (c : Config) (ms : List Move), ∃ t u,
    ({ State.resetWith c with moves := .engine :: ms } : State).hostStep (hostWrite c 0x010 1) = .next t ∧
    t.phase = .run Params.reset ∧ decode Params.reset.cmd = .command .nop ∧ step t = .next u ∧
    readReg u .err = 0 ∧ readReg u .dLen = 0 ∧ readReg u .status = 2)

/-- Rule R151: the reference coefficients. With `h` the sinc factor and `w` the Hamming window at index `i` of the lower
half, the values are mirrored, summed in ascending order and divided by the sum; there are none when the sum is not a
positive finite number. -/
def Obligations.DesignFormula : Prop :=
  ∀ (fc : F64) (n : Nat),
    let c := F64.div (F64.ofNat (n - 1)) F64.two
    let t := fun i : Nat => F64.mul (F64.mul F64.two fc) (F64.sub (F64.ofNat i) c)
    let h := fun i : Nat =>
      if F64.eq (t i) F64.zero = true then F64.one
      else F64.div (F64.sin64 (F64.mul F64.pi64 (t i))) (F64.mul F64.pi64 (t i))
    let w := fun i : Nat => F64.sub F64.c054 (F64.mul F64.c046
      (F64.cos64 (F64.div (F64.mul (F64.mul F64.two F64.pi64) (F64.ofNat i)) (F64.ofNat (n - 1)))))
    let g := fun i : Nat => if i ≤ (n - 1) / 2 then F64.mul (h i) (w i) else F64.mul (h (n - 1 - i)) (w (n - 1 - i))
    let total := (List.range n).foldl (fun acc i => F64.add acc (g i)) F64.zero
    design fc 1 = some [F64.one] ∧
    (2 ≤ n → (total.isFinite = true ∧ F64.lt F64.zero total = true →
        design fc n = some ((List.range n).map fun i => F64.div (g i) total)) ∧
      (¬ (total.isFinite = true ∧ F64.lt F64.zero total = true) → design fc n = none))

/-- Rules R126, R127, R152: `FIRDES` completes with success and writes the `NTAPS` coefficients of the design at `D_BASE`:
each is the word delivered for the reference coefficient of its index in the lower half (the single tap is the exact
`1.0`). Nothing else in DMEM changes, and `RES0` and `RES1` keep their values.
Free values: log 2, 4. -/
def Obligations.FirdesCompletes : Prop :=
  ∀ s : State, Ready .firdes s →
    let n := s.operands.nTaps.toNat
    let d := s.operands.dBase.toNat
    ∃ t taps, exec .firdes s = .next t ∧ design (F64.ofWord s.operands.cutoff) n = some taps ∧ taps.length = n ∧
      (∀ i, i < n → Memory.readWord t.dmem (d + i) = some (if n = 1 then F64.one.bits
        else s.outputWord (.taps (F64.ofWord s.operands.cutoff) n) (min i (n - 1 - i)) (taps.getD (min i (n - 1 - i)) F64.zero))) ∧
      SameOutside s t [⟨d, n⟩] ∧ CommandLeaves s t ∧ Succeeded s t n ∧ t.res0 = s.res0 ∧ t.res1 = s.res1

/-- Rules R153, R155: whatever the datapath, one tap is the exact `1.0` for every legal cutoff, and the coefficients
`FIRDES` writes are symmetric bit for bit. -/
def Obligations.FirdesExactProperties : Prop :=
  (∀ s : State, s.operands.nTaps = 1 → s.operands.CutoffLegal → s.operands.dBase.toNat + 1 ≤ s.cfg.dmemWords →
    ∃ t, exec .firdes s = .next t ∧ t.errCode = 0 ∧ t.dLen = 1 ∧
      Memory.readWord t.dmem s.operands.dBase.toNat = some 0x3FF0000000000000) ∧
  (∀ s t : State, exec .firdes s = .next t → t.errCode = 0 →
    ∀ i, i < s.operands.nTaps.toNat →
      ∃ v, Memory.readWord t.dmem (s.operands.dBase.toNat + i) = some v ∧
        Memory.readWord t.dmem (s.operands.dBase.toNat + (s.operands.nTaps.toNat - 1 - i)) = some v)

/-- Rules R170 to R172: `CONV` completes with success and writes at `D_BASE` the `A_LEN` output words. Word `i` is the one
delivered for the sum over the taps, in ascending order from `+0.0`, of tap `k` times the zero-padded sample
`i − k + cI`, each added by a multiply-accumulate step.
Free values: log 2, 4. -/
def Obligations.ConvCompletes : Prop :=
  ∀ s : State, Ready .convZero s →
    let n := s.operands.aLen.toNat
    let m := s.operands.bLen.toNat
    let d := s.operands.dBase.toNat
    ∃ t sig h, exec .convZero s = .next t ∧ s.operands.signalA.Holds s sig ∧ s.operands.bufferB.Holds s h ∧
      (∀ i, i < n → Memory.readWord t.dmem (d + i) = some (s.outputWord (.conv sig h) i
        ((List.range m).foldl (fun acc k => F64.mac s.cfg.macFused acc (h.getD k F64.zero)
          (let j : Int := (i : Int) - k + ((m - 1) / 2 : Nat)
           if 0 ≤ j ∧ j < n then sig.getD j.toNat F64.zero else F64.zero)) F64.zero))) ∧
      SameOutside s t [⟨d, n⟩] ∧ CommandLeaves s t ∧ Succeeded s t n ∧ t.res0 = s.res0 ∧ t.res1 = s.res1

/-- Rule R174 (e): one tap `1.0` gives each sample back, but for `−0.0`, which becomes `+0.0`; fused or not. -/
def Obligations.ConvSingleTapIdentity : Prop :=
  ∀ (fused : Bool) (sig : List F64) (i : Nat) (x : F64), sig[i]? = some x →
    convAt fused sig [F64.one] i = if x.isZero = true then F64.zero else x

/-- Rule R176: `LPF` completes with success, writes the designed coefficients at `B_BASE` and, at `D_BASE`, the words
delivered for the convolution of the signal with the coefficients written; `D_LEN` counts the output only.
Convolving with the words written is the model's reading, log 25. Free values: log 2, 4. -/
def Obligations.LpfCompletes : Prop :=
  ∀ s : State, Ready .lpfZero s →
    let n := s.operands.nTaps.toNat
    let len := s.operands.aLen.toNat
    let b := s.operands.bBase.toNat
    let d := s.operands.dBase.toNat
    ∃ (t : State) (sig taps : List F64) (words : List Word), exec .lpfZero s = .next t ∧ s.operands.signalA.Holds s sig ∧
      design (F64.ofWord s.operands.cutoff) n = some taps ∧ words.length = n ∧
      (∀ i, i < n → words[i]? = some (if n = 1 then F64.one.bits
        else s.outputWord (.taps (F64.ofWord s.operands.cutoff) n) (min i (n - 1 - i)) (taps.getD (min i (n - 1 - i)) F64.zero))) ∧
      (∀ i, i < n → Memory.readWord t.dmem (b + i) = words[i]?) ∧
      (∀ i, i < len → Memory.readWord t.dmem (d + i) =
        some ((State.delivered (tapDraws n) s).outputWord (.conv sig (words.map F64.ofWord)) i
          (convAt s.cfg.macFused sig (words.map F64.ofWord) i))) ∧
      SameOutside s t [⟨b, n⟩, ⟨d, len⟩] ∧ CommandLeaves s t ∧ Succeeded s t len ∧ t.res0 = s.res0 ∧ t.res1 = s.res1

/-- Rule R177: `LPF` leaves the DMEM and `D_LEN` that `FIRDES` with `D_BASE := B_BASE` followed by `CONV` with
`B_LEN := NTAPS` leave.
That words that are NaN agree byte for byte rests on the model's numbering of NaN encodings, log 4 (rule R13 draws each
anew); that the words agree on a tolerant datapath rests on the model's convolving with the words written, log 25, and on its
draws being a function of the command and its operands, log 31. -/
def Obligations.LpfIsFirdesThenConv : Prop :=
  ∀ (s : State) (p : Params), s.phase = .run p → Ready .lpfZero s →
    ∃ t t₁ t₂, exec .lpfZero s = .next t ∧
      exec .firdes { s with phase := .run { p with dBase := p.bBase } } = .next t₁ ∧
      exec .convZero { t₁ with phase := .run { p with bLen := p.nTaps } } = .next t₂ ∧
      t₁.errCode = 0 ∧ t₂.errCode = 0 ∧ t.dmem = t₂.dmem ∧ t.dLen = t₂.dLen

/-- Rules R193 to R196: `RFFT` completes with success and writes at `D_BASE` the half spectrum, real part then imaginary
part of each bin: the radix-2 cascade's for a power of two from 2 up when that is the reference, else the direct form's.
The direct form adds the samples in ascending order from `+0.0`, with the twiddle of index `k·n mod N`. The cascade starts
from the samples in the order of their reversed indices, makes the stages `2, 4, …, N` (see `RadixStageButterflies`) and
keeps the first `N/2 + 1` places.
Free values: log 2, 4. -/
def Obligations.RfftCompletes : Prop :=
  ∀ s : State, Ready .rfft s →
    let n := s.operands.aLen.toNat
    let d := s.operands.dBase.toNat
    ∃ t sig bins, exec .rfft s = .next t ∧ s.operands.signalA.Holds s sig ∧ bins.length = n / 2 + 1 ∧
      (s.cfg.fftRef = .radix2 → ∀ l, 1 ≤ l → n = 2 ^ l → ∃ a : Nat → List Bin, (a 0).length = n ∧
        (∀ j, j < n → ∃ r, r < n ∧ (∀ b, b < l → r.testBit b = j.testBit (l - 1 - b)) ∧
          (a 0)[j]? = some (sig.getD r F64.zero, F64.zero)) ∧
        (∀ q, q < l → a (q + 1) = stage n (2 ^ (q + 1)) (a q)) ∧
        bins = (a l).take (n / 2 + 1)) ∧
      (s.cfg.fftRef = .direct ∨ (¬ ∃ l, 1 ≤ l ∧ n = 2 ^ l) → ∀ k, k ≤ n / 2 →
        bins[k]? = some ((List.range n).foldl (fun acc i =>
          (F64.mac s.cfg.macFused acc.1 (sig.getD i F64.zero) (twiddle n (k * i % n)).1,
            F64.msub s.cfg.macFused acc.2 (sig.getD i F64.zero) (twiddle n (k * i % n)).2)) (F64.zero, F64.zero))) ∧
      (∀ k, k ≤ n / 2 →
        Memory.readWord t.dmem (d + 2 * k) = some (s.outputWord (.rfft sig) (2 * k) (bins.getD k (F64.zero, F64.zero)).1) ∧
        Memory.readWord t.dmem (d + 2 * k + 1) =
          some (s.outputWord (.rfft sig) (2 * k + 1) (bins.getD k (F64.zero, F64.zero)).2)) ∧
      SameOutside s t [⟨d, 2 * (n / 2 + 1)⟩] ∧ CommandLeaves s t ∧ Succeeded s t (2 * (n / 2 + 1)) ∧
      t.res0 = s.res0 ∧ t.res1 = s.res1

/-- Rule R191: the twiddle table, clause by clause; and its mirror, bit for bit in the cosine, and in the sine but at
`2m = N`, where both are the exact `+0.0`.
The exception is the model's reading, log 22. -/
def Obligations.TwiddleTable : Prop :=
  ∀ n m : Nat, m < n →
    (m = 0 → twiddle n m = (F64.one, F64.zero)) ∧
    (2 * m = n → twiddle n m = (F64.neg F64.one, F64.zero)) ∧
    (4 * m = n → twiddle n m = (F64.zero, F64.one)) ∧
    (4 * m = 3 * n → twiddle n m = (F64.zero, F64.neg F64.one)) ∧
    (n < 2 * m → 4 * m ≠ 3 * n → twiddle n m = ((twiddle n (n - m)).1, F64.neg (twiddle n (n - m)).2)) ∧
    (0 < m → 2 * m < n → 4 * m ≠ n →
      let a := F64.div (F64.mul (F64.mul F64.two F64.pi64) (F64.ofNat m)) (F64.ofNat n)
      twiddle n m = (F64.cos64 a, F64.sin64 a)) ∧
    (0 < m → (twiddle n (n - m)).1 = (twiddle n m).1 ∧
      (2 * m ≠ n → (twiddle n (n - m)).2 = F64.neg (twiddle n m).2))

/-- Rule R196: one butterfly, and where each stage of the cascade applies it: positions `q` and `q + span/2` of the same
block of `span` exchange, for the twiddle index `j·(N/span)`, `j` the place in the block.
A stage computed from the array before it: log 17. -/
def Obligations.RadixStageButterflies : Prop :=
  ∀ (n span base j : Nat) (a : List Bin), a.length = n → 2 ∣ span → span ∣ n → span ∣ base → base < n → j < span / 2 →
    let u := a.getD (base + j) (F64.zero, F64.zero)
    let b := a.getD (base + j + span / 2) (F64.zero, F64.zero)
    let wr := (twiddle n (j * (n / span))).1
    let wi := F64.neg (twiddle n (j * (n / span))).2
    let vr := F64.sub (F64.mul wr b.1) (F64.mul wi b.2)
    let vi := F64.add (F64.mul wr b.2) (F64.mul wi b.1)
    (stage n span a)[base + j]? = some (F64.add u.1 vr, F64.add u.2 vi) ∧
    (stage n span a)[base + j + span / 2]? = some (F64.sub u.1 vr, F64.sub u.2 vi) ∧ (stage n span a).length = n

/-- Rule R197 (d), for the direct form: with finite samples the imaginary part of bin 0, and of bin `N/2` when `N` is even,
is exactly `+0.0`. -/
def Obligations.DirectSpectrumRealEnds : Prop :=
  ∀ (fused : Bool) (sig : List F64), (∀ x ∈ sig, x.isFinite = true) →
    (dftBin fused sig 0).2 = F64.zero ∧
    (sig.length % 2 = 0 → (dftBin fused sig (sig.length / 2)).2 = F64.zero)

/-- Rules R198, R201: `MAG` completes with success and writes at `D_BASE` the magnitude of each bin.
Free values: log 2, 4. -/
def Obligations.MagCompletes : Prop :=
  ∀ s : State, Ready .mag s →
    let m := s.operands.aLen.toNat
    let a := s.operands.aBase.toNat
    let d := s.operands.dBase.toNat
    ∃ t bins, exec .mag s = .next t ∧ s.operands.spectrumA.HoldsBins s bins ∧
      (∀ k re im, k < m → Memory.readWord s.dmem (a + 2 * k) = some re → Memory.readWord s.dmem (a + 2 * k + 1) = some im →
        Memory.readWord t.dmem (d + k) = some (s.outputWord (.mag bins) k (F64.sqrt (F64.add
          (F64.mul (F64.ofWord re) (F64.ofWord re)) (F64.mul (F64.ofWord im) (F64.ofWord im)))))) ∧
      SameOutside s t [⟨d, m⟩] ∧ CommandLeaves s t ∧ Succeeded s t m ∧ t.res0 = s.res0 ∧ t.res1 = s.res1

/-- Rules R221, R222: `SNR` completes with success. With `noise` and `sig` the sums of rule R221 over the samples in
ascending order, `RES0` is `+inf` when the noise sum is a zero, else the word delivered for `10·log10(sig/noise)`. No DMEM
word and no other result register changes.
On a tolerant datapath too the zero test is the reference sum's, log 19. Free values: log 2, 4. -/
def Obligations.SnrCompletes : Prop :=
  ∀ s : State, Ready .snr s →
    let n := s.operands.aLen.toNat
    ∃ t r x, exec .snr s = .next t ∧ s.operands.signalA.Holds s r ∧ s.operands.bufferB.Holds s x ∧
      (let diff := fun i : Nat => F64.sub (x.getD i F64.zero) (r.getD i F64.zero)
       let noise := (List.range n).foldl (fun acc i => F64.add acc (F64.mul (diff i) (diff i))) F64.zero
       let sig := (List.range n).foldl
         (fun acc i => F64.add acc (F64.mul (r.getD i F64.zero) (r.getD i F64.zero))) F64.zero
       t.res0 = if F64.eq noise F64.zero = true then 0x7FF0000000000000
         else s.outputWord (.snr r x) 0 (F64.mul F64.ten (F64.log10 (F64.div sig noise)))) ∧
      t.dmem = s.dmem ∧ t.res1 = s.res1 ∧ CommandLeaves s t ∧ Succeeded s t 0

/-- Rule R224 (f): the SNR of a signal of finite samples against itself is `+inf`, and no error. -/
def Obligations.SnrAgainstItself : Prop :=
  ∀ s : State, Ready .snr s → s.operands.aBase = s.operands.bBase →
    (∀ r, s.operands.signalA.Holds s r → ∀ x ∈ r, x.isFinite = true) →
    ∃ t, exec .snr s = .next t ∧ t.res0 = 0x7FF0000000000000 ∧ t.errCode = 0

/-- Rules R227, R228: `PEAK` of a reference datapath completes with success. `RES1` is the lowest bin `k ≥ 1` whose
magnitude is NaN if there is one, else the lowest of the bins `k ≥ 1` with the largest magnitude; `RES0` is the word for
`k·fs/N`, `N` being `ORIG_LEN` (`peak.orig`) or `2·(A_LEN − 1)` (`peak.derive`). Bin 0 need hold no value.
Free value: log 4. -/
def Obligations.PeakCompletes : Prop :=
  ∀ (s : State) (i : Instr) (bins : List Bin), i ∈ [Instr.peakOrig, .peakDerive] → Ready i s →
    s.cfg.datapath = .reference → s.operands.searchedA.HoldsBins s bins →
    let m := s.operands.aLen.toNat
    let mag := fun k : Nat => magnitude (bins.getD (k - 1) (F64.zero, F64.zero))
    let n := if i = .peakOrig then s.operands.origLen.toNat else 2 * (m - 1)
    ∃ t k, exec i s = .next t ∧ 1 ≤ k ∧ k < m ∧ t.res1 = BitVec.ofNat 32 k ∧
      (((mag k).isNaN = true ∧ ∀ j, 1 ≤ j → j < k → (mag j).isNaN = false) ∨
        (∀ j, 1 ≤ j → j < m → (mag j).isNaN = false ∧ F64.le (mag j) (mag k) = true ∧
          (j < k → F64.lt (mag j) (mag k) = true))) ∧
      t.res0 = encodeF64 (s.draws + 1)
        (F64.div (F64.mul (F64.ofNat k) (F64.ofWord s.operands.fs)) (F64.ofNat n)) ∧
      t.dmem = s.dmem ∧ CommandLeaves s t ∧ Succeeded s t 0

/-- Rules R17, R227: `PEAK` completes with success on every datapath, with a bin of the searched range in `RES1`; `RES0` is
the word delivered for `k·fs/N` of that bin by the peak search over the bins it reads, all of them or those up to the first
whose magnitude is NaN. Rule R228 (b): when a bin `k` is the first whose magnitude is NaN, it completes with that bin,
whether or not the bins after `k`, or bin 0, hold values.
The bin drawn, and that a NaN decides on every datapath, is the model's reading, log 18; which words are read, log 26. -/
def Obligations.PeakRunsOnEveryDatapath : Prop :=
  (∀ (s : State) (i : Instr), i ∈ [Instr.peakOrig, .peakDerive] → Ready i s →
    let p := s.operands
    let n := if i = .peakOrig then p.origLen.toNat else 2 * (p.aLen.toNat - 1)
    ∃ t bins, exec i s = .next t ∧ 1 ≤ t.res1.toNat ∧ t.res1.toNat < p.aLen.toNat ∧
      (⟨p.aBase.toNat + 2, 2 * bins.length⟩ : Buffer).HoldsBins s bins ∧
      (∀ j, j + 1 < bins.length → (magnitude (bins.getD j (F64.zero, F64.zero))).isNaN = false) ∧
      (bins.length = p.aLen.toNat - 1 ∨ ∃ b, bins.getLast? = some b ∧ (magnitude b).isNaN = true) ∧
      t.res0 = s.outputWord (.peak (decide (i = .peakDerive)) bins (F64.ofWord p.fs) n) 1
        (F64.div (F64.mul (F64.ofNat t.res1.toNat) (F64.ofWord p.fs)) (F64.ofNat n)) ∧
      t.dmem = s.dmem ∧ CommandLeaves s t ∧ Succeeded s t 0) ∧
  (∀ (s : State) (i : Instr) (k : Nat) (bins : List Bin), i ∈ [Instr.peakOrig, .peakDerive] →
    let p := s.operands
    let mag := fun j : Nat => magnitude (bins.getD (j - 1) (F64.zero, F64.zero))
    let n := if i = .peakOrig then p.origLen.toNat else 2 * (p.aLen.toNat - 1)
    p.RateLegal → (i = .peakOrig → 1 ≤ p.origLen.toNat ∧ p.origLen.toNat / 2 + 1 = p.aLen.toNat) →
    p.spectrumA.Inside s → 1 ≤ k → k < p.aLen.toNat →
    (⟨p.aBase.toNat + 2, 2 * k⟩ : Buffer).HoldsBins s bins →
    (∀ j, 1 ≤ j → j < k → (mag j).isNaN = false) → (mag k).isNaN = true →
    ∃ t, exec i s = .next t ∧ t.res1 = BitVec.ofNat 32 k ∧
      t.res0 = s.outputWord (.peak (decide (i = .peakDerive)) bins (F64.ofWord p.fs) n) 1
        (F64.div (F64.mul (F64.ofNat k) (F64.ofWord p.fs)) (F64.ofNat n)) ∧
      t.dmem = s.dmem ∧ CommandLeaves s t ∧ Succeeded s t 0)

/-! ### Frames -/

/-- Rules R46, R47, R126, R128: the commands that store, when they go on, change no byte outside their destination buffers,
no parameter register, `CTRL` or `OVR`, and neither `RES0` nor `RES1`; nothing outside the block moves. -/
def Obligations.StoringFrame : Prop :=
  ∀ (s t : State) (i : Instr), i ∈ [Instr.firdes, .convZero, .lpfZero, .rfft, .mag] → exec i s = .next t →
    let p := s.operands
    (i = .firdes → SameOutside s t [⟨p.dBase.toNat, p.nTaps.toNat⟩]) ∧
    (i = .convZero ∨ i = .mag → SameOutside s t [⟨p.dBase.toNat, p.aLen.toNat⟩]) ∧
    (i = .lpfZero → SameOutside s t [⟨p.bBase.toNat, p.nTaps.toNat⟩, ⟨p.dBase.toNat, p.aLen.toNat⟩]) ∧
    (i = .rfft → SameOutside s t [⟨p.dBase.toNat, 2 * (p.aLen.toNat / 2 + 1)⟩]) ∧
    t.res0 = s.res0 ∧ t.res1 = s.res1 ∧ CommandLeaves s t ∧ t.phase = .idle ∧ t.done = true ∧
    t.errOp = p.cmd.extractLsb' 0 8

/-- Rules R46, R47, R126, R128: the commands that store nothing, when they go on, change no byte of DMEM, no parameter
register, `CTRL` or `OVR`; `NOP` leaves `RES0` and `RES1`, `SNR` leaves `RES1`. -/
def Obligations.RegisterOnlyFrame : Prop :=
  ∀ (s t : State) (i : Instr), i ∈ [Instr.nop, .snr, .peakOrig, .peakDerive] → exec i s = .next t →
    (∀ a, Memory.read t.dmem a = Memory.read s.dmem a) ∧ t.dmem = s.dmem ∧
    (i = .nop → t.res0 = s.res0) ∧ (i = .nop ∨ i = .snr → t.res1 = s.res1) ∧
    CommandLeaves s t ∧ t.dLen = 0 ∧ t.phase = .idle ∧ t.done = true ∧ t.errOp = s.operands.cmd.extractLsb' 0 8

/-- Rule R128: a command's outcome depends on no parameter register that its row does not list. Rule R175, and for every
command conflict C9: the values a command writes are a function of the values of its operands: the same command run twice,
at whatever time and wherever its buffers lie, writes the same values, on every datapath; and no step changes what that
function is.
That the function is one of the values read, the same for `LPF` as for `FIRDES` and `CONV`, is the model's reading, log 31;
the encoding of a NaN is free, log 4. -/
def Obligations.CommandReadsOnlyItsRegisters : Prop :=
  (∀ (i : Instr) (s : State) (p q : Params), q.cmd = p.cmd →
    (i ∈ [Instr.convZero, .lpfZero, .rfft, .mag, .snr, .peakOrig, .peakDerive] → q.aBase = p.aBase ∧ q.aLen = p.aLen) →
    (i ∈ [Instr.convZero, .lpfZero, .snr] → q.bBase = p.bBase) →
    (i ∈ [Instr.convZero, .snr] → q.bLen = p.bLen) →
    (i ∈ [Instr.firdes, .convZero, .lpfZero, .rfft, .mag] → q.dBase = p.dBase) →
    (i ∈ [Instr.firdes, .lpfZero] → q.nTaps = p.nTaps ∧ q.cutoff = p.cutoff) →
    (i ∈ [Instr.peakOrig, .peakDerive] → q.fs = p.fs) →
    (i = .peakOrig → q.origLen = p.origLen) →
    exec i { s with phase := .run q } = exec i { s with phase := .run p }) ∧
  (∀ s t : State, step s = .next t → t.cfg = s.cfg ∧ t.drawn = s.drawn) ∧
  (∀ (i : Instr) (s u : State), u.cfg = s.cfg → u.drawn = s.drawn → Ready i s → Ready i u →
    let p := s.operands
    let q := u.operands
    let value := fun (t : State) (w : Nat) => (Memory.readWord t.dmem w).map F64.ofWord
    ∃ t v, exec i s = .next t ∧ exec i u = .next v ∧
      (i = .firdes → p.nTaps = q.nTaps → p.cutoff = q.cutoff →
        ∀ k, k < p.nTaps.toNat → value v (q.dBase.toNat + k) = value t (p.dBase.toNat + k)) ∧
      (i = .convZero → ∀ sig h, p.signalA.Holds s sig → p.bufferB.Holds s h → q.signalA.Holds u sig → q.bufferB.Holds u h →
        ∀ k, k < sig.length → value v (q.dBase.toNat + k) = value t (p.dBase.toNat + k)) ∧
      (i = .lpfZero → p.nTaps = q.nTaps → p.cutoff = q.cutoff → ∀ sig, p.signalA.Holds s sig → q.signalA.Holds u sig →
        (∀ k, k < p.nTaps.toNat → value v (q.bBase.toNat + k) = value t (p.bBase.toNat + k)) ∧
        ∀ k, k < sig.length → value v (q.dBase.toNat + k) = value t (p.dBase.toNat + k)) ∧
      (i = .rfft → ∀ sig, p.signalA.Holds s sig → q.signalA.Holds u sig →
        ∀ k, k < 2 * (sig.length / 2 + 1) → value v (q.dBase.toNat + k) = value t (p.dBase.toNat + k)) ∧
      (i = .mag → ∀ bins, p.spectrumA.HoldsBins s bins → q.spectrumA.HoldsBins u bins →
        ∀ k, k < bins.length → value v (q.dBase.toNat + k) = value t (p.dBase.toNat + k)) ∧
      (i = .snr → ∀ x y, p.signalA.Holds s x → p.bufferB.Holds s y → q.signalA.Holds u x → q.bufferB.Holds u y →
        F64.ofWord v.res0 = F64.ofWord t.res0) ∧
      (i = .peakOrig ∨ i = .peakDerive → p.fs = q.fs → (i = .peakOrig → p.origLen = q.origLen) →
        ∀ bins, p.searchedA.HoldsBins s bins → q.searchedA.HoldsBins u bins →
        v.res1 = t.res1 ∧ F64.ofWord v.res0 = F64.ofWord t.res0))

/-! ### Reset, invariant, completion -/

/-- Rule R270: after power-on reset every register of rule R32 reads its reset value, the engine is idle, `irq` is 0 and
every DMEM word is unspecified; a reset pulse while the block runs does the same. -/
def Obligations.ResetState : Prop :=
  (∀ (c : Config) (r : Reg), r ≠ .id → r ≠ .caps → readReg (State.resetWith c) r = 0) ∧
  (∀ c : Config, readReg (State.resetWith c) .id = 0x5452535000070001 ∧ (State.resetWith c).phase = .idle ∧
    (State.resetWith c).irq = false ∧ (State.resetWith c).cfg = c ∧
    ∀ w, Memory.readWord (State.resetWith c).dmem w = none) ∧
  State.reset = State.resetWith Config.implementation ∧
  (∀ (s : State) (rest : List Move), s.moves = .powerOn :: rest → ∃ t, step s = .next t ∧ t.cfg = s.cfg ∧
    (∀ r : Reg, readReg t r = readReg (State.resetWith s.cfg) r) ∧ t.phase = .idle ∧ t.irq = false ∧
    ∀ w, Memory.readWord t.dmem w = none)

/-- The invariant holds after reset, whatever the configuration. -/
def Obligations.InvHoldsAtReset : Prop := State.reset.Inv ∧ ∀ c : Config, (State.resetWith c).Inv

/-- Every step keeps the invariant: DMEM in canonical form, inside its window and specified word by word; the copied
operands live; `BUSY` never with `DONE` or `ERRF`; `ERRF` with a code; codes 0 to 6; `D_LEN` 0 after an error and never
above the size of DMEM. -/
def Obligations.StepKeepsInv : Prop := ∀ (s t : State), s.Inv → step s = .next t → t.Inv

/-- Rule R285: every command completes unless a reset comes first. From a busy state some run of the block, of at most one
step more than there are moves, ends with the engine idle, or stops at an unspecified word. It ends with `DONE` set and the
command's opcode in `ERR.OP`, unless its last move is a soft reset or a reset pulse.
Counting a run by the list of moves is the model's choice, log 6. -/
def Obligations.EveryCommandCompletes : Prop :=
  ∀ (s : State) (cur : Params), s.phase = .run cur → ∃ k, 1 ≤ k ∧ k ≤ s.moves.length + 1 ∧
    ((∃ t, Sys2Proof.core.run k s = .next t ∧ t.busy = false ∧
        ((t.done = true ∧ t.errOp = cur.cmd.extractLsb' 0 8) ∨
          ∃ m, s.moves[k - 1]? = some m ∧ m.resets s.cfg = true)) ∨
      (∃ w, Sys2Proof.core.run k s = .fault (.unspecifiedWord w)))

/-- Rule R250: `irq` is `IE AND DONE`: a completion asserts it when `IE` is set, an accepted start and a write of 1 to
`DONE` drop it, and setting `IE` while `DONE = 1` asserts it at once. No step drops it but a write of 1 to `DONE`, a write
to `CTRL` that resets, clears `IE` or starts a command, and a reset pulse. -/
def Obligations.InterruptFollowsDone : Prop :=
  (∀ s : State, s.irq = (s.ie && s.done)) ∧
  (∀ (s t : State) (cur : Params), s.phase = .run cur → engineMove s = .next t → t.irq = s.ie) ∧
  (∀ (s : State) (v : Word), v.getLsbD 1 = true →
    ∃ t, s.hostStep (hostWrite s.cfg 0x018 v) = .next t ∧ t.irq = false) ∧
  (∀ (s : State) (v : Word), v.getLsbD 0 = false → v.getLsbD 1 = false →
    ∃ t, s.hostStep (hostWrite s.cfg 0x010 v) = .next t ∧ t.irq = (v.getLsbD 2 && s.done)) ∧
  (∀ (s : State) (v : Word), s.phase = .idle → v.getLsbD 0 = true →
    ∃ t, s.hostStep (hostWrite s.cfg 0x010 v) = .next t ∧ t.irq = false) ∧
  (∀ (s : State) (v : Word), v.getLsbD 1 = true →
    ∃ t, s.hostStep (hostWrite s.cfg 0x010 v) = .next t ∧ t.irq = false) ∧
  (∀ s t : State, s.irq = true → step s = .next t → t.irq = false →
    (∃ rest, s.moves = .powerOn :: rest) ∨
    ∃ a rest v, s.moves = .host a :: rest ∧ a.kind = .write v ∧
      ((target s.cfg a = .register (some .status) ∧ v.getLsbD 1 = true) ∨
        (target s.cfg a = .register (some .ctrl) ∧
          (v.getLsbD 1 = true ∨ v.getLsbD 2 = false ∨ (v.getLsbD 0 = true ∧ s.phase = .idle)))))

/-! ### Numerics -/

/-- Rule R11: on finite operands the sum, the difference, the product, the quotient (by a nonzero value) and the fused
multiply-add are the exact real result rounded once to nearest, ties to even; whole numbers below `2^53` convert
exactly; `-.a` flips the sign.
The rest is the model's, taken from IEEE 754, which the rule names and does not write out, log 24: a result from the overflow
bound on is an infinity; a NaN operand gives NaN; the results at infinities; the quotient by a zero; the sign of an exact
zero. -/
def Obligations.RoundedToNearest : Prop :=
  (∀ a b : F64, a.isFinite = true → b.isFinite = true →
    (F64.add a b).RoundsTo (a.toReal + b.toReal) ∧ (F64.sub a b).RoundsTo (a.toReal - b.toReal) ∧
    (F64.mul a b).RoundsTo (a.toReal * b.toReal) ∧
    (b.isZero = false → (F64.div a b).RoundsTo (a.toReal / b.toReal)) ∧
    ∀ c : F64, c.isFinite = true → (F64.fma a b c).RoundsTo (a.toReal * b.toReal + c.toReal)) ∧
  (∀ n : Nat, n < 2 ^ 53 → (F64.ofNat n).isFinite = true ∧ (F64.ofNat n).toReal = n ∧ (F64.ofNat n).isNeg = false) ∧
  (∀ a : F64, a ≠ .nan → (F64.neg a).isNeg = !a.isNeg ∧ (F64.neg a).toEReal = -a.toEReal) ∧
  -- NaN operands
  (∀ a b : F64, a = .nan ∨ b = .nan →
    F64.add a b = .nan ∧ F64.sub a b = .nan ∧ F64.mul a b = .nan ∧ F64.div a b = .nan ∧ ∀ c, F64.fma a b c = .nan) ∧
  (∀ a b : F64, F64.fma a b .nan = .nan) ∧
  -- infinities
  (∀ s t : Bool,
    F64.add (.inf s) (.inf t) = (if s = t then .inf s else .nan) ∧
    F64.sub (.inf s) (.inf t) = (if s = t then .nan else .inf s) ∧
    F64.mul (.inf s) (.inf t) = .inf (s ^^ t) ∧ F64.div (.inf s) (.inf t) = .nan) ∧
  (∀ (s : Bool) (b : F64), b.isFinite = true →
    F64.add (.inf s) b = .inf s ∧ F64.add b (.inf s) = .inf s ∧
    F64.sub (.inf s) b = .inf s ∧ F64.sub b (.inf s) = .inf (!s) ∧
    F64.mul (.inf s) b = (if b.isZero = true then .nan else .inf (s ^^ b.isNeg)) ∧
    F64.mul b (.inf s) = (if b.isZero = true then .nan else .inf (s ^^ b.isNeg)) ∧
    F64.div (.inf s) b = .inf (s ^^ b.isNeg) ∧ F64.div b (.inf s) = .fin (s ^^ b.isNeg) 0 0) ∧
  (∀ a b c : F64, a ≠ .nan → b ≠ .nan → c ≠ .nan → a.isFinite = false ∨ b.isFinite = false →
    F64.fma a b c = if a.isZero = true ∨ b.isZero = true ∨ c = .inf (!(a.isNeg ^^ b.isNeg)) then .nan
      else .inf (a.isNeg ^^ b.isNeg)) ∧
  (∀ (a b : F64) (s : Bool), a.isFinite = true → b.isFinite = true → F64.fma a b (.inf s) = .inf s) ∧
  -- quotients by a zero, and exact zeros
  (∀ a b : F64, a.isFinite = true → b.isFinite = true →
    (b.isZero = true → F64.div a b = if a.isZero = true then .nan else .inf (a.isNeg ^^ b.isNeg)) ∧
    (a.toReal + b.toReal = 0 → F64.add a b = .fin (a.isNeg && b.isNeg) 0 0) ∧
    (a.toReal - b.toReal = 0 → F64.sub a b = .fin (a.isNeg && !b.isNeg) 0 0) ∧
    (a.isZero = true ∨ b.isZero = true → F64.mul a b = .fin (a.isNeg ^^ b.isNeg) 0 0) ∧
    (a.isZero = true → b.isZero = false → F64.div a b = .fin (a.isNeg ^^ b.isNeg) 0 0) ∧
    ∀ c : F64, c.isFinite = true → a.toReal * b.toReal + c.toReal = 0 →
      F64.fma a b c = .fin ((a.isNeg ^^ b.isNeg) && c.isNeg) 0 0)

/-- Rule R11: the square root of a finite value that is not negative is its exact real root rounded to nearest, ties to
even. That the root of a zero is that zero, of a negative value, of `−inf` and of NaN is NaN, and of `+inf` is `+inf`, is the
model's, taken from IEEE 754, which the rule names and does not write out: log 24. -/
def Obligations.RootRoundedToNearest : Prop :=
  (∀ a : F64, a.isFinite = true →
    (a.isZero = true → F64.sqrt a = a) ∧
    (a.isZero = false → a.isNeg = true → F64.sqrt a = .nan) ∧
    (a.isNeg = false → (F64.sqrt a).RoundsTo (Real.sqrt a.toReal))) ∧
  F64.sqrt (.inf false) = .inf false ∧ F64.sqrt (.inf true) = .nan ∧ F64.sqrt .nan = .nan

/-- Rule R12: the comparisons are the ordered ones: false when an operand is NaN, `+0.0 == -0.0`, and otherwise the order of
the extended real numbers; `isnan` and `isfinite`. -/
def Obligations.ComparisonsOrdered : Prop :=
  (∀ a : F64, F64.lt a .nan = false ∧ F64.lt .nan a = false ∧ F64.le a .nan = false ∧ F64.le .nan a = false ∧
    F64.eq a .nan = false ∧ F64.eq .nan a = false) ∧
  (∀ a b : F64, a ≠ .nan → b ≠ .nan →
    (F64.lt a b = true ↔ a.toEReal < b.toEReal) ∧ (F64.le a b = true ↔ a.toEReal ≤ b.toEReal) ∧
    (F64.eq a b = true ↔ a.toEReal = b.toEReal)) ∧
  F64.eq F64.zero (F64.neg F64.zero) = true ∧
  (∀ a : F64, (a.isNaN = true ↔ a = .nan) ∧ (a.isFinite = true ↔ a ≠ .nan ∧ a ≠ .inf false ∧ a ≠ .inf true))

/-- Rules R10, R13: a word that is no NaN encoding is its value's encoding; a value's delivered word reads back as the
value; a NaN is delivered as a NaN encoding, whichever is drawn. Rule R17: an output word is the encoding of the value
computed, on a reference datapath the reference result, on a tolerant datapath the value of the word drawn for the operation.
Free values: log 2, 4; one NaN for every encoding: log 23; the draw a function of the operation: log 31. -/
def Obligations.WordsHoldValues : Prop :=
  (∀ w : Word, (F64.ofWord w).isNaN = false → (F64.ofWord w).bits = w) ∧
  (∀ w : Word, (F64.ofWord w).isNaN = true ↔ w.extractLsb' 52 11 = 0x7FF ∧ w.extractLsb' 0 52 ≠ 0) ∧
  (∀ (n : Nat) (a : F64), F64.ofWord (encodeF64 n a) = a) ∧
  (∀ (s : State) (op : Operation) (j : Nat) (a : F64),
    (s.cfg.datapath = .reference → s.outputWord op j a = encodeF64 (s.draws + j) a) ∧
    (s.cfg.datapath = .tolerant → s.outputWord op j a = encodeF64 (s.draws + j) (F64.ofWord (s.drawnWord op j))) ∧
    (a.isNaN = false → encodeF64 (s.draws + j) a = a.bits) ∧
    (∀ ws rest, s.drawn = (op, ws) :: rest → s.drawnWord op j = (ws[j]?).getD (Config.freeWord op j)) ∧
    (s.drawn = [] → s.drawnWord op j = Config.freeWord op j))

/-- Rule R16: `PI64`, `C054` and `C046` have the encodings given, and no finite value is nearer to π, 0.54 and 0.46. -/
def Obligations.ConstantsNearest : Prop :=
  (F64.pi64.bits = 0x400921FB54442D18 ∧ F64.c054.bits = 0x3FE147AE147AE148 ∧ F64.c046.bits = 0x3FDD70A3D70A3D71) ∧
  (∀ c : F64, c.isFinite = true →
    |F64.pi64.toReal - Real.pi| ≤ |c.toReal - Real.pi| ∧
    |F64.c054.toReal - 54 / 100| ≤ |c.toReal - 54 / 100| ∧
    |F64.c046.toReal - 46 / 100| ≤ |c.toReal - 46 / 100|)

/-- Rule R15: the four laws of `SIN64`, `COS64` and `LOG10_64`.
That the unit in the last place of law (d) is that of the exact real number is the model's choice, log 29. -/
def Obligations.ElementaryLaws : Prop :=
  (∀ a : F64, F64.sin64 (F64.neg a) = F64.neg (F64.sin64 a) ∧ F64.cos64 (F64.neg a) = F64.cos64 a) ∧
  (F64.sin64 F64.zero = F64.zero ∧ F64.cos64 F64.zero = F64.one ∧ F64.log10 F64.one = F64.zero ∧
    F64.log10 F64.zero = .inf true ∧ F64.log10 (.inf false) = .inf false ∧ F64.log10 .nan = .nan) ∧
  (∀ a : F64, F64.lt a F64.zero = true → F64.log10 a = .nan) ∧
  (∀ a : F64, a.isFinite = false → F64.sin64 a = .nan ∧ F64.cos64 a = .nan) ∧
  (∀ a : F64, a.isFinite = true →
    (F64.sin64 a).Faithful (Real.sin a.toReal) ∧ (F64.cos64 a).Faithful (Real.cos a.toReal) ∧
    (0 < a.toReal → (F64.log10 a).Faithful (Real.logb 10 a.toReal)))

/-- Rules R17 (a), R173, R192, R198, R223, R229 (e): when the words a tolerant datapath delivers are those of a conforming
implementation, every computed word of DMEM, of `RES0` and of `RES1` conforms to the exact result of its own operands: the
coefficients of `FIRDES` and of `LPF`, lower and upper half, the outputs of `CONV` and of `LPF`, the bins of `RFFT`, the
magnitudes of `MAG`, the SNR, the peak bin and its frequency.
The reading of `FP_TOL` and what conforms where a result is not finite: log 3, 27, 28. A NaN decides the peak bin exactly:
log 18. -/
def Obligations.TolerantOutputsWithin : Prop :=
  ∀ (s t : State) (i : Instr), s.cfg.datapath = .tolerant → Ready i s → ConformingDraws i s → exec i s = .next t →
    let p := s.operands
    let n := p.nTaps.toNat
    let tol := (s.cfg.fpTol : ℝ)
    let conforms := fun (base w : Nat) (r : F64) (x : Option ℝ) =>
      ∃ v, Memory.readWord t.dmem (base + w) = some v ∧ F64.Conforms tol r x (F64.ofWord v)
    let conformsBin := fun (w : Nat) (r : F64) (x : Option ℝ) =>
      ∃ v, Memory.readWord t.dmem (p.dBase.toNat + w) = some v ∧
        (F64.Conforms tol r x (F64.ofWord v) ∨ (x = none ∧ F64.ofWord v = .nan))
    (i = .firdes ∨ i = .lpfZero → n ≠ 1 → ∀ taps, design (F64.ofWord p.cutoff) n = some taps → ∀ k, k < n →
      conforms (if i = .firdes then p.dBase.toNat else p.bBase.toNat) k (taps.getD k F64.zero)
        (Exact.tap? (F64.ofWord p.cutoff).toReal n k)) ∧
    (i = .convZero → ∀ sig h : List F64, p.signalA.Holds s sig → p.bufferB.Holds s h →
      ∀ k, k < sig.length → conforms p.dBase.toNat k (convAt s.cfg.macFused sig h k) (Exact.conv? sig h k)) ∧
    (i = .lpfZero → ∀ sig h : List F64, p.signalA.Holds s sig → p.tapsB.Holds t h →
      ∀ k, k < sig.length → conforms p.dBase.toNat k (convAt s.cfg.macFused sig h k) (Exact.conv? sig h k)) ∧
    (i = .rfft → ∀ sig : List F64, p.signalA.Holds s sig → ∀ (k : Nat) (b : Bin), (spectrum s.cfg sig)[k]? = some b →
      conformsBin (2 * k) b.1 (Exact.binRe? sig k) ∧ conformsBin (2 * k + 1) b.2 (Exact.binIm? sig k)) ∧
    (i = .mag → ∀ bins : List Bin, p.spectrumA.HoldsBins s bins → ∀ (k : Nat) (b : Bin), bins[k]? = some b →
      conforms p.dBase.toNat k (magnitude b) (Exact.mag? b.1 b.2)) ∧
    (i = .snr → ∀ x y : List F64, p.signalA.Holds s x → p.bufferB.Holds s y →
      F64.eq (powerSums x y).1 F64.zero = false →
      F64.Conforms tol (snrOf (powerSums x y)) (Exact.snr? x y) (F64.ofWord t.res0)) ∧
    (i = .peakOrig ∨ i = .peakDerive →
      let k := t.res1.toNat
      let len := if i = .peakOrig then p.origLen.toNat else 2 * (p.aLen.toNat - 1)
      let fs := F64.ofWord p.fs
      F64.Conforms tol (peakFreq k fs len) (some (Exact.freq k fs.toReal len)) (F64.ofWord t.res0) ∧
      ∀ (bins : List Bin) (ref : Nat), p.searchedA.HoldsBins s bins → ReferencePeak bins ref →
        ((∃ b ∈ bins, (magnitude b).isNaN = true) → k = ref) ∧
        ((∀ b ∈ bins, (magnitude b).isNaN = false) → PeakConforms tol bins ref k))
end

