-- ==== Sys2Proof/Laws/Memory.lean ====
section
/-! SUPPORT. The laws of DMEM: reading after writing, what a write leaves alone, and the canonical form that every operation keeps. -/

namespace Sys2Proof
namespace Machine
namespace Memory

/-! ### Bytes -/

@[simp] theorem read_nil (a : Nat) : read [] a = none := rfl

theorem read_write (m : Memory) (a : Nat) (v : Byte) (b : Nat) :
    read (write m a v) b = if a = b then some v else read m b := by
  induction m with
  | nil => simp [write, read]
  | cons c m ih =>
    obtain ⟨k, u⟩ := c
    simp only [write]
    split
    · simp only [read]
    · split
      · subst a; simp only [read]; split <;> rfl
      · simp only [read, ih]
        by_cases hk : k = b <;> by_cases ha : a = b <;> simp_all

theorem read_erase (m : Memory) (a b : Nat) : read (erase m a) b = if a = b then none else read m b := by
  induction m with
  | nil => simp [erase]
  | cons c m ih =>
    obtain ⟨k, u⟩ := c
    simp only [erase, List.filter_cons] at ih ⊢
    by_cases hk : k = a
    · subst hk
      simp only [bne_self_eq_false, Bool.false_eq_true, if_false, ih, read]
      split <;> rfl
    · have : (k != a) = true := by simp [hk]
      simp only [this, if_true, read, ih]
      by_cases h1 : k = b <;> by_cases h2 : a = b <;> simp_all

theorem mem_write {m : Memory} {a : Nat} {v : Byte} {c : Host.Cell} (h : c ∈ write m a v) : c = (a, v) ∨ c ∈ m := by
  induction m with
  | nil => simpa [write] using h
  | cons d m ih =>
    obtain ⟨k, u⟩ := d
    simp only [write] at h
    split at h
    · simpa using h
    · split at h
      · rcases List.mem_cons.1 h with h | h
        · exact .inl h
        · exact .inr (List.mem_cons_of_mem _ h)
      · rcases List.mem_cons.1 h with h | h
        · exact .inr (h ▸ List.mem_cons_self)
        · rcases ih h with h | h
          · exact .inl h
          · exact .inr (List.mem_cons_of_mem _ h)

theorem wf_write {m : Memory} (h : m.wf) (a : Nat) (v : Byte) : (write m a v).wf := by
  induction m with
  | nil => simp [write, wf]
  | cons c m ih =>
    obtain ⟨k, u⟩ := c
    obtain ⟨h1, h2⟩ := List.pairwise_cons.1 h
    simp only [write]
    split
    · rename_i hlt
      refine List.pairwise_cons.2 ⟨?_, h⟩
      intro d hd
      rcases List.mem_cons.1 hd with rfl | hd
      · exact hlt
      · exact Nat.lt_trans hlt (h1 d hd)
    · split
      · rename_i heq; subst heq
        exact List.pairwise_cons.2 ⟨h1, h2⟩
      · refine List.pairwise_cons.2 ⟨?_, ih h2⟩
        intro d hd
        rcases mem_write hd with rfl | hd
        · simp only; omega
        · exact h1 d hd

theorem wf_erase {m : Memory} (h : m.wf) (a : Nat) : (erase m a).wf := List.Pairwise.filter _ h

theorem mem_erase {m : Memory} {a : Nat} {c : Host.Cell} (h : c ∈ erase m a) : c ∈ m := (List.mem_filter.1 h).1

/-- In a memory in canonical form the bytes that are listed are the bytes that are read. -/
theorem read_isSome_iff {m : Memory} {a : Nat} : (read m a).isSome = true ↔ ∃ v, (a, v) ∈ m := by
  induction m with
  | nil => simp
  | cons c m ih =>
    obtain ⟨k, u⟩ := c
    simp only [read]
    by_cases h : k = a
    · subst h; simp
    · rw [if_neg h, ih]; simp [Ne.symm h]

/-! ### Runs of bytes -/

theorem read_writeBytes (m : Memory) (a n v b : Nat) :
    read (writeBytes m a n v) b = if a ≤ b ∧ b < a + n then some (BitVec.ofNat 8 (v / 256 ^ (b - a))) else read m b := by
  induction n generalizing m a v with
  | zero => simp only [writeBytes]; rw [if_neg (by omega)]
  | succ n ih =>
    simp only [writeBytes, ih, read_write]
    by_cases h1 : a + 1 ≤ b ∧ b < a + 1 + n
    · rw [if_pos h1, if_pos (by omega), Nat.div_div_eq_div_mul, ← Nat.pow_succ', show (b - (a + 1)).succ = b - a by omega]
    · rw [if_neg h1]
      by_cases h2 : a = b
      · subst h2; rw [if_pos rfl, if_pos (by omega)]; simp
      · rw [if_neg h2, if_neg (by omega)]

theorem read_eraseBytes (m : Memory) (a n b : Nat) :
    read (eraseBytes m a n) b = if a ≤ b ∧ b < a + n then none else read m b := by
  induction n generalizing m a with
  | zero => simp only [eraseBytes]; rw [if_neg (by omega)]
  | succ n ih =>
    simp only [eraseBytes, ih, read_erase]
    by_cases h1 : a + 1 ≤ b ∧ b < a + 1 + n
    · rw [if_pos h1, if_pos (by omega)]
    · rw [if_neg h1]
      by_cases h2 : a = b
      · subst h2; rw [if_pos rfl, if_pos (by omega)]
      · rw [if_neg h2, if_neg (by omega)]

theorem wf_writeBytes {m : Memory} (h : m.wf) (a n v : Nat) : (writeBytes m a n v).wf := by
  induction n generalizing m a v with
  | zero => exact h
  | succ n ih => exact ih (wf_write h _ _) _ _

theorem wf_eraseBytes {m : Memory} (h : m.wf) (a n : Nat) : (eraseBytes m a n).wf := by
  induction n generalizing m a with
  | zero => exact h
  | succ n ih => exact ih (wf_erase h _) _

/-- Reading bytes depends on those bytes only. -/
theorem readBytes_congr {m m' : Memory} {a n : Nat} (h : ∀ b, a ≤ b → b < a + n → read m' b = read m b) :
    readBytes m' a n = readBytes m a n := by
  induction n generalizing a with
  | zero => rfl
  | succ n ih =>
    simp only [readBytes]
    rw [h a (by omega) (by omega), ih (fun b h1 h2 => h b (by omega) (by omega))]

theorem readBytes_writeBytes (m : Memory) (a n v : Nat) :
    readBytes (writeBytes m a n v) a n = some (v % 256 ^ n) := by
  have key : ∀ (m' : Memory) (a n v : Nat),
      (∀ b, a ≤ b → b < a + n → read m' b = some (BitVec.ofNat 8 (v / 256 ^ (b - a)))) →
      readBytes m' a n = some (v % 256 ^ n) := by
    intro m' a n
    induction n generalizing a with
    | zero => intro v _; simp [readBytes, Nat.mod_one]
    | succ n ih =>
      intro v h
      have h0 := h a (by omega) (by omega)
      have hr := ih (a + 1) (v / 256) (by
        intro b h1 h2
        rw [h b (by omega) (by omega), Nat.div_div_eq_div_mul, ← Nat.pow_succ', show (b - (a + 1)).succ = b - a by omega])
      simp only [readBytes, h0, hr]
      simp only [Nat.sub_self, Nat.pow_zero, Nat.div_one, BitVec.toNat_ofNat, Option.some.injEq]
      have e : (256 : Nat) ^ (n + 1) = 256 * 256 ^ n := Nat.pow_succ'
      rw [e, Nat.mod_mul]
  refine key _ a n v fun b h1 h2 => ?_
  rw [read_writeBytes, if_pos ⟨h1, h2⟩]

/-- A run of bytes is unspecified as soon as one of its bytes is. -/
theorem readBytes_none {m : Memory} {a n b : Nat} (h1 : a ≤ b) (h2 : b < a + n) (h : read m b = none) :
    readBytes m a n = none := by
  induction n generalizing a with
  | zero => omega
  | succ n ih =>
    simp only [readBytes]
    by_cases hab : a = b
    · subst hab; rw [h]
    · rw [ih (by omega) (by omega)]
      split <;> simp_all

theorem readBytes_some {m : Memory} {a n : Nat} (h : ∀ b, a ≤ b → b < a + n → (read m b).isSome = true) :
    ∃ v, readBytes m a n = some v := by
  induction n generalizing a with
  | zero => exact ⟨0, rfl⟩
  | succ n ih =>
    obtain ⟨x, hx⟩ := Option.isSome_iff_exists.1 (h a (by omega) (by omega))
    obtain ⟨r, hr⟩ := ih (a := a + 1) (fun b h1 h2 => h b (by omega) (by omega))
    exact ⟨_, by simp only [readBytes, hx, hr]; rfl⟩

/-! ### Words -/

theorem wordAddr_def (w : Nat) : wordAddr w = dmemWindow + 8 * w := rfl

theorem readWord_congr {m m' : Memory} {w : Nat} (h : ∀ b, wordAddr w ≤ b → b < wordAddr w + 8 → read m' b = read m b) :
    readWord m' w = readWord m w := by
  simp only [readWord, readBytes_congr h]

theorem readWord_writeWord_same (m : Memory) (w : Nat) (v : Word) : readWord (writeWord m w v) w = some v := by
  simp only [readWord, writeWord, readBytes_writeBytes, Option.map_some]
  congr 1
  apply BitVec.eq_of_toNat_eq
  have := v.isLt
  rw [BitVec.toNat_ofNat]
  omega

theorem readWord_writeWord_ne (m : Memory) {w x : Nat} (h : x ≠ w) (v : Word) :
    readWord (writeWord m w v) x = readWord m x := by
  refine readWord_congr fun b h1 h2 => ?_
  simp only [writeWord, read_writeBytes]
  rw [if_neg]
  simp only [wordAddr_def] at *
  omega

theorem readWord_writeWord (m : Memory) (w x : Nat) (v : Word) :
    readWord (writeWord m w v) x = if x = w then some v else readWord m x := by
  split
  · subst x; exact readWord_writeWord_same m w v
  · exact readWord_writeWord_ne m ‹_› v

theorem readWord_forgetWord (m : Memory) (w x : Nat) :
    readWord (forgetWord m w) x = if x = w then none else readWord m x := by
  split
  · subst x
    simp only [readWord, forgetWord]
    rw [readBytes_none (b := wordAddr w) (by omega) (by omega)]
    · rfl
    · rw [read_eraseBytes, if_pos (by omega)]
  · refine readWord_congr fun b h1 h2 => ?_
    simp only [forgetWord, read_eraseBytes]
    rw [if_neg]
    simp only [wordAddr_def] at *
    omega

theorem wf_writeWord {m : Memory} (h : m.wf) (w : Nat) (v : Word) : (writeWord m w v).wf := wf_writeBytes h _ _ _

theorem wf_forgetWord {m : Memory} (h : m.wf) (w : Nat) : (forgetWord m w).wf := wf_eraseBytes h _ _

theorem mem_writeBytes {m : Memory} {a n v : Nat} {c : Host.Cell} (h : c ∈ writeBytes m a n v) :
    (a ≤ c.1 ∧ c.1 < a + n) ∨ c ∈ m := by
  induction n generalizing m a v with
  | zero => exact .inr h
  | succ n ih =>
    rcases ih h with h | h
    · left; omega
    · rcases mem_write h with rfl | h
      · left; simp
      · exact .inr h

theorem mem_eraseBytes {m : Memory} {a n : Nat} {c : Host.Cell} (h : c ∈ eraseBytes m a n) : c ∈ m := by
  induction n generalizing m a with
  | zero => exact h
  | succ n ih => exact mem_erase (ih h)

/-- A word write makes its word specified as a whole and leaves every other word's bytes. -/
theorem read_writeWord_isSome (m : Memory) (w : Nat) (v : Word) (x j : Nat) (hj : j < 8) :
    (read (writeWord m w v) (wordAddr x + j)).isSome = if x = w then true else (read m (wordAddr x + j)).isSome := by
  simp only [writeWord, read_writeBytes]
  by_cases hx : x = w
  · subst hx; rw [if_pos (by omega), if_pos rfl]; rfl
  · rw [if_neg (by simp only [wordAddr]; omega), if_neg hx]

theorem read_forgetWord_isSome (m : Memory) (w x j : Nat) (hj : j < 8) :
    (read (forgetWord m w) (wordAddr x + j)).isSome = if x = w then false else (read m (wordAddr x + j)).isSome := by
  simp only [forgetWord, read_eraseBytes]
  by_cases hx : x = w
  · subst hx; rw [if_pos (by omega), if_pos rfl]; rfl
  · rw [if_neg (by simp only [wordAddr]; omega), if_neg hx]


/-! ### Runs of words -/

theorem wf_writeWords {m : Memory} (h : m.wf) (w : Nat) (vs : List Word) : (writeWords m w vs).wf := by
  induction vs generalizing m w with
  | nil => exact h
  | cons v vs ih => exact ih (wf_writeWord h _ _) _

theorem wf_forgetWords {m : Memory} (h : m.wf) (w n : Nat) : (forgetWords m w n).wf := by
  induction n generalizing m w with
  | zero => exact h
  | succ n ih => exact ih (wf_forgetWord h _) _

/-- A byte outside the words stored reads as before. -/
theorem read_writeWords_out (m : Memory) (w : Nat) (vs : List Word) (a : Nat)
    (h : a < wordAddr w ∨ wordAddr w + 8 * vs.length ≤ a) : read (writeWords m w vs) a = read m a := by
  induction vs generalizing m w with
  | nil => rfl
  | cons v vs ih =>
    simp only [writeWords]
    simp only [List.length_cons, wordAddr_def] at h
    rw [ih (h := by simp only [wordAddr_def]; omega), writeWord, read_writeBytes, if_neg]
    simp only [wordAddr_def]; omega

/-- A byte outside the words made unspecified reads as before. -/
theorem read_forgetWords_out (m : Memory) (w n a : Nat)
    (h : a < wordAddr w ∨ wordAddr w + 8 * n ≤ a) : read (forgetWords m w n) a = read m a := by
  induction n generalizing m w with
  | zero => rfl
  | succ n ih =>
    simp only [forgetWords]
    simp only [wordAddr_def] at h
    rw [ih (h := by simp only [wordAddr_def]; omega), forgetWord, read_eraseBytes, if_neg]
    simp only [wordAddr_def]; omega

theorem readWord_writeWords_out (m : Memory) (w : Nat) (vs : List Word) (x : Nat)
    (h : x < w ∨ w + vs.length ≤ x) : readWord (writeWords m w vs) x = readWord m x := by
  refine readWord_congr fun b h1 h2 => read_writeWords_out m w vs b ?_
  simp only [wordAddr_def] at *; omega

theorem readWord_writeWords (m : Memory) (w : Nat) (vs : List Word) (i : Nat) (h : i < vs.length) :
    readWord (writeWords m w vs) (w + i) = some vs[i] := by
  induction vs generalizing m w i with
  | nil => simp at h
  | cons v vs ih =>
    simp only [writeWords]
    cases i with
    | zero =>
      rw [readWord_writeWords_out _ _ _ _ (by omega), Nat.add_zero, readWord_writeWord_same]; rfl
    | succ i =>
      have h' : i < vs.length := by simpa using h
      have := ih (writeWord m w v) (w + 1) i h'
      rw [show w + 1 + i = w + (i + 1) by omega] at this
      rw [this]; rfl

theorem readWord_forgetWords (m : Memory) (w n x : Nat) :
    readWord (forgetWords m w n) x = if w ≤ x ∧ x < w + n then none else readWord m x := by
  induction n generalizing m w with
  | zero => simp only [forgetWords]; rw [if_neg (by omega)]
  | succ n ih =>
    simp only [forgetWords, ih, readWord_forgetWord]
    by_cases h1 : w + 1 ≤ x ∧ x < w + 1 + n
    · rw [if_pos h1, if_pos (by omega)]
    · rw [if_neg h1]
      by_cases h2 : x = w
      · rw [if_pos h2, if_pos (by omega)]
      · rw [if_neg h2, if_neg (by omega)]

/-- Reading a run of words: every word of it is specified, and the list holds them in order. -/
theorem readWords_ok_iff (m : Memory) (w n : Nat) (ws : List Word) :
    readWords m w n = .ok ws ↔ ws.length = n ∧ ∀ i (h : i < ws.length), readWord m (w + i) = some ws[i] := by
  induction n generalizing w ws with
  | zero =>
    simp only [readWords, Except.ok.injEq]
    constructor
    · rintro rfl; simp
    · rintro ⟨h, -⟩; exact (List.length_eq_zero_iff.1 h).symm
  | succ n ih =>
    simp only [readWords]
    cases hw : readWord m w with
    | none =>
      simp only [reduceCtorEq, false_iff, not_and]
      intro hl h
      have := h 0 (by omega)
      rw [Nat.add_zero, hw] at this; cases this
    | some v =>
      cases hr : readWords m (w + 1) n with
      | error e =>
        simp only [reduceCtorEq, false_iff, not_and]
        intro hl h
        obtain ⟨x, xs, rfl⟩ := List.exists_cons_of_length_eq_add_one hl
        have : readWords m (w + 1) n = .ok xs := (ih _ _).2 ⟨by simpa using hl, fun i hi => by
          have := h (i + 1) (by simpa using hi)
          rw [show w + 1 + i = w + (i + 1) by omega, this]; rfl⟩
        rw [hr] at this; cases this
      | ok vs =>
        simp only [Except.ok.injEq]
        obtain ⟨hl, hv⟩ := (ih _ _).1 hr
        constructor
        · rintro rfl
          refine ⟨by simpa using hl, fun i hi => ?_⟩
          cases i with
          | zero => simpa using hw
          | succ i =>
            have := hv i (by simpa using hi)
            rw [show w + (i + 1) = w + 1 + i by omega, this]; rfl
        · rintro ⟨hl', h'⟩
          obtain ⟨x, xs, rfl⟩ := List.exists_cons_of_length_eq_add_one hl'
          have h0 := h' 0 (by simp)
          rw [Nat.add_zero, hw] at h0
          simp only [List.getElem_cons_zero, Option.some.injEq] at h0
          subst h0
          congr 1
          have hlen : vs.length = xs.length := by rw [hl]; simpa using hl'.symm
          refine List.ext_getElem hlen fun i h1 h2 => ?_
          have a := hv i h1
          have b := h' (i + 1) (by simpa using h2)
          rw [show w + (i + 1) = w + 1 + i by omega, a] at b
          simpa using b

/-- A run of words whose every word is specified can be read. -/
theorem readWords_of_specified {m : Memory} {w n : Nat} (h : ∀ i, i < n → (readWord m (w + i)).isSome = true) :
    ∃ ws, readWords m w n = .ok ws ∧ ws.length = n := by
  induction n generalizing w with
  | zero => exact ⟨[], rfl, rfl⟩
  | succ n ih =>
    obtain ⟨v, hv⟩ := Option.isSome_iff_exists.1 (h 0 (by omega))
    obtain ⟨vs, hvs, hl⟩ := ih (w := w + 1) (fun i hi => by
      rw [show w + 1 + i = w + (i + 1) by omega]; exact h (i + 1) (by omega))
    rw [Nat.add_zero] at hv
    exact ⟨v :: vs, by simp only [readWords, hv, hvs], by simp [hl]⟩

/-- The fault of a run of words names its first unspecified word. -/
theorem readWords_error {m : Memory} {w n e : Nat} (h : readWords m w n = .error e) :
    w ≤ e ∧ e < w + n ∧ readWord m e = none ∧ ∀ x, w ≤ x → x < e → (readWord m x).isSome = true := by
  induction n generalizing w with
  | zero => simp [readWords] at h
  | succ n ih =>
    simp only [readWords] at h
    cases hw : readWord m w with
    | none =>
      rw [hw] at h
      simp only [Except.error.injEq] at h
      subst h
      exact ⟨by omega, by omega, hw, fun x h1 h2 => by omega⟩
    | some v =>
      rw [hw] at h
      cases hr : readWords m (w + 1) n with
      | ok vs => rw [hr] at h; cases h
      | error e' =>
        rw [hr] at h
        simp only [Except.error.injEq] at h
        subst h
        obtain ⟨a, b, c, d⟩ := ih hr
        refine ⟨by omega, by omega, c, fun x h1 h2 => ?_⟩
        by_cases hx : x = w
        · subst hx; rw [hw]; rfl
        · exact d x (by omega) h2

theorem readWords_congr {m m' : Memory} {w n : Nat} (h : ∀ x, w ≤ x → x < w + n → readWord m' x = readWord m x) :
    readWords m' w n = readWords m w n := by
  induction n generalizing w with
  | zero => rfl
  | succ n ih =>
    simp only [readWords]
    rw [h w (by omega) (by omega), ih (fun x h1 h2 => h x (by omega) (by omega))]

end Memory
end Machine
end Sys2Proof
end

