-- ==== Sys2Proof/Laws/State.lean ====
section
/-! SUPPORT. Each field of the state after each shared update, by definition. -/

namespace Sys2Proof
namespace Machine

@[simp] theorem complete_cfg (n : Nat) (s : State) : (complete n s).cfg = s.cfg := rfl
@[simp] theorem complete_ie (n : Nat) (s : State) : (complete n s).ie = s.ie := rfl
@[simp] theorem complete_done (n : Nat) (s : State) : (complete n s).done = true := rfl
@[simp] theorem complete_errf (n : Nat) (s : State) : (complete n s).errf = s.errf := rfl
@[simp] theorem complete_ovr (n : Nat) (s : State) : (complete n s).ovr = s.ovr := rfl
@[simp] theorem complete_params (n : Nat) (s : State) : (complete n s).params = s.params := rfl
@[simp] theorem complete_errCode (n : Nat) (s : State) : (complete n s).errCode = 0 := rfl
@[simp] theorem complete_errOp (n : Nat) (s : State) : (complete n s).errOp = s.opcode := rfl
@[simp] theorem complete_res0 (n : Nat) (s : State) : (complete n s).res0 = s.res0 := rfl
@[simp] theorem complete_res1 (n : Nat) (s : State) : (complete n s).res1 = s.res1 := rfl
@[simp] theorem complete_dLen (n : Nat) (s : State) : (complete n s).dLen = BitVec.ofNat 32 n := rfl
@[simp] theorem complete_phase (n : Nat) (s : State) : (complete n s).phase = .idle := rfl
@[simp] theorem complete_dmem (n : Nat) (s : State) : (complete n s).dmem = s.dmem := rfl
@[simp] theorem complete_moves (n : Nat) (s : State) : (complete n s).moves = s.moves := rfl
@[simp] theorem complete_reply (n : Nat) (s : State) : (complete n s).reply = s.reply := rfl
@[simp] theorem complete_draws (n : Nat) (s : State) : (complete n s).draws = s.draws := rfl
@[simp] theorem complete_drawn (n : Nat) (s : State) : (complete n s).drawn = s.drawn := rfl

@[simp] theorem raiseError_cfg (c : ErrorCode) (s : State) : (raiseError c s).cfg = s.cfg := rfl
@[simp] theorem raiseError_ie (c : ErrorCode) (s : State) : (raiseError c s).ie = s.ie := rfl
@[simp] theorem raiseError_done (c : ErrorCode) (s : State) : (raiseError c s).done = true := rfl
@[simp] theorem raiseError_errf (c : ErrorCode) (s : State) : (raiseError c s).errf = true := rfl
@[simp] theorem raiseError_ovr (c : ErrorCode) (s : State) : (raiseError c s).ovr = s.ovr := rfl
@[simp] theorem raiseError_params (c : ErrorCode) (s : State) : (raiseError c s).params = s.params := rfl
@[simp] theorem raiseError_errCode (c : ErrorCode) (s : State) : (raiseError c s).errCode = c.code := rfl
@[simp] theorem raiseError_errOp (c : ErrorCode) (s : State) : (raiseError c s).errOp = s.opcode := rfl
@[simp] theorem raiseError_res0 (c : ErrorCode) (s : State) : (raiseError c s).res0 = s.res0 := rfl
@[simp] theorem raiseError_res1 (c : ErrorCode) (s : State) : (raiseError c s).res1 = s.res1 := rfl
@[simp] theorem raiseError_dLen (c : ErrorCode) (s : State) : (raiseError c s).dLen = 0 := rfl
@[simp] theorem raiseError_phase (c : ErrorCode) (s : State) : (raiseError c s).phase = .idle := rfl
@[simp] theorem raiseError_dmem (c : ErrorCode) (s : State) : (raiseError c s).dmem = s.dmem := rfl
@[simp] theorem raiseError_moves (c : ErrorCode) (s : State) : (raiseError c s).moves = s.moves := rfl
@[simp] theorem raiseError_reply (c : ErrorCode) (s : State) : (raiseError c s).reply = s.reply := rfl
@[simp] theorem raiseError_draws (c : ErrorCode) (s : State) : (raiseError c s).draws = s.draws := rfl
@[simp] theorem raiseError_drawn (c : ErrorCode) (s : State) : (raiseError c s).drawn = s.drawn := rfl

@[simp] theorem delivered_cfg (n : Nat) (s : State) : (State.delivered n s).cfg = s.cfg := rfl
@[simp] theorem delivered_ie (n : Nat) (s : State) : (State.delivered n s).ie = s.ie := rfl
@[simp] theorem delivered_done (n : Nat) (s : State) : (State.delivered n s).done = s.done := rfl
@[simp] theorem delivered_errf (n : Nat) (s : State) : (State.delivered n s).errf = s.errf := rfl
@[simp] theorem delivered_ovr (n : Nat) (s : State) : (State.delivered n s).ovr = s.ovr := rfl
@[simp] theorem delivered_params (n : Nat) (s : State) : (State.delivered n s).params = s.params := rfl
@[simp] theorem delivered_errCode (n : Nat) (s : State) : (State.delivered n s).errCode = s.errCode := rfl
@[simp] theorem delivered_errOp (n : Nat) (s : State) : (State.delivered n s).errOp = s.errOp := rfl
@[simp] theorem delivered_res0 (n : Nat) (s : State) : (State.delivered n s).res0 = s.res0 := rfl
@[simp] theorem delivered_res1 (n : Nat) (s : State) : (State.delivered n s).res1 = s.res1 := rfl
@[simp] theorem delivered_dLen (n : Nat) (s : State) : (State.delivered n s).dLen = s.dLen := rfl
@[simp] theorem delivered_phase (n : Nat) (s : State) : (State.delivered n s).phase = s.phase := rfl
@[simp] theorem delivered_dmem (n : Nat) (s : State) : (State.delivered n s).dmem = s.dmem := rfl
@[simp] theorem delivered_moves (n : Nat) (s : State) : (State.delivered n s).moves = s.moves := rfl
@[simp] theorem delivered_reply (n : Nat) (s : State) : (State.delivered n s).reply = s.reply := rfl
@[simp] theorem delivered_draws (n : Nat) (s : State) : (State.delivered n s).draws = s.draws + n := rfl
@[simp] theorem delivered_drawn (n : Nat) (s : State) : (State.delivered n s).drawn = s.drawn := rfl

@[simp] theorem storeWords_cfg (w : Nat) (ws : List Word) (s : State) : (storeWords w ws s).cfg = s.cfg := rfl
@[simp] theorem storeWords_ie (w : Nat) (ws : List Word) (s : State) : (storeWords w ws s).ie = s.ie := rfl
@[simp] theorem storeWords_done (w : Nat) (ws : List Word) (s : State) : (storeWords w ws s).done = s.done := rfl
@[simp] theorem storeWords_errf (w : Nat) (ws : List Word) (s : State) : (storeWords w ws s).errf = s.errf := rfl
@[simp] theorem storeWords_ovr (w : Nat) (ws : List Word) (s : State) : (storeWords w ws s).ovr = s.ovr := rfl
@[simp] theorem storeWords_params (w : Nat) (ws : List Word) (s : State) : (storeWords w ws s).params = s.params := rfl
@[simp] theorem storeWords_errCode (w : Nat) (ws : List Word) (s : State) : (storeWords w ws s).errCode = s.errCode := rfl
@[simp] theorem storeWords_errOp (w : Nat) (ws : List Word) (s : State) : (storeWords w ws s).errOp = s.errOp := rfl
@[simp] theorem storeWords_res0 (w : Nat) (ws : List Word) (s : State) : (storeWords w ws s).res0 = s.res0 := rfl
@[simp] theorem storeWords_res1 (w : Nat) (ws : List Word) (s : State) : (storeWords w ws s).res1 = s.res1 := rfl
@[simp] theorem storeWords_dLen (w : Nat) (ws : List Word) (s : State) : (storeWords w ws s).dLen = s.dLen := rfl
@[simp] theorem storeWords_phase (w : Nat) (ws : List Word) (s : State) : (storeWords w ws s).phase = s.phase := rfl
@[simp] theorem storeWords_dmem (w : Nat) (ws : List Word) (s : State) : (storeWords w ws s).dmem = Memory.writeWords s.dmem w ws := rfl
@[simp] theorem storeWords_moves (w : Nat) (ws : List Word) (s : State) : (storeWords w ws s).moves = s.moves := rfl
@[simp] theorem storeWords_reply (w : Nat) (ws : List Word) (s : State) : (storeWords w ws s).reply = s.reply := rfl
@[simp] theorem storeWords_draws (w : Nat) (ws : List Word) (s : State) : (storeWords w ws s).draws = s.draws := rfl
@[simp] theorem storeWords_drawn (w : Nat) (ws : List Word) (s : State) : (storeWords w ws s).drawn = s.drawn := rfl

@[simp] theorem answer_cfg (r : Reply) (s : State) : (s.answer r).cfg = s.cfg := rfl
@[simp] theorem answer_ie (r : Reply) (s : State) : (s.answer r).ie = s.ie := rfl
@[simp] theorem answer_done (r : Reply) (s : State) : (s.answer r).done = s.done := rfl
@[simp] theorem answer_errf (r : Reply) (s : State) : (s.answer r).errf = s.errf := rfl
@[simp] theorem answer_ovr (r : Reply) (s : State) : (s.answer r).ovr = s.ovr := rfl
@[simp] theorem answer_params (r : Reply) (s : State) : (s.answer r).params = s.params := rfl
@[simp] theorem answer_errCode (r : Reply) (s : State) : (s.answer r).errCode = s.errCode := rfl
@[simp] theorem answer_errOp (r : Reply) (s : State) : (s.answer r).errOp = s.errOp := rfl
@[simp] theorem answer_res0 (r : Reply) (s : State) : (s.answer r).res0 = s.res0 := rfl
@[simp] theorem answer_res1 (r : Reply) (s : State) : (s.answer r).res1 = s.res1 := rfl
@[simp] theorem answer_dLen (r : Reply) (s : State) : (s.answer r).dLen = s.dLen := rfl
@[simp] theorem answer_phase (r : Reply) (s : State) : (s.answer r).phase = s.phase := rfl
@[simp] theorem answer_dmem (r : Reply) (s : State) : (s.answer r).dmem = s.dmem := rfl
@[simp] theorem answer_moves (r : Reply) (s : State) : (s.answer r).moves = s.moves := rfl
@[simp] theorem answer_reply (r : Reply) (s : State) : (s.answer r).reply = some r := rfl
@[simp] theorem answer_draws (r : Reply) (s : State) : (s.answer r).draws = s.draws := rfl
@[simp] theorem answer_drawn (r : Reply) (s : State) : (s.answer r).drawn = s.drawn := rfl

@[simp] theorem overrun_cfg (s : State) : (s.overrun).cfg = s.cfg := rfl
@[simp] theorem overrun_ie (s : State) : (s.overrun).ie = s.ie := rfl
@[simp] theorem overrun_done (s : State) : (s.overrun).done = s.done := rfl
@[simp] theorem overrun_errf (s : State) : (s.overrun).errf = s.errf := rfl
@[simp] theorem overrun_ovr (s : State) : (s.overrun).ovr = true := rfl
@[simp] theorem overrun_params (s : State) : (s.overrun).params = s.params := rfl
@[simp] theorem overrun_errCode (s : State) : (s.overrun).errCode = s.errCode := rfl
@[simp] theorem overrun_errOp (s : State) : (s.overrun).errOp = s.errOp := rfl
@[simp] theorem overrun_res0 (s : State) : (s.overrun).res0 = s.res0 := rfl
@[simp] theorem overrun_res1 (s : State) : (s.overrun).res1 = s.res1 := rfl
@[simp] theorem overrun_dLen (s : State) : (s.overrun).dLen = s.dLen := rfl
@[simp] theorem overrun_phase (s : State) : (s.overrun).phase = s.phase := rfl
@[simp] theorem overrun_dmem (s : State) : (s.overrun).dmem = s.dmem := rfl
@[simp] theorem overrun_moves (s : State) : (s.overrun).moves = s.moves := rfl
@[simp] theorem overrun_reply (s : State) : (s.overrun).reply = s.reply := rfl
@[simp] theorem overrun_draws (s : State) : (s.overrun).draws = s.draws := rfl
@[simp] theorem overrun_drawn (s : State) : (s.overrun).drawn = s.drawn := rfl

@[simp] theorem clearFlags_cfg (v : Word) (s : State) : (s.clearFlags v).cfg = s.cfg := rfl
@[simp] theorem clearFlags_ie (v : Word) (s : State) : (s.clearFlags v).ie = s.ie := rfl
@[simp] theorem clearFlags_done (v : Word) (s : State) : (s.clearFlags v).done = (s.done && !v.getLsbD 1) := rfl
@[simp] theorem clearFlags_errf (v : Word) (s : State) : (s.clearFlags v).errf = (s.errf && !v.getLsbD 2) := rfl
@[simp] theorem clearFlags_ovr (v : Word) (s : State) : (s.clearFlags v).ovr = (s.ovr && !v.getLsbD 3) := rfl
@[simp] theorem clearFlags_params (v : Word) (s : State) : (s.clearFlags v).params = s.params := rfl
@[simp] theorem clearFlags_errCode (v : Word) (s : State) : (s.clearFlags v).errCode = s.errCode := rfl
@[simp] theorem clearFlags_errOp (v : Word) (s : State) : (s.clearFlags v).errOp = s.errOp := rfl
@[simp] theorem clearFlags_res0 (v : Word) (s : State) : (s.clearFlags v).res0 = s.res0 := rfl
@[simp] theorem clearFlags_res1 (v : Word) (s : State) : (s.clearFlags v).res1 = s.res1 := rfl
@[simp] theorem clearFlags_dLen (v : Word) (s : State) : (s.clearFlags v).dLen = s.dLen := rfl
@[simp] theorem clearFlags_phase (v : Word) (s : State) : (s.clearFlags v).phase = s.phase := rfl
@[simp] theorem clearFlags_dmem (v : Word) (s : State) : (s.clearFlags v).dmem = s.dmem := rfl
@[simp] theorem clearFlags_moves (v : Word) (s : State) : (s.clearFlags v).moves = s.moves := rfl
@[simp] theorem clearFlags_reply (v : Word) (s : State) : (s.clearFlags v).reply = s.reply := rfl
@[simp] theorem clearFlags_draws (v : Word) (s : State) : (s.clearFlags v).draws = s.draws := rfl
@[simp] theorem clearFlags_drawn (v : Word) (s : State) : (s.clearFlags v).drawn = s.drawn := rfl

@[simp] theorem acceptStart_cfg (s : State) : (acceptStart s).cfg = s.cfg := rfl
@[simp] theorem acceptStart_ie (s : State) : (acceptStart s).ie = s.ie := rfl
@[simp] theorem acceptStart_done (s : State) : (acceptStart s).done = false := rfl
@[simp] theorem acceptStart_errf (s : State) : (acceptStart s).errf = false := rfl
@[simp] theorem acceptStart_ovr (s : State) : (acceptStart s).ovr = s.ovr := rfl
@[simp] theorem acceptStart_params (s : State) : (acceptStart s).params = s.params := rfl
@[simp] theorem acceptStart_errCode (s : State) : (acceptStart s).errCode = s.errCode := rfl
@[simp] theorem acceptStart_errOp (s : State) : (acceptStart s).errOp = s.errOp := rfl
@[simp] theorem acceptStart_res0 (s : State) : (acceptStart s).res0 = s.res0 := rfl
@[simp] theorem acceptStart_res1 (s : State) : (acceptStart s).res1 = s.res1 := rfl
@[simp] theorem acceptStart_dLen (s : State) : (acceptStart s).dLen = s.dLen := rfl
@[simp] theorem acceptStart_phase (s : State) : (acceptStart s).phase = .run s.params := rfl
@[simp] theorem acceptStart_dmem (s : State) : (acceptStart s).dmem = s.dmem := rfl
@[simp] theorem acceptStart_moves (s : State) : (acceptStart s).moves = s.moves := rfl
@[simp] theorem acceptStart_reply (s : State) : (acceptStart s).reply = s.reply := rfl
@[simp] theorem acceptStart_draws (s : State) : (acceptStart s).draws = s.draws := rfl
@[simp] theorem acceptStart_drawn (s : State) : (acceptStart s).drawn = s.drawn := rfl

@[simp] theorem resetRegisters_cfg (s : State) : (resetRegisters s).cfg = s.cfg := rfl
@[simp] theorem resetRegisters_ie (s : State) : (resetRegisters s).ie = false := rfl
@[simp] theorem resetRegisters_done (s : State) : (resetRegisters s).done = false := rfl
@[simp] theorem resetRegisters_errf (s : State) : (resetRegisters s).errf = false := rfl
@[simp] theorem resetRegisters_ovr (s : State) : (resetRegisters s).ovr = false := rfl
@[simp] theorem resetRegisters_params (s : State) : (resetRegisters s).params = Params.reset := rfl
@[simp] theorem resetRegisters_errCode (s : State) : (resetRegisters s).errCode = 0 := rfl
@[simp] theorem resetRegisters_errOp (s : State) : (resetRegisters s).errOp = 0 := rfl
@[simp] theorem resetRegisters_res0 (s : State) : (resetRegisters s).res0 = 0 := rfl
@[simp] theorem resetRegisters_res1 (s : State) : (resetRegisters s).res1 = 0 := rfl
@[simp] theorem resetRegisters_dLen (s : State) : (resetRegisters s).dLen = 0 := rfl
@[simp] theorem resetRegisters_phase (s : State) : (resetRegisters s).phase = .idle := rfl
@[simp] theorem resetRegisters_dmem (s : State) : (resetRegisters s).dmem = s.dmem := rfl
@[simp] theorem resetRegisters_moves (s : State) : (resetRegisters s).moves = s.moves := rfl
@[simp] theorem resetRegisters_reply (s : State) : (resetRegisters s).reply = s.reply := rfl
@[simp] theorem resetRegisters_draws (s : State) : (resetRegisters s).draws = s.draws := rfl
@[simp] theorem resetRegisters_drawn (s : State) : (resetRegisters s).drawn = s.drawn := rfl

/-! The operands and the busy flag depend on the phase and the parameter registers only. -/

theorem operands_congr {s t : State} (h : t.phase = s.phase) (hp : t.params = s.params) : t.operands = s.operands := by
  simp only [State.operands, h, hp]

theorem opcode_congr {s t : State} (h : t.phase = s.phase) (hp : t.params = s.params) : t.opcode = s.opcode := by
  simp only [State.opcode, operands_congr h hp]

@[simp] theorem operands_delivered (n : Nat) (s : State) : (State.delivered n s).operands = s.operands := rfl
@[simp] theorem operands_storeWords (w : Nat) (ws : List Word) (s : State) : (storeWords w ws s).operands = s.operands := rfl
@[simp] theorem opcode_delivered (n : Nat) (s : State) : (State.delivered n s).opcode = s.opcode := rfl
@[simp] theorem opcode_storeWords (w : Nat) (ws : List Word) (s : State) : (storeWords w ws s).opcode = s.opcode := rfl

theorem operands_of_run {s : State} {cur : Params} (h : s.phase = .run cur) : s.operands = cur := by
  simp only [State.operands, h]

theorem operands_of_idle {s : State} (h : s.phase = .idle) : s.operands = s.params := by
  simp only [State.operands, h]

theorem busy_of_run {s : State} {cur : Params} (h : s.phase = .run cur) : s.busy = true := by
  simp only [State.busy, h]

theorem busy_of_idle {s : State} (h : s.phase = .idle) : s.busy = false := by
  simp only [State.busy, h]

theorem busy_iff {s : State} : s.busy = true ↔ ∃ cur, s.phase = .run cur := by
  cases h : s.phase with
  | idle => simp [State.busy, h]
  | run cur => simp [State.busy, h]

/-- Writing one register parameter leaves the others alone. -/
theorem writeParam_cases (r : Reg) (v : Word) (s : State) :
    (s.busy = true ∧ writeParam r v s = s.overrun) ∨
    (s.busy = false ∧ writeParam r v s = { s with params := s.params.set r v }) := by
  cases h : s.busy <;> simp [writeParam, h]

theorem startRequest_cases (s : State) :
    (s.busy = true ∧ startRequest s = s.overrun) ∨ (s.busy = false ∧ startRequest s = acceptStart s) := by
  cases h : s.busy <;> simp [startRequest, h]

end Machine
end Sys2Proof
end

