-- ==== Sys2Proof/Laws/Reals.lean ====
section
/-! SUPPORT. Rounding in terms of real numbers (rules R10, R11): what a finite value stands for, and that rounding is rounding to nearest, ties to even. -/

namespace Sys2Proof
namespace F64

theorem overflow_bound : (2 ^ 1024 - 2 ^ 970 : ℝ) * 2 ^ 1074 = (((2 ^ 54 - 1) * 2 ^ 2044 : Nat) : ℝ) := by
  have h1 : (2 : ℝ) ^ 1024 = 2 ^ 54 * 2 ^ 970 := (pow_add 2 54 970)
  have h2 : (2 : ℝ) ^ 2044 = 2 ^ 970 * 2 ^ 1074 := (pow_add 2 970 1074)
  rw [Nat.cast_mul, Nat.cast_pow, Nat.cast_ofNat, h1, h2]
  generalize (2 : ℝ) ^ 970 = Z
  generalize (2 : ℝ) ^ 1074 = Y
  norm_num
  ring

theorem toReal_eq (a : F64) : a.toReal = (if a.isNeg then -1 else 1) * (a.units : ℝ) / 2 ^ 1074 := by
  unfold toReal
  congr 1
  cases a with
  | nan => simp [toInt, units]
  | inf s => simp [toInt, units]
  | fin s e f => cases s <;> simp [toInt, isNeg]

theorem abs_toReal (a : F64) : |a.toReal| = (a.units : ℝ) / 2 ^ 1074 := by
  rw [toReal_eq, abs_div, abs_mul]
  have : |(if a.isNeg then (-1 : ℝ) else 1)| = 1 := by split <;> simp
  rw [this, one_mul, abs_of_nonneg (by positivity), abs_of_nonneg (by positivity)]

/-- Rounding a signed quotient of units is rounding the real number it stands for (rule R11). -/
theorem round_roundsTo (s : Bool) (num : Nat) {den : Nat} (hd : 0 < den) {x : ℝ}
    (hx : x = (if s then -1 else 1) * ((num : ℝ) / den / 2 ^ 1074)) : (round s num den).RoundsTo x := by
  have hdR : (0 : ℝ) < den := by exact_mod_cast hd
  have habs : |x| = (num : ℝ) / den / 2 ^ 1074 := by
    rw [hx, abs_mul]
    have : |(if s then (-1 : ℝ) else 1)| = 1 := by split <;> simp
    rw [this, one_mul, abs_of_nonneg (by positivity)]
  have hneg : num ≠ 0 → s = decide (x < 0) := by
    intro hn
    have : (0 : ℝ) < (num : ℝ) / den / 2 ^ 1074 := by
      have : (0 : ℝ) < num := by exact_mod_cast Nat.pos_of_ne_zero hn
      positivity
    cases s
    · simp only [Bool.false_eq_true, if_false, one_mul] at hx
      rw [hx, decide_eq_false (by linarith)]
    · simp only [if_true] at hx
      rw [hx, decide_eq_true (by linarith)]
  -- distances in units
  have dist : ∀ n : Nat, |(n : ℝ) / 2 ^ 1074 - (num : ℝ) / den / 2 ^ 1074| =
      (|((n * den : Nat) : Int) - num| : Int) / (den * 2 ^ 1074 : ℝ) := by
    intro n
    have : (n : ℝ) / 2 ^ 1074 - (num : ℝ) / den / 2 ^ 1074 = (((n * den : Nat) : Int) - (num : Int) : Int) / (den * 2 ^ 1074 : ℝ) := by
      push_cast; field_simp
    rw [this, abs_div, abs_of_pos (a := (den * 2 ^ 1074 : ℝ)) (by positivity), Int.cast_abs]
  have hfin := round_finite_iff s num hd
  have own : (round s num den).isFinite = true → |(round s num den).toReal - x| =
      |((round s num den).units : ℝ) / 2 ^ 1074 - (num : ℝ) / den / 2 ^ 1074| := by
    intro _
    rw [toReal_eq, round_isNeg, hx, mul_div_assoc, ← mul_sub, abs_mul]
    have : |(if s then (-1 : ℝ) else 1)| = 1 := by split <;> simp
    rw [this, one_mul]
  have other : ∀ c : F64, |((c.units : ℝ)) / 2 ^ 1074 - (num : ℝ) / den / 2 ^ 1074| ≤ |c.toReal - x| := by
    intro c
    rw [← abs_toReal, ← habs]
    exact abs_abs_sub_abs_le _ _
  have near : (round s num den).isFinite = true → ∀ c : F64, |(round s num den).toReal - x| ≤ |((c.units : ℝ)) / 2 ^ 1074 - (num : ℝ) / den / 2 ^ 1074| := by
    intro h c
    rw [own h, dist, dist, div_le_div_iff_of_pos_right (by positivity)]
    exact Int.cast_le.2 (round_nearest s num hd h c)
  refine ⟨fun h0 => ?_, ?_, fun h => ?_, fun h c _ => (near h c).trans (other c), fun h c hc hne ht => ?_⟩
  · rw [round_isNeg]
    refine hneg fun hn => h0 ?_
    rw [hx, hn]; simp
  · rw [hfin, habs]
    rw [div_lt_iff₀ (by positivity), div_lt_iff₀ hdR, overflow_bound, ← Nat.cast_mul, Nat.cast_lt]
  · rcases round_cases s num hd with ⟨e, _⟩ | hf
    · rw [e, hneg]
      rintro rfl
      rw [← Bool.not_eq_true, hfin] at h
      refine h ?_
      have : 0 < (2 : Nat) ^ 2044 := Nat.two_pow_pos 2044
      generalize 2 ^ 2044 = P at *
      positivity
    · rw [round_eq, (ofUnits_of_fits s hf).1] at h; simp at h
  · by_cases hu : c.units = (round s num den).units
    · exfalso
      have hs : c.isNeg ≠ (round s num den).isNeg := by
        intro hs; apply hne; rw [toReal_eq, toReal_eq, hs, hu]
      have hcr : c.toReal = -(round s num den).toReal := by
        rw [toReal_eq, toReal_eq, hu]
        revert hs
        cases c.isNeg <;> cases (round s num den).isNeg <;> simp [neg_div]
      rw [hcr] at ht hne
      have hr0 : (round s num den).toReal ≠ 0 := fun h => hne (by rw [h]; simp)
      have hx0 : x = 0 := by
        have h2 := (sq_eq_sq_iff_abs_eq_abs _ _).2 ht
        have : (round s num den).toReal * x = 0 := by nlinarith
        exact (mul_eq_zero.1 this).resolve_left hr0
      have := near h (.fin false 0 0)
      rw [hx0] at this habs
      rw [← habs] at this
      simp [units] at this
      exact hr0 this
    · apply round_lastBit s num hd h
      refine roundedUnits_even num hd (units_fits c) (fun h' => hu (by rw [h', round_units s num hd h])) ?_
      rw [← round_units s num hd h]
      apply le_antisymm _ (round_nearest s num hd h c)
      have h1 : |((c.units : ℝ)) / 2 ^ 1074 - (num : ℝ) / den / 2 ^ 1074| ≤ |((round s num den).units : ℝ) / 2 ^ 1074 - (num : ℝ) / den / 2 ^ 1074| := by
        rw [← own h, ← ht]; exact other c
      rw [dist, dist, div_le_div_iff_of_pos_right (by positivity)] at h1
      exact Int.cast_le.1 h1

/-- An exact signed sum rounded (rule R11), a zero sum with whichever sign. -/
theorem roundInt_roundsTo (z : Int) {den : Nat} (hd : 0 < den) (zeroNeg : Bool) :
    (roundInt z den zeroNeg).RoundsTo ((z : ℝ) / den / 2 ^ 1074) := by
  by_cases hz : z = 0
  · subst hz
    have hu : (F64.fin zeroNeg 0 0).toReal = 0 := by rw [toReal_eq]; simp [units]
    simp only [roundInt, if_true, Int.cast_zero, zero_div]
    refine ⟨by simp, iff_of_true rfl ?_, by simp [isFinite], fun _ c _ => ?_, fun _ _ _ _ _ => rfl⟩
    · rw [abs_zero]
      have h2 : (0 : ℝ) < 2 ^ 970 := by positivity
      have h1 : (2 : ℝ) ^ 1024 = 2 ^ 54 * 2 ^ 970 := pow_add 2 54 970
      rw [h1]
      generalize (2 : ℝ) ^ 970 = Z at *
      have h3 : 2 ^ 54 * Z - Z = (2 ^ 54 - 1) * Z := by ring
      rw [h3]
      exact mul_pos (by norm_num) h2
    · rw [hu]; simp
  · rw [roundInt, if_neg hz]
    refine round_roundsTo _ _ hd ?_
    have habs : ((z.natAbs : Nat) : ℝ) = |(z : ℝ)| := by rw [Nat.cast_natAbs, Int.cast_abs]
    rw [habs]
    by_cases hn : z < 0
    · rw [decide_eq_true hn, abs_of_neg (by exact_mod_cast hn)]; simp [neg_div]
    · rw [decide_eq_false hn, abs_of_nonneg (by exact_mod_cast (not_lt.1 hn))]; simp

end F64
end Sys2Proof
end

