-- ==== Sys2Proof/Laws/Values.lean ====
section
/-! SUPPORT. Words and values (rules R10, R13), and the order of values (rule R12): a word reads back as the value it encodes, and the order of the encodings is the order of the real numbers. The integer square root (rule R11). -/

namespace Sys2Proof
namespace F64

/-! ### Words -/

/-- A value's encoding reads back as the value. -/
theorem ofWord_bits (a : F64) (h : a.isNaN = false) : ofWord a.bits = a := by
  cases a with
  | nan => simp [isNaN] at h
  | inf s => cases s <;> decide
  | fin s e f =>
    obtain ⟨e, he⟩ := e
    obtain ⟨f, hf⟩ := f
    have hb : (F64.fin s ⟨e, he⟩ ⟨f, hf⟩).bits.toNat = (if s then 9223372036854775808 else 0) + (e * 4503599627370496 + f) := by
      simp only [bits, magBits, isNeg, BitVec.toNat_ofNat]
      cases s <;> simp <;> omega
    unfold ofWord
    simp only [hb]
    norm_num only
    cases s
    · have h1 : (0 + (e * 4503599627370496 + f)) / 4503599627370496 % 2048 = e := by omega
      have h2 : (0 + (e * 4503599627370496 + f)) % 4503599627370496 = f := by omega
      have h3 : (0 + (e * 4503599627370496 + f)) / 9223372036854775808 = 0 := by omega
      simp only [Bool.false_eq_true, if_false, h1, h2, h3, he, dite_true]
      rfl
    · have h1 : (9223372036854775808 + (e * 4503599627370496 + f)) / 4503599627370496 % 2048 = e := by omega
      have h2 : (9223372036854775808 + (e * 4503599627370496 + f)) % 4503599627370496 = f := by omega
      have h3 : (9223372036854775808 + (e * 4503599627370496 + f)) / 9223372036854775808 = 1 := by omega
      simp only [if_true, h1, h2, h3, he, dite_true]
      rfl

theorem isNaN_ofWord (w : Word) :
    (ofWord w).isNaN = true ↔ w.toNat / 4503599627370496 % 2048 = 2047 ∧ w.toNat % 4503599627370496 ≠ 0 := by
  unfold ofWord
  norm_num only
  have := w.isLt
  by_cases h : w.toNat / 4503599627370496 % 2048 < 2047
  · simp only [h, dite_true, isNaN]; simp; omega
  · simp only [h, dite_false]
    split <;> simp [isNaN] <;> omega

theorem bits_ofWord (w : Word) (h : (ofWord w).isNaN = false) : (ofWord w).bits = w := by
  have hw := w.isLt
  apply BitVec.eq_of_toNat_eq
  revert h
  unfold ofWord
  norm_num only
  intro h
  by_cases h1 : w.toNat / 4503599627370496 % 2048 < 2047
  · simp only [h1, dite_true, bits, magBits, isNeg, BitVec.toNat_ofNat]
    have : w.toNat / 9223372036854775808 = 0 ∨ w.toNat / 9223372036854775808 = 1 := by omega
    rcases this with h3 | h3 <;> simp [h3] <;> omega
  · simp only [h1, dite_false] at h ⊢
    split at h
    · rename_i h2
      simp only [h2, if_true, bits, magBits, isNeg, BitVec.toNat_ofNat]
      have : w.toNat / 9223372036854775808 = 0 ∨ w.toNat / 9223372036854775808 = 1 := by omega
      rcases this with h3 | h3 <;> simp [h3] <;> omega
    · simp [isNaN] at h

/-! ### Order -/

/-- Of two finite values the one with the larger encoding has the larger magnitude. -/
theorem units_lt_of_magBits_lt (s t : Bool) (e d f g) (h : (F64.fin s e f).magBits < (F64.fin t d g).magBits) :
    (F64.fin s e f).units < (F64.fin t d g).units := by
  obtain ⟨e, he⟩ := e; obtain ⟨d, hd⟩ := d; obtain ⟨f, hf⟩ := f; obtain ⟨g, hg⟩ := g
  simp only [magBits] at h
  norm_num only at h
  have hed : e < d ∨ (e = d ∧ f < g) := by omega
  simp only [units]
  rcases hed with h1 | ⟨rfl, h2⟩
  · have hd0 : d ≠ 0 := by omega
    simp only [hd0, if_false]
    by_cases he0 : e = 0
    · simp only [he0, if_true]
      have : 1 ≤ 2 ^ (d - 1) := Nat.one_le_two_pow
      nlinarith
    · simp only [he0, if_false]
      have h3 : 2 * 2 ^ (e - 1) ≤ 2 ^ (d - 1) := by
        rw [← Nat.pow_succ']; exact Nat.pow_le_pow_right (by norm_num) (by omega)
      have : 1 ≤ 2 ^ (e - 1) := Nat.one_le_two_pow
      generalize 2 ^ (e - 1) = A at *
      generalize 2 ^ (d - 1) = B at *
      nlinarith
  · split
    · exact h2
    · exact Nat.mul_lt_mul_of_pos_right (by omega) (Nat.two_pow_pos _)
theorem magBits_lt_iff (s t : Bool) (e d f g) : (F64.fin s e f).magBits < (F64.fin t d g).magBits ↔
    (F64.fin s e f).units < (F64.fin t d g).units := by
  constructor
  · exact units_lt_of_magBits_lt s t e d f g
  · intro h
    rcases Nat.lt_trichotomy (F64.fin s e f).magBits (F64.fin t d g).magBits with h1 | h1 | h1
    · exact h1
    · exfalso
      have he : e = d ∧ f = g := by
        obtain ⟨e, he⟩ := e; obtain ⟨d, hd⟩ := d; obtain ⟨f, hf⟩ := f; obtain ⟨g, hg⟩ := g
        simp only [magBits] at h1
        norm_num only at h1
        simp only [Fin.mk.injEq]; omega
      obtain ⟨rfl, rfl⟩ := he
      exact Nat.lt_irrefl _ h
    · exact absurd (units_lt_of_magBits_lt t s d e g f h1) (by omega)

theorem ord_lt_iff_toInt (s t : Bool) (e d f g) : (F64.fin s e f).ord < (F64.fin t d g).ord ↔ (F64.fin s e f).toInt < (F64.fin t d g).toInt := by
  have h1 := magBits_lt_iff s t e d f g
  have h2 := magBits_lt_iff t s d e g f
  have z1 : (F64.fin s e f).magBits = 0 ↔ (F64.fin s e f).units = 0 := by
    have a := magBits_lt_iff false s 0 e 0 f
    have b : (F64.fin false 0 0).magBits = 0 := rfl
    have c : (F64.fin false 0 0).units = 0 := rfl
    rw [b, c] at a; omega
  have z2 : (F64.fin t d g).magBits = 0 ↔ (F64.fin t d g).units = 0 := by
    have a := magBits_lt_iff false t 0 d 0 g
    have b : (F64.fin false 0 0).magBits = 0 := rfl
    have c : (F64.fin false 0 0).units = 0 := rfl
    rw [b, c] at a; omega
  simp only [ord, toInt, isNeg]
  generalize (F64.fin s e f).magBits = A at *
  generalize (F64.fin t d g).magBits = B at *
  generalize (F64.fin s e f).units = C at *
  generalize (F64.fin t d g).units = D at *
  cases s <;> cases t <;> simp <;> omega

theorem ord_lt_iff_toReal (s t : Bool) (e d f g) : (F64.fin s e f).ord < (F64.fin t d g).ord ↔ (F64.fin s e f).toReal < (F64.fin t d g).toReal := by
  rw [ord_lt_iff_toInt]
  unfold toReal
  rw [div_lt_div_iff_of_pos_right (by positivity)]
  exact Int.cast_lt.symm

theorem ord_fin_bounds (s e f) : -((2047 * 2 ^ 52 : Nat) : Int) < (F64.fin s e f).ord ∧ (F64.fin s e f).ord < (2047 * 2 ^ 52 : Nat) := by
  obtain ⟨e, he⟩ := e; obtain ⟨f, hf⟩ := f
  simp only [ord, magBits, isNeg]
  norm_num only
  cases s <;> simp <;> omega

theorem ord_lt_iff (a b : F64) (ha : a ≠ .nan) (hb : b ≠ .nan) : a.ord < b.ord ↔ a.toEReal < b.toEReal := by
  cases a with
  | nan => exact absurd rfl ha
  | inf s =>
    cases b with
    | nan => exact absurd rfl hb
    | inf t => cases s <;> cases t <;> simp [ord, isNeg, magBits, toEReal]
    | fin t d g =>
      have := ord_fin_bounds t d g
      cases s
      · simp [toEReal, ord, isNeg, magBits] at *; omega
      · have h : (F64.inf true).ord = -((2047 * 2 ^ 52 : Nat) : Int) := rfl
        rw [h]; simp [toEReal, EReal.bot_lt_coe]; exact this.1
  | fin s e f =>
    cases b with
    | nan => exact absurd rfl hb
    | inf t =>
      have := ord_fin_bounds s e f
      cases t
      · have h : (F64.inf false).ord = ((2047 * 2 ^ 52 : Nat) : Int) := rfl
        rw [h]; simp [toEReal, EReal.coe_lt_top]; exact this.2
      · have h : (F64.inf true).ord = -((2047 * 2 ^ 52 : Nat) : Int) := rfl
        rw [h]; simp [toEReal]; push_cast at this; omega
    | fin t d g => rw [ord_lt_iff_toReal]; exact EReal.coe_lt_coe_iff.symm
/-! ### The integer root -/

theorem rootDigits_spec (n k : Nat) : ∀ r, r * r ≤ n → n < (r + 2 ^ k) * (r + 2 ^ k) →
    rootDigits n k r * rootDigits n k r ≤ n ∧ n < (rootDigits n k r + 1) * (rootDigits n k r + 1) := by
  induction k with
  | zero => intro r h1 h2; exact ⟨h1, h2⟩
  | succ k ih =>
    intro r h1 h2
    simp only [rootDigits]
    split
    · rename_i h
      exact ih _ h (by rw [Nat.add_assoc, ← Nat.two_mul, ← Nat.pow_succ']; exact h2)
    · rename_i h
      exact ih _ h1 (by omega)

/-- `root56` is the integer square root of every number below `2^112`. -/
theorem root56_spec {n : Nat} (h : n < 2 ^ 112) : root56 n * root56 n ≤ n ∧ n < (root56 n + 1) * (root56 n + 1) :=
  rootDigits_spec n 56 0 (Nat.zero_le _) (by rw [Nat.zero_add, ← Nat.pow_add]; exact h)

end F64
end Sys2Proof
end

