-- ==== Sys2Proof/Laws/Commands.lean ====
section
/-! SUPPORT. What the operations the commands share can do, and what a command's meaning can answer: the lemmas later proofs cite instead of unfolding a meaning. -/

namespace Sys2Proof
namespace Machine

/-! ### Guards and buffers -/

theorem guarded_pass {i : Instr} {s : State} {k : Params → Result}
    (h : boundaryCheck s.cfg.dmemWords i s.operands = none) : guarded i s k = k s.operands := by
  simp only [guarded, h]

theorem guarded_fail {i : Instr} {s : State} {k : Params → Result} {c : ErrorCode}
    (h : boundaryCheck s.cfg.dmemWords i s.operands = some c) : guarded i s k = .next (raiseError c s) := by
  simp only [guarded, h]

/-- A guarded command either ends with the first failing check's error or runs. -/
theorem guarded_cases (i : Instr) (s : State) (k : Params → Result) :
    (∃ c, boundaryCheck s.cfg.dmemWords i s.operands = some c ∧ guarded i s k = .next (raiseError c s)) ∨
    (boundaryCheck s.cfg.dmemWords i s.operands = none ∧ guarded i s k = k s.operands) := by
  cases h : boundaryCheck s.cfg.dmemWords i s.operands with
  | none => exact .inr ⟨rfl, guarded_pass h⟩
  | some c => exact .inl ⟨c, rfl, guarded_fail h⟩

/-- Reading a buffer either gives its words' values or stops at its first unspecified word. -/
theorem withBuffer_cases (s : State) (b : Buffer) (k : List F64 → Result) :
    (∃ ws, Memory.readWords s.dmem b.base b.words = .ok ws ∧ ws.length = b.words ∧
      withBuffer s b k = k (ws.map F64.ofWord)) ∨
    (∃ w, b.base ≤ w ∧ w < b.base + b.words ∧ Memory.readWord s.dmem w = none ∧
      withBuffer s b k = .fault (.unspecifiedWord w)) := by
  cases h : Memory.readWords s.dmem b.base b.words with
  | ok ws => exact .inl ⟨ws, rfl, ((Memory.readWords_ok_iff _ _ _ _).1 h).1, by simp only [withBuffer, h]⟩
  | error w =>
    obtain ⟨h1, h2, h3, -⟩ := Memory.readWords_error h
    exact .inr ⟨w, h1, h2, h3, by simp only [withBuffer, h]⟩

/-- The values of a specified buffer are what its words read as. -/
theorem withBuffer_specified {s : State} {b : Buffer} (h : b.Specified s) (k : List F64 → Result) :
    ∃ vs, b.Holds s vs ∧ withBuffer s b k = k vs := by
  rcases withBuffer_cases s b k with ⟨ws, hr, hl, e⟩ | ⟨w, h1, h2, h3, -⟩
  · refine ⟨ws.map F64.ofWord, ⟨by simpa using hl, fun i hi => ?_⟩, e⟩
    have := ((Memory.readWords_ok_iff _ _ _ _).1 hr).2 i (by omega)
    rw [this]; simp [hl ▸ hi]
  · have := h (w - b.base) (by omega)
    rw [Nat.add_sub_cancel' h1, h3] at this
    simp at this

/-- A buffer holds one list of values only. -/
theorem holds_unique {s : State} {b : Buffer} {vs us : List F64} (h : b.Holds s vs) (g : b.Holds s us) : vs = us := by
  refine List.ext_getElem? fun i => ?_
  by_cases hi : i < b.words
  · rw [← h.2 i hi, ← g.2 i hi]
  · rw [List.getElem?_eq_none (by have := h.1; omega), List.getElem?_eq_none (by have := g.1; omega)]

/-- A buffer that holds values is read without a fault. -/
theorem withBuffer_holds {s : State} {b : Buffer} {vs : List F64} (h : b.Holds s vs) (k : List F64 → Result) :
    withBuffer s b k = k vs := by
  have hs : b.Specified s := by
    intro i hi
    have := h.2 i hi
    have hi' : i < vs.length := by have := h.1; omega
    rw [List.getElem?_eq_getElem hi'] at this
    cases hw : Memory.readWord s.dmem (b.base + i) with
    | none => rw [hw] at this; simp at this
    | some w => rfl
  obtain ⟨us, hu, e⟩ := withBuffer_specified hs k
  rw [e, holds_unique hu h]

/-! ### Output words -/

@[simp] theorem outputWords_length (s : State) (op : Operation) (j : Nat) (vs : List F64) :
    (s.outputWords op j vs).length = vs.length := by
  induction vs generalizing j with
  | nil => rfl
  | cons a vs ih => simp [State.outputWords, ih]

theorem outputWords_getElem? (s : State) (op : Operation) (j i : Nat) (vs : List F64) :
    (s.outputWords op j vs)[i]? = vs[i]?.map (s.outputWord op (j + i)) := by
  induction vs generalizing j i with
  | nil => simp [State.outputWords]
  | cons a vs ih =>
    cases i with
    | zero => simp [State.outputWords]
    | succ i => simp only [State.outputWords, List.getElem?_cons_succ, ih]; congr 2; omega

/-- An output word, once stored, reads back. -/
theorem readWord_outputWords {s : State} (op : Operation) (m : Memory) (b j i : Nat) (vs : List F64) (x : F64)
    (h : vs[i]? = some x) :
    Memory.readWord (Memory.writeWords m b (s.outputWords op j vs)) (b + i) = some (s.outputWord op (j + i) x) := by
  have hi : i < (s.outputWords op j vs).length := by
    rw [outputWords_length]; exact (List.getElem?_eq_some_iff.1 h).1
  rw [Memory.readWord_writeWords _ _ _ _ hi, ← List.getElem?_eq_getElem hi, outputWords_getElem?, h]; rfl

/-- A value's delivered word reads back as the value, whichever encoding a NaN takes (rule R13). -/
theorem ofWord_encodeF64 (n : Nat) (a : F64) : F64.ofWord (encodeF64 n a) = a := by
  by_cases h : a.isNaN = true
  · have hw : (F64.ofWord (nanWord (Config.nanOut n))).isNaN = true := by
      rw [F64.isNaN_ofWord]
      generalize Config.nanOut n = b
      obtain ⟨neg, f, hf⟩ := b
      simp only [nanWord, BitVec.toNat_ofNat]
      cases neg <;> simp <;> omega
    have nan : ∀ x : F64, x.isNaN = true → x = .nan := fun x hx => by cases x <;> first | rfl | simp [F64.isNaN] at hx
    rw [nan a h, encodeF64, if_pos (show F64.nan.isNaN = true from rfl)]
    exact nan _ hw
  · rw [encodeF64, if_neg h]
    exact F64.ofWord_bits a (by simpa using h)

/-- The value of an output word is the value computed. -/
@[simp] theorem ofWord_outputWord (s : State) (op : Operation) (j : Nat) (a : F64) :
    F64.ofWord (s.outputWord op j a) = s.computed op j a := ofWord_encodeF64 _ _

/-- The value computed depends on the datapath alone (rule R175). -/
theorem computed_congr {s t : State} (hc : t.cfg = s.cfg) (hd : t.drawn = s.drawn) (op : Operation) (j : Nat) (a : F64) :
    t.computed op j a = s.computed op j a := by
  simp only [State.computed, State.drawnWord, hc, hd]

/-! What a command delivers depends on neither the engine's phase nor DMEM. -/

theorem outputWords_phase (s : State) (ph : Phase) (op : Operation) (j : Nat) (vs : List F64) :
    State.outputWords { s with phase := ph } op j vs = s.outputWords op j vs := by
  induction vs generalizing j with
  | nil => rfl
  | cons a vs ih => simp only [State.outputWords, ih]; rfl

theorem outputWords_dmem (s : State) (m : Memory) (op : Operation) (j : Nat) (vs : List F64) :
    State.outputWords { s with dmem := m } op j vs = s.outputWords op j vs := by
  induction vs generalizing j with
  | nil => rfl
  | cons a vs ih => simp only [State.outputWords, ih]; rfl

theorem tapWords_phase (s : State) (ph : Phase) (fc : F64) (n : Nat) :
    State.tapWords { s with phase := ph } fc n = s.tapWords fc n := by
  simp only [State.tapWords, outputWords_phase]

theorem withBuffer_phase (s : State) (ph : Phase) (b : Buffer) (k : List F64 → Result) :
    withBuffer { s with phase := ph } b k = withBuffer s b k := rfl

@[simp] theorem mirror_length {α : Type} (n : Nat) (xs : List α) (d : α) : (mirror n xs d).length = n := by
  simp [mirror]

theorem mirror_getElem? {α : Type} {n i : Nat} (xs : List α) (d : α) (h : i < n) :
    (mirror n xs d)[i]? = some (xs.getD (min i (n - 1 - i)) d) := by
  simp [mirror, h]

theorem min_le_lowerHalf {n i : Nat} (h : i < n) : min i (n - 1 - i) ≤ lowerHalf n := by
  unfold lowerHalf; omega

theorem design_length {fc : F64} {n : Nat} {taps : List F64} (h : design fc n = some taps) : taps.length = n := by
  unfold design at h
  split at h
  · cases h; simp [*]
  · simp only at h
    split at h
    · cases h; simp [prototypeTaps]
    · simp at h

/-- The words of a design, when there is one. -/
theorem tapWords_cases (s : State) (fc : F64) (n : Nat) :
    (design fc n = none ∧ s.tapWords fc n = none) ∨
    (∃ taps ws, design fc n = some taps ∧ s.tapWords fc n = some ws ∧ ws.length = n ∧
      ∀ i, i < n → ws[i]? = some (if n = 1 then F64.one.bits
        else s.outputWord (.taps fc n) (min i (n - 1 - i)) (taps.getD (min i (n - 1 - i)) F64.zero))) := by
  cases h : design fc n with
  | none => exact .inl ⟨rfl, by simp only [State.tapWords, h]⟩
  | some taps =>
    right
    have hl := design_length h
    by_cases hn : n = 1
    · subst hn
      refine ⟨taps, [F64.one.bits], rfl, by simp [State.tapWords, h], rfl, fun i hi => ?_⟩
      obtain rfl : i = 0 := by omega
      rfl
    · have e : s.tapWords fc n = some (mirror n (s.outputWords (.taps fc n) 0 (taps.take (lowerHalf n + 1))) 0) := by
        simp only [State.tapWords, h, hn, if_false]
      refine ⟨taps, _, rfl, e, mirror_length _ _ _, fun i hi => ?_⟩
      have hm := min_le_lowerHalf hi
      have hi' : min i (n - 1 - i) < n := by omega
      have hm' : min i (n - 1 - i) < lowerHalf n + 1 := by omega
      rw [mirror_getElem? _ _ hi, if_neg hn, List.getD_eq_getElem?_getD, outputWords_getElem?, Nat.zero_add,
        List.getElem?_take, if_pos hm', List.getD_eq_getElem?_getD, List.getElem?_eq_getElem (by omega)]
      rfl

@[simp] theorem conv_length (f : Bool) (sig h : List F64) : (conv f sig h).length = sig.length := by simp [conv]

theorem conv_getElem? {f : Bool} {sig h : List F64} {i : Nat} (hi : i < sig.length) :
    (conv f sig h)[i]? = some (convAt f sig h i) := by
  simp [conv, hi]

@[simp] theorem dftDirect_length (f : Bool) (sig : List F64) : (dftDirect f sig).length = sig.length / 2 + 1 := by
  simp [dftDirect]

@[simp] theorem stage_length (n span : Nat) (a : List Bin) : (stage n span a).length = n := by simp [stage]

theorem stages_length (n : Nat) (a : List Bin) (l : Nat) (h : a.length = n) : (stages n a l).length = n := by
  cases l with
  | zero => exact h
  | succ l => simp [stages]

theorem isPow2_le {n : Nat} (h : isPow2 n = true) : 2 ≤ n := by
  simp [isPow2] at h; omega

theorem fftRadix2_length {sig : List F64} (h : 2 ≤ sig.length) : (fftRadix2 sig).length = sig.length / 2 + 1 := by
  simp only [fftRadix2, List.length_take]
  rw [stages_length _ _ _ (by simp)]
  omega

/-- A spectrum has `floor(N/2) + 1` bins, whichever the reference. -/
@[simp] theorem spectrum_length (c : Config) (sig : List F64) : (spectrum c sig).length = sig.length / 2 + 1 := by
  unfold spectrum
  split
  · simp
  · split
    · exact fftRadix2_length (isPow2_le ‹_›)
    · simp

@[simp] theorem interleave_length (bs : List Bin) : (interleave bs).length = 2 * bs.length := by
  induction bs with
  | nil => rfl
  | cons b bs ih => simp [interleave, ih]; omega

theorem interleave_getElem? (bs : List Bin) (k : Nat) :
    (interleave bs)[2 * k]? = bs[k]?.map (·.1) ∧ (interleave bs)[2 * k + 1]? = bs[k]?.map (·.2) := by
  induction bs generalizing k with
  | nil => simp [interleave]
  | cons b bs ih =>
    cases k with
    | zero => simp [interleave]
    | succ k =>
      have := ih k
      simpa [interleave, Nat.mul_succ] using this

/-- The bins of a list of `2M` values. -/
theorem binsOf_spec (vs : List F64) (m : Nat) (h : vs.length = 2 * m) :
    (binsOf vs).length = m ∧
      ∀ k, k < m → (binsOf vs)[k]? = some (vs.getD (2 * k) F64.zero, vs.getD (2 * k + 1) F64.zero) := by
  induction m generalizing vs with
  | zero => obtain rfl : vs = [] := by simpa using h
            simp [binsOf]
  | succ m ih =>
    match vs, h with
    | [], h => simp at h
    | [_], h => simp at h; omega
    | re :: im :: vs, h =>
      obtain ⟨h1, h2⟩ := ih vs (by simp at h; omega)
      refine ⟨by simp [binsOf, h1], fun k hk => ?_⟩
      cases k with
      | zero => simp [binsOf]
      | succ k =>
        have := h2 k (by omega)
        simpa [binsOf, Nat.mul_succ] using this

/-- A buffer holds one list of bins. -/
theorem holdsBins_unique {s : State} {b : Buffer} {xs ys : List Bin} (h : b.HoldsBins s xs) (g : b.HoldsBins s ys) :
    xs = ys := by
  have hl : xs.length = ys.length := by have := h.1; have := g.1; omega
  refine List.ext_getElem? fun k => ?_
  by_cases hk : k < xs.length
  · obtain ⟨re, im, h1, h2, e⟩ := h.2 k hk
    obtain ⟨re', im', h1', h2', e'⟩ := g.2 k (hl ▸ hk)
    rw [h1] at h1'; rw [h2] at h2'; cases h1'; cases h2'
    rw [e, e']
  · rw [List.getElem?_eq_none (by omega), List.getElem?_eq_none (by omega)]

/-- A spectrum's buffer read as values is the same buffer read as bins. -/
theorem holdsBins_of_holds {s : State} {b : Buffer} {m : Nat} {vs : List F64} (hb : b.words = 2 * m) (h : b.Holds s vs) :
    b.HoldsBins s (binsOf vs) := by
  obtain ⟨h1, h2⟩ := binsOf_spec vs m (by rw [h.1, hb])
  refine ⟨by rw [hb, h1], fun k hk => ?_⟩
  have get : ∀ i, i < b.words → ∃ w, Memory.readWord s.dmem (b.base + i) = some w ∧ vs.getD i F64.zero = F64.ofWord w := by
    intro i hi
    have := h.2 i hi
    have hi' : i < vs.length := by have := h.1; omega
    rw [List.getElem?_eq_getElem hi'] at this
    obtain ⟨w, hw, e⟩ := Option.map_eq_some_iff.1 this
    exact ⟨w, hw, by rw [List.getD_eq_getElem?_getD, List.getElem?_eq_getElem hi']; exact e.symm⟩
  obtain ⟨re, hre, e1⟩ := get (2 * k) (by omega)
  obtain ⟨im, him, e2⟩ := get (2 * k + 1) (by omega)
  exact ⟨re, im, hre, by rw [Nat.add_assoc]; exact him, by rw [h2 k (by omega), e1, e2]⟩

/-! ### Checks -/

theorem failIf_none {b : Bool} {c : ErrorCode} : failIf b c = none ↔ b = false := by
  cases b <;> simp [failIf]

theorem failIf_some {b : Bool} {c d : ErrorCode} : failIf b c = some d ↔ b = true ∧ c = d := by
  cases b <;> simp [failIf]

theorem designInvalid_none {p : Params} : designInvalid p = none ↔ 1 ≤ p.nTaps.toNat ∧ p.CutoffLegal := by
  simp only [designInvalid, Option.or_eq_none_iff, failIf_none, Params.CutoffLegal, decide_eq_false_iff_not,
    Bool.not_eq_false', Bool.and_eq_true]
  refine and_congr_left fun _ => ?_
  omega

theorem rateInvalid_none {p : Params} : rateInvalid p = none ↔ p.RateLegal := by
  simp [rateInvalid, failIf_none, Params.RateLegal]

theorem inRange_iff {b : Buffer} {n : Nat} : b.inRange n = true ↔ b.base + b.words ≤ n ∨ b.words = 0 := by
  simp [Buffer.inRange]

theorem overlap_false_iff {a b : Buffer} : a.overlap b = false ↔ a.words = 0 ∨ b.words = 0 ∨ a.Apart b := by
  simp only [Buffer.overlap, Buffer.Apart, Bool.and_eq_false_iff, decide_eq_false_iff_not]
  omega

/-- Every check a command makes has passed. -/
theorem boundaryCheck_none {n : Nat} {i : Instr} {p : Params} :
    boundaryCheck n i p = none ↔ invalidCheck i p = none ∧ lengthCheck i p = none ∧ degenerateCheck i p = none ∧
      rangeCheck n i p = none ∧ aliasCheck i p = none := by
  simp only [boundaryCheck, Option.or_eq_none_iff]

/-- A failing check ends the command with its error, for every command but `NOP`, which makes none. -/
theorem exec_of_check {i : Instr} {s : State} {c : ErrorCode} (hi : i ≠ .nop)
    (h : boundaryCheck s.cfg.dmemWords i s.operands = some c) : exec i s = .next (raiseError c s) := by
  cases i with
  | nop => exact absurd rfl hi
  | firdes => simp only [exec, execFirdes]; exact guarded_fail h
  | convZero => simp only [exec, execConvZero]; exact guarded_fail h
  | lpfZero => simp only [exec, execLpfZero]; exact guarded_fail h
  | rfft => simp only [exec, execRfft]; exact guarded_fail h
  | mag => simp only [exec, execMag]; exact guarded_fail h
  | snr => simp only [exec, execSnr]; exact guarded_fail h
  | peakOrig => simp only [exec, execPeakOrig]; exact guarded_fail h
  | peakDerive => simp only [exec, execPeakDerive]; exact guarded_fail h

theorem overlap_true_iff {a b : Buffer} : a.overlap b = true ↔
    0 < a.words ∧ 0 < b.words ∧ a.base < b.base + b.words ∧ b.base < a.base + a.words := by
  simp [Buffer.overlap, and_assoc]

theorem rangeCheck_none {n : Nat} {i : Instr} {p : Params}
    (h : ∀ b ∈ sources i p ++ destinations i p, b.base + b.words ≤ n) : rangeCheck n i p = none := by
  rw [rangeCheck, failIf_none, List.any_eq_false]
  intro b hb
  simp only [Buffer.inRange, h b hb, decide_true, Bool.true_or, Bool.not_true]
  decide

theorem apart_comm {a b : Buffer} : a.Apart b ↔ b.Apart a := by
  simp only [Buffer.Apart]; exact Or.comm

/-- A command that runs normally has passed its checks. -/
theorem ready_checked {i : Instr} {s : State} (h : Ready i s) :
    boundaryCheck s.cfg.dmemWords i s.operands = none ∧ designFails i s.operands = false := by
  have noOverlap : ∀ {a b : Buffer}, a.Apart b → a.overlap b = false := fun h => overlap_false_iff.2 (.inr (.inr h))
  have designs : s.operands.DesignExists →
      (design (F64.ofWord s.operands.cutoff) s.operands.nTaps.toNat).isNone = false := by
    intro hd; rw [Option.isNone_eq_false_iff]; exact hd
  rw [boundaryCheck_none]
  cases i with
  | nop => exact ⟨⟨rfl, rfl, rfl, rfl, rfl⟩, rfl⟩
  | firdes =>
    obtain ⟨h1, h2, h3, h4⟩ := h
    exact ⟨⟨designInvalid_none.2 ⟨h1, h2⟩, rfl, rfl, rangeCheck_none (by simpa [sources, destinations, Buffer.Inside] using h3),
      by simp [aliasCheck, overlapsAny, sources, destinations, failIf]⟩, designs h4⟩
  | convZero =>
    obtain ⟨h1, h2, h3, h4, h5, h6, h7, -, -⟩ := h
    refine ⟨⟨?_, rfl, ?_, rangeCheck_none ?_, ?_⟩, rfl⟩
    · rw [invalidCheck, failIf_none]; simp; omega
    · rw [degenerateCheck, failIf_none]; simp; omega
    · simp only [sources, destinations, List.cons_append, List.nil_append, List.mem_cons, List.not_mem_nil, or_false]
      rintro b (rfl | rfl | rfl) <;> assumption
    · simp [aliasCheck, overlapsAny, sources, destinations, failIf, noOverlap h6, noOverlap h7]
  | lpfZero =>
    obtain ⟨h1, h2, h3, h4, h5, h6, h7, h8, h9, h10, -⟩ := h
    refine ⟨⟨designInvalid_none.2 ⟨h1, h2⟩, rfl, ?_, rangeCheck_none ?_, ?_⟩, designs h10⟩
    · rw [degenerateCheck, failIf_none]; simp; omega
    · simp only [sources, destinations, List.cons_append, List.nil_append, List.mem_cons, List.not_mem_nil, or_false]
      rintro b (rfl | rfl | rfl) <;> assumption
    · simp [aliasCheck, overlapsAny, sources, destinations, failIf, noOverlap h7, noOverlap h8, noOverlap h9]
  | rfft =>
    obtain ⟨h1, h2, h3, h4, -⟩ := h
    refine ⟨⟨rfl, rfl, ?_, rangeCheck_none ?_, ?_⟩, rfl⟩
    · rw [degenerateCheck, failIf_none]; simp; omega
    · simp only [sources, destinations, List.cons_append, List.nil_append, List.mem_cons, List.not_mem_nil, or_false]
      rintro b (rfl | rfl) <;> assumption
    · simp [aliasCheck, overlapsAny, sources, destinations, failIf, noOverlap h4]
  | mag =>
    obtain ⟨h1, h2, h3, h4, -⟩ := h
    refine ⟨⟨rfl, rfl, ?_, rangeCheck_none ?_, ?_⟩, rfl⟩
    · rw [degenerateCheck, failIf_none]; simp; omega
    · simp only [sources, destinations, List.cons_append, List.nil_append, List.mem_cons, List.not_mem_nil, or_false]
      rintro b (rfl | rfl) <;> assumption
    · simp [aliasCheck, overlapsAny, sources, destinations, failIf, noOverlap h4]
  | snr =>
    obtain ⟨h1, h2, h3, h4, -, -⟩ := h
    refine ⟨⟨rfl, ?_, ?_, rangeCheck_none ?_, rfl⟩, rfl⟩
    · rw [lengthCheck, failIf_none]; simp [h2]
    · rw [degenerateCheck, failIf_none]; simp; omega
    · simp only [sources, destinations, List.append_nil, List.mem_cons, List.not_mem_nil, or_false]
      rintro b (rfl | rfl) <;> assumption
  | peakOrig =>
    obtain ⟨h1, h2, h3, h4, h5, -⟩ := h
    refine ⟨⟨?_, ?_, ?_, rangeCheck_none ?_, rfl⟩, rfl⟩
    · rw [invalidCheck, rateInvalid_none.2 h1, Option.none_or, failIf_none]; simp; omega
    · rw [lengthCheck, failIf_none]; simp [h3]
    · rw [degenerateCheck, failIf_none]; simp; omega
    · simpa [sources, destinations, Buffer.Inside] using h5
  | peakDerive =>
    obtain ⟨h1, h4, h5, -⟩ := h
    refine ⟨⟨rateInvalid_none.2 h1, rfl, ?_, rangeCheck_none ?_, rfl⟩, rfl⟩
    · rw [degenerateCheck, failIf_none]; simp; omega
    · simpa [sources, destinations, Buffer.Inside] using h5

/-! ### The peak search -/

/-- Bin `b` has the largest magnitude of the bins `1` to `k − 1`, none of them NaN, and no bin below it has as large a
one. -/
def FirstLargest (f : Nat → F64) (k b : Nat) : Prop :=
  1 ≤ b ∧ b < k ∧ ∀ j, 1 ≤ j → j < k →
    (f j).isNaN = false ∧ F64.le (f j) (f b) = true ∧ (j < b → F64.lt (f j) (f b) = true)

theorem firstLargest_one {f : Nat → F64} (h : (f 1).isNaN = false) : FirstLargest f 2 1 := by
  refine ⟨le_rfl, by omega, fun j h1 h2 => ?_⟩
  obtain rfl : j = 1 := by omega
  exact ⟨h, by simp [F64.le, h], fun h => by omega⟩

theorem firstLargest_step {f : Nat → F64} {k b : Nat} (h : FirstLargest f k b) (hk : (f k).isNaN = false) :
    FirstLargest f (k + 1) (if F64.lt (f b) (f k) then k else b) := by
  obtain ⟨h1, h2, h3⟩ := h
  have hb := (h3 b h1 h2).1
  by_cases hlt : F64.lt (f b) (f k) = true
  · rw [if_pos hlt]
    refine ⟨by omega, by omega, fun j hj1 hj2 => ?_⟩
    rcases Nat.lt_succ_iff_lt_or_eq.1 hj2 with hj | rfl
    · obtain ⟨n1, n2, -⟩ := h3 j hj1 hj
      simp only [F64.lt, F64.le, n1, hb, hk, Bool.not_false, Bool.true_and, decide_eq_true_eq] at *
      exact ⟨trivial, by omega, fun _ => by omega⟩
    · exact ⟨hk, by simp [F64.le, hk], fun h => by omega⟩
  · rw [if_neg hlt]
    refine ⟨h1, by omega, fun j hj1 hj2 => ?_⟩
    rcases Nat.lt_succ_iff_lt_or_eq.1 hj2 with hj | rfl
    · exact h3 j hj1 hj
    · refine ⟨hk, ?_, fun h => by omega⟩
      simp only [F64.lt, F64.le, hb, hk, Bool.not_false, Bool.true_and, decide_eq_true_eq] at *
      omega

/-- The search of rule R227 over specified bins whose magnitudes are `f`: it ends at the first bin whose magnitude is NaN,
or finds the first of the largest. -/
theorem peakSearch_spec {m : Memory} {base : Nat} {f : Nat → F64} (n : Nat) :
    ∀ (k : Nat) (best : Option (Nat × F64)), 1 ≤ k → 2 ≤ k + n →
      (∀ j, k ≤ j → j < k + n → ∃ re im, Memory.readWord m (base + 2 * j) = some re ∧
        Memory.readWord m (base + 2 * j + 1) = some im ∧ magnitude (F64.ofWord re, F64.ofWord im) = f j) →
      (best = none → k = 1) → (∀ b, best = some b → b.2 = f b.1 ∧ FirstLargest f k b.1) →
      ∃ r, peakSearch m base k best n = .ok r ∧ 1 ≤ r.bin ∧ r.bin < k + n ∧
        ((r.isNaN = true ∧ (f r.bin).isNaN = true ∧ ∀ j, 1 ≤ j → j < r.bin → (f j).isNaN = false) ∨
          (r.isNaN = false ∧ FirstLargest f (k + n) r.bin)) := by
  induction n with
  | zero =>
    intro k best h1 h2 _ hn hb
    cases best with
    | none => have := hn rfl; omega
    | some b =>
      obtain ⟨-, hl⟩ := hb b rfl
      exact ⟨⟨b.1, false⟩, rfl, hl.1, hl.2.1, .inr ⟨rfl, hl⟩⟩
  | succ n ih =>
    intro k best h1 h2 hw hn hb
    obtain ⟨re, im, hre, him, hf⟩ := hw k le_rfl (by omega)
    simp only [peakSearch, hre, him, hf]
    have below : ∀ j, 1 ≤ j → j < k → (f j).isNaN = false := by
      intro j hj1 hj2
      cases best with
      | none => have := hn rfl; omega
      | some b => exact ((hb b rfl).2.2.2 j hj1 hj2).1
    by_cases hnan : (f k).isNaN = true
    · rw [if_pos hnan]
      exact ⟨⟨k, true⟩, rfl, h1, by simp only; omega, .inl ⟨rfl, hnan, below⟩⟩
    · rw [if_neg hnan]
      have hk : (f k).isNaN = false := by simpa using hnan
      have tail : ∀ j, k + 1 ≤ j → j < k + 1 + n → ∃ re im, Memory.readWord m (base + 2 * j) = some re ∧
          Memory.readWord m (base + 2 * j + 1) = some im ∧ magnitude (F64.ofWord re, F64.ofWord im) = f j :=
        fun j hj1 hj2 => hw j (by omega) (by omega)
      have e : k + (n + 1) = k + 1 + n := by omega
      rw [e]
      cases best with
      | none =>
        obtain rfl := hn rfl
        exact ih 2 _ (by omega) (by omega) tail (by simp) (fun b hb => by cases hb; exact ⟨rfl, firstLargest_one hk⟩)
      | some b =>
        obtain ⟨e1, hl⟩ := hb b rfl
        have hs := firstLargest_step hl hk
        simp only [e1]
        by_cases hlt : F64.lt (f b.1) (f k) = true
        · rw [if_pos hlt] at hs ⊢
          exact ih (k + 1) _ (by omega) (by omega) tail (by simp) (fun b hb => by cases hb; exact ⟨rfl, hs⟩)
        · rw [if_neg hlt] at hs ⊢
          exact ih (k + 1) _ (by omega) (by omega) tail (by simp) (fun b' hb => by cases hb; exact ⟨e1, hs⟩)

/-! ### What a command can answer -/

/-- The state after the words `ws` of each destination buffer are stored, in the row's order (rule R128). -/
def storeAll (m : Memory) : List (Buffer × List Word) → Memory
  | [] => m
  | (b, ws) :: rest => storeAll (Memory.writeWords m b.base ws) rest

/-- A command that runs to its completion: the checks have passed, the words of its destination buffers are stored whole,
`RES0` and `RES1` change only as its rule says, and it completes with success. -/
structure Ran (i : Instr) (s t : State) : Prop where
  checked : boundaryCheck s.cfg.dmemWords i s.operands = none
  effect : ∃ (out : List (Buffer × List Word)) (drawn : Nat) (r0 : Word) (r1 : BitVec 32),
    out.map (·.1) = destinations i s.operands ∧ (∀ o ∈ out, o.2.length = o.1.words) ∧
    (i ≠ .snr → i ≠ .peakOrig → i ≠ .peakDerive → r0 = s.res0) ∧ (i ≠ .peakOrig → i ≠ .peakDerive → r1 = s.res1) ∧
    t = complete (resultWords i s.operands)
      (State.delivered drawn { s with res0 := r0, res1 := r1, dmem := storeAll s.dmem out })

/-- A run of a command with one destination buffer. -/
theorem Ran.one {i : Instr} {s t : State} {b : Buffer} {ws : List Word} {d n : Nat}
    (hc : boundaryCheck s.cfg.dmemWords i s.operands = none) (hd : destinations i s.operands = [b])
    (hl : ws.length = b.words) (hn : n = resultWords i s.operands)
    (ht : complete n (State.delivered d (storeWords b.base ws s)) = t) : Ran i s t := by
  subst hn
  exact ⟨hc, [(b, ws)], d, s.res0, s.res1, by simp [hd], by simpa using hl, fun _ _ _ => rfl, fun _ _ => rfl, ht.symm⟩

/-- A run of a command with no destination buffer. -/
theorem Ran.none {i : Instr} {s t : State} {d : Nat} {r0 : Word} {r1 : BitVec 32}
    (hc : boundaryCheck s.cfg.dmemWords i s.operands = none) (hd : destinations i s.operands = [])
    (hn : 0 = resultWords i s.operands)
    (h0 : i ≠ .snr → i ≠ .peakOrig → i ≠ .peakDerive → r0 = s.res0) (h1 : i ≠ .peakOrig → i ≠ .peakDerive → r1 = s.res1)
    (ht : complete 0 (State.delivered d { s with res0 := r0, res1 := r1 }) = t) : Ran i s t := by
  refine ⟨hc, [], d, r0, r1, by simp [hd], by simp, h0, h1, ?_⟩
  rw [← hn, ← ht]; rfl

/-- Everything a command's meaning can answer when it goes on: the error of a failing check, or a run to completion. -/
theorem exec_cases {i : Instr} {s t : State} (h : exec i s = .next t) :
    (∃ c, t = raiseError c s ∧ (boundaryCheck s.cfg.dmemWords i s.operands = some c ∨
      (boundaryCheck s.cfg.dmemWords i s.operands = none ∧ designFails i s.operands = true ∧ c = .degenerateInput))) ∨
    Ran i s t := by
  cases i with
  | nop => exact .inr (Ran.none (d := 0) (r0 := s.res0) (r1 := s.res1) rfl rfl rfl (by simp) (by simp) (Host.Outcome.next.inj h))
  | firdes =>
    simp only [exec, execFirdes] at h
    rcases guarded_cases .firdes s _ with ⟨c, hc, e⟩ | ⟨hc, e⟩ <;> rw [e] at h
    · exact .inl ⟨c, (Host.Outcome.next.inj h).symm, .inl hc⟩
    · rcases tapWords_cases s (F64.ofWord s.operands.cutoff) s.operands.nTaps.toNat with ⟨hd, ht⟩ | ⟨taps, ws, hd, ht, hl, -⟩
      · simp only [ht] at h
        exact .inl ⟨_, (Host.Outcome.next.inj h).symm, .inr ⟨hc, by simp [designFails, hd], rfl⟩⟩
      · simp only [ht] at h
        exact .inr (Ran.one hc rfl hl rfl (Host.Outcome.next.inj h))
  | convZero =>
    simp only [exec, execConvZero] at h
    rcases guarded_cases .convZero s _ with ⟨c, hc, e⟩ | ⟨hc, e⟩ <;> rw [e] at h
    · exact .inl ⟨c, (Host.Outcome.next.inj h).symm, .inl hc⟩
    · rcases withBuffer_cases s s.operands.signalA _ with ⟨ws, -, hl, e⟩ | ⟨w, -, -, -, e⟩ <;> rw [e] at h
      · rcases withBuffer_cases s s.operands.bufferB _ with ⟨us, -, -, e⟩ | ⟨w, -, -, -, e⟩ <;> rw [e] at h
        · exact .inr (Ran.one hc rfl (by simpa [Params.destD, Params.signalA] using hl) (by simpa [resultWords, Params.signalA] using hl) (Host.Outcome.next.inj h))
        · simp at h
      · simp at h
  | lpfZero =>
    simp only [exec, execLpfZero] at h
    rcases guarded_cases .lpfZero s _ with ⟨c, hc, e⟩ | ⟨hc, e⟩ <;> rw [e] at h
    · exact .inl ⟨c, (Host.Outcome.next.inj h).symm, .inl hc⟩
    · rcases tapWords_cases s (F64.ofWord s.operands.cutoff) s.operands.nTaps.toNat with ⟨hd, ht⟩ | ⟨taps, ws, hd, ht, hl, -⟩
      · simp only [ht] at h
        exact .inl ⟨_, (Host.Outcome.next.inj h).symm, .inr ⟨hc, by simp [designFails, hd], rfl⟩⟩
      · simp only [ht] at h
        rcases withBuffer_cases s s.operands.signalA _ with ⟨us, -, hl', e⟩ | ⟨w, -, -, -, e⟩ <;> rw [e] at h
        · have h := Host.Outcome.next.inj h
          simp only [List.length_map, hl'] at h
          refine .inr ⟨hc, [(s.operands.tapsB, ws), (s.operands.destD s.operands.aLen.toNat,
            (State.delivered (tapDraws s.operands.nTaps.toNat) s).outputWords
              (.conv (us.map F64.ofWord) (ws.map F64.ofWord)) 0
              (conv s.cfg.macFused (us.map F64.ofWord) (ws.map F64.ofWord)))], _, s.res0, s.res1, rfl, ?_, by simp, by simp, h.symm⟩
          simpa [Params.destD, Params.tapsB, Params.signalA, hl] using hl'
        · simp at h
  | rfft =>
    simp only [exec, execRfft] at h
    rcases guarded_cases .rfft s _ with ⟨c, hc, e⟩ | ⟨hc, e⟩ <;> rw [e] at h
    · exact .inl ⟨c, (Host.Outcome.next.inj h).symm, .inl hc⟩
    · rcases withBuffer_cases s s.operands.signalA _ with ⟨ws, -, hl, e⟩ | ⟨w, -, -, -, e⟩ <;> rw [e] at h
      · exact .inr (Ran.one hc rfl (by simp [hl, Params.signalA, Params.destD, spectrumWords])
          (by simp [hl, resultWords, Params.signalA, spectrumWords]) (Host.Outcome.next.inj h))
      · simp at h
  | mag =>
    simp only [exec, execMag] at h
    rcases guarded_cases .mag s _ with ⟨c, hc, e⟩ | ⟨hc, e⟩ <;> rw [e] at h
    · exact .inl ⟨c, (Host.Outcome.next.inj h).symm, .inl hc⟩
    · rcases withBuffer_cases s s.operands.spectrumA _ with ⟨ws, -, hl, e⟩ | ⟨w, -, -, -, e⟩ <;> rw [e] at h
      · have hb := (binsOf_spec (ws.map F64.ofWord) s.operands.aLen.toNat (by simpa [Params.spectrumA] using hl)).1
        exact .inr (Ran.one hc rfl (by simp [hb, Params.destD]) (by simp [hb, resultWords]) (Host.Outcome.next.inj h))
      · simp at h
  | snr =>
    simp only [exec, execSnr] at h
    rcases guarded_cases .snr s _ with ⟨c, hc, e⟩ | ⟨hc, e⟩ <;> rw [e] at h
    · exact .inl ⟨c, (Host.Outcome.next.inj h).symm, .inl hc⟩
    · rcases withBuffer_cases s s.operands.signalA _ with ⟨ws, -, hl, e⟩ | ⟨w, -, -, -, e⟩ <;> rw [e] at h
      · rcases withBuffer_cases s s.operands.bufferB _ with ⟨us, -, -, e⟩ | ⟨w, -, -, -, e⟩ <;> rw [e] at h
        · split at h
          · exact .inr (Ran.none (d := 0) (r0 := (F64.inf false).bits) (r1 := s.res1) hc rfl rfl (by simp) (by simp)
              (Host.Outcome.next.inj h))
          · exact .inr (Ran.none (r1 := s.res1) hc rfl rfl (by simp) (by simp) (Host.Outcome.next.inj h))
        · simp at h
      · simp at h
  | peakOrig =>
    simp only [exec, execPeakOrig] at h
    rcases guarded_cases .peakOrig s _ with ⟨c, hc, e⟩ | ⟨hc, e⟩ <;> rw [e] at h
    · exact .inl ⟨c, (Host.Outcome.next.inj h).symm, .inl hc⟩
    · simp only [peakWith] at h
      split at h
      · simp at h
      · exact .inr (Ran.none hc rfl rfl (by simp) (by simp) (Host.Outcome.next.inj h))
  | peakDerive =>
    simp only [exec, execPeakDerive] at h
    rcases guarded_cases .peakDerive s _ with ⟨c, hc, e⟩ | ⟨hc, e⟩ <;> rw [e] at h
    · exact .inl ⟨c, (Host.Outcome.next.inj h).symm, .inl hc⟩
    · simp only [peakWith] at h
      split at h
      · simp at h
      · exact .inr (Ran.none hc rfl rfl (by simp) (by simp) (Host.Outcome.next.inj h))

/-- A command that runs changes nothing that `CommandLeaves` names. -/
theorem Ran.leaves {i : Instr} {s t : State} (h : Ran i s t) : CommandLeaves s t := by
  obtain ⟨-, out, d, r0, r1, -, -, -, -, rfl⟩ := h
  exact ⟨rfl, rfl, rfl, rfl, rfl, rfl⟩

/-- A command that runs completes with success. -/
theorem Ran.succeeded {i : Instr} {s t : State} (h : Ran i s t) : Succeeded s t (resultWords i s.operands) := by
  obtain ⟨-, out, d, r0, r1, -, -, -, -, rfl⟩ := h
  exact ⟨rfl, rfl, rfl, rfl, rfl, rfl⟩

/-- The result registers a command that runs leaves alone. -/
theorem Ran.results {i : Instr} {s t : State} (h : Ran i s t) :
    (i ≠ .snr → i ≠ .peakOrig → i ≠ .peakDerive → t.res0 = s.res0) ∧
      (i ≠ .peakOrig → i ≠ .peakDerive → t.res1 = s.res1) := by
  obtain ⟨-, out, d, r0, r1, -, -, h0, h1, rfl⟩ := h
  exact ⟨h0, h1⟩

/-- A command whose operands and state are ready runs, if it goes on at all. -/
theorem ran_of_ready {i : Instr} {s t : State} (hr : Ready i s) (h : exec i s = .next t) : Ran i s t := by
  have hc := ready_checked hr
  rcases exec_cases h with ⟨c, -, hc' | ⟨-, hd, -⟩⟩ | h
  · rw [hc.1] at hc'; simp at hc'
  · rw [hc.2] at hd; simp at hd
  · exact h

/-! ### What each command answers when it is ready -/

/-- An output word, once stored, holds the value computed. -/
theorem value_outputWords {s : State} {op : Operation} {m : Memory} {b k : Nat} {vs : List F64} {x : F64}
    (h : vs[k]? = some x) :
    (Memory.readWord (Memory.writeWords m b (s.outputWords op 0 vs)) (b + k)).map F64.ofWord = some (s.computed op k x) := by
  rw [readWord_outputWords op m b 0 k vs x h]; simp

theorem exec_firdes_ready {s : State} (hr : Ready .firdes s) :
    let n := s.operands.nTaps.toNat
    let fc := F64.ofWord s.operands.cutoff
    ∃ taps ws, design fc n = some taps ∧ ws.length = n ∧
      (∀ i, i < n → ws[i]? = some (if n = 1 then F64.one.bits
        else s.outputWord (.taps fc n) (min i (n - 1 - i)) (taps.getD (min i (n - 1 - i)) F64.zero))) ∧
      exec .firdes s = .next (complete n (State.delivered (tapDraws n) (storeWords s.operands.dBase.toNat ws s))) := by
  intro n fc
  have hc := ready_checked hr
  rcases tapWords_cases s fc n with ⟨h1, -⟩ | ⟨taps, ws, h1, ht, hl, hw⟩
  · simp [designFails, h1, n, fc] at hc
  · refine ⟨taps, ws, h1, hl, hw, ?_⟩
    simp only [exec, execFirdes]
    rw [guarded_pass hc.1]
    simp only [n, fc] at ht
    simp only [ht, n]

theorem exec_convZero_holds {s : State} {sig h : List F64} (hr : Ready .convZero s) (hs : s.operands.signalA.Holds s sig)
    (hh : s.operands.bufferB.Holds s h) :
    exec .convZero s = .next (completeWith s.operands (.conv sig h) (conv s.cfg.macFused sig h) s) := by
  simp only [exec, execConvZero]
  rw [guarded_pass (ready_checked hr).1, withBuffer_holds hs, withBuffer_holds hh]

theorem exec_lpfZero_holds {s : State} {sig : List F64} {ws : List Word} (hr : Ready .lpfZero s)
    (hs : s.operands.signalA.Holds s sig)
    (hw : s.tapWords (F64.ofWord s.operands.cutoff) s.operands.nTaps.toNat = some ws) :
    let n := s.operands.nTaps.toNat
    let h := ws.map F64.ofWord
    exec .lpfZero s = .next (complete sig.length (State.delivered (tapDraws n + sig.length)
      (storeWords s.operands.dBase.toNat
        ((State.delivered (tapDraws n) s).outputWords (.conv sig h) 0 (conv s.cfg.macFused sig h))
        (storeWords s.operands.bBase.toNat ws s)))) := by
  simp only [exec, execLpfZero]
  rw [guarded_pass (ready_checked hr).1]
  simp only [hw]
  rw [withBuffer_holds hs]

theorem exec_rfft_holds {s : State} {sig : List F64} (hr : Ready .rfft s) (hs : s.operands.signalA.Holds s sig) :
    exec .rfft s = .next (completeWith s.operands (.rfft sig) (interleave (spectrum s.cfg sig)) s) := by
  simp only [exec, execRfft]
  rw [guarded_pass (ready_checked hr).1, withBuffer_holds hs]

theorem exec_mag_holds {s : State} {bins : List Bin} (hr : Ready .mag s) (hb : s.operands.spectrumA.HoldsBins s bins) :
    exec .mag s = .next (completeWith s.operands (.mag bins) (bins.map magnitude) s) := by
  obtain ⟨vs, hs, e⟩ := withBuffer_specified hr.2.2.2.2
    (fun vs => .next (completeWith s.operands (.mag (binsOf vs)) ((binsOf vs).map magnitude) s))
  obtain rfl := holdsBins_unique hb (holdsBins_of_holds (m := s.operands.aLen.toNat) rfl hs)
  simp only [exec, execMag]
  rw [guarded_pass (ready_checked hr).1, e]

theorem exec_snr_holds {s : State} {r t : List F64} (hr : Ready .snr s) (h1 : s.operands.signalA.Holds s r)
    (h2 : s.operands.bufferB.Holds s t) :
    exec .snr s = if F64.eq (powerSums r t).1 F64.zero then .next (complete 0 { s with res0 := (F64.inf false).bits })
      else .next (complete 0 (State.delivered 1
        { s with res0 := s.outputWord (.snr r t) 0 (snrOf (powerSums r t)) })) := by
  simp only [exec, execSnr]
  rw [guarded_pass (ready_checked hr).1, withBuffer_holds h1, withBuffer_holds h2]

/-- The bins a search reads, of bins that are specified: all of them, or those up to the first whose magnitude is NaN. -/
theorem peakBins_spec {m : Memory} {base : Nat} (n : Nat) : ∀ k : Nat,
    (∀ j, k ≤ j → j < k + n → (Memory.readWord m (base + 2 * j)).isSome = true ∧
      (Memory.readWord m (base + 2 * j + 1)).isSome = true) →
    (peakBins m base k n).length ≤ n ∧
    (∀ j, j < (peakBins m base k n).length → ∃ re im, Memory.readWord m (base + 2 * (k + j)) = some re ∧
      Memory.readWord m (base + 2 * (k + j) + 1) = some im ∧
      (peakBins m base k n)[j]? = some (F64.ofWord re, F64.ofWord im)) ∧
    (∀ j, j + 1 < (peakBins m base k n).length →
      (magnitude ((peakBins m base k n).getD j (F64.zero, F64.zero))).isNaN = false) ∧
    ((peakBins m base k n).length = n ∨
      ∃ b, (peakBins m base k n).getLast? = some b ∧ (magnitude b).isNaN = true) := by
  induction n with
  | zero => intro k _; simp [peakBins]
  | succ n ih =>
    intro k h
    obtain ⟨h1, h2⟩ := h k le_rfl (by omega)
    obtain ⟨re, hre⟩ := Option.isSome_iff_exists.1 h1
    obtain ⟨im, him⟩ := Option.isSome_iff_exists.1 h2
    by_cases hn : (magnitude (F64.ofWord re, F64.ofWord im)).isNaN = true
    · have e : peakBins m base k (n + 1) = [(F64.ofWord re, F64.ofWord im)] := by simp [peakBins, hre, him, hn]
      rw [e]
      refine ⟨by simp, fun j hj => ?_, fun j hj => by simp at hj, .inr ⟨_, rfl, hn⟩⟩
      obtain rfl : j = 0 := by simpa using hj
      exact ⟨re, im, hre, him, rfl⟩
    · obtain ⟨i1, i2, i3, i4⟩ := ih (k + 1) fun j hj hj' => h j (by omega) (by omega)
      have e : peakBins m base k (n + 1) = (F64.ofWord re, F64.ofWord im) :: peakBins m base (k + 1) n := by
        simp [peakBins, hre, him, hn]
      rw [e]
      refine ⟨by simpa using i1, fun j hj => ?_, fun j hj => ?_, ?_⟩
      · cases j with
        | zero => exact ⟨re, im, hre, him, rfl⟩
        | succ j =>
          obtain ⟨re', im', g1, g2, g3⟩ := i2 j (by simpa using hj)
          exact ⟨re', im', by rw [← g1]; congr 2; omega, by rw [← g2]; congr 3; omega, by simpa using g3⟩
      · cases j with
        | zero => simpa using hn
        | succ j => simpa using i3 j (by simpa using hj)
      · rcases i4 with h4 | ⟨b, hb, hb'⟩
        · exact .inl (by simp [h4])
        · exact .inr ⟨b, by rw [List.getLast?_cons, hb]; rfl, hb'⟩

/-! ### How a command can stop -/

/-- A search that meets a NaN magnitude `d` bins on, every bin before it having a number, reads no further. -/
theorem peakSearch_firstNaN {m : Memory} {base : Nat} (d : Nat) : ∀ (n k : Nat) (best : Option (Nat × F64)), d < n →
    (∀ j, k ≤ j → j ≤ k + d → ∃ re im, Memory.readWord m (base + 2 * j) = some re ∧
      Memory.readWord m (base + 2 * j + 1) = some im ∧
      (magnitude (F64.ofWord re, F64.ofWord im)).isNaN = decide (j = k + d)) →
    peakSearch m base k best n = .ok ⟨k + d, true⟩ := by
  induction d with
  | zero =>
    intro n k best hn h
    obtain ⟨n, rfl⟩ := Nat.exists_eq_add_of_lt hn
    obtain ⟨re, im, h1, h2, h3⟩ := h k le_rfl le_rfl
    simp only [Nat.zero_add, peakSearch, h1, h2, h3, Nat.add_zero, decide_true, if_true]
  | succ d ih =>
    intro n k best hn h
    obtain ⟨n, rfl⟩ : ∃ q, n = q + 1 := ⟨n - 1, by omega⟩
    obtain ⟨re, im, h1, h2, h3⟩ := h k le_rfl (by omega)
    rw [decide_eq_false (by omega)] at h3
    have rest : ∀ b, peakSearch m base (k + 1) b n = .ok ⟨k + (d + 1), true⟩ := fun b => by
      rw [ih n (k + 1) b (by omega) fun j hj hj' => ?_]
      · rw [show k + 1 + d = k + (d + 1) by omega]
      · obtain ⟨re, im, g1, g2, g3⟩ := h j (by omega) (by omega)
        exact ⟨re, im, g1, g2, by rw [g3]; congr 1; exact propext (by omega)⟩
    simp only [peakSearch, h1, h2, h3, Bool.false_eq_true, if_false]
    cases best <;> exact rest _

/-- A search that stops met a word of the bins it searches that nothing specifies. -/
theorem peakSearch_error {m : Memory} {base n k w : Nat} {best : Option (Nat × F64)}
    (h : peakSearch m base k best n = .error w) :
    base + 2 * k ≤ w ∧ w < base + 2 * (k + n) ∧ Memory.readWord m w = none := by
  induction n generalizing k best with
  | zero => simp [peakSearch] at h
  | succ n ih =>
    simp only [peakSearch] at h
    split at h
    · rename_i hre
      obtain rfl := Except.error.inj h
      exact ⟨by omega, by omega, hre⟩
    · rename_i him
      obtain rfl := Except.error.inj h
      exact ⟨by omega, by omega, him⟩
    · split at h
      · simp at h
      · split at h
        all_goals
          obtain ⟨h1, h2, h3⟩ := ih h
          exact ⟨by omega, by omega, h3⟩

/-- A command stops only at an unspecified word of one of its source buffers, its checks passed. -/
theorem exec_fault {i : Instr} {s : State} {f : Fault} (h : exec i s = .fault f) :
    boundaryCheck s.cfg.dmemWords i s.operands = none ∧
      ∃ b ∈ sources i s.operands, ∃ w, b.base ≤ w ∧ w < b.base + b.words ∧ Memory.readWord s.dmem w = none ∧
        f = .unspecifiedWord w := by
  cases i with
  | nop => simp [exec, execNop] at h
  | firdes =>
    simp only [exec, execFirdes] at h
    rcases guarded_cases .firdes s _ with ⟨c, hc, e⟩ | ⟨hc, e⟩ <;> rw [e] at h
    · simp at h
    · split at h <;> simp at h
  | convZero =>
    simp only [exec, execConvZero] at h
    rcases guarded_cases .convZero s _ with ⟨c, hc, e⟩ | ⟨hc, e⟩ <;> rw [e] at h
    · simp at h
    · refine ⟨hc, ?_⟩
      rcases withBuffer_cases s s.operands.signalA _ with ⟨ws, -, hl, e⟩ | ⟨w, h1, h2, h3, e⟩ <;> rw [e] at h
      · rcases withBuffer_cases s s.operands.bufferB _ with ⟨us, -, -, e⟩ | ⟨w, h1, h2, h3, e⟩ <;> rw [e] at h
        · simp at h
        · exact ⟨_, by simp [sources], w, h1, h2, h3, (Host.Outcome.fault.inj h).symm⟩
      · exact ⟨_, by simp [sources], w, h1, h2, h3, (Host.Outcome.fault.inj h).symm⟩
  | lpfZero =>
    simp only [exec, execLpfZero] at h
    rcases guarded_cases .lpfZero s _ with ⟨c, hc, e⟩ | ⟨hc, e⟩ <;> rw [e] at h
    · simp at h
    · refine ⟨hc, ?_⟩
      split at h
      · simp at h
      · rcases withBuffer_cases s s.operands.signalA _ with ⟨ws, -, hl, e⟩ | ⟨w, h1, h2, h3, e⟩ <;> rw [e] at h
        · simp at h
        · exact ⟨_, by simp [sources], w, h1, h2, h3, (Host.Outcome.fault.inj h).symm⟩
  | rfft =>
    simp only [exec, execRfft] at h
    rcases guarded_cases .rfft s _ with ⟨c, hc, e⟩ | ⟨hc, e⟩ <;> rw [e] at h
    · simp at h
    · refine ⟨hc, ?_⟩
      rcases withBuffer_cases s s.operands.signalA _ with ⟨ws, -, hl, e⟩ | ⟨w, h1, h2, h3, e⟩ <;> rw [e] at h
      · simp at h
      · exact ⟨_, by simp [sources], w, h1, h2, h3, (Host.Outcome.fault.inj h).symm⟩
  | mag =>
    simp only [exec, execMag] at h
    rcases guarded_cases .mag s _ with ⟨c, hc, e⟩ | ⟨hc, e⟩ <;> rw [e] at h
    · simp at h
    · refine ⟨hc, ?_⟩
      rcases withBuffer_cases s s.operands.spectrumA _ with ⟨ws, -, hl, e⟩ | ⟨w, h1, h2, h3, e⟩ <;> rw [e] at h
      · simp at h
      · exact ⟨_, by simp [sources], w, h1, h2, h3, (Host.Outcome.fault.inj h).symm⟩
  | snr =>
    simp only [exec, execSnr] at h
    rcases guarded_cases .snr s _ with ⟨c, hc, e⟩ | ⟨hc, e⟩ <;> rw [e] at h
    · simp at h
    · refine ⟨hc, ?_⟩
      rcases withBuffer_cases s s.operands.signalA _ with ⟨ws, -, hl, e⟩ | ⟨w, h1, h2, h3, e⟩ <;> rw [e] at h
      · rcases withBuffer_cases s s.operands.bufferB _ with ⟨us, -, -, e⟩ | ⟨w, h1, h2, h3, e⟩ <;> rw [e] at h
        · split at h <;> simp at h
        · exact ⟨_, by simp [sources], w, h1, h2, h3, (Host.Outcome.fault.inj h).symm⟩
      · exact ⟨_, by simp [sources], w, h1, h2, h3, (Host.Outcome.fault.inj h).symm⟩
  | peakOrig =>
    simp only [exec, execPeakOrig] at h
    rcases guarded_cases .peakOrig s _ with ⟨c, hc, e⟩ | ⟨hc, e⟩ <;> rw [e] at h
    · simp at h
    · refine ⟨hc, s.operands.spectrumA, by simp [sources], peakWith_fault h⟩
  | peakDerive =>
    simp only [exec, execPeakDerive] at h
    rcases guarded_cases .peakDerive s _ with ⟨c, hc, e⟩ | ⟨hc, e⟩ <;> rw [e] at h
    · simp at h
    · refine ⟨hc, s.operands.spectrumA, by simp [sources], peakWith_fault h⟩
where
  peakWith_fault {s : State} {p : Params} {d : Bool} {n : Nat} {f : Fault} (h : peakWith s p d n = .fault f) :
      ∃ w, p.spectrumA.base ≤ w ∧ w < p.spectrumA.base + p.spectrumA.words ∧ Memory.readWord s.dmem w = none ∧
        f = .unspecifiedWord w := by
    simp only [peakWith] at h
    split at h
    · rename_i w hw
      obtain ⟨h1, h2, h3⟩ := peakSearch_error hw
      have hlt : w < p.aBase.toNat + 2 * p.aLen.toNat := by
        rcases Nat.eq_zero_or_pos p.aLen.toNat with h0 | h0
        · rw [h0] at hw; simp [peakSearch] at hw
        · omega
      exact ⟨w, by simp only [Params.spectrumA]; omega, hlt, h3, (Host.Outcome.fault.inj h).symm⟩
    · simp at h

/-- No command is refused. -/
theorem exec_not_refused (i : Instr) (s : State) (r : Refusal) : exec i s ≠ .refused r := by
  intro h
  cases i with
  | nop => simp [exec, execNop] at h
  | firdes =>
    simp only [exec, execFirdes, guarded] at h
    split at h
    · simp at h
    · split at h <;> simp at h
  | convZero =>
    simp only [exec, execConvZero, guarded, withBuffer] at h
    split at h
    · simp at h
    · split at h
      · split at h <;> simp at h
      · simp at h
  | lpfZero =>
    simp only [exec, execLpfZero, guarded, withBuffer] at h
    split at h
    · simp at h
    · split at h
      · simp at h
      · split at h <;> simp at h
  | rfft =>
    simp only [exec, execRfft, guarded, withBuffer] at h
    split at h
    · simp at h
    · split at h <;> simp at h
  | mag =>
    simp only [exec, execMag, guarded, withBuffer] at h
    split at h
    · simp at h
    · split at h <;> simp at h
  | snr =>
    simp only [exec, execSnr, guarded, withBuffer] at h
    split at h
    · simp at h
    · split at h
      · split at h
        · split at h <;> simp at h
        · simp at h
      · simp at h
  | peakOrig =>
    simp only [exec, execPeakOrig, guarded, peakWith] at h
    split at h
    · simp at h
    · split at h <;> simp at h
  | peakDerive =>
    simp only [exec, execPeakDerive, guarded, peakWith] at h
    split at h
    · simp at h
    · split at h <;> simp at h

end Machine
end Sys2Proof
end

