-- ==== Sys2Proof/Laws/Design.lean ====
section
/-! SUPPORT. A design of more than one tap exists, whatever the sine function: the bounds that rounding keeps, and the design of two taps at cutoff 0.25 (rules R15, R151). -/

namespace Sys2Proof
namespace F64

/-! ### Bounds that rounding keeps -/

/-- A result rounded to nearest does not fall below a binary64 value that is below the exact value. -/
theorem RoundsTo.ge {r c : F64} {x : ℝ} (h : r.RoundsTo x) (hr : r.isFinite = true) (hc : c.isFinite = true)
    (hx : c.toReal ≤ x) : c.toReal ≤ r.toReal := by
  have hn := h.nearest hr c hc
  rw [abs_of_nonpos (by linarith : c.toReal - x ≤ 0)] at hn
  have := neg_abs_le (r.toReal - x)
  linarith

/-- A result rounded to nearest does not rise above a binary64 value that is above the exact value. -/
theorem RoundsTo.le {r c : F64} {x : ℝ} (h : r.RoundsTo x) (hr : r.isFinite = true) (hc : c.isFinite = true)
    (hx : x ≤ c.toReal) : r.toReal ≤ c.toReal := by
  have hn := h.nearest hr c hc
  rw [abs_of_nonneg (by linarith : 0 ≤ c.toReal - x)] at hn
  have := le_abs_self (r.toReal - x)
  linarith

/-- A result of moderate size is finite. -/
theorem RoundsTo.finite_of_le {r : F64} {x : ℝ} (h : r.RoundsTo x) (hx : |x| ≤ 4) : r.isFinite = true := by
  refine h.finite.2 (hx.trans_lt ?_)
  have h1 : (2 : ℝ) ^ 1024 = 2 ^ 54 * 2 ^ 970 := pow_add 2 54 970
  have h2 : (1 : ℝ) ≤ 2 ^ 970 := one_le_pow₀ (by norm_num)
  rw [h1]
  generalize (2 : ℝ) ^ 970 = Z at *
  have h3 : 2 ^ 54 * Z - Z = (2 ^ 54 - 1) * Z := by ring
  rw [h3]
  calc (4 : ℝ) < (2 ^ 54 - 1) * 1 := by norm_num
    _ ≤ (2 ^ 54 - 1) * Z := by
      have : (0 : ℝ) ≤ 2 ^ 54 - 1 := by norm_num
      exact mul_le_mul_of_nonneg_left h2 this

theorem ord_zero : F64.zero.ord = 0 := by decide +kernel

/-- A finite value above zero compares above zero. -/
theorem lt_zero_of_pos {a : F64} (ha : a.isFinite = true) (hp : 0 < a.toReal) : F64.lt F64.zero a = true := by
  cases a with
  | nan => simp [isFinite] at ha
  | inf s => simp [isFinite] at ha
  | fin s e f =>
    rw [toReal_eq] at hp
    have hs : s = false := by
      cases s
      · rfl
      · exfalso
        have h1 : (0 : ℝ) ≤ ((F64.fin true e f).units : ℝ) / 2 ^ 1074 := by positivity
        simp only [isNeg, if_true, neg_mul, one_mul, neg_div] at hp
        linarith
    subst hs
    have hu : (F64.fin false e f).units ≠ 0 := by
      intro h; rw [h] at hp; simp at hp
    have hz : ¬ (F64.fin false e f).isZero = true := fun h => hu ((units_eq_zero_iff _ _ _).2 h)
    simp only [isZero, Bool.and_eq_true, beq_iff_eq, not_and] at hz
    have hpos : 0 < (F64.fin false e f).magBits := by
      show 0 < e.val * 2 ^ 52 + f.val
      by_cases he : e.val = 0
      · exact Nat.add_pos_right _ (Nat.pos_of_ne_zero (hz he))
      · exact Nat.add_pos_left (Nat.mul_pos (Nat.pos_of_ne_zero he) (Nat.two_pow_pos 52)) _
    have h1 : F64.lt F64.zero (.fin false e f) = decide (F64.zero.ord < (F64.fin false e f).ord) := by
      simp only [F64.lt, isNaN, F64.zero, Bool.not_false, Bool.true_and]
    have h2 : F64.zero.ord = 0 := ord_zero
    have h3 : (F64.fin false e f).ord = ((F64.fin false e f).magBits : Int) := by
      simp only [ord, isNeg, Bool.false_eq_true, if_false]
    have h4 : F64.zero.ord < (F64.fin false e f).ord := by
      generalize (F64.fin false e f).magBits = m at *
      omega
    exact h1.trans (decide_eq_true h4)

/-- A lower bound on a value from its units. -/
theorem le_toReal {a : F64} (p q : Nat) (hq : 0 < q) (hn : a.isNeg = false) (h : p * 2 ^ 1074 ≤ a.units * q) :
    (p : ℝ) / q ≤ a.toReal := by
  have h' : (p : ℝ) * 2 ^ 1074 ≤ a.units * q := by
    have := (Nat.cast_le (α := ℝ)).2 h
    rwa [Nat.cast_mul, Nat.cast_mul, Nat.cast_pow, Nat.cast_ofNat] at this
  have hY : (0 : ℝ) < 2 ^ 1074 := by positivity
  have hqR : (0 : ℝ) < q := by exact_mod_cast hq
  rw [toReal_eq, hn, div_le_div_iff₀ hqR hY]
  simpa using h'

/-- An upper bound on a value from its units. -/
theorem toReal_le {a : F64} (p q : Nat) (hq : 0 < q) (hn : a.isNeg = false) (h : a.units * q ≤ p * 2 ^ 1074) :
    a.toReal ≤ (p : ℝ) / q := by
  have h' : (a.units : ℝ) * q ≤ p * 2 ^ 1074 := by
    have := (Nat.cast_le (α := ℝ)).2 h
    rwa [Nat.cast_mul, Nat.cast_mul, Nat.cast_pow, Nat.cast_ofNat] at this
  have hY : (0 : ℝ) < 2 ^ 1074 := by positivity
  have hqR : (0 : ℝ) < q := by exact_mod_cast hq
  rw [toReal_eq, hn, div_le_div_iff₀ hY hqR]
  simpa using h'

theorem toReal_neg (a : F64) : (neg a).toReal = -a.toReal := by
  cases a with
  | nan => simp [neg, toReal, toInt]
  | inf s => simp [neg, toReal, toInt]
  | fin s e f => cases s <;> simp [neg, toReal, toInt, units, neg_div]

/-- A finite sum is the exact sum rounded. -/
theorem add_roundsTo {a b : F64} (ha : a.isFinite = true) (hb : b.isFinite = true) :
    (add a b).RoundsTo (a.toReal + b.toReal) := by
  have sum : a.toReal + b.toReal = ((a.toInt + b.toInt : Int) : ℝ) / (1 : Nat) / 2 ^ 1074 := by
    unfold toReal
    rw [Nat.cast_one, div_one, ← add_div, Int.cast_add]
  rw [sum]
  clear sum
  cases a with
  | nan => simp [isFinite] at ha
  | inf s => simp [isFinite] at ha
  | fin s e f =>
    cases b with
    | nan => simp [isFinite] at hb
    | inf s => simp [isFinite] at hb
    | fin t d g => exact roundInt_roundsTo ((F64.fin s e f).toInt + (F64.fin t d g).toInt) (den := 1) Nat.one_pos (s && t)

/-- A finite product is the exact product rounded. -/
theorem mul_roundsTo {a b : F64} (ha : a.isFinite = true) (hb : b.isFinite = true) :
    (mul a b).RoundsTo (a.toReal * b.toReal) := by
  cases a with
  | nan => simp [isFinite] at ha
  | inf s => simp [isFinite] at ha
  | fin s e f =>
    cases b with
    | nan => simp [isFinite] at hb
    | inf s => simp [isFinite] at hb
    | fin t d g =>
      rw [mul_fin]
      refine round_roundsTo _ _ (Nat.two_pow_pos 1074) ?_
      rw [toReal_eq, toReal_eq, Nat.cast_mul, Nat.cast_pow, Nat.cast_ofNat]
      simp only [isNeg]
      generalize (2 : ℝ) ^ 1074 = Y
      cases s <;> cases t <;> simp <;> ring

/-- A finite quotient by a nonzero value is the exact quotient rounded. -/
theorem div_roundsTo {a b : F64} (ha : a.isFinite = true) (hb : b.isFinite = true) (hz : b.isZero = false) :
    (div a b).RoundsTo (a.toReal / b.toReal) := by
  cases a with
  | nan => simp [isFinite] at ha
  | inf s => simp [isFinite] at ha
  | fin s e f =>
    cases b with
    | nan => simp [isFinite] at hb
    | inf s => simp [isFinite] at hb
    | fin t d g =>
      have hu : 0 < (F64.fin t d g).units := by
        refine Nat.pos_of_ne_zero fun h => ?_
        rw [(units_eq_zero_iff _ _ _).1 h] at hz
        simp at hz
      have huR : (0 : ℝ) < (F64.fin t d g).units := by exact_mod_cast hu
      rw [div_fin _ _ _ _ _ _ hz]
      refine round_roundsTo _ _ hu ?_
      rw [toReal_eq, toReal_eq, Nat.cast_mul, Nat.cast_pow, Nat.cast_ofNat]
      simp only [isNeg]
      have hY : (0 : ℝ) < 2 ^ 1074 := by positivity
      generalize (2 : ℝ) ^ 1074 = Y at *
      cases s <;> cases t <;> simp <;> field_simp

end F64

namespace Machine

open F64

/-- `0.25` -/
def quarter : F64 := .fin false 1021 0

/-- `2^-5` -/
def small : F64 := .fin false 1018 0

/-- The phase `π/4` of the two taps at cutoff 0.25, as rounded. -/
def eighthTurn : F64 := neg (mul pi64 (mul (mul two quarter) (sub (ofNat 0) (div (ofNat 1) two))))

/-- The window value at the end of two taps. -/
theorem hamming_two : hamming 2 0 = ofWord 0x3FB47AE147AE147C := by decide +kernel

theorem sincFactor_two : sincFactor quarter 2 0 = div (neg (Config.elementary.sin eighthTurn)) (neg eighthTurn) := by
  have h1 : F64.eq (mul (mul two quarter) (sub (ofNat 0) (div (ofNat 1) two))) zero = false := by decide +kernel
  have h2 : mul pi64 (mul (mul two quarter) (sub (ofNat 0) (div (ofNat 1) two))) = neg eighthTurn := by decide +kernel
  have h3 : (neg eighthTurn).isFinite = true ∧ (neg eighthTurn).isZero = false ∧ (neg eighthTurn).isNeg = true ∧
      neg (neg eighthTurn) = eighthTurn := by decide +kernel
  have h4 : sin64 (neg eighthTurn) = neg (Config.elementary.sin eighthTurn) := by
    simp only [sin64, h3, Bool.not_true, Bool.false_eq_true, if_false, if_true]
  simp only [sincFactor, Nat.add_one_sub_one]
  rw [h1, if_neg (by decide), h2, h4]

/-- Every sine that meets law (d) of rule R15 lies between 0.5 and 1 there. -/
theorem sin_eighthTurn : (Config.elementary.sin eighthTurn).isFinite = true ∧
    1 / 2 ≤ (Config.elementary.sin eighthTurn).toReal ∧ (Config.elementary.sin eighthTurn).toReal ≤ 5 / 4 := by
  have hc : eighthTurn.isFinite = true ∧ eighthTurn.isNeg = false ∧ 3 * 2 ^ 1074 ≤ eighthTurn.units * 4 ∧
      eighthTurn.units * 5 ≤ 4 * 2 ^ 1074 := by decide +kernel
  have h1 : (3 : ℝ) / 4 ≤ eighthTurn.toReal := by exact_mod_cast le_toReal 3 4 (by decide) hc.2.1 hc.2.2.1
  have h2 : eighthTurn.toReal ≤ 4 / 5 := by exact_mod_cast toReal_le 4 5 (by decide) hc.2.1 hc.2.2.2
  obtain ⟨hf, hd⟩ := Config.elementary.sin_faithful eighthTurn hc.1
  clear hc
  generalize Config.elementary.sin eighthTurn = r at *
  generalize eighthTurn.toReal = x at *
  have h3 : x - x ^ 3 / 6 < Real.sin x := Real.sin_gt_sub_cube (by linarith)
  have h4 : Real.sin x ≤ 1 := Real.sin_le_one x
  have h5 : (0.6 : ℝ) ≤ Real.sin x := by
    have : x ^ 3 ≤ 4 / 5 * (4 / 5) * x := by
      have h6 : x ^ 3 = x * x * x := by ring
      rw [h6]; gcongr
    nlinarith
  have h6 : F64.ulp (Real.sin x) ≤ 1 / 16 := by
    have hlog : Int.log 2 |Real.sin x| ≤ 0 := by
      have := Int.log_mono_right (b := 2) (r₁ := |Real.sin x|) (r₂ := 1) (by rw [abs_pos]; linarith)
        (by rw [abs_of_pos (by linarith)]; exact h4)
      simpa using this
    rw [F64.ulp, if_neg (by linarith)]
    calc (2 : ℝ) ^ (max (Int.log 2 |Real.sin x|) (-1022) - 52) ≤ 2 ^ (-4 : ℤ) :=
          zpow_le_zpow_right₀ (by norm_num) (by omega)
      _ = 1 / 16 := by norm_num
  have h7 := abs_le.1 hd
  exact ⟨hf, by linarith, by linarith⟩

theorem product_bounds {x y : ℝ} (h1 : 1 / 2 ≤ x) (h2 : x ≤ 2) (h3 : 1 / 16 ≤ y) (h4 : y ≤ 1 / 8) :
    1 / 32 ≤ x * y ∧ x * y ≤ 1 / 2 := by
  constructor <;> nlinarith

/-- The design of two taps at cutoff 0.25 has a positive finite sum, whatever the sine function. -/
theorem design_two : (design quarter 2).isSome = true := by
  obtain ⟨hr, hr1, hr2⟩ := sin_eighthTurn
  have hc : eighthTurn.isFinite = true ∧ eighthTurn.isNeg = false ∧ 3 * 2 ^ 1074 ≤ eighthTurn.units * 4 ∧
      eighthTurn.units * 5 ≤ 4 * 2 ^ 1074 ∧ (neg eighthTurn).isFinite = true ∧ (neg eighthTurn).isZero = false := by
    decide +kernel
  have hx1 : (3 : ℝ) / 4 ≤ eighthTurn.toReal := by exact_mod_cast le_toReal 3 4 (by decide) hc.2.1 hc.2.2.1
  have hx2 : eighthTurn.toReal ≤ 4 / 5 := by exact_mod_cast toReal_le 4 5 (by decide) hc.2.1 hc.2.2.2.1
  have hnr : (neg (Config.elementary.sin eighthTurn)).isFinite = true := by
    revert hr; cases Config.elementary.sin eighthTurn <;> simp [neg, isFinite]
  -- the sinc factor
  have r1 := div_roundsTo hnr hc.2.2.2.2.1 hc.2.2.2.2.2
  clear hc
  rw [toReal_neg, toReal_neg, neg_div_neg_eq] at r1
  generalize (Config.elementary.sin eighthTurn).toReal = y at *
  generalize eighthTurn.toReal = x at *
  have q1 : 1 / 2 ≤ y / x := by rw [le_div_iff₀ (by linarith)]; linarith
  have q2 : y / x ≤ 2 := by rw [div_le_iff₀ (by linarith)]; linarith
  have hh : (F64.half.isFinite = true ∧ F64.half.isNeg = false ∧ 1 * 2 ^ 1074 ≤ F64.half.units * 2 ∧
      F64.half.units * 2 ≤ 1 * 2 ^ 1074) ∧
      (F64.two.isFinite = true ∧ F64.two.isNeg = false ∧ F64.two.units * 1 ≤ 2 * 2 ^ 1074 ∧
        2 * 2 ^ 1074 ≤ F64.two.units * 1) := by decide +kernel
  have vhalf : F64.half.toReal = 1 / 2 := le_antisymm
    (by exact_mod_cast toReal_le 1 2 (by decide) hh.1.2.1 hh.1.2.2.2)
    (by exact_mod_cast le_toReal 1 2 (by decide) hh.1.2.1 hh.1.2.2.1)
  have vtwo : F64.two.toReal = 2 := le_antisymm
    (by simpa using toReal_le 2 1 (by decide) hh.2.2.1 hh.2.2.2.1)
    (by simpa using le_toReal 2 1 (by decide) hh.2.2.1 hh.2.2.2.2)
  have f1 := r1.finite_of_le (by rw [abs_of_pos (by linarith)]; linarith)
  have b1 := r1.ge f1 hh.1.1 (by rw [vhalf]; exact q1)
  have b2 := r1.le f1 hh.2.1 (by rw [vtwo]; exact q2)
  rw [← sincFactor_two] at f1 b1 b2
  rw [vhalf] at b1
  rw [vtwo] at b2
  -- the windowed value
  have hw : (hamming 2 0).isFinite = true ∧ (hamming 2 0).isNeg = false ∧ 1 * 2 ^ 1074 ≤ (hamming 2 0).units * 16 ∧
      (hamming 2 0).units * 8 ≤ 1 * 2 ^ 1074 := by rw [hamming_two]; decide +kernel
  have w1 : (1 : ℝ) / 16 ≤ (hamming 2 0).toReal := by exact_mod_cast le_toReal 1 16 (by decide) hw.2.1 hw.2.2.1
  have w2 : (hamming 2 0).toReal ≤ 1 / 8 := by exact_mod_cast toReal_le 1 8 (by decide) hw.2.1 hw.2.2.2
  have r2 : (unnormalized quarter 2 0).RoundsTo _ := mul_roundsTo f1 hw.1
  have hhalf := hh.1.1
  have htwo := hh.2.1
  clear hw hh
  generalize (sincFactor quarter 2 0).toReal = hs at *
  generalize (hamming 2 0).toReal = hm at *
  obtain ⟨p1, p2⟩ := product_bounds b1 b2 w1 w2
  have hsm : small.isFinite = true ∧ small.isNeg = false ∧ 1 * 2 ^ 1074 ≤ small.units * 32 ∧
      small.units * 32 ≤ 1 * 2 ^ 1074 := by decide +kernel
  have vsmall : small.toReal = 1 / 32 := le_antisymm
    (by exact_mod_cast toReal_le 1 32 (by decide) hsm.2.1 hsm.2.2.2)
    (by exact_mod_cast le_toReal 1 32 (by decide) hsm.2.1 hsm.2.2.1)
  have hsmall := hsm.1
  clear hsm
  have f2 := r2.finite_of_le (by rw [abs_of_pos (by linarith)]; linarith)
  have c1 := r2.ge f2 hsmall (by rw [vsmall]; exact p1)
  have c2 := r2.le f2 hhalf (by rw [vhalf]; exact p2)
  rw [vsmall] at c1
  rw [vhalf] at c2
  -- the sum
  have hz : F64.zero.isFinite = true := rfl
  have vz : F64.zero.toReal = 0 := by rw [toReal_eq]; simp [F64.zero, units]
  have r3 := add_roundsTo hz f2
  rw [vz, zero_add] at r3
  have f3 := r3.finite_of_le (by rw [abs_of_pos (by linarith)]; linarith)
  have d1 := r3.ge f3 hsmall (by rw [vsmall]; exact c1)
  have d2 := r3.le f3 hhalf (by rw [vhalf]; exact c2)
  rw [vsmall] at d1
  rw [vhalf] at d2
  have r4 := add_roundsTo f3 f2
  have f4 := r4.finite_of_le (by rw [abs_of_pos (by linarith)]; linarith)
  have e1 := r4.ge f4 hsmall (by rw [vsmall]; linarith)
  rw [vsmall] at e1
  have sum : dcGain (prototypeTaps quarter 2) =
      add (add F64.zero (unnormalized quarter 2 0)) (unnormalized quarter 2 0) := by
    simp only [dcGain, prototypeTaps, mirror, lowerHalf]
    generalize unnormalized quarter 2 = g
    rfl
  have pos := lt_zero_of_pos f4 (by linarith)
  rw [← sum] at f4 pos
  unfold design
  rw [if_neg (by decide)]
  simp only [f4, pos, Bool.and_self, if_true, Option.isSome_some]

end Machine
end Sys2Proof
end

