-- ==== Sys2Proof/Laws/PerInstr.lean ====
section
/-! SUPPORT. What holds of every command as syntax, one lemma per constructor: its word is made of its fields, and they are legal (rules R100 to R105, R108). -/

namespace Sys2Proof
namespace Laws
namespace Encoding

/-- The fields of the command's word are its row's fields, they are legal, they make that word, and the word has no
other operand: its two upper bytes are zero. -/
def Statement (i : Instr) : Prop :=
  fieldsOf (encode i) = i.fields ∧ i.wellFormed = true ∧ wordOf i.fields = encode i ∧ (encode i).toNat < 2 ^ 16

theorem nop : Statement .nop := ⟨by decide, by decide, by decide, by decide⟩
theorem firdes : Statement .firdes := ⟨by decide, by decide, by decide, by decide⟩
theorem convZero : Statement .convZero := ⟨by decide, by decide, by decide, by decide⟩
theorem lpfZero : Statement .lpfZero := ⟨by decide, by decide, by decide, by decide⟩
theorem rfft : Statement .rfft := ⟨by decide, by decide, by decide, by decide⟩
theorem mag : Statement .mag := ⟨by decide, by decide, by decide, by decide⟩
theorem snr : Statement .snr := ⟨by decide, by decide, by decide, by decide⟩
theorem peakOrig : Statement .peakOrig := ⟨by decide, by decide, by decide, by decide⟩
theorem peakDerive : Statement .peakDerive := ⟨by decide, by decide, by decide, by decide⟩

end Encoding
end Laws
end Sys2Proof
end

