-- ==== Sys2Proof/Laws/Steps.lean ====
section
/-! SUPPORT. What a step can do: where a host access goes, what each access answers, and the cases of the block's cycle. -/

namespace Sys2Proof
namespace Machine

/-! ### The address map -/

theorem dmemWords_bounds (c : Config) : 16 ≤ c.dmemWords ∧ c.dmemWords ≤ 2097152 := by
  have := c.dmemExtra.isLt
  simp only [Config.dmemWords]; omega

theorem windowBytes_eq : windowBytes = 33554432 := rfl

theorem dmemWindow_eq : dmemWindow = 16777216 := rfl

/-- An access inside the block's window goes where its offset says. -/
theorem target_offset (c : Config) (o width : Nat) (k : AccessKind) (h : o < 0x02000000) :
    target c ⟨c.blockBase + o, width, k⟩ = targetAt c.dmemWords width o := by
  have hw := windowBytes_eq
  unfold target
  rw [if_neg (by simp only; omega)]
  simp only [Nat.add_sub_cancel_left]

theorem targetAt_register (n o : Nat) (h : o < 0x1000) (h8 : o % 8 = 0) : targetAt n 8 o = .register (Reg.at? o) := by
  unfold targetAt
  rw [if_neg (by omega), if_pos h]

theorem targetAt_dmem {n w : Nat} (h : w < n) : targetAt n 8 (dmemWindow + 8 * w) = .dmem w := by
  have hd := dmemWindow_eq
  have e : (dmemWindow + 8 * w - dmemWindow) / 8 = w := by omega
  unfold targetAt
  rw [if_neg (by omega), if_neg (by omega), if_neg (by omega), e, if_pos h]

theorem targetAt_busError {n o width : Nat}
    (hb : width ≠ 8 ∨ o % 8 ≠ 0 ∨ (0x1000 ≤ o ∧ o < dmemWindow) ∨ dmemWindow + 8 * n ≤ o) :
    targetAt n width o = .busError := by
  have hd := dmemWindow_eq
  unfold targetAt
  by_cases h1 : width ≠ 8 ∨ o % 8 ≠ 0
  · rw [if_pos h1]
  · rw [if_neg h1, if_neg (by omega)]
    by_cases h2 : o < dmemWindow
    · rw [if_pos h2]
    · rw [if_neg h2, if_neg (by omega)]

theorem target_register (c : Config) (o : Nat) (k : AccessKind) (h : o < 0x1000) (h8 : o % 8 = 0) :
    target c ⟨c.blockBase + o, 8, k⟩ = .register (Reg.at? o) := by
  rw [target_offset _ _ _ _ (by omega), targetAt_register _ _ h h8]

theorem target_dmem (c : Config) (w : Nat) (k : AccessKind) (h : w < c.dmemWords) :
    target c ⟨c.blockBase + (0x01000000 + 8 * w), 8, k⟩ = .dmem w := by
  have := dmemWords_bounds c
  rw [target_offset _ _ _ _ (by omega), ← dmemWindow_eq, targetAt_dmem h]

theorem target_busError (c : Config) (o width : Nat) (k : AccessKind) (h : o < 0x02000000)
    (hb : width ≠ 8 ∨ o % 8 ≠ 0 ∨ (0x1000 ≤ o ∧ o < 0x01000000) ∨ 0x01000000 + 8 * c.dmemWords ≤ o) :
    target c ⟨c.blockBase + o, width, k⟩ = .busError := by
  have hd := dmemWindow_eq
  rw [target_offset _ _ _ _ h, targetAt_busError (by omega)]

/-- A DMEM target is a word that exists. -/
theorem target_dmem_lt {c : Config} {a : Access} {w : Nat} (h : target c a = .dmem w) : w < c.dmemWords := by
  unfold target targetAt at h
  split at h
  · simp at h
  · split at h
    · simp at h
    · split at h
      · simp at h
      · split at h
        · simp at h
        · split at h
          · rename_i hw; cases h; exact hw
          · simp at h

theorem isDmem_iff {g : Target} : g.isDmem = true ↔ ∃ w, g = .dmem w := by
  cases g <;> simp [Target.isDmem]

/-- Only an access to DMEM is held, and only while the engine is busy. -/
theorem held_iff {s : State} {a : Access} : held s a = true ↔ s.busy = true ∧ ∃ w, target s.cfg a = .dmem w := by
  simp only [held, Bool.and_eq_true, isDmem_iff]

/-- Whether an access waits does not depend on the moves to come. -/
theorem held_moves (s : State) (a : Access) (ms : List Move) : held { s with moves := ms } a = held s a := by
  simp only [held, State.busy]

/-- The cycle whose next move is a host access. -/
theorem cycle_host {s : State} {a : Access} {rest : List Move} (h : s.moves = .host a :: rest) :
    cycle s = if held s a then engineMove s else perform a { s with moves := rest } := by
  simp only [cycle, h]

theorem cycle_of_held {s : State} {a : Access} {rest : List Move} (h : s.moves = .host a :: rest)
    (hh : held s a = true) : cycle s = engineMove s := by
  rw [cycle_host h, if_pos hh]

theorem cycle_of_not_held {s : State} {a : Access} {rest : List Move} (h : s.moves = .host a :: rest)
    (hh : held s a = false) : cycle s = perform a { s with moves := rest } := by
  rw [cycle_host h, if_neg (Bool.eq_false_iff.1 hh)]

/-! ### Steps of the host -/

theorem cycle_next_host (s : State) (a : Access) :
    cycle { s with moves := .host a :: s.moves } =
      if held { s with moves := .host a :: s.moves } a then engineMove { s with moves := .host a :: s.moves }
      else perform a s :=
  cycle_host (s := { s with moves := .host a :: s.moves }) (a := a) rfl

theorem cycle_next_host' (s : State) (a : Access) :
    cycle { s with moves := .host a :: s.moves } =
      if held s a then engineMove { s with moves := .host a :: s.moves } else perform a s := by
  rw [cycle_next_host, held_moves]

theorem hostStep_eq (s : State) (a : Access) :
    s.hostStep a = if held s a then engineMove { s with moves := .host a :: s.moves } else perform a s :=
  cycle_next_host' s a

theorem perform_eq {s : State} {a : Access} {g : Target} (h : target s.cfg a = g) :
    perform a s = performAt g a.kind s := by
  simp only [perform, h]

theorem not_held {s : State} {a : Access} {g : Target} (h : target s.cfg a = g) (hg : g.isDmem = false) :
    held s a = false := by
  simp only [held, h, hg, Bool.and_false]

theorem not_held_idle {s : State} (a : Access) (hb : s.busy = false) : held s a = false := by
  simp only [held, hb, Bool.false_and]

theorem hostStep_not_held {s : State} {a : Access} (h : held s a = false) : s.hostStep a = perform a s := by
  rw [hostStep_eq, if_neg (Bool.eq_false_iff.1 h)]

theorem hostStep_register {s : State} {a : Access} {r : Option Reg} (h : target s.cfg a = .register r) :
    s.hostStep a = .next (accessReg r a.kind s) := by
  rw [hostStep_not_held (not_held h rfl), perform_eq h]; rfl

theorem hostStep_busError {s : State} {a : Access} (h : target s.cfg a = .busError) :
    s.hostStep a = .next (s.answer .busError) := by
  rw [hostStep_not_held (not_held h rfl), perform_eq h]; rfl

theorem hostStep_dmem {s : State} {a : Access} {w : Nat} (h : target s.cfg a = .dmem w) (hb : s.busy = false) :
    s.hostStep a = accessDmem w a.kind s := by
  rw [hostStep_not_held (not_held_idle a hb), perform_eq h]; rfl

/-- A host write to a register offset. -/
theorem hostStep_write (s : State) (o : Nat) (v : Word) (h : o < 0x1000) (h8 : o % 8 = 0) {r : Option Reg}
    (hr : Reg.at? o = r) : s.hostStep (hostWrite s.cfg o v) = .next (accessReg r (.write v) s) := by
  unfold hostWrite
  rw [hostStep_register (target_register s.cfg o _ h h8), hr]

/-- A host read of a register offset. -/
theorem hostStep_read (s : State) (o : Nat) (h : o < 0x1000) (h8 : o % 8 = 0) {r : Option Reg}
    (hr : Reg.at? o = r) : s.hostStep (hostRead s.cfg o) = .next (accessReg r .read s) := by
  unfold hostRead
  rw [hostStep_register (target_register s.cfg o _ h h8), hr]

theorem hostStep_writeCtrl (s : State) (v : Word) :
    s.hostStep (hostWrite s.cfg 0x010 v) = .next ((writeCtrl v s).answer .done) :=
  hostStep_write s 0x010 v (by decide) (by decide) rfl

/-! ### The cases of a step -/

/-- The engine's move: nothing when idle, the error of an illegal word, or the command's meaning. -/
theorem engineMove_cases (s : State) :
    (s.phase = .idle ∧ engineMove s = .next s) ∨
    (∃ cur why, s.phase = .run cur ∧ decode cur.cmd = .illegal why ∧
      engineMove s = .next (raiseError .illegalCommand s)) ∨
    (∃ cur i, s.phase = .run cur ∧ decode cur.cmd = .command i ∧ engineMove s = exec i s) := by
  cases hp : s.phase with
  | idle => exact .inl ⟨rfl, by simp only [engineMove, hp]⟩
  | run cur =>
    right
    cases hd : decode cur.cmd with
    | illegal why => exact .inl ⟨cur, why, rfl, hd, by simp only [engineMove, hp, hd]⟩
    | command i => exact .inr ⟨cur, i, rfl, hd, by simp only [engineMove, hp, hd]⟩

/-- A step is one of: the engine's move (in the state it finds, or with the engine's move taken off the list), a reset
pulse, or a host access that does not wait. -/
theorem step_cases (s : State) :
    (step s = engineMove s ∧ (s.moves = [] ∨ ∃ a rest, s.moves = .host a :: rest ∧ held s a = true)) ∨
    (∃ rest, s.moves = .engine :: rest ∧ step s = engineMove { s with moves := rest }) ∨
    (∃ rest, s.moves = .powerOn :: rest ∧ step s = .next (powerOnReset { s with moves := rest })) ∨
    (∃ a rest, s.moves = .host a :: rest ∧ held s a = false ∧ step s = perform a { s with moves := rest }) := by
  cases hm : s.moves with
  | nil => exact .inl ⟨by simp only [step, cycle, hm], .inl rfl⟩
  | cons m rest =>
    cases m with
    | engine => exact .inr (.inl ⟨rest, rfl, by simp only [step, cycle, hm]⟩)
    | powerOn => exact .inr (.inr (.inl ⟨rest, rfl, by simp only [step, cycle, hm]⟩))
    | host a =>
      cases hh : held s a with
      | true => exact .inl ⟨cycle_of_held hm hh, .inr ⟨a, rest, rfl, hh⟩⟩
      | false => exact .inr (.inr (.inr ⟨a, rest, rfl, hh, cycle_of_not_held hm hh⟩))

/-- The cases of a host access that does not wait. -/
theorem perform_cases {a : Access} {s t : State} (h : perform a s = .next t) :
    t = s ∨ t = s.answer .busError ∨ (∃ r, t = accessReg r a.kind s) ∨
    (∃ w v, target s.cfg a = .dmem w ∧ a.kind = .read ∧ Memory.readWord s.dmem w = some v ∧ t = s.answer (.data v)) ∨
    (∃ w v, target s.cfg a = .dmem w ∧ a.kind = .write v ∧
      t = { s with dmem := Memory.writeWord s.dmem w v, reply := some .done }) := by
  unfold perform at h
  cases hg : target s.cfg a with
  | elsewhere => rw [hg] at h; exact .inl (Host.Outcome.next.inj h).symm
  | busError => rw [hg] at h; exact .inr (.inl (Host.Outcome.next.inj h).symm)
  | register r => rw [hg] at h; exact .inr (.inr (.inl ⟨r, (Host.Outcome.next.inj h).symm⟩))
  | dmem w =>
    rw [hg] at h
    cases hk : a.kind with
    | read =>
      simp only [performAt, accessDmem, hk] at h
      cases hr : Memory.readWord s.dmem w with
      | none => simp [hr] at h
      | some v =>
        simp only [hr] at h
        exact .inr (.inr (.inr (.inl ⟨w, v, rfl, rfl, hr, (Host.Outcome.next.inj h).symm⟩)))
    | write v =>
      simp only [performAt, accessDmem, hk] at h
      exact .inr (.inr (.inr (.inr ⟨w, v, rfl, rfl, (Host.Outcome.next.inj h).symm⟩)))

theorem perform_fault {a : Access} {s : State} {f : Fault} (h : perform a s = .fault f) :
    ∃ w, f = .unspecifiedWord w ∧ target s.cfg a = .dmem w ∧ Memory.readWord s.dmem w = none := by
  unfold perform at h
  cases hg : target s.cfg a with
  | elsewhere => rw [hg] at h; simp [performAt] at h
  | busError => rw [hg] at h; simp [performAt] at h
  | register r => rw [hg] at h; simp [performAt] at h
  | dmem w =>
    rw [hg] at h
    cases hk : a.kind with
    | read =>
      simp only [performAt, accessDmem, hk] at h
      cases hr : Memory.readWord s.dmem w with
      | none => simp only [hr] at h; exact ⟨w, (Host.Outcome.fault.inj h).symm, rfl, hr⟩
      | some v => simp [hr] at h
    | write v => simp [performAt, accessDmem, hk] at h

theorem perform_not_refused {a : Access} {s : State} {r : Refusal} : perform a s ≠ .refused r := by
  unfold perform
  cases target s.cfg a with
  | elsewhere => simp [performAt]
  | busError => simp [performAt]
  | register r => simp [performAt]
  | dmem w =>
    cases a.kind with
    | read => simp only [performAt, accessDmem]; cases Memory.readWord s.dmem w <;> simp
    | write v => simp [performAt, accessDmem]

/-- A host access to a register: its state but for the answer is unchanged, or is the written register's. -/
theorem accessReg_cases (r : Option Reg) (k : AccessKind) (s : State) :
    (∃ a, accessReg r k s = s.answer a) ∨
    (∃ v q, k = .write v ∧ r = some q ∧ accessReg r k s = (writeReg q v s).answer .done) := by
  cases k with
  | read => cases r <;> exact .inl ⟨_, rfl⟩
  | write v =>
    cases r with
    | none => exact .inl ⟨_, rfl⟩
    | some q => exact .inr ⟨v, q, rfl, rfl, rfl⟩

/-- What a host write to a register can do. -/
theorem writeReg_cases (q : Reg) (v : Word) (s : State) :
    writeReg q v s = s ∨ writeReg q v s = s.clearFlags v ∨ writeReg q v s = writeCtrl v s ∨
    (s.busy = true ∧ writeReg q v s = s.overrun) ∨
    (s.busy = false ∧ ∃ p, writeReg q v s = { s with params := p }) := by
  have par : ∀ r, (s.busy = true ∧ writeParam r v s = s.overrun) ∨
      (s.busy = false ∧ ∃ p, writeParam r v s = { s with params := p }) := by
    intro r
    rcases writeParam_cases r v s with ⟨hb, e⟩ | ⟨hb, e⟩
    · exact .inl ⟨hb, e⟩
    · exact .inr ⟨hb, _, e⟩
  cases q
  case ctrl => exact .inr (.inr (.inl rfl))
  case status => exact .inr (.inl rfl)
  case id => exact .inl rfl
  case caps => exact .inl rfl
  case err => exact .inl rfl
  case res0 => exact .inl rfl
  case res1 => exact .inl rfl
  case dLen => exact .inl rfl
  all_goals exact .inr (.inr (.inr (par _)))

/-- What a host write to `CTRL` can do: a soft reset, the `IE` bit, an accepted start, a refused start. -/
theorem writeCtrl_cases (v : Word) (s : State) :
    (v.getLsbD 1 = true ∧ writeCtrl v s = softReset s) ∨
    (v.getLsbD 1 = false ∧ v.getLsbD 0 = false ∧ writeCtrl v s = { s with ie := v.getLsbD 2 }) ∨
    (v.getLsbD 1 = false ∧ v.getLsbD 0 = true ∧ s.busy = false ∧
      writeCtrl v s = { s with ie := v.getLsbD 2, done := false, errf := false, phase := .run s.params }) ∨
    (v.getLsbD 1 = false ∧ v.getLsbD 0 = true ∧ s.busy = true ∧
      writeCtrl v s = { s with ie := v.getLsbD 2, ovr := true }) := by
  cases h1 : v.getLsbD 1 with
  | true => exact .inl ⟨rfl, by simp only [writeCtrl, h1, if_true]⟩
  | false =>
    right
    cases h0 : v.getLsbD 0 with
    | false => exact .inl ⟨rfl, rfl, by simp only [writeCtrl, h1, h0]; rfl⟩
    | true =>
      right
      cases hb : s.busy with
      | true =>
        refine .inr ⟨rfl, rfl, rfl, ?_⟩
        have hb' : ({ s with ie := v.getLsbD 2 } : State).busy = true := hb
        simp only [writeCtrl, h1, h0, startRequest, hb', if_true]; rfl
      | false =>
        refine .inl ⟨rfl, rfl, rfl, ?_⟩
        have hb' : ({ s with ie := v.getLsbD 2 } : State).busy = false := hb
        simp only [writeCtrl, h1, h0, startRequest, hb', if_true]; rfl

/-- Which host accesses reach the engine, the interrupt enable or the completion flags: none but a write to `STATUS` or to
`CTRL`. -/
theorem perform_control {a : Access} {s t : State} (h : perform a s = .next t) :
    (t.phase = s.phase ∧ t.ie = s.ie ∧ t.done = s.done) ∨
    (∃ v, a.kind = .write v ∧ target s.cfg a = .register (some .status) ∧ t = (s.clearFlags v).answer .done) ∨
    (∃ v, a.kind = .write v ∧ target s.cfg a = .register (some .ctrl) ∧ t = (writeCtrl v s).answer .done) := by
  cases hg : target s.cfg a with
  | register r =>
    rw [perform_eq hg] at h
    obtain rfl := Host.Outcome.next.inj h
    cases hk : a.kind with
    | read => cases r <;> exact .inl ⟨rfl, rfl, rfl⟩
    | write v =>
      rcases r with _ | q
      · exact .inl ⟨rfl, rfl, rfl⟩
      have par : ∀ r, (writeParam r v s).phase = s.phase ∧ (writeParam r v s).ie = s.ie ∧
          (writeParam r v s).done = s.done := by
        intro r
        rcases writeParam_cases r v s with ⟨_, e⟩ | ⟨_, e⟩ <;> rw [e] <;> exact ⟨rfl, rfl, rfl⟩
      cases q
      case status => exact .inr (.inl ⟨v, rfl, rfl, rfl⟩)
      case ctrl => exact .inr (.inr ⟨v, rfl, rfl, rfl⟩)
      all_goals first | exact .inl (par _) | exact .inl ⟨rfl, rfl, rfl⟩
  | elsewhere => rw [perform_eq hg] at h; cases h; exact .inl ⟨rfl, rfl, rfl⟩
  | busError => rw [perform_eq hg] at h; cases h; exact .inl ⟨rfl, rfl, rfl⟩
  | dmem w =>
    rw [perform_eq hg] at h
    cases hk : a.kind with
    | read =>
      cases hr : Memory.readWord s.dmem w with
      | none => simp [performAt, accessDmem, hk, hr] at h
      | some v =>
        simp only [performAt, accessDmem, hk, hr] at h
        cases h; exact .inl ⟨rfl, rfl, rfl⟩
    | write v =>
      simp only [performAt, accessDmem, hk] at h
      cases h; exact .inl ⟨rfl, rfl, rfl⟩

/-- A host access takes no move from the list. -/
theorem perform_moves {a : Access} {s t : State} (h : perform a s = .next t) : t.moves = s.moves := by
  rcases perform_cases h with rfl | rfl | ⟨r, rfl⟩ | ⟨_, _, _, _, _, rfl⟩ | ⟨_, _, _, _, rfl⟩
  · rfl
  · rfl
  · rcases accessReg_cases r a.kind s with ⟨_, e⟩ | ⟨v, q, _, _, e⟩ <;> rw [e]
    · rfl
    · show (writeReg q v s).moves = s.moves
      rcases writeReg_cases q v s with e | e | e | ⟨_, e⟩ | ⟨_, _, e⟩ <;> rw [e]
      · rfl
      · rcases writeCtrl_cases v s with ⟨_, e⟩ | ⟨_, _, e⟩ | ⟨_, _, _, e⟩ | ⟨_, _, _, e⟩ <;> (rw [e]; try rfl)
      · rfl
  · rfl
  · rfl

/-- The engine's move leaves the configuration, the moves to come and the last answer, and leaves the engine idle. -/
theorem engineMove_keeps {s t : State} (h : engineMove s = .next t) :
    t.cfg = s.cfg ∧ t.moves = s.moves ∧ t.reply = s.reply ∧ t.phase = .idle := by
  rcases engineMove_cases s with ⟨hi, e⟩ | ⟨_, _, _, _, e⟩ | ⟨_, i, _, _, e⟩ <;> rw [e] at h
  · cases h; exact ⟨rfl, rfl, rfl, hi⟩
  · cases h; exact ⟨rfl, rfl, rfl, rfl⟩
  · rcases exec_cases h with ⟨_, rfl, -⟩ | ⟨-, _, _, _, _, -, -, -, -, rfl⟩ <;> exact ⟨rfl, rfl, rfl, rfl⟩

theorem perform_cfg {a : Access} {s t : State} (h : perform a s = .next t) : t.cfg = s.cfg := by
  rcases perform_cases h with rfl | rfl | ⟨r, rfl⟩ | ⟨_, _, _, _, _, rfl⟩ | ⟨_, _, _, _, rfl⟩
  · rfl
  · rfl
  · rcases accessReg_cases r a.kind s with ⟨_, e⟩ | ⟨v, q, _, _, e⟩ <;> rw [e]
    · rfl
    · rcases writeReg_cases q v s with e | e | e | ⟨_, e⟩ | ⟨_, _, e⟩ <;> rw [e]
      · rfl
      · rfl
      · rcases writeCtrl_cases v s with ⟨_, e⟩ | ⟨_, _, e⟩ | ⟨_, _, _, e⟩ | ⟨_, _, _, e⟩ <;> rw [e] <;> rfl
      · rfl
      · rfl
  · rfl
  · rfl

/-- No step changes the configuration. -/
theorem step_cfg {s t : State} (h : step s = .next t) : t.cfg = s.cfg := by
  rcases step_cases s with ⟨e, _⟩ | ⟨rest, _, e⟩ | ⟨rest, _, e⟩ | ⟨a, rest, _, _, e⟩ <;> rw [e] at h
  · exact (engineMove_keeps h).1
  · exact (engineMove_keeps h).1
  · cases h; rfl
  · have := perform_cfg h; exact this

/-! ### An abort -/

theorem readWord_forgetBuffers (m : Memory) (bs : List Buffer) (x : Nat) :
    Memory.readWord (forgetBuffers m bs) x =
      if ∃ b ∈ bs, b.base ≤ x ∧ x < b.base + b.words then none else Memory.readWord m x := by
  induction bs generalizing m with
  | nil => simp [forgetBuffers]
  | cons b bs ih =>
    simp only [forgetBuffers, ih, Memory.readWord_forgetWords]
    by_cases h1 : ∃ b ∈ bs, b.base ≤ x ∧ x < b.base + b.words
    · obtain ⟨d, hd, hx⟩ := h1
      rw [if_pos ⟨d, hd, hx⟩, if_pos ⟨d, List.mem_cons_of_mem _ hd, hx⟩]
    · rw [if_neg h1]
      by_cases h2 : b.base ≤ x ∧ x < b.base + b.words
      · rw [if_pos h2, if_pos ⟨b, List.mem_cons_self, h2⟩]
      · rw [if_neg h2, if_neg]
        rintro ⟨d, hd, hx⟩
        rcases List.mem_cons.1 hd with rfl | hd
        · exact h2 hx
        · exact h1 ⟨d, hd, hx⟩

theorem read_forgetBuffers_out (m : Memory) (bs : List Buffer) (a : Nat)
    (h : ∀ b ∈ bs, a < wordAddr b.base ∨ wordAddr b.base + 8 * b.words ≤ a) :
    Memory.read (forgetBuffers m bs) a = Memory.read m a := by
  induction bs generalizing m with
  | nil => rfl
  | cons b bs ih =>
    simp only [forgetBuffers]
    rw [ih _ (fun d hd => h d (List.mem_cons_of_mem _ hd)), Memory.read_forgetWords_out _ _ _ _ (h b List.mem_cons_self)]

theorem wf_forgetBuffers {m : Memory} (h : m.wf) (bs : List Buffer) : (forgetBuffers m bs).wf := by
  induction bs generalizing m with
  | nil => exact h
  | cons b bs ih => exact ih (Memory.wf_forgetWords h _ _)

/-! ### The words a command stores -/

theorem storeAll_out (m : Memory) (out : List (Buffer × List Word)) (a : Nat)
    (hl : ∀ o ∈ out, o.2.length = o.1.words)
    (h : ∀ o ∈ out, a < wordAddr o.1.base ∨ wordAddr o.1.base + 8 * o.1.words ≤ a) :
    Memory.read (storeAll m out) a = Memory.read m a := by
  induction out generalizing m with
  | nil => rfl
  | cons o out ih =>
    obtain ⟨b, ws⟩ := o
    have h0 := h (b, ws) List.mem_cons_self
    have hl0 := hl (b, ws) List.mem_cons_self
    simp only [storeAll]
    rw [ih _ (fun o ho => hl o (List.mem_cons_of_mem _ ho)) (fun o ho => h o (List.mem_cons_of_mem _ ho)),
      Memory.read_writeWords_out _ _ _ _ (by simp only at h0 hl0; omega)]

/-- A command that runs changes no byte outside its destination buffers. -/
theorem Ran.sameOutside {i : Instr} {s t : State} (h : Ran i s t) : SameOutside s t (destinations i s.operands) := by
  obtain ⟨-, out, d, r0, r1, hm, hl, -, -, rfl⟩ := h
  intro a ha
  refine storeAll_out _ out a hl (fun o ho => ha o.1 ?_)
  rw [← hm]; exact List.mem_map_of_mem ho

theorem wf_storeAll {m : Memory} (h : m.wf) (out : List (Buffer × List Word)) : (storeAll m out).wf := by
  induction out generalizing m with
  | nil => exact h
  | cons o out ih => exact ih (Memory.wf_writeWords h _ _)

/-! ### Runs of steps -/

theorem run_next {M : Host.Core} {s t : M.State} (k : Nat) (h : M.step s = .next t) : M.run (k + 1) s = M.run k t := by
  simp only [Host.Core.run, h]

theorem run_fault {M : Host.Core} {s : M.State} {f : M.Fault} (k : Nat) (h : M.step s = .fault f) :
    M.run (k + 1) s = .fault f := by
  simp only [Host.Core.run, h]

theorem run_refused {M : Host.Core} {s : M.State} {r : M.Refusal} (k : Nat) (h : M.step s = .refused r) :
    M.run (k + 1) s = .refused r := by
  simp only [Host.Core.run, h]

end Machine
end Sys2Proof
end

