-- ==== Sys2Proof/Tests/Slice0.lean ====
section
/-! SUPPORT. The model's own tests: ill-formed command fields, the words of spec/30_encoding.md, vectors of spec/95_test_vectors.md (their ids stand in the docstrings), and for each obligation a state and operands that meet its hypotheses. -/

open Sys2Proof Sys2Proof.Machine

namespace Sys2Proof
namespace Tests

-- One test after the other: many kernel evaluations waiting for each other take a thread each.
set_option Elab.async false

/-! ### Well-formedness and decoding -/

/-- Reserved bits (rule R100). -/
theorem test_illformed_reserved : (CommandFields.mk 0x01 0x00 0x0001).wellFormed = false ∧
    (CommandFields.mk 0x01 0x00 0x0001).reservedClear = false := by decide

/-- Reserved opcode (rule R102). -/
theorem test_illformed_opcode : (CommandFields.mk 0x08 0x00 0).wellFormed = false ∧
    (CommandFields.mk 0x08 0x00 0).opcodeDefined = false := by decide

/-- Reserved mode, "reflect" among them (rules R103, R106). -/
theorem test_illformed_mode : (CommandFields.mk 0x02 0x01 0).wellFormed = false ∧
    (CommandFields.mk 0x02 0x01 0).modeLegal = false ∧ (CommandFields.mk 0x07 0x02 0).modeLegal = false := by decide

/-- Every command's word written out from the fields of rule R100, `RSV` (16 bits), `MODE` (8), `OPC` (8). -/
theorem test_decode_nop : decode 0b00000000000000000000000000000000 = .command .nop := by decide
theorem test_decode_firdes : decode 0b00000000000000000000000000000001 = .command .firdes := by decide
theorem test_decode_conv : decode 0b00000000000000000000000000000010 = .command .convZero := by decide
theorem test_decode_lpf : decode 0b00000000000000000000000000000011 = .command .lpfZero := by decide
theorem test_decode_rfft : decode 0b00000000000000000000000000000100 = .command .rfft := by decide
theorem test_decode_mag : decode 0b00000000000000000000000000000101 = .command .mag := by decide
theorem test_decode_snr : decode 0b00000000000000000000000000000110 = .command .snr := by decide
theorem test_decode_peak_orig : decode 0b00000000000000000000000000000111 = .command .peakOrig := by decide
theorem test_decode_peak_derive : decode 0b00000000000000000000000100000111 = .command .peakDerive := by decide

/-- RG-14: the illegal words, each with the first of its reasons. -/
theorem test_decode_illegal :
    decode 0x00000008 = .illegal .reservedOpcode ∧ decode 0x000000FF = .illegal .reservedOpcode ∧
    decode 0x00000100 = .illegal .reservedMode ∧ decode 0x00000102 = .illegal .reservedMode ∧
    decode 0x00000302 = .illegal .reservedMode ∧ decode 0x00000207 = .illegal .reservedMode ∧
    decode 0x00010001 = .illegal .reservedBits ∧ decode 0x80000000 = .illegal .reservedBits := by decide

/-- A row's word, its upper bits zero. -/
theorem test_table_word : decodeTableWord 32 0x107 = some .peakDerive ∧ decodeTableWord 8 0x107 = some .peakOrig ∧
    decodeTableWord 32 0x108 = none := by decide

/-! ### Small states -/

/-- The parameters of the vectors: `DMEM_WORDS = 4096`, unfused, direct reference. -/
def cfg : Config := ⟨0, 4080, false, .direct, .reference, 0, 0⟩

/-- The same block with a tolerant datapath. -/
def tolerantCfg : Config := { cfg with datapath := .tolerant }

/-- After power-on reset. -/
def idle : State := State.resetWith cfg

/-- Running the command with operands `p`, `DMEM` words `ws` from word 0. -/
def running (p : Params) (ws : List Word) : State :=
  { idle with params := p, phase := .run p, dmem := Memory.writeWords [] 0 ws }

/-- The running state with a tolerant datapath that computes the words listed in `drawn`. -/
def tolerantRunning (p : Params) (ws : List Word) (drawn : List (Operation × List Word)) : State :=
  { running p ws with cfg := tolerantCfg, drawn := drawn }

/-- The words from `w` on after a step. -/
def wordsAfter (r : Result) (w n : Nat) : List (Option Word) :=
  match r with
  | .next t => (List.range n).map fun i => Memory.readWord t.dmem (w + i)
  | .fault _ => []
  | .refused _ => []

/-- `ERR`, `STATUS` and `D_LEN` after a step. -/
def outcome (r : Result) : Option (Word × Word × Word) :=
  match r with
  | .next t => some (readReg t .err, readReg t .status, readReg t .dLen)
  | .fault _ => none
  | .refused _ => none

/-- `RES0` and `RES1` after a step. -/
def results (r : Result) : Option (Word × Word) :=
  match r with
  | .next t => some (readReg t .res0, readReg t .res1)
  | .fault _ => none
  | .refused _ => none

def w1 : Word := 0x3FF0000000000000
def w2 : Word := 0x4000000000000000
def w3 : Word := 0x4008000000000000
def w4 : Word := 0x4010000000000000
def wHalf : Word := 0x3FE0000000000000
def wQuarter : Word := 0x3FD0000000000000

def pNop : Params := Params.reset

/-- One tap at cutoff 0.25 to the last word of DMEM. -/
def pFirdes : Params := { Params.reset with cmd := 1, nTaps := 1, cutoff := wQuarter, dBase := 4095 }

/-- Two taps at cutoff 0.25. -/
def pFirdesTwo : Params := { Params.reset with cmd := 1, nTaps := 2, cutoff := wQuarter, dBase := 8 }

/-- Signal of 4 at 0, 3 coefficients at 4, output at 8. -/
def pConv : Params := { Params.reset with cmd := 2, aLen := 4, bBase := 4, bLen := 3, dBase := 8 }

/-- Signal of 1 at 0, one tap at 4, output at 8. -/
def pLpf : Params :=
  { Params.reset with cmd := 3, aLen := 1, bBase := 4, nTaps := 1, cutoff := 0x3FB999999999999A, dBase := 8 }

/-- Signal of 4 at 0, spectrum at 8. -/
def pRfft : Params := { Params.reset with cmd := 4, aLen := 4, dBase := 8 }

/-- Two bins at 0, magnitudes at 8. -/
def pMag : Params := { Params.reset with cmd := 5, aLen := 2, dBase := 8 }

/-- Reference of 2 at 0, test signal at 2. -/
def pSnr : Params := { Params.reset with cmd := 6, aLen := 2, bBase := 2, bLen := 2 }

/-- Three bins at 0, `FS = 1000.0`, `ORIG_LEN = 4`. -/
def pPeak : Params := { Params.reset with cmd := 7, aLen := 3, fs := 0x408F400000000000, origLen := 4 }

/-- Three bins at 0, `FS = 8.0`, the length derived. -/
def pPeakDerive : Params := { Params.reset with cmd := 0x107, aLen := 3, fs := 0x4020000000000000 }

def convData : List Word := [w1, w2, w3, w4, wQuarter, wHalf, wQuarter]

/-- Eight words of zero. -/
def zeros : List Word := [0, 0, 0, 0, 0, 0, 0, 0]

/-- The spectrum of `[1, 2, 3, 4]` (FT-4): `(10, +0), (−2, 2), (−2, +0)`. -/
def spectrumData : List Word :=
  [0x4024000000000000, 0, 0xC000000000000000, 0x4000000000000000, 0xC000000000000000, 0]

/-! ### Vectors -/

/-- LC-1. -/
theorem test_nop : outcome (exec .nop (running pNop [])) = some (0x0000, 0x2, 0) ∧
    results (exec .nop (running pNop [])) = some (0, 0) := by decide +kernel

/-- FD-1: one tap, at the last word. -/
theorem test_firdes_one_tap : wordsAfter (exec .firdes (running pFirdes [])) 4095 1 = [some w1] ∧
    outcome (exec .firdes (running pFirdes [])) = some (0x0100, 0x2, 1) := by decide +kernel

/-- FD errors: no taps; a cutoff just above 0.5; a NaN cutoff; one word too few; the checks' order. -/
theorem test_firdes_errors :
    outcome (exec .firdes (running { pFirdes with nTaps := 0, dBase := 5000 } [])) = some (0x0101, 0x6, 0) ∧
    outcome (exec .firdes (running { pFirdes with cutoff := 0x3FE0000000000001 } [])) = some (0x0101, 0x6, 0) ∧
    outcome (exec .firdes (running { pFirdes with cutoff := 0x7FF8000000000000 } [])) = some (0x0101, 0x6, 0) ∧
    outcome (exec .firdes (running { pFirdes with nTaps := 3, dBase := 4094 } [])) = some (0x0105, 0x6, 0) := by
  decide +kernel

/-- CV-1: zero padding at the end. -/
theorem test_conv : wordsAfter (exec .convZero (running pConv convData)) 8 4 =
    [some w1, some w2, some w3, some 0x4006000000000000] ∧
    outcome (exec .convZero (running pConv convData)) = some (0x0200, 0x2, 4) := by decide +kernel

/-- CV errors: invalid before degenerate; degenerate; the destination on the signal, on the coefficients. -/
theorem test_conv_errors :
    outcome (exec .convZero (running { pConv with aLen := 0, bLen := 0 } [])) = some (0x0201, 0x6, 0) ∧
    outcome (exec .convZero (running { pConv with aLen := 0 } [])) = some (0x0203, 0x6, 0) ∧
    outcome (exec .convZero (running { pConv with dBase := 3 } [])) = some (0x0206, 0x6, 0) ∧
    outcome (exec .convZero (running { pConv with dBase := 4094 } [])) = some (0x0205, 0x6, 0) := by decide +kernel

/-- LP-2: tap `1.0` at B, output `7.5` at D, `D_LEN` of the output only. -/
theorem test_lpf : wordsAfter (exec .lpfZero (running pLpf [0x401E000000000000])) 4 1 = [some w1] ∧
    wordsAfter (exec .lpfZero (running pLpf [0x401E000000000000])) 8 1 = [some 0x401E000000000000] ∧
    outcome (exec .lpfZero (running pLpf [0x401E000000000000])) = some (0x0300, 0x2, 1) := by decide +kernel

/-- LP-3, LP-4, LP-5, LP-6, LP-7. -/
theorem test_lpf_errors :
    outcome (exec .lpfZero (running { pLpf with aLen := 4, nTaps := 3, bBase := 2 } [])) = some (0x0306, 0x6, 0) ∧
    outcome (exec .lpfZero (running { pLpf with aLen := 4, nTaps := 3, bBase := 9 } [])) = some (0x0306, 0x6, 0) ∧
    outcome (exec .lpfZero (running { pLpf with aLen := 4, dBase := 1, bBase := 8 } [])) = some (0x0306, 0x6, 0) ∧
    outcome (exec .lpfZero (running { pLpf with aLen := 0 } [])) = some (0x0303, 0x6, 0) ∧
    outcome (exec .lpfZero (running { pLpf with aLen := 0, cutoff := 0x3FE3333333333333 } [])) =
      some (0x0301, 0x6, 0) := by decide +kernel

/-- FT-4: quarter-wave twiddles only. -/
theorem test_rfft : wordsAfter (exec .rfft (running pRfft [w1, w2, w3, w4])) 8 6 = spectrumData.map some ∧
    outcome (exec .rfft (running pRfft [w1, w2, w3, w4])) = some (0x0400, 0x2, 6) := by decide +kernel

/-- FT-4 under `RADIX2`. -/
theorem test_rfft_radix2 : wordsAfter (exec .rfft
      { running pRfft [w1, w2, w3, w4] with cfg := { cfg with fftRef := .radix2 } }) 8 6 = spectrumData.map some := by
  decide +kernel

/-- MG: `|3 + 4i| = 5`, `|−0 − 0i| = +0`. -/
theorem test_mag : wordsAfter (exec .mag
      (running pMag [w3, w4, 0x8000000000000000, 0x8000000000000000])) 8 2 = [some 0x4014000000000000, some 0] := by
  decide +kernel

/-- MG errors. -/
theorem test_mag_errors : outcome (exec .mag (running { pMag with aLen := 0 } [])) = some (0x0503, 0x6, 0) ∧
    outcome (exec .mag (running { pMag with aLen := 3, dBase := 5 } [])) = some (0x0506, 0x6, 0) := by decide +kernel

/-- SN-3, SN-5, SN-4: `−inf`, `+0.0`, and `+inf` of a signal against itself. -/
theorem test_snr : results (exec .snr (running pSnr [0, 0, w1, 0])) = some (0xFFF0000000000000, 0) ∧
    results (exec .snr (running pSnr [w1, w1, w2, 0])) = some (0, 0) ∧
    results (exec .snr (running { pSnr with bBase := 0 } [w1, w2])) = some (0x7FF0000000000000, 0) := by decide +kernel

/-- LC-2: a length mismatch keeps `RES0`. -/
theorem test_snr_mismatch : results (exec .snr { running { pSnr with bLen := 1 } [] with res0 := w3 }) = some (w3, 0) ∧
    outcome (exec .snr { running { pSnr with bLen := 1 } [] with res0 := w3 }) = some (0x0602, 0x6, 0) := by
  decide +kernel

/-- PK-1, and PK-8: the first NaN wins (`RES0 = 1.333…`). -/
theorem test_peak_orig : results (exec .peakOrig (running pPeak spectrumData)) = some (0x406F400000000000, 1) ∧
    results (exec .peakOrig (running { pPeak with aLen := 4, fs := w4, origLen := 6 }
      [0, 0, w1, 0, 0x7FF8000000000000, 0, 0x4014000000000000, 0])) = some (0x3FF5555555555555, 2) := by decide +kernel

/-- PK errors: mismatched length, no original length, an infinite rate. -/
theorem test_peak_errors : outcome (exec .peakOrig (running { pPeak with origLen := 6 } [])) = some (0x0702, 0x6, 0) ∧
    outcome (exec .peakOrig (running { pPeak with origLen := 0 } [])) = some (0x0701, 0x6, 0) ∧
    outcome (exec .peakOrig (running { pPeak with fs := 0x7FF0000000000000 } [])) = some (0x0701, 0x6, 0) ∧
    outcome (exec .peakOrig (running { pPeak with aLen := 1, origLen := 1 } [])) = some (0x0703, 0x6, 0) := by
  decide +kernel

/-- PK-2, and PK-10: all magnitudes zero. -/
theorem test_peak_derive : results (exec .peakDerive (running pPeakDerive spectrumData)) = some (w2, 1) ∧
    results (exec .peakDerive (running pPeakDerive [0, 0, 0, 0, 0, 0])) = some (w2, 1) := by decide +kernel

/-- RG-14 on start: `ERR` of illegal words. -/
theorem test_illegal_start :
    outcome (engineMove (running { pNop with cmd := 0x207 } [])) = some (0x0704, 0x6, 0) ∧
    outcome (engineMove (running { pNop with cmd := 0x102 } [])) = some (0x0204, 0x6, 0) ∧
    outcome (engineMove (running { pNop with cmd := 0xFF } [])) = some (0xFF04, 0x6, 0) ∧
    outcome (engineMove (running { pNop with cmd := 0x80000000 } [])) = some (0x0004, 0x6, 0) := by decide +kernel

/-- RG-2, RG-3: `CAPS`. -/
theorem test_caps : readReg (State.resetWith { cfg with fftRef := .radix2 }) .caps = 0x0000000200001000 ∧
    readReg (State.resetWith { cfg with macFused := true }) .caps = 0x0000000100001000 := by decide +kernel

/-- RG-9: write 1 to clear. -/
theorem test_status_clear : State.statusWord
    (State.clearFlags { idle with done := true, errf := true, ovr := true } 0x4) = 0xA := by decide +kernel

/-- The reset memory is in canonical form. -/
theorem test_reset_memory_wf : Memory.wf State.reset.dmem := List.Pairwise.nil

/-! ### Witnesses: states and operands that meet each obligation's hypotheses -/

/-- A running command and the moves to come. -/
def withMoves (s : State) (ms : List Move) : State := { s with moves := ms }

/-- The host reads DMEM word 4095. -/
def readLast : Access := hostRead cfg (0x01000000 + 8 * 4095)

theorem test_witness_IllegalCommandWords :
    (running { pNop with cmd := 8 } []).phase = .run { pNop with cmd := 8 } ∧
    decode ({ pNop with cmd := 8 } : Params).cmd = .illegal .reservedOpcode ∧
    (fieldsOf 0x00010000).rsv ≠ 0 ∧ 8 ≤ (fieldsOf 0x00000008).opc.toNat ∧
    ¬ ((fieldsOf 0x00000207).mode = 0 ∨ ((fieldsOf 0x00000207).opc = 7 ∧ (fieldsOf 0x00000207).mode = 1)) := by decide

theorem test_witness_StepRunsDecodedCommand :
    (running pMag []).phase = .run pMag ∧ decode pMag.cmd = .command .mag ∧ (running pMag []).moves = [] ∧
    (withMoves (running pMag []) [.engine, .powerOn]).moves = .engine :: [.powerOn] ∧
    (withMoves (running pMag []) [.host readLast]).moves = .host readLast :: [] ∧
    target cfg readLast = .dmem 4095 ∧ target cfg (hostRead cfg 0x01000000) = .dmem 0 := by decide +kernel

theorem test_witness_StartRequests :
    (0x5 : Word).getLsbD 0 = true ∧ (0x5 : Word).getLsbD 1 = false ∧ idle.phase = .idle ∧
    (running pMag []).phase = .run pMag := by decide

theorem test_witness_ControlWriteOrder :
    (0x7 : Word).getLsbD 1 = true ∧ ((0x4 : Word).getLsbD 1 = false ∧ (0x4 : Word).getLsbD 0 = false) ∧
    ((0x5 : Word).getLsbD 1 = false ∧ (0x5 : Word).getLsbD 0 = true) := by decide

/-- Every case of an abort: idle, illegal, failing checks, no destination, and words to forget. -/
theorem test_witness_SoftResetAborts :
    (0x2 : Word).getLsbD 1 = true ∧ idle.phase = .idle ∧
    decode ({ pNop with cmd := 8 } : Params).cmd = .illegal .reservedOpcode ∧
    (decode pSnr.cmd = .command .snr ∧ destinations .snr pSnr = []) ∧
    (decode pConv.cmd = .command .convZero ∧
      boundaryCheck cfg.dmemWords .convZero { pConv with dBase := 3 } ≠ none) ∧
    (boundaryCheck cfg.dmemWords .convZero pConv = none ∧ designFails .convZero pConv = false ∧
      destinations .convZero pConv = [⟨8, 4⟩]) ∧
    (Memory.readWord (running pConv [0, 0, 0, 0, 0, 0, 0, 0, w1]).dmem 8).isSome = true := by decide +kernel

/-- Both ends of the table of parameter registers, busy and idle. -/
theorem test_witness_ParameterWrites :
    (0x020, Reg.cmd) ∈ [(0x020, Reg.cmd), (0x070, Reg.origLen)] ∧ (running pMag []).busy = true ∧ idle.busy = false ∧
    Reg.at? 0x020 = some .cmd ∧ Reg.at? 0x070 = some .origLen := by decide

theorem test_witness_RegisterReadsReturnValue :
    Reg.at? 0x000 = some .id ∧ Reg.at? 0x088 = some .dLen ∧
    target cfg (hostRead cfg 0x088) = .register (some .dLen) := by decide +kernel

/-- The first and the last reserved offset. -/
theorem test_witness_ReservedAndReadOnly :
    target cfg (hostRead cfg 0x090) = .register none ∧ target cfg (hostRead cfg 0xFF8) = .register none ∧
    (0x090 ≤ 0xFF8 ∧ 0xFF8 % 8 = 0) := by decide +kernel

theorem test_witness_CapsReportsConfiguration : ∃ t, step idle = .next t := ⟨_, rfl⟩

/-- Each condition at its first and last offset (RG-11), beside mapped neighbours. -/
theorem test_witness_BusErrorsChangeNothing :
    target cfg ⟨0, 4, .read⟩ = .busError ∧ target cfg ⟨4, 8, .read⟩ = .busError ∧
    target cfg ⟨0x1000, 8, .read⟩ = .busError ∧ target cfg ⟨0xFFFFF8, 8, .read⟩ = .busError ∧
    target cfg ⟨0x01000000 + 8 * 4096, 8, .read⟩ = .busError ∧ target cfg ⟨0x01FFFFF8, 8, .read⟩ = .busError ∧
    target cfg ⟨0xFF8, 8, .read⟩ = .register none ∧ target cfg ⟨0x02000000, 8, .read⟩ = .elsewhere := by decide +kernel

/-- Words 0 and 4095, idle, and a word that holds a value. -/
theorem test_witness_HostReachesMemory :
    0 < cfg.dmemWords ∧ 4095 < cfg.dmemWords ∧ idle.busy = false ∧
    Memory.readWord { idle with dmem := Memory.writeWord [] 4095 w3 }.dmem 4095 = some w3 := by decide +kernel

theorem test_witness_MemoryAccessHeldWhileBusy :
    target cfg readLast = .dmem 4095 ∧ (running pNop []).busy = true ∧
    target cfg (hostRead cfg 0x018) = .register (some .status) ∧
    (match engineMove (withMoves (running pNop []) [.host readLast]) with
      | .next t => t.busy == false
      | _ => false) = true := by decide +kernel

/-- A running command while the host reads `STATUS`. -/
theorem test_witness_BusyKeepsOperandsAndResults :
    ∃ s t, s.phase = .run pMag ∧ step s = .next t ∧ t.busy = true :=
  ⟨withMoves (running pMag []) [.host (hostRead cfg 0x018)], _, rfl,
    hostStep_read (running pMag []) 0x018 (by decide) (by decide) rfl, rfl⟩

/-- An idle engine whose move comes, and the step of an idle block that starts a command. -/
theorem test_witness_BusyKeepsOperandsAndResults_idle :
    (idle.phase = .idle ∧ idle.moves = [] ∧ (withMoves idle [.engine]).moves = .engine :: []) ∧
    (withMoves idle [.host (hostWrite cfg 0x010 1)]).phase = .idle ∧
    (match step (withMoves idle [.host (hostWrite cfg 0x010 1)]) with
      | .next t => t.busy
      | _ => false) = true := by decide +kernel

/-- For each command that reads a buffer, one whose checks pass and whose source holds no value; for `PEAK` the first
searched bin and, after a bin with a magnitude, the second, in each of its words. -/
theorem test_witness_UnspecifiedReadsFault :
    (Memory.readWord idle.dmem 0 = none ∧ idle.busy = false) ∧
    (boundaryCheck cfg.dmemWords .convZero pConv = none ∧ boundaryCheck cfg.dmemWords .lpfZero pLpf = none ∧
      designFails .lpfZero pLpf = false ∧ boundaryCheck cfg.dmemWords .rfft pRfft = none ∧
      boundaryCheck cfg.dmemWords .mag pMag = none ∧ boundaryCheck cfg.dmemWords .snr pSnr = none) ∧
    (boundaryCheck cfg.dmemWords .peakOrig pPeak = none ∧ 1 < pPeak.aLen.toNat ∧ 2 < pPeak.aLen.toNat ∧
      boundaryCheck cfg.dmemWords .peakDerive pPeakDerive = none ∧
      Memory.readWord (running pPeak [w1, w1]).dmem 2 = none ∧
      Memory.readWord (running pPeak [w1, w1, w1, w1, w1]).dmem 4 = some w1 ∧
      Memory.readWord (running pPeak [w1, w1, w1, w1, w1]).dmem 5 = none ∧
      (magnitude (F64.ofWord w1, F64.ofWord w1)).isNaN = false) := by decide +kernel

/-- None of the sources above is specified. -/
theorem test_witness_UnspecifiedReadsFault_sources :
    ¬ pConv.signalA.Specified idle ∧ ¬ pConv.bufferB.Specified idle ∧ ¬ pLpf.signalA.Specified idle ∧
    ¬ pRfft.signalA.Specified idle ∧ ¬ pMag.spectrumA.Specified idle ∧ ¬ pSnr.bufferB.Specified idle := by
  refine ⟨?_, ?_, ?_, ?_, ?_, ?_⟩ <;> exact fun h => absurd (h 0 (by decide)) (by decide +kernel)

/-- A step stops with a given fault. -/
def stopsWith (r : Result) (f : Fault) : Bool :=
  match r with
  | .next _ => false
  | .fault g => g == f
  | .refused _ => false

theorem stopsWith_fault {r : Result} {f : Fault} (h : stopsWith r f = true) : r = .fault f := by
  cases r with
  | next t => simp [stopsWith] at h
  | fault g => simp only [stopsWith, beq_iff_eq] at h; rw [h]
  | refused q => simp [stopsWith] at h

theorem test_witness_StepStopsOnlyOnUnspecified : step (running pMag []) = .fault (.unspecifiedWord 0) :=
  stopsWith_fault (by decide +kernel)

theorem test_witness_ErrorCompletionEffects : ∃ t, exec .mag (running { pMag with aLen := 0 } []) = .next t ∧
    t.errCode ≠ 0 := by
  refine ⟨_, exec_of_check (c := .degenerateInput) (by decide) ?_, ?_⟩ <;> decide +kernel

/-- A command's operands are the ones it runs with. -/
theorem operands_running (p : Params) (ws : List Word) : (running p ws).operands = p := rfl

/-- Each check of `FIRDES` at its boundary: no taps; cutoffs just above 0.5, zero, NaN; one word too many; a legal
cutoff at 0.5. -/
theorem test_witness_FirdesChecks :
    ({ pFirdes with nTaps := 0 } : Params).nTaps.toNat < 1 ∧
    ¬ ({ pFirdes with cutoff := 0x3FE0000000000001 } : Params).CutoffLegal ∧
    ¬ ({ pFirdes with cutoff := 0 } : Params).CutoffLegal ∧
    (F64.ofWord ({ pFirdes with cutoff := 0x7FF8000000000000 } : Params).cutoff).isNaN = true ∧
    ({ pFirdes with cutoff := wHalf } : Params).CutoffLegal ∧
    cfg.dmemWords < ({ pFirdes with dBase := 4096 } : Params).dBase.toNat + pFirdes.nTaps.toNat := by
  simp only [Params.CutoffLegal]
  decide +kernel

/-- Each check of `CONV` at its boundary, the earlier ones met. -/
theorem test_witness_ConvChecks :
    ({ pConv with bLen := 0 } : Params).bLen.toNat < 1 ∧ ({ pConv with aLen := 0 } : Params).aLen.toNat = 0 ∧
    cfg.dmemWords < ({ pConv with aBase := 4093 } : Params).aBase.toNat + pConv.aLen.toNat ∧
    cfg.dmemWords < ({ pConv with bBase := 4094 } : Params).bBase.toNat + pConv.bLen.toNat ∧
    cfg.dmemWords < ({ pConv with dBase := 4093 } : Params).dBase.toNat + pConv.aLen.toNat ∧
    (1 ≤ pConv.bLen.toNat ∧ 1 ≤ pConv.aLen.toNat ∧ 0 + 4 ≤ cfg.dmemWords ∧ 4 + 3 ≤ cfg.dmemWords ∧
      3 + 4 ≤ cfg.dmemWords ∧ (3 < 0 + 4 ∧ 0 < 3 + 4) ∧ 6 + 4 ≤ cfg.dmemWords ∧ (6 < 4 + 3 ∧ 4 < 6 + 4)) := by
  decide +kernel

/-- Each check of `LPF` at its boundary, the earlier ones met: the three overlaps touch by one word. -/
theorem test_witness_LpfChecks :
    ({ pLpf with nTaps := 0 } : Params).nTaps.toNat < 1 ∧ pLpf.CutoffLegal ∧
    ({ pLpf with aLen := 0 } : Params).aLen.toNat = 0 ∧
    cfg.dmemWords < ({ pLpf with bBase := 4096 } : Params).bBase.toNat + pLpf.nTaps.toNat ∧
    ((0 < 0 + 1 ∧ 0 < 0 + 1) ∧ (8 < 8 + 1 ∧ 8 < 8 + 1) ∧ 0 + 1 ≤ cfg.dmemWords ∧ 8 + 1 ≤ cfg.dmemWords) := by
  simp only [Params.CutoffLegal]
  decide +kernel

theorem test_witness_DesignSumRefused :
    boundaryCheck cfg.dmemWords .firdes pFirdes = none ∧ boundaryCheck cfg.dmemWords .lpfZero pLpf = none := by
  decide +kernel

/-- `RFFT` and `MAG`: empty; one word past the end; buffers that share one word. -/
theorem test_witness_SpectralChecks :
    ({ pRfft with aLen := 0 } : Params).aLen.toNat = 0 ∧ 1 ≤ pRfft.aLen.toNat ∧
    cfg.dmemWords < 4093 + pRfft.aLen.toNat ∧ cfg.dmemWords < 4091 + 2 * (pRfft.aLen.toNat / 2 + 1) ∧
    (3 < 0 + pRfft.aLen.toNat ∧ 0 < 3 + 2 * (pRfft.aLen.toNat / 2 + 1)) ∧
    cfg.dmemWords < 4093 + 2 * pMag.aLen.toNat ∧ cfg.dmemWords < 4095 + pMag.aLen.toNat ∧
    (3 < 0 + 2 * pMag.aLen.toNat ∧ 0 < 3 + pMag.aLen.toNat) := by decide +kernel

theorem test_witness_SnrChecks :
    pSnr.aLen.toNat ≠ ({ pSnr with bLen := 3 } : Params).bLen.toNat ∧
    ({ pSnr with aLen := 0, bLen := 0 } : Params).aLen.toNat = 0 ∧ pSnr.aLen.toNat = pSnr.bLen.toNat ∧
    1 ≤ pSnr.aLen.toNat ∧ cfg.dmemWords < 4095 + pSnr.aLen.toNat ∧
    (∃ t, exec .snr (running pSnr [w1, w1, w1, w1]) = .next t) := by
  refine ⟨by decide, by decide, by decide, by decide, by decide +kernel, ?_⟩
  have h : (match exec .snr (running pSnr [w1, w1, w1, w1]) with | .next _ => true | _ => false) = true := by
    decide +kernel
  cases hs : exec .snr (running pSnr [w1, w1, w1, w1]) with
  | next t => exact ⟨t, rfl⟩
  | fault f => rw [hs] at h; simp at h
  | refused r => rw [hs] at h; simp at h

/-- `PEAK`: each check at its boundary, the earlier ones met. -/
theorem test_witness_PeakChecks :
    ¬ ({ pPeak with fs := 0 } : Params).RateLegal ∧ ¬ ({ pPeak with fs := 0x7FF0000000000000 } : Params).RateLegal ∧
    pPeak.RateLegal ∧ ({ pPeak with origLen := 0 } : Params).origLen.toNat = 0 ∧ 6 / 2 + 1 ≠ pPeak.aLen.toNat ∧
    (1 / 2 + 1 = ({ pPeak with aLen := 1 } : Params).aLen.toNat) ∧ 4 / 2 + 1 = pPeak.aLen.toNat ∧
    2 ≤ pPeak.aLen.toNat ∧ cfg.dmemWords < 4091 + 2 * pPeak.aLen.toNat := by
  simp only [Params.RateLegal]
  decide +kernel

theorem test_witness_NopCompletes : (running pNop []).phase = .run pNop ∧ pNop.cmd = 0 := by decide

/-- A design that exists (two taps) and one that does not (a NaN cutoff, which no command lets through). -/
theorem test_witness_DesignFormula : (design quarter 2).isSome = true ∧ design .nan 2 = none :=
  ⟨design_two, by decide +kernel⟩

/-! States in which each command runs normally. -/

theorem test_ready_firdes : Ready .firdes (running pFirdes []) := by
  simp only [Ready, Buffer.Inside, Params.CutoffLegal, Params.DesignExists, operands_running]
  decide +kernel

theorem test_ready_firdes_two : Ready .firdes (running pFirdesTwo []) := by
  have hq : F64.ofWord pFirdesTwo.cutoff = quarter ∧ pFirdesTwo.nTaps.toNat = 2 := by decide +kernel
  refine ⟨by decide, ?_, ?_, ?_⟩
  · simp only [Params.CutoffLegal, operands_running]; decide +kernel
  · simp only [Buffer.Inside, operands_running]; decide +kernel
  · simp only [Params.DesignExists, operands_running, hq]; exact design_two

theorem test_ready_conv : Ready .convZero (running pConv convData) := by
  simp only [Ready, Buffer.Inside, Buffer.Apart, Buffer.Specified, operands_running]
  decide +kernel

theorem test_ready_lpf : Ready .lpfZero (running pLpf [0x401E000000000000]) := by
  simp only [Ready, Buffer.Inside, Buffer.Apart, Buffer.Specified, Params.CutoffLegal, Params.DesignExists, operands_running]
  decide +kernel

theorem test_ready_rfft : Ready .rfft (running pRfft [w1, w2, w3, w4]) := by
  simp only [Ready, Buffer.Inside, Buffer.Apart, Buffer.Specified, operands_running]
  decide +kernel

theorem test_ready_mag : Ready .mag (running pMag [w3, w4, w1, 0]) := by
  simp only [Ready, Buffer.Inside, Buffer.Apart, Buffer.Specified, operands_running]
  decide +kernel

theorem test_ready_snr : Ready .snr (running pSnr [w1, w1, w2, 0]) := by
  simp only [Ready, Buffer.Inside, Buffer.Specified, operands_running]
  decide +kernel

/-- A signal against itself. -/
theorem test_ready_snr_itself : Ready .snr (running { pSnr with bBase := 0 } [w1, w2]) := by
  simp only [Ready, Buffer.Inside, Buffer.Specified, operands_running]
  decide +kernel

theorem test_ready_peak : Ready .peakOrig (running pPeak spectrumData) := by
  simp only [Ready, Buffer.Inside, Buffer.Specified, Params.RateLegal, operands_running]
  decide +kernel

theorem test_ready_peak_derive : Ready .peakDerive (running pPeakDerive spectrumData) := by
  simp only [Ready, Buffer.Inside, Buffer.Specified, Params.RateLegal, operands_running]
  decide +kernel

theorem test_witness_FirdesCompletes : Ready .firdes (running pFirdes []) ∧ Ready .firdes (running pFirdesTwo []) :=
  ⟨test_ready_firdes, test_ready_firdes_two⟩

theorem test_witness_FirdesExactProperties :
    pFirdes.nTaps = 1 ∧ pFirdes.CutoffLegal ∧ pFirdes.dBase.toNat + 1 ≤ cfg.dmemWords ∧
    outcome (exec .firdes (running pFirdes [])) = some (0x0100, 0x2, 1) := by
  refine ⟨rfl, ?_, by decide +kernel, test_firdes_one_tap.2⟩
  simp only [Params.CutoffLegal]; decide +kernel

theorem test_witness_ConvCompletes : Ready .convZero (running pConv convData) := test_ready_conv

theorem test_witness_ConvSingleTapIdentity : [F64.one, F64.neg F64.zero][1]? = some (F64.neg F64.zero) := rfl

theorem test_witness_LpfCompletes : Ready .lpfZero (running pLpf [0x401E000000000000]) := test_ready_lpf

theorem test_witness_LpfIsFirdesThenConv :
    (running pLpf [0x401E000000000000]).phase = .run pLpf ∧ Ready .lpfZero (running pLpf [0x401E000000000000]) :=
  ⟨rfl, test_ready_lpf⟩

/-- Both references, on a power of two and on another length. -/
theorem test_witness_RfftCompletes : Ready .rfft (running pRfft [w1, w2, w3, w4]) ∧ cfg.fftRef = .direct ∧
    ({ cfg with fftRef := .radix2 } : Config).fftRef = .radix2 ∧ (∃ l, 1 ≤ l ∧ pRfft.aLen.toNat = 2 ^ l) ∧
    ¬ ∃ l, 1 ≤ l ∧ 3 = 2 ^ l := by
  refine ⟨test_ready_rfft, rfl, rfl, ⟨2, by decide, by decide⟩, ?_⟩
  rintro ⟨l, h1, h2⟩
  obtain ⟨k, rfl⟩ : ∃ k, l = k + 1 := ⟨l - 1, by omega⟩
  rw [pow_succ] at h2; omega

/-- Every clause of the twiddle table has indices: `N = 8` has all of them. -/
theorem test_witness_TwiddleTable : 2 * 4 = 8 ∧ 4 * 2 = 8 ∧ 4 * 6 = 3 * 8 ∧ (8 < 2 * 5 ∧ 4 * 5 ≠ 3 * 8 ∧ 5 < 8) ∧
    (0 < 1 ∧ 2 * 1 < 8 ∧ 4 * 1 ≠ 8) ∧ (8 < 2 * 7 ∧ 7 < 8) := by decide

/-- A block of four: the first and the last butterfly of the last stage. -/
theorem test_witness_RadixStageButterflies : (List.replicate 4 (F64.zero, F64.zero)).length = 4 ∧ 2 ∣ 4 ∧ 4 ∣ 4 ∧ 4 ∣ 0 ∧
    0 < 4 ∧ 0 < 4 / 2 ∧ 1 < 4 / 2 ∧ 2 ∣ 2 ∧ 2 ∣ 4 ∧ 2 < 4 := by decide

theorem test_witness_DirectSpectrumRealEnds : (∀ x ∈ [F64.one, F64.half], x.isFinite = true) ∧
    [F64.one, F64.half].length % 2 = 0 := by decide

theorem test_witness_MagCompletes : Ready .mag (running pMag [w3, w4, w1, 0]) ∧
    Memory.readWord (running pMag [w3, w4, w1, 0]).dmem 2 = some w1 ∧
    Memory.readWord (running pMag [w3, w4, w1, 0]).dmem 3 = some 0 := ⟨test_ready_mag, by decide +kernel, by decide +kernel⟩

theorem test_witness_SnrCompletes : Ready .snr (running pSnr [w1, w1, w2, 0]) := test_ready_snr

theorem test_witness_SnrAgainstItself :
    Ready .snr (running { pSnr with bBase := 0 } [w1, w2]) ∧
    (∀ r, pSnr.signalA.Holds (running { pSnr with bBase := 0 } [w1, w2]) r → ∀ x ∈ r, x.isFinite = true) := by
  refine ⟨test_ready_snr_itself, fun r h => ?_⟩
  have hs : pSnr.signalA.Holds (running { pSnr with bBase := 0 } [w1, w2]) [F64.one, F64.two] := by
    simp only [Buffer.Holds]; decide +kernel
  rw [holds_unique h hs]
  decide

/-- `DMEM` words `ws` from word 2 on, where bin 1 stands; bin 0 holds nothing. -/
def runningFromBin1 (p : Params) (ws : List Word) : State :=
  { running p [] with dmem := Memory.writeWords [] 2 ws }

/-- The searched bins of the small peak searches. -/
theorem holds_searched (p : Params) (h : p.aBase = 0) (hl : p.aLen = 3) :
    p.searchedA.HoldsBins (runningFromBin1 p (spectrumData.drop 2)) (binsOf ((spectrumData.drop 2).map F64.ofWord)) := by
  have hb : p.searchedA = pPeak.searchedA := by simp only [Params.searchedA, h, hl]; rfl
  have hs : pPeak.searchedA.Holds (runningFromBin1 pPeak (spectrumData.drop 2)) ((spectrumData.drop 2).map F64.ofWord) := by
    simp only [Buffer.Holds]; decide +kernel
  rw [hb]
  exact holdsBins_of_holds (s := runningFromBin1 p (spectrumData.drop 2)) (m := 2) rfl hs

/-- Both length sources, with bin 0 unspecified. -/
theorem test_witness_PeakCompletes :
    Ready .peakOrig (runningFromBin1 pPeak (spectrumData.drop 2)) ∧
    Ready .peakDerive (runningFromBin1 pPeakDerive (spectrumData.drop 2)) ∧ cfg.datapath = .reference ∧
    Memory.readWord (runningFromBin1 pPeak (spectrumData.drop 2)).dmem 0 = none ∧
    pPeak.searchedA.HoldsBins (runningFromBin1 pPeak (spectrumData.drop 2)) (binsOf ((spectrumData.drop 2).map F64.ofWord)) ∧
    pPeakDerive.searchedA.HoldsBins (runningFromBin1 pPeakDerive (spectrumData.drop 2))
      (binsOf ((spectrumData.drop 2).map F64.ofWord)) := by
  refine ⟨?_, ?_, rfl, by decide +kernel, holds_searched _ rfl rfl, holds_searched _ rfl rfl⟩ <;>
    (simp only [Ready, Buffer.Inside, Buffer.Specified, Params.RateLegal]; decide +kernel)

theorem test_witness_PeakRunsOnEveryDatapath :
    Ready .peakOrig (tolerantRunning pPeak spectrumData []) ∧ tolerantCfg.datapath = .tolerant :=
  ⟨test_ready_peak, rfl⟩

/-- A NaN. -/
def wNan : Word := 0x7FF8000000000000

/-- The first NaN in the first searched bin, the bins beside it unspecified; and in the last one. -/
theorem test_witness_PeakRunsOnEveryDatapath_firstNaN :
    (pPeak.RateLegal ∧ 1 ≤ pPeak.origLen.toNat ∧ pPeak.origLen.toNat / 2 + 1 = pPeak.aLen.toNat ∧
      pPeak.spectrumA.Inside (running pPeak []) ∧ 2 < pPeak.aLen.toNat) ∧
    ((⟨2, 2⟩ : Buffer).HoldsBins (runningFromBin1 pPeak [wNan, 0]) (binsOf ([wNan, 0].map F64.ofWord)) ∧
      Memory.readWord (runningFromBin1 pPeak [wNan, 0]).dmem 4 = none ∧
      (binsOf ([wNan, 0].map F64.ofWord)).map (fun b => (magnitude b).isNaN) = [true]) ∧
    ((⟨2, 4⟩ : Buffer).HoldsBins (runningFromBin1 pPeak [w1, 0, 0, wNan]) (binsOf ([w1, 0, 0, wNan].map F64.ofWord)) ∧
      (binsOf ([w1, 0, 0, wNan].map F64.ofWord)).map (fun b => (magnitude b).isNaN) = [false, true]) := by
  refine ⟨?_, ⟨holdsBins_of_holds (m := 1) rfl ?_, by decide +kernel, by decide +kernel⟩,
    holdsBins_of_holds (m := 2) rfl ?_, by decide +kernel⟩
  · simp only [Params.RateLegal, Buffer.Inside]; decide +kernel
  · simp only [Buffer.Holds]; decide +kernel
  · simp only [Buffer.Holds]; decide +kernel

/-- PK-8, with neither bin 0 nor the bin after the NaN specified. -/
theorem test_peak_stops_at_nan :
    results (exec .peakOrig (runningFromBin1 { pPeak with aLen := 4, fs := w4, origLen := 6 } [w1, 0, wNan, 0])) =
      some (0x3FF5555555555555, 2) := by decide +kernel

/-- A command goes on in a state of the small ones above. -/
def goesOn (i : Instr) (s : State) : Bool :=
  match exec i s with
  | .next _ => true
  | .fault _ => false
  | .refused _ => false

theorem goesOn_next {i : Instr} {s : State} (h : goesOn i s = true) : ∃ t, exec i s = .next t := by
  unfold goesOn at h
  cases hs : exec i s with
  | next t => exact ⟨t, rfl⟩
  | fault f => rw [hs] at h; simp at h
  | refused r => rw [hs] at h; simp at h

theorem test_witness_StoringFrame :
    goesOn .firdes (running pFirdes []) = true ∧ goesOn .convZero (running pConv convData) = true ∧
    goesOn .lpfZero (running pLpf [0x401E000000000000]) = true ∧
    goesOn .rfft (running pRfft [w1, w2, w3, w4]) = true ∧ goesOn .mag (running pMag [w3, w4, w1, 0]) = true := by
  decide +kernel

theorem test_witness_RegisterOnlyFrame :
    goesOn .nop (running pNop []) = true ∧ goesOn .snr (running pSnr [w1, w1, w2, 0]) = true ∧
    goesOn .peakOrig (running pPeak spectrumData) = true ∧
    goesOn .peakDerive (running pPeakDerive spectrumData) = true := by decide +kernel

/-- Two different sets of operands of `SNR` that agree on the registers of its row. -/
theorem test_witness_CommandReadsOnlyItsRegisters :
    let q : Params := { pSnr with dBase := 7, nTaps := 9, cutoff := w1, fs := w1, origLen := 3 }
    q ≠ pSnr ∧ q.cmd = pSnr.cmd ∧ q.aBase = pSnr.aBase ∧ q.aLen = pSnr.aLen ∧ q.bBase = pSnr.bBase ∧
    q.bLen = pSnr.bLen := by decide

/-- The same convolution on a tolerant datapath at two places of DMEM, once after many words have been delivered. -/
theorem test_witness_CommandReadsOnlyItsRegisters_repeat :
    let s := tolerantRunning pConv convData []
    let u := { tolerantRunning { pConv with dBase := 12 } convData [] with draws := 5 }
    (u.cfg = s.cfg ∧ u.drawn = s.drawn) ∧ Ready .convZero s ∧ Ready .convZero u ∧
    ∃ sig h, pConv.signalA.Holds s sig ∧ pConv.bufferB.Holds s h ∧ pConv.signalA.Holds u sig ∧ pConv.bufferB.Holds u h := by
  have hu : Ready .convZero (running { pConv with dBase := 12 } convData) := by
    simp only [Ready, Buffer.Inside, Buffer.Apart, Buffer.Specified, operands_running]
    decide +kernel
  have hs : pConv.signalA.Holds (running pConv convData) ((convData.take 4).map F64.ofWord) := by
    simp only [Buffer.Holds]; decide +kernel
  have hh : pConv.bufferB.Holds (running pConv convData) ((convData.drop 4).map F64.ofWord) := by
    simp only [Buffer.Holds]; decide +kernel
  exact ⟨⟨rfl, rfl⟩, test_ready_conv, hu, _, _, hs, hh, hs, hh⟩

/-- The other commands repeated: the states in which they run normally, with their operands. -/
theorem test_witness_CommandReadsOnlyItsRegisters_others :
    (Ready .firdes (running pFirdesTwo []) ∧ Ready .lpfZero (running pLpf [0x401E000000000000]) ∧
      Ready .rfft (running pRfft zeros) ∧ Ready .mag (running pMag zeros) ∧ Ready .snr (running pSnr zeros) ∧
      Ready .peakOrig (running pPeak spectrumData) ∧ Ready .peakDerive (running pPeakDerive spectrumData)) ∧
    pLpf.signalA.Holds (running pLpf zeros) [F64.zero] ∧
    pRfft.signalA.Holds (running pRfft zeros) (List.replicate 4 F64.zero) ∧
    pSnr.signalA.Holds (running pSnr zeros) [F64.zero, F64.zero] ∧
    pSnr.bufferB.Holds (running pSnr zeros) [F64.zero, F64.zero] ∧
    pMag.spectrumA.HoldsBins (running pMag zeros) (binsOf (List.replicate 4 F64.zero)) ∧
    pPeak.searchedA.HoldsBins (running pPeak zeros) (binsOf (List.replicate 4 F64.zero)) := by
  refine ⟨⟨test_ready_firdes_two, test_ready_lpf, ?_, ?_, ?_, test_ready_peak, test_ready_peak_derive⟩, ?_, ?_, ?_, ?_,
    holdsBins_of_holds (m := 2) rfl ?_, holdsBins_of_holds (m := 2) rfl ?_⟩
  all_goals first
    | (simp only [Ready, Buffer.Inside, Buffer.Apart, Buffer.Specified, operands_running]; decide +kernel)
    | (simp only [Buffer.Holds]; decide +kernel)

theorem test_witness_ResetState : Reg.cmd ≠ .id ∧ Reg.cmd ≠ .caps ∧
    (withMoves (running pMag []) [.powerOn]).moves = .powerOn :: [] := by decide

/-- A busy state of the invariant, and one step from it. -/
theorem test_witness_StepKeepsInv : (running pNop []).Inv ∧ ∃ t, step (running pNop []) = .next t := by
  refine ⟨⟨List.Pairwise.nil, by simp [running, Memory.writeWords], fun _ _ _ _ _ => rfl, ?_, fun _ => ⟨rfl, rfl⟩, by
    simp [running, idle, State.resetWith], by decide, fun _ => rfl, by decide⟩, ⟨_, rfl⟩⟩
  intro cur h
  cases h
  rfl

/-- A busy state with host accesses still to come. -/
theorem test_witness_EveryCommandCompletes :
    (withMoves (running pNop []) [.host (hostRead cfg 0x018), .host readLast, .engine]).phase = .run pNop := rfl

/-- The moves that reset, and a write to `CTRL` that does not. -/
theorem test_moves_reset : Move.powerOn.resets cfg = true ∧ (Move.host (hostWrite cfg 0x010 2)).resets cfg = true ∧
    (Move.host (hostWrite cfg 0x010 1)).resets cfg = false := by decide +kernel

theorem test_witness_InterruptFollowsDone :
    ((running pNop []).phase = .run pNop ∧ ∃ t, engineMove (running pNop []) = .next t) ∧
    (0x2 : Word).getLsbD 1 = true ∧ ((0x4 : Word).getLsbD 0 = false ∧ (0x4 : Word).getLsbD 1 = false) ∧
    (idle.phase = .idle ∧ (0x5 : Word).getLsbD 0 = true) := by
  refine ⟨⟨rfl, _, rfl⟩, by decide, by decide, by decide⟩

/-- An asserted `irq` that a step drops. -/
theorem test_witness_InterruptFollowsDone_drops :
    ∃ s t : State, s.irq = true ∧ step s = .next t ∧ t.irq = false :=
  ⟨withMoves { idle with ie := true, done := true } [.powerOn], _, rfl, rfl, rfl⟩

/-- The special cases: NaN, infinite and zero operands, and exact zero results of operands of both signs. -/
theorem test_witness_RoundedToNearest_special :
    (F64.nan = .nan ∧ F64.inf true ≠ .nan ∧ F64.one ≠ .nan ∧ (F64.inf true).isFinite = false) ∧
    (F64.zero.isFinite = true ∧ F64.zero.isZero = true ∧ F64.one.isFinite = true ∧ F64.one.isZero = false) ∧
    (F64.one.toReal + (F64.neg F64.one).toReal = 0 ∧ F64.one.toReal - F64.one.toReal = 0 ∧
      F64.one.toReal * F64.zero.toReal + (F64.neg F64.zero).toReal = 0) := by
  have h : (F64.neg F64.one).toInt = -F64.one.toInt ∧ F64.zero.toInt = 0 ∧ (F64.neg F64.zero).toInt = 0 := by decide +kernel
  refine ⟨by decide, by decide, ?_, sub_self _, ?_⟩
  · unfold F64.toReal; rw [h.1, Int.cast_neg, neg_div, add_neg_cancel]
  · unfold F64.toReal; rw [h.2.1, h.2.2, Int.cast_zero, zero_div, mul_zero, add_zero]

/-- Finite operands, a nonzero divisor, a whole number just below `2^53`. -/
theorem test_witness_RoundedToNearest : F64.one.isFinite = true ∧ F64.c046.isFinite = true ∧ F64.two.isZero = false ∧
    2 ^ 53 - 1 < 2 ^ 53 := by decide +kernel

theorem test_witness_RootRoundedToNearest :
    (F64.zero.isFinite = true ∧ F64.zero.isZero = true) ∧
    ((F64.neg F64.one).isFinite = true ∧ (F64.neg F64.one).isZero = false ∧ (F64.neg F64.one).isNeg = true) ∧
    (F64.two.isFinite = true ∧ F64.two.isNeg = false) := by decide

theorem test_witness_ComparisonsOrdered : F64.zero ≠ .nan ∧ F64.inf true ≠ .nan := by decide

theorem test_witness_WordsHoldValues : (F64.ofWord 0x7FF0000000000000).isNaN = false ∧
    (F64.ofWord 0x7FF0000000000001).isNaN = true ∧ idle.cfg.datapath = .reference ∧
    (tolerantRunning pMag [] []).cfg.datapath = .tolerant ∧ F64.one.isNaN = false ∧
    (tolerantRunning pMag [] [(.rfft [], [w1])]).drawn = (.rfft [], [w1]) :: [] ∧ idle.drawn = [] := by decide +kernel

theorem test_witness_ConstantsNearest : (F64.ofWord 0x400921FB54442D19).isFinite = true := by decide +kernel

theorem test_witness_ElementaryLaws : F64.lt (F64.neg F64.one) F64.zero = true ∧ (F64.inf true).isFinite = false ∧
    F64.two.isFinite = true ∧ 0 < F64.two.toReal := by
  refine ⟨by decide, rfl, rfl, ?_⟩
  have h : F64.two.isNeg = false ∧ 1 * 2 ^ 1074 ≤ F64.two.units * 1 := by decide +kernel
  have := F64.le_toReal 1 1 (by decide) h.1 h.2
  simp only [Nat.cast_one, div_one] at this
  linarith

/-! Conforming draws of a tolerant datapath (rule R17 (a)), for each command whose outputs `TolerantOutputsWithin` bounds. -/

theorem toReal_zero : F64.zero.toReal = 0 := by rw [F64.toReal_eq]; simp [F64.zero, F64.units]

theorem word_zero : F64.ofWord 0 = F64.zero := by decide +kernel

theorem fpTol_nonneg (c : Config) : 0 ≤ (c.fpTol : ℝ) := by
  have : (0 : ℚ) ≤ c.fpTol := by unfold Config.fpTol; positivity
  exact_mod_cast this

/-- A drawn zero conforms to an exact zero. -/
theorem drawConforms_zero {s : State} {op : Operation} {j : Nat} {r : F64} {x : Option ℝ} (h : s.drawnWord op j = 0)
    (hx : x = some 0) : DrawConforms s op j r x := by
  subst hx
  refine .inl ⟨by rw [h, word_zero]; rfl, ?_⟩
  rw [h, word_zero, toReal_zero]; simpa using fpTol_nonneg s.cfg

/-- Where the exact result is none, the reference's value conforms. -/
theorem drawConforms_none {s : State} {op : Operation} {j : Nat} {r : F64} {x : Option ℝ}
    (h : F64.ofWord (s.drawnWord op j) = r) (hx : x = none) : DrawConforms s op j r x := by
  subst hx; exact h

theorem test_witness_TolerantOutputsWithin_mag :
    let s := tolerantRunning pMag zeros [(.mag [(F64.zero, F64.zero), (F64.zero, F64.zero)], zeros)]
    s.cfg.datapath = .tolerant ∧ Ready .mag s ∧ ConformingDraws .mag s ∧ goesOn .mag s = true := by
  have hr : Ready .mag (running pMag zeros) := by
    simp only [Ready, Buffer.Inside, Buffer.Apart, Buffer.Specified, operands_running]
    decide +kernel
  refine ⟨rfl, hr, ?_, by decide +kernel⟩
  intro bins hb k b hk
  have hs : pMag.spectrumA.Holds (running pMag zeros) [F64.zero, F64.zero, F64.zero, F64.zero] := by
    simp only [Buffer.Holds]; decide +kernel
  obtain rfl : bins = [(F64.zero, F64.zero), (F64.zero, F64.zero)] :=
    holdsBins_unique (s := running pMag zeros) hb (holdsBins_of_holds (m := 2) rfl hs)
  have hm : Exact.mag? F64.zero F64.zero = some 0 := by
    simp [Exact.mag?, Exact.mag, toReal_zero, show F64.zero.isFinite = true from rfl]
  have hk' : k = 0 ∨ k = 1 := by
    have := (List.getElem?_eq_some_iff.1 hk).1
    simp at this; omega
  rcases hk' with rfl | rfl <;> (cases hk; exact drawConforms_zero (by decide +kernel) hm)

/-- A signal of zeros. -/
theorem holds_zeros (p : Params) (h : p.aBase = 0) (hl : p.aLen = 4) :
    p.signalA.Holds (running p zeros) [F64.zero, F64.zero, F64.zero, F64.zero] := by
  have hb : p.signalA = pRfft.signalA := by simp only [Params.signalA, h, hl]; rfl
  have hs : pRfft.signalA.Holds (running pRfft zeros) [F64.zero, F64.zero, F64.zero, F64.zero] := by
    simp only [Buffer.Holds]; decide +kernel
  rw [hb]; exact hs

/-- The convolution of zeros is an exact zero. -/
theorem conv?_zeros (n : Nat) {sig h : List F64} (hs : sig = List.replicate n F64.zero)
    (hh : ∀ x ∈ h, x.isFinite = true) (k : Nat) : Exact.conv? sig h k = some 0 := by
  subst hs
  have get : ∀ i : Nat, (List.replicate n F64.zero).getD i F64.zero = F64.zero := by
    intro i; rw [List.getD_eq_getElem?_getD, List.getElem?_replicate]; split <;> rfl
  have real : ∀ i : Nat, ((List.replicate n F64.zero).map F64.toReal).getD i 0 = 0 := by
    intro i; rw [List.map_replicate, toReal_zero, List.getD_eq_getElem?_getD, List.getElem?_replicate]; split <;> rfl
  have hf : (Exact.finiteAll h && (List.range h.length).all fun j =>
      Exact.finiteSample (List.replicate n F64.zero) ((k : Int) - j + ((h.length - 1) / 2 : Nat))) = true := by
    rw [Bool.and_eq_true]
    refine ⟨List.all_eq_true.2 hh, List.all_eq_true.2 fun j _ => ?_⟩
    unfold Exact.finiteSample
    split
    · rw [get]; rfl
    · rfl
  unfold Exact.conv?
  rw [if_pos hf]
  refine congrArg some (Finset.sum_eq_zero fun j _ => ?_)
  simp only [Exact.padded, real, ite_self, mul_zero]

theorem test_witness_TolerantOutputsWithin_conv :
    let s := tolerantRunning pConv zeros
      [(.conv [F64.zero, F64.zero, F64.zero, F64.zero] [F64.zero, F64.zero, F64.zero], zeros)]
    s.cfg.datapath = .tolerant ∧ Ready .convZero s ∧ ConformingDraws .convZero s ∧ goesOn .convZero s = true := by
  have hr : Ready .convZero (running pConv zeros) := by
    simp only [Ready, Buffer.Inside, Buffer.Apart, Buffer.Specified, operands_running]
    decide +kernel
  refine ⟨rfl, hr, ?_, by decide +kernel⟩
  intro sig h hs hb k hk
  obtain rfl : sig = [F64.zero, F64.zero, F64.zero, F64.zero] :=
    holds_unique (s := running pConv zeros) hs (holds_zeros pConv rfl rfl)
  obtain rfl : h = [F64.zero, F64.zero, F64.zero] := by
    have hz : pConv.bufferB.Holds (running pConv zeros) [F64.zero, F64.zero, F64.zero] := by
      simp only [Buffer.Holds]; decide +kernel
    exact holds_unique (s := running pConv zeros) hb hz
  refine drawConforms_zero ?_ (conv?_zeros 4 rfl (by decide) k)
  have hk' : k = 0 ∨ k = 1 ∨ k = 2 ∨ k = 3 := by simp at hk; omega
  rcases hk' with rfl | rfl | rfl | rfl <;> decide +kernel

theorem test_witness_TolerantOutputsWithin_rfft :
    let s := tolerantRunning pRfft zeros [(.rfft [F64.zero, F64.zero, F64.zero, F64.zero], zeros)]
    s.cfg.datapath = .tolerant ∧ Ready .rfft s ∧ ConformingDraws .rfft s ∧ goesOn .rfft s = true := by
  have hr : Ready .rfft (running pRfft zeros) := by
    simp only [Ready, Buffer.Inside, Buffer.Apart, Buffer.Specified, operands_running]
    decide +kernel
  refine ⟨rfl, hr, ?_, by decide +kernel⟩
  intro sig hs k b hk
  obtain rfl : sig = [F64.zero, F64.zero, F64.zero, F64.zero] :=
    holds_unique (s := running pRfft zeros) hs (holds_zeros pRfft rfl rfl)
  have this : ∀ i : Nat, ([F64.zero, F64.zero, F64.zero, F64.zero].map F64.toReal).getD i 0 = 0 := by
    intro i
    simp only [List.map_cons, List.map_nil, toReal_zero]
    rcases i with _ | _ | _ | _ | i <;> rfl
  have hf : Exact.finiteAll [F64.zero, F64.zero, F64.zero, F64.zero] = true := rfl
  have h1 : Exact.binRe? [F64.zero, F64.zero, F64.zero, F64.zero] k = some 0 := by
    unfold Exact.binRe?
    rw [if_pos hf]
    exact congrArg some (Finset.sum_eq_zero fun j _ => by rw [this, zero_mul])
  have h2 : Exact.binIm? [F64.zero, F64.zero, F64.zero, F64.zero] k = some 0 := by
    unfold Exact.binIm?
    rw [if_pos hf]
    unfold Exact.binIm
    rw [Finset.sum_eq_zero fun j _ => by rw [this, zero_mul], neg_zero]
  have hl : (spectrum tolerantCfg [F64.zero, F64.zero, F64.zero, F64.zero]).length = 3 := by decide +kernel
  have hk' : k = 0 ∨ k = 1 ∨ k = 2 := by
    have h : k < (spectrum tolerantCfg [F64.zero, F64.zero, F64.zero, F64.zero]).length :=
      (List.getElem?_eq_some_iff.1 hk).1
    omega
  rcases hk' with rfl | rfl | rfl <;>
    exact ⟨.inl (drawConforms_zero (by decide +kernel) h1), .inl (drawConforms_zero (by decide +kernel) h2)⟩

theorem half_toReal : F64.half.toReal = 1 / 2 := by
  have hh : F64.half.isNeg = false ∧ 1 * 2 ^ 1074 ≤ F64.half.units * 2 ∧ F64.half.units * 2 ≤ 1 * 2 ^ 1074 := by
    decide +kernel
  exact le_antisymm (by exact_mod_cast F64.toReal_le 1 2 (by decide) hh.1 hh.2.2)
    (by exact_mod_cast F64.le_toReal 1 2 (by decide) hh.1 hh.2.1)

/-- Two taps with a tolerance of 1, the drawn tap 0.5. -/
theorem test_witness_TolerantOutputsWithin_firdes :
    let s := { tolerantRunning pFirdesTwo [] [(.taps (F64.ofWord wQuarter) 2, [wHalf])] with cfg := { tolerantCfg with tolNum := 1 } }
    s.cfg.datapath = .tolerant ∧ Ready .firdes s ∧ ConformingDraws .firdes s ∧ pFirdesTwo.nTaps.toNat ≠ 1 ∧
      ∃ t, exec .firdes s = .next t := by
  intro s
  have hr : Ready .firdes s := test_ready_firdes_two
  refine ⟨rfl, hr, ?_, by decide, ?_⟩
  · intro _ taps _ k hk
    have h0 : lowerHalf s.operands.nTaps.toNat = 0 := by decide
    obtain rfl : k = 0 := Nat.le_zero.1 (h0 ▸ hk)
    have ht : (s.cfg.fpTol : ℝ) = 1 := by
      have : s.cfg.fpTol = 1 := by simp [s, tolerantCfg, cfg, Config.fpTol]
      rw [this]; norm_num
    have hw : F64.ofWord (s.drawnWord (.taps (F64.ofWord s.operands.cutoff) s.operands.nTaps.toNat) 0) = F64.half := by
      decide +kernel
    have hn : s.operands.nTaps.toNat = 2 := by decide
    rw [hn] at hw
    simp only [hn]
    unfold DrawConforms
    rw [hw]
    have hfc : (F64.ofWord s.operands.cutoff).toReal = 1 / 4 := by
      have hh : (F64.ofWord wQuarter).isNeg = false ∧ 1 * 2 ^ 1074 ≤ (F64.ofWord wQuarter).units * 4 ∧
          (F64.ofWord wQuarter).units * 4 ≤ 1 * 2 ^ 1074 := by decide +kernel
      exact le_antisymm (by exact_mod_cast F64.toReal_le 1 4 (by decide) hh.1 hh.2.2)
        (by exact_mod_cast F64.le_toReal 1 4 (by decide) hh.1 hh.2.1)
    generalize (F64.ofWord s.operands.cutoff).toReal = fc at hfc ⊢
    have sym : Exact.windowed fc 2 1 = Exact.windowed fc 2 0 := by
      have even : ∀ x : ℝ, Exact.sinc (-x) = Exact.sinc x := by
        intro x; unfold Exact.sinc
        by_cases hx : x = 0
        · simp [hx]
        · rw [if_neg (neg_ne_zero.2 hx), if_neg hx, mul_neg, Real.sin_neg, neg_div_neg_eq]
      unfold Exact.windowed
      have a1 : 2 * fc * (((1 : Nat) : ℝ) - (((2 : Nat) : ℝ) - 1) / 2) = fc := by push_cast; ring
      have a0 : 2 * fc * (((0 : Nat) : ℝ) - (((2 : Nat) : ℝ) - 1) / 2) = -fc := by push_cast; ring
      have c1 : 2 * Real.pi * ((1 : Nat) : ℝ) / (((2 : Nat) : ℝ) - 1) = 2 * Real.pi := by push_cast; ring
      have c0 : 2 * Real.pi * ((0 : Nat) : ℝ) / (((2 : Nat) : ℝ) - 1) = 0 := by push_cast; ring
      rw [a1, a0, c1, c0, even, Real.cos_two_pi, Real.cos_zero]
    have tap : Exact.tap fc 2 0 = Exact.windowed fc 2 0 / (Exact.windowed fc 2 0 + Exact.windowed fc 2 0) := by
      unfold Exact.tap
      rw [if_neg (by decide), Finset.sum_range_succ, Finset.sum_range_succ, Finset.sum_range_zero, zero_add, sym]
    have sum : ∑ j ∈ Finset.range 2, Exact.windowed fc 2 j = Exact.windowed fc 2 0 + Exact.windowed fc 2 0 := by
      rw [Finset.sum_range_succ, Finset.sum_range_succ, Finset.sum_range_zero, zero_add, sym]
    have hx : Exact.windowed fc 2 0 ≠ 0 := by
      have e : Exact.windowed fc 2 0 = Exact.sinc (-fc) * (0.54 - 0.46) := by
        unfold Exact.windowed
        have a0 : 2 * fc * (((0 : Nat) : ℝ) - (((2 : Nat) : ℝ) - 1) / 2) = -fc := by push_cast; ring
        have c0 : 2 * Real.pi * ((0 : Nat) : ℝ) / (((2 : Nat) : ℝ) - 1) = 0 := by push_cast; ring
        rw [a0, c0, Real.cos_zero, mul_one]
      have hs : 0 < Real.sin (Real.pi * (1 / 4)) :=
        Real.sin_pos_of_pos_of_lt_pi (by positivity) (by linarith [Real.pi_pos])
      rw [e, hfc]
      unfold Exact.sinc
      rw [if_neg (by norm_num), mul_neg, Real.sin_neg, neg_div_neg_eq]
      exact mul_ne_zero (div_ne_zero hs.ne' (by positivity)) (by norm_num)
    have exact : Exact.tap? fc 2 0 = some (1 / 2) := by
      unfold Exact.tap?
      rw [tap, sum]
      generalize Exact.windowed fc 2 0 = x at hx
      have : x / (x + x) = 1 / 2 := by field_simp; norm_num
      rw [this, if_neg fun h => hx (by linarith [h.2])]
    rw [exact]
    refine .inl ⟨rfl, ?_⟩
    rw [half_toReal, ht]
    norm_num
  · cases he : exec .firdes s with
    | next t => exact ⟨t, rfl⟩
    | fault f =>
      obtain ⟨-, b, hb, -⟩ := exec_fault he
      simp [sources] at hb
    | refused r => exact absurd he (exec_not_refused _ _ _)

/-- A signal of one zero under one tap. -/
theorem test_witness_TolerantOutputsWithin_lpf :
    let s := tolerantRunning pLpf zeros [(.conv [F64.zero] [F64.one], zeros)]
    s.cfg.datapath = .tolerant ∧ Ready .lpfZero s ∧ ConformingDraws .lpfZero s ∧ goesOn .lpfZero s = true := by
  have hr : Ready .lpfZero (running pLpf zeros) := by
    simp only [Ready, Buffer.Inside, Buffer.Apart, Buffer.Specified, Params.CutoffLegal, Params.DesignExists,
      operands_running]
    decide +kernel
  refine ⟨rfl, hr, ⟨fun h => absurd rfl h, ?_⟩, by decide +kernel⟩
  intro sig words hs hw h k hk
  obtain rfl : sig = [F64.zero] := by
    have hz : pLpf.signalA.Holds (running pLpf zeros) [F64.zero] := by simp only [Buffer.Holds]; decide +kernel
    exact holds_unique (s := running pLpf zeros) hs hz
  have hn : (tolerantRunning pLpf zeros [(.conv [F64.zero] [F64.one], zeros)]).tapWords (F64.ofWord pLpf.cutoff) 1 =
      some [w1] := by decide +kernel
  have he : words = [w1] := Option.some.inj (hw.symm.trans hn)
  have hh : h = [F64.one] := by
    show words.map F64.ofWord = _
    rw [he]; decide +kernel
  clear_value h
  subst hh
  have hk' : k = 0 := by simp at hk; omega
  subst hk'
  exact drawConforms_zero (by decide +kernel) (conv?_zeros 1 rfl (by decide) 0)

/-- A signal of zeros against ones: the reference SNR is `−inf` (rule R224 (a)), and so is the conforming draw. -/
theorem test_witness_TolerantOutputsWithin_snr :
    let s := tolerantRunning pSnr [0, 0, w1, w1] [(.snr [F64.zero, F64.zero] [F64.one, F64.one], [0xFFF0000000000000])]
    s.cfg.datapath = .tolerant ∧ Ready .snr s ∧ ConformingDraws .snr s ∧ goesOn .snr s = true ∧
    (∃ x y, pSnr.signalA.Holds s x ∧ pSnr.bufferB.Holds s y ∧ F64.eq (powerSums x y).1 F64.zero = false) := by
  have hr : Ready .snr (running pSnr [0, 0, w1, w1]) := by
    simp only [Ready, Buffer.Inside, Buffer.Specified, operands_running]
    decide +kernel
  have hx : pSnr.signalA.Holds (running pSnr [0, 0, w1, w1]) [F64.zero, F64.zero] := by
    simp only [Buffer.Holds]; decide +kernel
  have hy : pSnr.bufferB.Holds (running pSnr [0, 0, w1, w1]) [F64.one, F64.one] := by
    simp only [Buffer.Holds]; decide +kernel
  refine ⟨rfl, hr, ?_, by decide +kernel, ⟨_, _, hx, hy, by decide +kernel⟩⟩
  intro x y h1 h2 _
  obtain rfl := holds_unique (s := running pSnr [0, 0, w1, w1]) h1 hx
  obtain rfl := holds_unique (s := running pSnr [0, 0, w1, w1]) h2 hy
  have hv : snrOf (powerSums [F64.zero, F64.zero] [F64.one, F64.one]) = .inf true := by
    have h : F64.div (powerSums [F64.zero, F64.zero] [F64.one, F64.one]).2
        (powerSums [F64.zero, F64.zero] [F64.one, F64.one]).1 = F64.zero := by decide +kernel
    rw [snrOf, h, show F64.log10 F64.zero = .inf true from rfl]; decide +kernel
  rw [hv]
  refine drawConforms_none (by decide +kernel) ?_
  unfold Exact.snr?
  rw [if_neg]
  rintro ⟨-, -, h, -⟩
  exact h (by simp [Exact.signalPower, toReal_zero])

/-- Two bins of zero at `FS = 1.0`, `N = 2`: the peak is bin 1, its frequency 0.5. -/
theorem test_witness_TolerantOutputsWithin_peak :
    let p : Params := { pPeak with aLen := 2, fs := w1, origLen := 2 }
    let s := tolerantRunning p zeros
      [(.peak false [(F64.zero, F64.zero)] F64.one 2, [1, wHalf]), (.peak true [(F64.zero, F64.zero)] F64.one 2, [1, wHalf])]
    s.cfg.datapath = .tolerant ∧ Ready .peakOrig s ∧ ConformingDraws .peakOrig s ∧ goesOn .peakOrig s = true ∧
    Ready .peakDerive s ∧ ConformingDraws .peakDerive s ∧ goesOn .peakDerive s = true ∧
    ∃ bins, p.searchedA.HoldsBins s bins ∧ ReferencePeak bins 1 ∧ ∀ b ∈ bins, (magnitude b).isNaN = false := by
  intro p s
  have hb : p.searchedA.HoldsBins s [(F64.zero, F64.zero)] := by
    have hs : p.searchedA.Holds (running p zeros) [F64.zero, F64.zero] := by
      simp only [Buffer.Holds]; decide +kernel
    exact holdsBins_of_holds (s := s) (m := 1) rfl hs
  have draws : ∀ derived, ConformingDraws.PeakDraws s p derived 2 := by
    intro derived
    have hop : p.peakOperation s.dmem derived 2 = .peak derived [(F64.zero, F64.zero)] F64.one 2 := by
      revert derived; decide +kernel
    unfold ConformingDraws.PeakDraws
    simp only [hop]
    intro r hr
    have hbin : peakSearch s.dmem p.aBase.toNat 1 none (p.aLen.toNat - 1) = .ok ⟨1, false⟩ := by decide +kernel
    obtain rfl : r = ⟨1, false⟩ := by rw [hbin] at hr; cases hr; rfl
    have hd : (s.drawnWord (.peak derived [(F64.zero, F64.zero)] F64.one 2) 0).toNat = 1 := by
      clear hb; revert derived; decide +kernel
    have tol : (0 : EReal) ≤ ((2 * (s.cfg.fpTol : ℝ) : ℝ) : EReal) := by
      exact_mod_cast mul_nonneg (by norm_num : (0 : ℝ) ≤ 2) (fpTol_nonneg s.cfg)
    refine ⟨fun _ bins h => ?_, ?_⟩
    · obtain rfl := holdsBins_unique h hb
      rw [hd]
      refine ⟨le_refl _, le_refl _, .inl fun j a b ha hb => ?_⟩
      obtain rfl : j = 0 := by
        have := (List.getElem?_eq_some_iff.1 ha).1
        simp at this; exact this
      obtain rfl : a = b := Option.some.inj (ha.symm.trans hb)
      exact ⟨le_add_of_nonneg_right tol, fun _ => le_refl _⟩
    · have hk : s.peakBin (.peak derived [(F64.zero, F64.zero)] F64.one 2) p.aLen.toNat ⟨1, false⟩ = 1 := by
        simp only [State.peakBin, hd]; rfl
      have hw : F64.ofWord (s.drawnWord (.peak derived [(F64.zero, F64.zero)] F64.one 2) 1) = F64.half := by
        clear hb hk; revert derived; decide +kernel
      have hf : (F64.ofWord p.fs).toReal = 1 := by
        have hh : (F64.ofWord p.fs).isNeg = false ∧ 1 * 2 ^ 1074 ≤ (F64.ofWord p.fs).units * 1 ∧
            (F64.ofWord p.fs).units * 1 ≤ 1 * 2 ^ 1074 := by decide +kernel
        have h1 := F64.toReal_le 1 1 (by decide) hh.1 hh.2.2
        have h2 := F64.le_toReal 1 1 (by decide) hh.1 hh.2.1
        simp only [Nat.cast_one, div_one] at h1 h2
        exact le_antisymm h1 h2
      rw [hk]
      unfold DrawConforms
      rw [hw]
      refine .inl ⟨rfl, ?_⟩
      rw [half_toReal, hf]
      simpa [Exact.freq] using fpTol_nonneg s.cfg
  have ready : Ready .peakOrig s ∧ Ready .peakDerive s := by
    simp only [Ready, Buffer.Inside, Buffer.Specified, Params.RateLegal]
    decide +kernel
  refine ⟨rfl, ready.1, draws false, by decide +kernel, ready.2, draws true, by decide +kernel, ⟨_, hb, ?_, by decide +kernel⟩⟩
  refine ⟨le_refl _, le_refl _, .inr fun j h1 h2 => ?_⟩
  obtain rfl : j = 1 := by simp at h2; omega
  exact ⟨by decide +kernel, by decide +kernel, fun h => absurd h (lt_irrefl _)⟩

end Tests
end Sys2Proof
end

section
/-! PROOFS of the statements about numbers: the comparisons as the order of the extended reals (rule R12), and the constants as nearest values (rule R16). -/

namespace Sys2Proof
namespace F64

/-! ### Comparisons (rule R12) -/

@[simp] theorem isNaN_iff (a : F64) : a.isNaN = true ↔ a = .nan := by
  cases a <;> simp [isNaN]

theorem isFinite_iff (a : F64) : a.isFinite = true ↔ a ≠ .nan ∧ a ≠ .inf false ∧ a ≠ .inf true := by
  cases a with
  | nan => simp [isFinite]
  | inf s => cases s <;> simp [isFinite]
  | fin s e f => simp [isFinite]

theorem lt_iff_ord (a b : F64) : lt a b = true ↔ a ≠ .nan ∧ b ≠ .nan ∧ a.ord < b.ord := by
  simp [lt, ← Bool.not_eq_true, and_assoc]

theorem le_iff_ord (a b : F64) : le a b = true ↔ a ≠ .nan ∧ b ≠ .nan ∧ a.ord ≤ b.ord := by
  simp [le, ← Bool.not_eq_true, and_assoc]

theorem eq_iff_ord (a b : F64) : eq a b = true ↔ a ≠ .nan ∧ b ≠ .nan ∧ a.ord = b.ord := by
  simp [eq, ← Bool.not_eq_true, and_assoc]

/-- A comparison with a NaN on either side is false. -/
theorem compare_nan (a : F64) : lt a .nan = false ∧ lt .nan a = false ∧ le a .nan = false ∧ le .nan a = false ∧
    eq a .nan = false ∧ eq .nan a = false := by
  simp [← Bool.not_eq_true, lt_iff_ord, le_iff_ord, eq_iff_ord]

section
variable {a b : F64} (ha : a ≠ .nan) (hb : b ≠ .nan)
include ha hb

theorem ord_le_iff : a.ord ≤ b.ord ↔ a.toEReal ≤ b.toEReal := by
  rw [← not_lt, ← not_lt, ord_lt_iff b a hb ha]

theorem ord_eq_iff : a.ord = b.ord ↔ a.toEReal = b.toEReal := by
  rw [le_antisymm_iff, le_antisymm_iff, ord_le_iff ha hb, ord_le_iff hb ha]

theorem lt_iff_toEReal : lt a b = true ↔ a.toEReal < b.toEReal := by
  simp [lt_iff_ord, ha, hb, ord_lt_iff a b ha hb]

theorem le_iff_toEReal : le a b = true ↔ a.toEReal ≤ b.toEReal := by
  simp [le_iff_ord, ha, hb, ord_le_iff ha hb]

theorem eq_iff_toEReal : eq a b = true ↔ a.toEReal = b.toEReal := by
  simp [eq_iff_ord, ha, hb, ord_eq_iff ha hb]

end

/-! ### Constants (rule R16) -/

/-- Rounding a quotient of whole numbers is rounding their real quotient. -/
theorem round_ratio_roundsTo (p : Nat) {q : Nat} (hq : 0 < q) :
    (round false (p * 2 ^ 1074) q).RoundsTo ((p : ℝ) / q) := by
  refine round_roundsTo false _ hq ?_
  have hY : (0 : ℝ) < 2 ^ 1074 := by positivity
  rw [Nat.cast_mul, Nat.cast_pow, Nat.cast_ofNat]
  generalize (2 : ℝ) ^ 1074 = Y at *
  simp; field_simp

/-- The real numbers to which a value is nearest form an interval: between two that round to `r`, `r` is nearest. -/
theorem RoundsTo.nearest_between {r c : F64} {x y z : ℝ} (hx : r.RoundsTo x) (hz : r.RoundsTo z)
    (hr : r.isFinite = true) (hc : c.isFinite = true) (hxy : x ≤ y) (hyz : y ≤ z) :
    |r.toReal - y| ≤ |c.toReal - y| := by
  have near_x := sq_le_sq.2 (hx.nearest hr c hc)
  have near_z := sq_le_sq.2 (hz.nearest hr c hc)
  refine sq_le_sq.1 ?_
  rcases le_total r.toReal c.toReal with h | h
  · nlinarith [mul_nonneg (sub_nonneg.2 h) (sub_nonneg.2 hyz)]
  · nlinarith [mul_nonneg (sub_nonneg.2 h) (sub_nonneg.2 hxy)]

theorem c054_roundsTo : c054.RoundsTo (54 / 100) := by
  have h : round false (54 * 2 ^ 1074) 100 = c054 := by decide +kernel
  exact_mod_cast h ▸ round_ratio_roundsTo 54 (q := 100) (by decide)

theorem c046_roundsTo : c046.RoundsTo (46 / 100) := by
  have h : round false (46 * 2 ^ 1074) 100 = c046 := by decide +kernel
  exact_mod_cast h ▸ round_ratio_roundsTo 46 (q := 100) (by decide)

/-- `PI64` is nearest to `π`, because both 20-place decimals around `π` round to it. -/
theorem pi64_nearest {c : F64} (hc : c.isFinite = true) : |pi64.toReal - Real.pi| ≤ |c.toReal - Real.pi| := by
  have lo : round false (314159265358979323846 * 2 ^ 1074) (10 ^ 20) = pi64 := by decide +kernel
  have hi : round false (314159265358979323847 * 2 ^ 1074) (10 ^ 20) = pi64 := by decide +kernel
  refine (lo ▸ round_ratio_roundsTo 314159265358979323846 (q := 10 ^ 20) (by decide)).nearest_between
    (hi ▸ round_ratio_roundsTo 314159265358979323847 (q := 10 ^ 20) (by decide)) rfl hc ?_ ?_
  · exact le_trans (by norm_num) Real.pi_gt_d20.le
  · exact le_trans Real.pi_lt_d20.le (by norm_num)

end F64

/-- Settles O56: `F64.ord` orders the values that are no NaN as their extended reals. -/
theorem comparisonsOrdered : Obligations.ComparisonsOrdered := by
  unfold Obligations.ComparisonsOrdered
  exact ⟨F64.compare_nan,
    fun a b ha hb => ⟨F64.lt_iff_toEReal ha hb, F64.le_iff_toEReal ha hb, F64.eq_iff_toEReal ha hb⟩,
    by decide,
    fun a => ⟨F64.isNaN_iff a, F64.isFinite_iff a⟩⟩

/-- Settles O58: 54/100 and 46/100 round to `C054` and `C046`, and two decimals on either side of π round to `PI64`. -/
theorem constantsNearest : Obligations.ConstantsNearest := by
  unfold Obligations.ConstantsNearest
  refine ⟨⟨F64.bits_ofWord _ rfl, F64.bits_ofWord _ rfl, F64.bits_ofWord _ rfl⟩, fun c hc => ⟨F64.pi64_nearest hc, ?_, ?_⟩⟩
  · exact F64.c054_roundsTo.nearest rfl c hc
  · exact F64.c046_roundsTo.nearest rfl c hc

end Sys2Proof
end

section
/-! PROOFS of the statements about the control, status and parameter registers (rules R31 to R50): how each kind of register of rule R32 answers a host write, and the fields of `CAPS`. -/

namespace Sys2Proof
namespace Machine

/-! ### The access column of the register map (rule R32) -/

/-- The registers with access code `RO` (rule R32). -/
def Reg.isReadOnly : Reg → Bool
  | .id | .caps | .err | .res0 | .res1 | .dLen => true
  | _ => false

/-- The parameter registers: access code `RW, param` (rule R32). -/
def Reg.isParam : Reg → Bool
  | .cmd | .aBase | .aLen | .bBase | .bLen | .dBase | .nTaps | .cutoff | .fs | .origLen => true
  | _ => false

theorem writeReg_of_readOnly {r : Reg} (h : r.isReadOnly = true) (v : Word) (s : State) : writeReg r v s = s := by
  cases r <;> cases h <;> rfl

theorem writeReg_of_param {r : Reg} (h : r.isParam = true) (v : Word) (s : State) :
    writeReg r v s = writeParam r v s := by
  cases r <;> cases h <;> rfl

/-! ### Offsets of the register window -/

theorem Reg.at?_bounds {o : Nat} {r : Reg} (h : Reg.at? o = some r) : o < 0x1000 ∧ o % 8 = 0 := by
  unfold Reg.at? at h
  split at h <;> simp at h ⊢

theorem Reg.at?_reserved {o : Nat} (h : 0x090 ≤ o) : Reg.at? o = none := by
  unfold Reg.at?
  split <;> simp at h ⊢

/-- A host write at a register's offset is the write of that register, answered at once. -/
theorem hostStep_writeReg {o : Nat} {r : Reg} (hr : Reg.at? o = some r) (s : State) (v : Word) :
    s.hostStep (hostWrite s.cfg o v) = .next ((writeReg r v s).answer .done) :=
  have ⟨hlt, h8⟩ := Reg.at?_bounds hr
  hostStep_write s o v hlt h8 hr

theorem hostStep_write_readOnly {o : Nat} {r : Reg} (hr : Reg.at? o = some r) (h : r.isReadOnly = true) (s : State)
    (v : Word) : s.hostStep (hostWrite s.cfg o v) = .next (s.answer .done) := by
  rw [hostStep_writeReg hr, writeReg_of_readOnly h]

/-! ### Writes to `CTRL` (rule R35) -/

theorem writeCtrl_of_softReset {v : Word} (h1 : v.getLsbD 1 = true) (s : State) : writeCtrl v s = softReset s := by
  simp only [writeCtrl, h1, if_true]

theorem writeCtrl_of_noStart {v : Word} (h1 : v.getLsbD 1 = false) (h0 : v.getLsbD 0 = false) (s : State) :
    writeCtrl v s = { s with ie := v.getLsbD 2 } := by
  simp only [writeCtrl, h1, h0, Bool.false_eq_true, if_false]

theorem writeCtrl_of_start {v : Word} (h1 : v.getLsbD 1 = false) (h0 : v.getLsbD 0 = true) (s : State) :
    writeCtrl v s = startRequest { s with ie := v.getLsbD 2 } := by
  simp only [writeCtrl, h1, h0, Bool.false_eq_true, if_false, if_true]

/-- Only bits 2 to 0 of a write to `CTRL` matter. -/
theorem writeCtrl_and_seven (v : Word) (s : State) : writeCtrl (v &&& 7) s = writeCtrl v s := by
  have low : ∀ i < 3, (v &&& 7).getLsbD i = v.getLsbD i := by
    intro i hi
    have h7 : ∀ i < 3, (7 : Word).getLsbD i = true := by decide
    rw [BitVec.getLsbD_and, h7 i hi, Bool.and_true]
  simp only [writeCtrl, low 0, low 1, low 2, Nat.reduceLT]

/-! ### Writes to the parameter registers (rule R50) -/

theorem writeParam_of_busy {s : State} (hb : s.busy = true) (r : Reg) (v : Word) : writeParam r v s = s.overrun := by
  rw [writeParam, if_pos hb]

theorem writeParam_of_idle {s : State} (hb : s.busy = false) (r : Reg) (v : Word) :
    writeParam r v s = { s with params := s.params.set r v } := by
  simp [writeParam, hb]

section
variable (p : Params) (r : Reg) (v : Word)

@[simp] theorem Params.set_cmd : (p.set r v).cmd = if r = .cmd then v.setWidth 32 else p.cmd := by cases r <;> rfl
@[simp] theorem Params.set_aBase : (p.set r v).aBase = if r = .aBase then v.setWidth 32 else p.aBase := by cases r <;> rfl
@[simp] theorem Params.set_aLen : (p.set r v).aLen = if r = .aLen then v.setWidth 32 else p.aLen := by cases r <;> rfl
@[simp] theorem Params.set_bBase : (p.set r v).bBase = if r = .bBase then v.setWidth 32 else p.bBase := by cases r <;> rfl
@[simp] theorem Params.set_bLen : (p.set r v).bLen = if r = .bLen then v.setWidth 32 else p.bLen := by cases r <;> rfl
@[simp] theorem Params.set_dBase : (p.set r v).dBase = if r = .dBase then v.setWidth 32 else p.dBase := by cases r <;> rfl
@[simp] theorem Params.set_nTaps : (p.set r v).nTaps = if r = .nTaps then v.setWidth 32 else p.nTaps := by cases r <;> rfl
@[simp] theorem Params.set_cutoff : (p.set r v).cutoff = if r = .cutoff then v else p.cutoff := by cases r <;> rfl
@[simp] theorem Params.set_fs : (p.set r v).fs = if r = .fs then v else p.fs := by cases r <;> rfl
@[simp] theorem Params.set_origLen : (p.set r v).origLen = if r = .origLen then v.setWidth 32 else p.origLen := by
  cases r <;> rfl

end

/-- Keeping the low 32 bits of a word is masking it. -/
theorem zext64_setWidth (v : Word) : zext64 (v.setWidth 32) = v &&& 0xFFFFFFFF := by
  refine BitVec.eq_of_toNat_eq ?_
  have mask : v.toNat &&& (2 ^ 32 - 1) = v.toNat % 2 ^ 32 := Nat.and_two_pow_sub_one_eq_mod _ _
  simp only [zext64, BitVec.toNat_setWidth, BitVec.toNat_and, BitVec.reduceToNat, Nat.reducePow,
    Nat.reduceSub] at mask ⊢
  omega

/-- A read does not see the bus answer. -/
@[simp] theorem readReg_answer (a : Reply) (s : State) (q : Reg) : readReg (s.answer a) q = readReg s q := by
  cases q <;> rfl

theorem readReg_set_same {r : Reg} (h : r.isParam = true) (v : Word) (s : State) :
    readReg { s with params := s.params.set r v } r = if r = .cutoff ∨ r = .fs then v else v &&& 0xFFFFFFFF := by
  cases r <;> cases h <;> simp [readReg, zext64_setWidth]

theorem readReg_set_other {q r : Reg} (h : q ≠ r) (v : Word) (s : State) :
    readReg { s with params := s.params.set r v } q = readReg s q := by
  cases q <;> simp [readReg, h.symm, State.statusWord, State.busy]

/-! ### The fields of `CAPS` (rule R33) -/

theorem getLsbD_bitAt (b : Bool) {n : Nat} (hn : n < 64) (i : Nat) : (bitAt b n).getLsbD i = (b && decide (n = i)) := by
  cases b with
  | false => simp [bitAt]
  | true =>
    have below : n = i → i < 64 := by omega
    simpa only [bitAt, if_true, BitVec.getLsbD_ofNat, Nat.testBit_two_pow, Bool.true_and, Bool.and_eq_right_iff_imp,
      decide_eq_true_eq] using below

theorem dmemWords_lt (c : Config) : c.dmemWords < 2 ^ 32 :=
  lt_of_le_of_lt (dmemWords_bounds c).2 (by decide)

/-- `DMEM_WORDS` has no bit above bit 31. -/
theorem getLsbD_dmemWords (c : Config) {i : Nat} (h : 32 ≤ i) : (BitVec.ofNat 64 c.dmemWords).getLsbD i = false := by
  have : c.dmemWords < 2 ^ i := lt_of_lt_of_le (dmemWords_lt c) (Nat.pow_le_pow_right (by decide) h)
  rw [BitVec.getLsbD_ofNat, Nat.testBit_lt_two_pow this, Bool.and_false]

theorem getLsbD_capsWord (c : Config) (i : Nat) :
    (capsWord c).getLsbD i = ((BitVec.ofNat 64 c.dmemWords).getLsbD i || c.macFused && decide (32 = i) ||
      (c.fftRef == .radix2) && decide (33 = i)) := by
  simp only [capsWord, BitVec.getLsbD_or, getLsbD_bitAt, Nat.reduceLT]

theorem capsWord_dmemWords (c : Config) : ((capsWord c).extractLsb' 0 32).toNat = c.dmemWords := by
  have low : (capsWord c).extractLsb' 0 32 = BitVec.ofNat 32 c.dmemWords := by
    refine BitVec.eq_of_getLsbD_eq fun i hi => ?_
    have h32 : 32 ≠ i := by omega
    have h33 : 33 ≠ i := by omega
    have h64 : i < 64 := by omega
    simp only [BitVec.getLsbD_extractLsb', getLsbD_capsWord, BitVec.getLsbD_ofNat, hi, h32, h33, h64, Nat.zero_add,
      decide_true, decide_false, Bool.true_and, Bool.and_false, Bool.or_false]
  rw [low, BitVec.toNat_ofNat, Nat.mod_eq_of_lt (dmemWords_lt c)]

theorem capsWord_macFused (c : Config) : (capsWord c).getLsbD 32 = c.macFused := by
  rw [getLsbD_capsWord, getLsbD_dmemWords c (by decide)]; simp

theorem capsWord_fftRadix2 (c : Config) : (capsWord c).getLsbD 33 = decide (c.fftRef = .radix2) := by
  rw [getLsbD_capsWord, getLsbD_dmemWords c (by decide)]; simp [beq_eq_decide]

theorem capsWord_reserved (c : Config) : (capsWord c).extractLsb' 34 30 = 0 := by
  refine BitVec.eq_of_getLsbD_eq fun i hi => ?_
  have h32 : 32 ≠ 34 + i := by omega
  have h33 : 33 ≠ 34 + i := by omega
  simp [getLsbD_capsWord, getLsbD_dmemWords c (show 32 ≤ 34 + i by omega), h32, h33]

end Machine

open Machine

/-- Settles O7: a write at `CTRL`'s offset is `writeCtrl`, which tests bits 1 and 0 in this order and looks at no bit above
bit 2. -/
theorem controlWriteOrder : Obligations.ControlWriteOrder := by
  unfold Obligations.ControlWriteOrder
  intro s v
  simp only [hostStep_writeCtrl, writeCtrl_and_seven, and_true]
  exact ⟨fun h1 => by rw [writeCtrl_of_softReset h1], fun h1 h0 => by rw [writeCtrl_of_noStart h1 h0],
    fun h1 h0 => by rw [writeCtrl_of_start h1 h0]⟩

/-- Settles O9: a write at the offset of one of the ten registers is `writeParam`, by the register table. -/
theorem parameterWrites : Obligations.ParameterWrites := by
  unfold Obligations.ParameterWrites
  intro s o r v hm
  have table : ∀ e ∈ [(0x020, Reg.cmd), (0x030, Reg.aBase), (0x038, Reg.aLen), (0x040, Reg.bBase), (0x048, Reg.bLen),
      (0x050, Reg.dBase), (0x058, Reg.nTaps), (0x060, Reg.cutoff), (0x068, Reg.fs), (0x070, Reg.origLen)],
      Reg.at? e.1 = some e.2 ∧ e.2.isParam = true := by decide
  obtain ⟨hat, hparam⟩ := table (o, r) hm
  have hstep : s.hostStep (hostWrite s.cfg o v) = .next ((writeParam r v s).answer .done) := by
    rw [hostStep_writeReg hat, writeReg_of_param hparam]
  refine ⟨fun hb => ?busy, fun hb => ?idle⟩
  case busy => rw [hstep, writeParam_of_busy hb]; rfl
  case idle =>
    rw [writeParam_of_idle hb] at hstep
    refine ⟨_, hstep, rfl, ?_, fun q hq => ?_⟩
    · rw [readReg_answer, readReg_set_same hparam]
    · rw [readReg_answer, readReg_set_other hq]

/-- Settles O13: an access to a reserved offset has no register, and a write to a read-only register is ignored. -/
theorem reservedAndReadOnly : Obligations.ReservedAndReadOnly := by
  unfold Obligations.ReservedAndReadOnly
  intro s v
  refine ⟨?id, fun o hlo hhi h8 => ?reserved, fun o ho => ?readOnly⟩
  case id => exact hostStep_read s 0x000 (by decide) (by decide) rfl
  case reserved =>
    have hlt : o < 0x1000 := by omega
    have hnone := Reg.at?_reserved hlo
    exact ⟨hostStep_read s o hlt h8 hnone, hostStep_write s o v hlt h8 hnone⟩
  case readOnly =>
    have table : ∀ o ∈ [0x000, 0x008, 0x028, 0x078, 0x080, 0x088], (Reg.at? o).map Reg.isReadOnly = some true := by
      decide
    obtain ⟨r, hat, hro⟩ := Option.map_eq_some_iff.1 (table o ho)
    exact hostStep_write_readOnly hat hro s v

/-- Settles O14: `CAPS` is a function of the configuration, field by field, and no step changes the configuration. -/
theorem capsReportsConfiguration : Obligations.CapsReportsConfiguration := by
  unfold Obligations.CapsReportsConfiguration
  intro s
  exact ⟨capsWord_dmemWords s.cfg, capsWord_macFused s.cfg, capsWord_fftRadix2 s.cfg, capsWord_reserved s.cfg,
    fun v => hostStep_write_readOnly (r := .caps) rfl rfl s v,
    fun t h => congrArg capsWord (step_cfg h)⟩

/-- Settles O10: a write at `STATUS`'s offset is `clearFlags`, whether or not the engine is busy. -/
theorem statusWriteClears : Obligations.StatusWriteClears := by
  unfold Obligations.StatusWriteClears
  intro s v
  exact hostStep_writeReg (r := .status) rfl s v

end Sys2Proof
end

section
/-! PROOFS of the statements about the host's accesses to DMEM (rules R74, R75): where a written word's bytes stand, and what a host read and a host write of a word do while the engine is idle. -/

namespace Sys2Proof
namespace Machine

/-! ### The bytes of a written word (rule R74) -/

/-- Byte `j` of a word stands `j` bytes above the word's address. -/
theorem Memory.read_writeWord_byte (m : Memory) (w : Nat) (v : Word) {j : Nat} (hj : j < 8) :
    read (writeWord m w v) (wordAddr w + j) = some (v.extractLsb' (8 * j) 8) := by
  have inside : wordAddr w ≤ wordAddr w + j ∧ wordAddr w + j < wordAddr w + 8 := by omega
  rw [writeWord, read_writeBytes, if_pos inside, Nat.add_sub_cancel_left, BitVec.extractLsb', Nat.shiftRight_eq_div_pow,
    Nat.pow_mul]

theorem Memory.read_writeWord_out (m : Memory) (w : Nat) (v : Word) {a : Nat}
    (h : a < wordAddr w ∨ wordAddr w + 8 ≤ a) : read (writeWord m w v) a = read m a :=
  read_writeWords_out m w [v] a h

/-! ### Host accesses to a word of DMEM (rule R75) -/

section
variable {s : State} {w : Nat} (hw : w < s.cfg.dmemWords) (hb : s.busy = false)
include hw hb

/-- A host write of a DMEM word. -/
theorem hostStep_writeDmem (v : Word) : s.hostStep (hostWrite s.cfg (0x01000000 + 8 * w) v) =
    .next { s with dmem := Memory.writeWord s.dmem w v, reply := some .done } :=
  hostStep_dmem (target_dmem s.cfg w (.write v) hw) hb

/-- A host read of a DMEM word that holds a value. -/
theorem hostStep_readDmem {v : Word} (hv : Memory.readWord s.dmem w = some v) :
    s.hostStep (hostRead s.cfg (0x01000000 + 8 * w)) = .next { s with reply := some (.data v) } := by
  have access : s.hostStep (hostRead s.cfg (0x01000000 + 8 * w)) = accessDmem w .read s :=
    hostStep_dmem (target_dmem s.cfg w .read hw) hb
  rw [access, accessDmem, hv]; rfl

end

end Machine

open Machine

/-- Settles O16: an access at the word's offset is one of DMEM word `w` and does not wait; the rest is the laws of
`Memory.writeWord`. -/
theorem hostReachesMemory : Obligations.HostReachesMemory := by
  unfold Obligations.HostReachesMemory
  intro s w hw hb
  refine ⟨fun v => ⟨_, hostStep_writeDmem hw hb v, rfl, ?word, ?bytes, ?frame⟩, fun v hv => hostStep_readDmem hw hb hv⟩
  case word => exact Memory.readWord_writeWord_same s.dmem w v
  case bytes => exact fun j hj => Memory.read_writeWord_byte s.dmem w v hj
  case frame => exact fun a ha => Memory.read_writeWord_out s.dmem w v (ha ⟨w, 1⟩ List.mem_cons_self)

end Sys2Proof
end

section
/-! PROOFS of the statements about command words (rules R100, R103, R105, R107, R108): a word decodes to a command exactly when its fields are that command's row, and it is illegal exactly when they are no command's. -/

namespace Sys2Proof

/-! ### A word and its fields (rule R100) -/

theorem wordOf_fieldsOf (w : BitVec 32) : wordOf (fieldsOf w) = w := by
  have upper : w.extractLsb' 16 16 ++ w.extractLsb' 8 8 = w.extractLsb' 8 24 :=
    BitVec.extractLsb'_append_extractLsb'_eq_extractLsb' (start₁ := 8) (len₁ := 8) rfl
  have whole : w.extractLsb' 8 24 ++ w.extractLsb' 0 8 = w.extractLsb' 0 32 :=
    BitVec.extractLsb'_append_extractLsb'_eq_extractLsb' (start₁ := 0) (len₁ := 8) rfl
  calc wordOf (fieldsOf w)
    _ = w.extractLsb' 8 24 ++ w.extractLsb' 0 8 := congrArg (· ++ w.extractLsb' 0 8) upper
    _ = w := whole.trans BitVec.extractLsb'_eq_self

/-! ### The rows of the command table (rule R103) -/

/-- The nine rows' laws as one law over the commands. -/
theorem encode_spec (i : Instr) : Laws.Encoding.Statement i :=
  match i with
  | .nop => Laws.Encoding.nop
  | .firdes => Laws.Encoding.firdes
  | .convZero => Laws.Encoding.convZero
  | .lpfZero => Laws.Encoding.lpfZero
  | .rfft => Laws.Encoding.rfft
  | .mag => Laws.Encoding.mag
  | .snr => Laws.Encoding.snr
  | .peakOrig => Laws.Encoding.peakOrig
  | .peakDerive => Laws.Encoding.peakDerive

theorem eq_encode_iff (w : BitVec 32) (i : Instr) : w = encode i ↔ fieldsOf w = i.fields := by
  obtain ⟨fields, -, word, -⟩ := encode_spec i
  exact ⟨fun h => h ▸ fields, fun h => by rw [← wordOf_fieldsOf w, h, word]⟩

/-- Legal fields, without the Boolean tests. -/
theorem CommandFields.wellFormed_iff (f : CommandFields) :
    f.wellFormed = true ↔ f.rsv = 0 ∧ f.opc.toNat < 8 ∧ (f.mode = 0 ∨ f.opc = 7 ∧ f.mode = 1) := by
  simp [wellFormed, reservedClear, opcodeDefined, modeLegal, BitVec.ult, and_assoc]

/-- The legal fields are the rows of the nine commands. -/
theorem CommandFields.exists_fields_iff (f : CommandFields) : (∃ i : Instr, f = i.fields) ↔ f.wellFormed = true := by
  constructor
  · rintro ⟨i, rfl⟩
    exact (encode_spec i).2.1
  · intro h
    obtain ⟨opc, mode, rsv⟩ := f
    obtain ⟨rfl, hopc, rfl | ⟨rfl, rfl⟩⟩ := (wellFormed_iff _).1 h
    · match opc, hopc with
      | ⟨⟨0, _⟩⟩, _ => exact ⟨.nop, rfl⟩
      | ⟨⟨1, _⟩⟩, _ => exact ⟨.firdes, rfl⟩
      | ⟨⟨2, _⟩⟩, _ => exact ⟨.convZero, rfl⟩
      | ⟨⟨3, _⟩⟩, _ => exact ⟨.lpfZero, rfl⟩
      | ⟨⟨4, _⟩⟩, _ => exact ⟨.rfft, rfl⟩
      | ⟨⟨5, _⟩⟩, _ => exact ⟨.mag, rfl⟩
      | ⟨⟨6, _⟩⟩, _ => exact ⟨.snr, rfl⟩
      | ⟨⟨7, _⟩⟩, _ => exact ⟨.peakOrig, rfl⟩
      | ⟨⟨n + 8, _⟩⟩, h => exact absurd h (Nat.not_lt.2 (Nat.le_add_left 8 n))
    · exact ⟨.peakDerive, rfl⟩

/-! ### The decoder (rule R107) -/

/-- A row with mode `0x00` is decoded from its own fields only. -/
theorem fields_of_plainMode {f : CommandFields} {o : BitVec 8} {i j : Instr} (h : plainMode f.mode i = .command j)
    (hr : ¬ f.rsv ≠ 0) (ho : f.opc = o) (row : i.fields = ⟨o, 0, 0⟩) : f = j.fields := by
  unfold plainMode at h
  split at h
  next hm =>
    cases h
    rw [row, ← ho, ← hm, ← not_not.1 hr]
  next => cases h

/-- The decoder reads a command from the fields of its row only. -/
theorem fieldsOf_of_decode {w : BitVec 32} {i : Instr} (h : decode w = .command i) : fieldsOf w = i.fields := by
  simp only [decode] at h
  split_ifs at h with hr nop firdes conv lpf rfft mag snr peak derive
  · exact fields_of_plainMode h hr nop rfl
  · exact fields_of_plainMode h hr firdes rfl
  · exact fields_of_plainMode h hr conv rfl
  · exact fields_of_plainMode h hr lpf rfl
  · exact fields_of_plainMode h hr rfft rfl
  · exact fields_of_plainMode h hr mag rfl
  · exact fields_of_plainMode h hr snr rfl
  · cases h
    show fieldsOf w = ⟨7, 1, 0⟩
    rw [← peak, ← derive, ← not_not.1 hr]
  · exact fields_of_plainMode h hr peak rfl

theorem decode_encode (i : Instr) : decode (encode i) = .command i := by
  cases i <;> decide

theorem decode_eq_command_iff (w : BitVec 32) (i : Instr) : decode w = .command i ↔ w = encode i :=
  ⟨fun h => (eq_encode_iff w i).2 (fieldsOf_of_decode h), fun h => h ▸ decode_encode i⟩

/-- The illegal words are those whose fields are not legal: a word is a command or illegal, and never both. -/
theorem decode_illegal_iff (w : BitVec 32) : (∃ why, decode w = .illegal why) ↔ ¬ (fieldsOf w).wellFormed = true := by
  simp only [← CommandFields.exists_fields_iff, ← eq_encode_iff, ← decode_eq_command_iff]
  cases decode w <;> simp

/-! ### The completion of an illegal word (rules R105, R123) -/

namespace Machine

theorem opcode_of_run {s : State} {cur : Params} (h : s.phase = .run cur) : s.opcode = cur.cmd.extractLsb' 0 8 := by
  rw [State.opcode, operands_of_run h]

theorem engineMove_of_illegal {s : State} {cur : Params} {why : Illegal} (h : s.phase = .run cur)
    (hd : decode cur.cmd = .illegal why) : engineMove s = .next (raiseError .illegalCommand s) := by
  simp only [engineMove, h, hd]

end Machine

open Machine

/-- Settles O1: the nine words are those of the encoder. -/
theorem nineWordsDecode : Obligations.NineWordsDecode := by
  unfold Obligations.NineWordsDecode
  exact ⟨decode_encode .nop, decode_encode .firdes, decode_encode .convZero, decode_encode .lpfZero, decode_encode .rfft,
    decode_encode .mag, decode_encode .snr, decode_encode .peakOrig, decode_encode .peakDerive⟩

/-- Settles O2: a word that decodes to a command has the fields of the command's row, and its fields make the word. -/
theorem decodeEncodeAgree : Obligations.DecodeEncodeAgree := by
  unfold Obligations.DecodeEncodeAgree
  refine ⟨decode_eq_command_iff, fun i => ?_⟩
  obtain ⟨fields, legal, word, -⟩ := encode_spec i
  exact ⟨legal, fields, word⟩

/-- Settles O3: the illegal words are those whose fields are not legal, and such a word completes by `raiseError`. -/
theorem illegalCommandWords : Obligations.IllegalCommandWords := by
  unfold Obligations.IllegalCommandWords
  refine ⟨fun w => ?_, fun s cur why hs hd => ?_⟩
  · rw [decode_illegal_iff, CommandFields.wellFormed_iff, not_and_or, not_and_or, not_lt]
  · rw [engineMove_of_illegal hs hd, raiseError, opcode_of_run hs]
    rfl

end Sys2Proof
end

section
/-! PROOFS of the statements about starting a command (rules R120 to R122): what an accepted and a refused start request do. -/

namespace Sys2Proof
namespace Machine

theorem startRequest_of_idle {s : State} (hb : s.busy = false) : startRequest s = acceptStart s := by
  simp only [startRequest, hb, Bool.false_eq_true, if_false]

theorem startRequest_of_busy {s : State} (hb : s.busy = true) : startRequest s = s.overrun := by
  rw [startRequest, if_pos hb]

/-- Rule R250: `irq` is low while `DONE` is clear. -/
theorem irq_of_not_done {s : State} (h : s.done = false) : s.irq = false := by
  rw [State.irq, h, Bool.and_false]

end Machine

open Machine

/-- Settles O6: the write sets `IE` and makes a start request, which only looks at whether the engine is busy. -/
theorem startRequests : Obligations.StartRequests := by
  unfold Obligations.StartRequests
  intro s v h0 h1
  have hstep : s.hostStep (hostWrite s.cfg 0x010 v) =
      .next ((startRequest { s with ie := v.getLsbD 2 }).answer .done) := by
    rw [hostStep_writeCtrl, writeCtrl_of_start h1 h0]
  refine ⟨fun hs => ?accepted, fun cur hs => ?refused⟩
  case accepted =>
    have hb : State.busy { s with ie := v.getLsbD 2 } = false := busy_of_idle hs
    rw [startRequest_of_idle hb] at hstep
    exact ⟨_, hstep, rfl, rfl, irq_of_not_done rfl⟩
  case refused =>
    have hb : State.busy { s with ie := v.getLsbD 2 } = true := busy_of_run hs
    rw [hstep, startRequest_of_busy hb]
    rfl

end Sys2Proof
end

section
/-! PROOFS of the statements about the filter design (rules R150, R153, R155): the checks of `FIRDES` in order, and the two exact properties of the words it writes. -/

namespace Sys2Proof
namespace Machine

/-! ### The checks of a command in order (rule R124) -/

theorem boundaryCheck_of_invalid {n : Nat} {i : Instr} {p : Params} {c : ErrorCode} (h : invalidCheck i p = some c) :
    boundaryCheck n i p = some c := by
  rw [boundaryCheck, h, Option.some_or]

theorem boundaryCheck_of_range {n : Nat} {i : Instr} {p : Params} {c : ErrorCode} (hi : invalidCheck i p = none)
    (hl : lengthCheck i p = none) (hd : degenerateCheck i p = none) (hr : rangeCheck n i p = some c) :
    boundaryCheck n i p = some c := by
  rw [boundaryCheck, hi, hl, hd, hr, Option.none_or, Option.none_or, Option.none_or, Option.some_or]

/-- Rule R150: too few taps or an illegal cutoff fail a check, and both checks report the same error. -/
theorem designInvalid_of_illegal {p : Params} (h : p.nTaps.toNat < 1 ∨ ¬ p.CutoffLegal) :
    designInvalid p = some .invalidParameter := by
  have fails : designInvalid p ≠ none := by
    rw [Ne, designInvalid_none, not_and_or, Nat.not_le]
    exact h
  obtain ⟨c, hc⟩ := Option.ne_none_iff_exists'.1 fails
  have code : .invalidParameter = c := by
    rcases Option.or_eq_some_iff.1 hc with taps | ⟨-, cutoff⟩
    · exact (failIf_some.1 taps).2
    · exact (failIf_some.1 cutoff).2
  rw [hc, code]

/-- Rule R84: a buffer that has words and reaches past the end of DMEM fails the check. -/
theorem rangeCheck_of_outside {n : Nat} {i : Instr} {p : Params} {b : Buffer} (hb : b ∈ sources i p ++ destinations i p)
    (hw : b.words ≠ 0) (ho : n < b.base + b.words) : rangeCheck n i p = some .range := by
  have outside : b.inRange n = false := by
    rw [← Bool.not_eq_true, inRange_iff, not_or]
    exact ⟨Nat.not_le.2 ho, hw⟩
  rw [rangeCheck, failIf_some]
  exact ⟨List.any_eq_true.2 ⟨b, hb, by rw [outside, Bool.not_false]⟩, rfl⟩

theorem not_cutoffLegal_of_isNaN {p : Params} (h : (F64.ofWord p.cutoff).isNaN = true) : ¬ p.CutoffLegal := by
  rw [Params.CutoffLegal, (F64.isNaN_iff _).1 h]
  rintro ⟨positive, -⟩
  cases positive

/-! ### The errors of `FIRDES` (rules R150, R156) -/

theorem exec_firdes_invalid {s : State} (h : s.operands.nTaps.toNat < 1 ∨ ¬ s.operands.CutoffLegal) :
    exec .firdes s = .next (raiseError .invalidParameter s) :=
  exec_of_check (by decide) (boundaryCheck_of_invalid (designInvalid_of_illegal h))

theorem exec_firdes_range {s : State} (hn : 1 ≤ s.operands.nTaps.toNat) (hc : s.operands.CutoffLegal)
    (ho : s.cfg.dmemWords < s.operands.dBase.toNat + s.operands.nTaps.toNat) :
    exec .firdes s = .next (raiseError .range s) :=
  exec_of_check (by decide) (boundaryCheck_of_range (designInvalid_none.2 ⟨hn, hc⟩) rfl rfl
    (rangeCheck_of_outside (b := s.operands.destD s.operands.nTaps.toNat) List.mem_cons_self
      (Nat.one_le_iff_ne_zero.1 hn) ho))

/-- Without a design the command ends in an error, if not in that of an earlier check. -/
theorem exec_firdes_noDesign {s : State} (h : ¬ s.operands.DesignExists) :
    ∃ c, exec .firdes s = .next (raiseError c s) := by
  have noDesign : design (F64.ofWord s.operands.cutoff) s.operands.nTaps.toNat = none := Option.not_isSome_iff_eq_none.1 h
  have noWords : s.tapWords (F64.ofWord s.operands.cutoff) s.operands.nTaps.toNat = none := by
    simp only [State.tapWords, noDesign]
  simp only [exec, execFirdes]
  rcases guarded_cases .firdes s _ with ⟨c, -, e⟩ | ⟨-, e⟩ <;> rw [e]
  · exact ⟨c, rfl⟩
  · exact ⟨.degenerateInput, by simp only [noWords]⟩

/-! ### The success of `FIRDES` -/

/-- Rule R240: code 0 is no error's. -/
theorem ErrorCode.code_ne_zero (c : ErrorCode) : c.code ≠ 0 := by
  cases c <;> decide

/-- A command that goes on with code 0 has raised no error. -/
theorem ne_raiseError_of_success {i : Instr} {s t : State} (h : exec i s = .next t) (h0 : t.errCode = 0) (c : ErrorCode) :
    exec i s ≠ .next (raiseError c s) := by
  intro e
  obtain rfl : t = raiseError c s := Host.Outcome.next.inj (h.symm.trans e)
  exact c.code_ne_zero h0

/-- `FIRDES` succeeds only when its operands are ready: each of its checks would have ended it otherwise. -/
theorem ready_firdes_of_success {s t : State} (h : exec .firdes s = .next t) (h0 : t.errCode = 0) : Ready .firdes s := by
  have noError := ne_raiseError_of_success h h0
  have taps : 1 ≤ s.operands.nTaps.toNat := by
    by_contra hn
    exact noError _ (exec_firdes_invalid (.inl (Nat.not_le.1 hn)))
  have cutoff : s.operands.CutoffLegal := by
    by_contra hc
    exact noError _ (exec_firdes_invalid (.inr hc))
  have inside : (s.operands.destD s.operands.nTaps.toNat).Inside s := by
    by_contra ho
    exact noError _ (exec_firdes_range taps cutoff (Nat.not_le.1 ho))
  have designed : s.operands.DesignExists := by
    by_contra hd
    obtain ⟨c, e⟩ := exec_firdes_noDesign hd
    exact noError c e
  exact ⟨taps, cutoff, inside, designed⟩

/-- Rules R152, R153, R155: the words `FIRDES` writes: the exact `1.0`, or a word delivered for the lower half. -/
theorem exec_firdes_words {s : State} (hr : Ready .firdes s) :
    let n := s.operands.nTaps.toNat
    let fc := F64.ofWord s.operands.cutoff
    ∃ t taps, exec .firdes s = .next t ∧ design fc n = some taps ∧ Succeeded s t n ∧
      ∀ i, i < n → Memory.readWord t.dmem (s.operands.dBase.toNat + i) = some (if n = 1 then F64.one.bits
        else s.outputWord (.taps fc n) (min i (n - 1 - i)) (taps.getD (min i (n - 1 - i)) F64.zero)) := by
  intro n fc
  obtain ⟨taps, ws, hd, hl, hw, he⟩ := exec_firdes_ready hr
  refine ⟨_, taps, he, hd, (ran_of_ready hr he).succeeded, fun i hi => ?_⟩
  rw [← hw i hi]
  have hi' : i < ws.length := hi.trans_eq hl.symm
  exact (Memory.readWord_writeWords s.dmem s.operands.dBase.toNat ws i hi').trans (List.getElem?_eq_getElem hi').symm

/-- A single tap needs no design sum (rule R153). -/
theorem Params.designExists_of_one_tap {p : Params} (h : p.nTaps.toNat = 1) : p.DesignExists := by
  rw [DesignExists, h]; rfl

end Machine

open Machine

/-- Settles O22: the tap count and the cutoff are checked before the destination buffer, and a NaN is not above zero. -/
theorem firdesChecks : Obligations.FirdesChecks := by
  unfold Obligations.FirdesChecks
  exact fun s => ⟨exec_firdes_invalid, exec_firdes_range, not_cutoffLegal_of_isNaN⟩

/-- Settles O32: the single tap is not drawn, and a place and its mirror image hold the word of one lower-half index. -/
theorem firdesExactProperties : Obligations.FirdesExactProperties := by
  unfold Obligations.FirdesExactProperties
  refine ⟨fun s hn hc ho => ?oneTap, fun s t h h0 i hi => ?symmetric⟩
  case oneTap =>
    have one : s.operands.nTaps.toNat = 1 := congrArg BitVec.toNat hn
    have ready : Ready .firdes s := ⟨one.ge, hc, one.symm ▸ ho, Params.designExists_of_one_tap one⟩
    obtain ⟨t, _, he, -, succeeded, words⟩ := exec_firdes_words ready
    refine ⟨t, he, succeeded.errCode, ?_, ?_⟩
    · rw [succeeded.dLen, one]; rfl
    · rw [← Nat.add_zero s.operands.dBase.toNat, words 0 (by omega), if_pos one]
      decide
  case symmetric =>
    obtain ⟨t', _, he, -, -, words⟩ := exec_firdes_words (ready_firdes_of_success h h0)
    obtain rfl : t = t' := Host.Outcome.next.inj (h.symm.trans he)
    have sameIndex : min (s.operands.nTaps.toNat - 1 - i) (s.operands.nTaps.toNat - 1 - (s.operands.nTaps.toNat - 1 - i)) =
        min i (s.operands.nTaps.toNat - 1 - i) := by omega
    refine ⟨_, words i hi, ?_⟩
    rw [words (s.operands.nTaps.toNat - 1 - i) (by omega), sameIndex]

end Sys2Proof
end

section
/-! PROOFS of the statements about the spectral commands (rules R190, R200): the checks of `RFFT` and of `MAG` in order. -/

namespace Sys2Proof
namespace Machine

/-! ### The later checks in order (rules R124, R125) -/

theorem boundaryCheck_of_degenerate {n : Nat} {i : Instr} {p : Params} {c : ErrorCode} (hi : invalidCheck i p = none)
    (hl : lengthCheck i p = none) (hd : degenerateCheck i p = some c) : boundaryCheck n i p = some c := by
  rw [boundaryCheck, hi, hl, hd, Option.none_or, Option.none_or, Option.some_or]

theorem boundaryCheck_of_alias {n : Nat} {i : Instr} {p : Params} {c : ErrorCode} (hi : invalidCheck i p = none)
    (hl : lengthCheck i p = none) (hd : degenerateCheck i p = none) (hr : rangeCheck n i p = none)
    (ha : aliasCheck i p = some c) : boundaryCheck n i p = some c := by
  rw [boundaryCheck, hi, hl, hd, hr, ha, Option.none_or, Option.none_or, Option.none_or, Option.none_or]

/-- Each destination is compared with every source. -/
theorem overlapsAny_of_overlap {srcs dests : List Buffer} {a d : Buffer} (ha : a ∈ srcs) (hd : d ∈ dests)
    (ho : d.overlap a = true) : overlapsAny srcs dests = true := by
  induction hd with
  | head ds =>
    have first : (srcs ++ ds).any d.overlap = true := List.any_eq_true.2 ⟨a, List.mem_append_left ds ha, ho⟩
    rw [overlapsAny, first, Bool.true_or]
  | tail d' _ ih => rw [overlapsAny, ih, Bool.or_true]

theorem aliasCheck_of_overlap {i : Instr} {p : Params} {a d : Buffer} (ha : a ∈ sources i p) (hd : d ∈ destinations i p)
    (ho : d.overlap a = true) : aliasCheck i p = some .aliased :=
  failIf_some.2 ⟨overlapsAny_of_overlap ha hd ho, rfl⟩

/-! ### Commands from one buffer to another (rules R190, R200) -/

/-- The command reads `a` and writes `d`, and its only check besides those of its buffers is that `A_LEN` is not 0. -/
structure OneToOne (i : Instr) (p : Params) (a d : Buffer) : Prop where
  sources_eq : sources i p = [a]
  destinations_eq : destinations i p = [d]
  invalidCheck_eq : invalidCheck i p = none
  lengthCheck_eq : lengthCheck i p = none
  degenerateCheck_eq : degenerateCheck i p = failIf (p.aLen.toNat == 0) .degenerateInput

/-- Rule R190: `RFFT` goes from a signal to a half spectrum. -/
theorem oneToOne_rfft (p : Params) : OneToOne .rfft p p.signalA (p.destD (spectrumWords p.aLen.toNat)) :=
  ⟨rfl, rfl, rfl, rfl, rfl⟩

/-- Rule R200: `MAG` goes from a spectrum to one word per bin. -/
theorem oneToOne_mag (p : Params) : OneToOne .mag p p.spectrumA (p.destD p.aLen.toNat) :=
  ⟨rfl, rfl, rfl, rfl, rfl⟩

namespace OneToOne

section
variable {i : Instr} {p : Params} {a d : Buffer} (h : OneToOne i p a d)
include h

theorem ne_nop : i ≠ .nop := by
  rintro rfl
  cases h.destinations_eq

theorem mem_buffers {b : Buffer} : b ∈ sources i p ++ destinations i p ↔ b = a ∨ b = d := by
  rw [h.sources_eq, h.destinations_eq, List.singleton_append, List.mem_cons, List.mem_singleton]

theorem degenerateCheck_of_nonempty (hn : 1 ≤ p.aLen.toNat) : degenerateCheck i p = none := by
  rw [h.degenerateCheck_eq, failIf_none, beq_eq_false_iff_ne]
  exact Nat.one_le_iff_ne_zero.1 hn

end

section
variable {i : Instr} {s : State} {a d : Buffer} (h : OneToOne i s.operands a d)
include h

theorem exec_empty (hn : s.operands.aLen.toNat = 0) : exec i s = .next (raiseError .degenerateInput s) := by
  have empty : degenerateCheck i s.operands = some .degenerateInput := by
    rw [h.degenerateCheck_eq, failIf_some]
    exact ⟨beq_iff_eq.2 hn, rfl⟩
  exact exec_of_check h.ne_nop (boundaryCheck_of_degenerate h.invalidCheck_eq h.lengthCheck_eq empty)

theorem exec_outside (hn : 1 ≤ s.operands.aLen.toNat) (ha : 0 < a.words) (hd : 0 < d.words)
    (ho : s.cfg.dmemWords < a.base + a.words ∨ s.cfg.dmemWords < d.base + d.words) :
    exec i s = .next (raiseError .range s) := by
  have outside : rangeCheck s.cfg.dmemWords i s.operands = some .range := by
    rcases ho with source | destination
    · exact rangeCheck_of_outside (h.mem_buffers.2 (.inl rfl)) ha.ne' source
    · exact rangeCheck_of_outside (h.mem_buffers.2 (.inr rfl)) hd.ne' destination
  exact exec_of_check h.ne_nop (boundaryCheck_of_range h.invalidCheck_eq h.lengthCheck_eq
    (h.degenerateCheck_of_nonempty hn) outside)

theorem exec_overlap (hn : 1 ≤ s.operands.aLen.toNat) (ha : a.Inside s) (hd : d.Inside s) (ho : d.overlap a = true) :
    exec i s = .next (raiseError .aliased s) := by
  have inside : rangeCheck s.cfg.dmemWords i s.operands = none := by
    refine rangeCheck_none fun b hb => ?_
    rcases h.mem_buffers.1 hb with rfl | rfl
    · exact ha
    · exact hd
  have aliased : aliasCheck i s.operands = some .aliased :=
    aliasCheck_of_overlap (h.sources_eq ▸ List.mem_singleton_self a) (h.destinations_eq ▸ List.mem_singleton_self d) ho
  exact exec_of_check h.ne_nop (boundaryCheck_of_alias h.invalidCheck_eq h.lengthCheck_eq
    (h.degenerateCheck_of_nonempty hn) inside aliased)

end

end OneToOne

end Machine

open Machine

/-- Settles O26: both commands go from one buffer to another, and with `A_LEN ≥ 1` neither buffer is empty. -/
theorem spectralChecks : Obligations.SpectralChecks := by
  unfold Obligations.SpectralChecks
  intro s n w a d
  have rfft := oneToOne_rfft s.operands
  have mag := oneToOne_mag s.operands
  refine ⟨fun hn => ⟨rfft.exec_empty hn, mag.exec_empty hn⟩, fun hn => ?_⟩
  have hw : 0 < w := Nat.mul_pos Nat.two_pos (Nat.succ_pos (n / 2))
  have h2n : 0 < 2 * n := Nat.mul_pos Nat.two_pos hn
  refine ⟨rfft.exec_outside hn hn hw, fun ha hd hda had => ?_, mag.exec_outside hn h2n hn, fun ha hd hda had => ?_⟩
  · exact rfft.exec_overlap hn ha hd (overlap_true_iff.2 ⟨hw, hn, hda, had⟩)
  · exact mag.exec_overlap hn ha hd (overlap_true_iff.2 ⟨hn, h2n, hda, had⟩)

end Sys2Proof
end

section
/-! PROOFS of the statements about the quality analyzer (rules R220, R226 to R228): the checks of `SNR` and of `PEAK` in order, and what a peak search on a reference datapath completes with. -/

namespace Sys2Proof
namespace Machine

/-! ### Checks that fail and checks that pass (rule R124) -/

theorem boundaryCheck_of_length {n : Nat} {i : Instr} {p : Params} {c : ErrorCode} (hi : invalidCheck i p = none)
    (hl : lengthCheck i p = some c) : boundaryCheck n i p = some c := by
  rw [boundaryCheck, hi, hl, Option.none_or, Option.some_or]

theorem failIf_true {b : Bool} {c : ErrorCode} (h : b = true) : failIf b c = some c :=
  failIf_some.2 ⟨h, rfl⟩

/-- A command that goes on past its checks, its design included, runs. -/
theorem ran_of_checked {i : Instr} {s t : State} (hb : boundaryCheck s.cfg.dmemWords i s.operands = none)
    (hd : designFails i s.operands = false) (h : exec i s = .next t) : Ran i s t := by
  rcases exec_cases h with ⟨c, -, failed | ⟨-, failed, -⟩⟩ | ran
  · cases hb.symm.trans failed
  · cases hd.symm.trans failed
  · exact ran

/-! ### The checks of `SNR` (rule R220) -/

section
variable {p : Params}

theorem lengthCheck_snr_of_ne (h : p.aLen.toNat ≠ p.bLen.toNat) : lengthCheck .snr p = some .lengthMismatch :=
  failIf_true (bne_iff_ne.2 h)

theorem lengthCheck_snr_of_eq (h : p.aLen.toNat = p.bLen.toNat) : lengthCheck .snr p = none :=
  failIf_none.2 (bne_eq_false_iff_eq.2 h)

theorem degenerateCheck_snr_of_empty (h : p.aLen.toNat = 0) : degenerateCheck .snr p = some .degenerateInput :=
  failIf_true (beq_iff_eq.2 h)

theorem degenerateCheck_snr_of_nonempty (h : 1 ≤ p.aLen.toNat) : degenerateCheck .snr p = none :=
  failIf_none.2 (beq_eq_false_iff_ne.2 (Nat.one_le_iff_ne_zero.1 h))

theorem rangeCheck_snr_of_outside {w : Nat} (hl : p.aLen.toNat = p.bLen.toNat) (hn : 1 ≤ p.aLen.toNat)
    (ho : w < p.aBase.toNat + p.aLen.toNat ∨ w < p.bBase.toNat + p.aLen.toNat) : rangeCheck w .snr p = some .range := by
  have nonempty : p.aLen.toNat ≠ 0 := Nat.one_le_iff_ne_zero.1 hn
  rcases ho with reference | test
  · exact rangeCheck_of_outside (b := p.signalA) List.mem_cons_self nonempty reference
  · rw [hl] at nonempty test
    exact rangeCheck_of_outside (b := p.bufferB) (List.mem_cons_of_mem _ List.mem_cons_self) nonempty test

/-- `SNR` writes no buffer, so that its buffers' ranges are its last check. -/
theorem boundaryCheck_snr_none {w : Nat} (hl : p.aLen.toNat = p.bLen.toNat) (hn : 1 ≤ p.aLen.toNat)
    (ha : p.aBase.toNat + p.aLen.toNat ≤ w) (hb : p.bBase.toNat + p.aLen.toNat ≤ w) : boundaryCheck w .snr p = none := by
  have inside : rangeCheck w .snr p = none := by
    refine rangeCheck_none fun b hmem => ?_
    rcases List.mem_pair.1 hmem with rfl | rfl
    · exact ha
    · show p.bBase.toNat + p.bLen.toNat ≤ w
      rwa [← hl]
  exact boundaryCheck_none.2 ⟨rfl, lengthCheck_snr_of_eq hl, degenerateCheck_snr_of_nonempty hn, inside, rfl⟩

end

/-! ### The checks of `PEAK` (rule R226) -/

theorem rateInvalid_of_illegal {p : Params} (h : ¬ p.RateLegal) : rateInvalid p = some .invalidParameter := by
  rw [← rateInvalid_none, rateInvalid, failIf_none, Bool.not_eq_false] at h
  exact failIf_true h

section
variable {p : Params}

theorem invalidCheck_peakOrig_of_illegalRate (h : ¬ p.RateLegal) : invalidCheck .peakOrig p = some .invalidParameter := by
  rw [invalidCheck, rateInvalid_of_illegal h, Option.some_or]

theorem invalidCheck_peakOrig_of_noLength (hf : p.RateLegal) (h : p.origLen.toNat = 0) :
    invalidCheck .peakOrig p = some .invalidParameter := by
  rw [invalidCheck, rateInvalid_none.2 hf, Option.none_or]
  exact failIf_true (beq_iff_eq.2 h)

theorem invalidCheck_peakOrig_none (hf : p.RateLegal) (h : 1 ≤ p.origLen.toNat) : invalidCheck .peakOrig p = none := by
  rw [invalidCheck, rateInvalid_none.2 hf, Option.none_or, failIf_none, beq_eq_false_iff_ne]
  exact Nat.one_le_iff_ne_zero.1 h

theorem lengthCheck_peakOrig_of_ne (h : p.origLen.toNat / 2 + 1 ≠ p.aLen.toNat) :
    lengthCheck .peakOrig p = some .lengthMismatch :=
  failIf_true (bne_iff_ne.2 h)

theorem lengthCheck_peakOrig_of_eq (h : p.origLen.toNat / 2 + 1 = p.aLen.toNat) : lengthCheck .peakOrig p = none :=
  failIf_none.2 (bne_eq_false_iff_eq.2 h)

end

section
variable {i : Instr} {s : State} (hi : i ∈ [Instr.peakOrig, .peakDerive])
include hi

theorem ne_nop_of_peak : i ≠ .nop := by
  rintro rfl
  exact absurd hi (by decide)

/-- The length of the input is checked in the same way for both length sources. -/
theorem degenerateCheck_peak (p : Params) : degenerateCheck i p = failIf (p.aLen.toNat < 2) .degenerateInput := by
  rcases List.mem_pair.1 hi with rfl | rfl <;> rfl

theorem sources_peak (p : Params) : sources i p = [p.spectrumA] := by
  rcases List.mem_pair.1 hi with rfl | rfl <;> rfl

theorem resultWords_peak (p : Params) : resultWords i p = 0 := by
  rcases List.mem_pair.1 hi with rfl | rfl <;> rfl

theorem exec_peak_degenerate (hv : invalidCheck i s.operands = none) (hl : lengthCheck i s.operands = none)
    (hm : s.operands.aLen.toNat < 2) : exec i s = .next (raiseError .degenerateInput s) := by
  have degenerate : degenerateCheck i s.operands = some .degenerateInput := by
    rw [degenerateCheck_peak hi]
    exact failIf_true (decide_eq_true hm)
  exact exec_of_check (ne_nop_of_peak hi) (boundaryCheck_of_degenerate hv hl degenerate)

theorem exec_peak_range (hv : invalidCheck i s.operands = none) (hl : lengthCheck i s.operands = none)
    (hm : 2 ≤ s.operands.aLen.toNat) (ho : s.cfg.dmemWords < s.operands.aBase.toNat + 2 * s.operands.aLen.toNat) :
    exec i s = .next (raiseError .range s) := by
  have long : degenerateCheck i s.operands = none := by
    rw [degenerateCheck_peak hi, failIf_none]
    exact decide_eq_false (Nat.not_lt.2 hm)
  have read : s.operands.spectrumA ∈ sources i s.operands ++ destinations i s.operands := by
    rw [sources_peak hi]
    exact List.mem_cons_self
  have nonempty : s.operands.spectrumA.words ≠ 0 := by
    show 2 * s.operands.aLen.toNat ≠ 0
    omega
  exact exec_of_check (ne_nop_of_peak hi) (boundaryCheck_of_range hv hl long (rangeCheck_of_outside read nonempty ho))

end

/-! ### The peak search (rules R227, R228) -/

/-- The magnitude of bin `k`, `bins` being the searched bins, number 1 first. -/
def searchedMagnitude (bins : List Bin) (k : Nat) : F64 := magnitude (bins.getD (k - 1) (F64.zero, F64.zero))

/-- The original length of a peak search: `ORIG_LEN`, or `2·(A_LEN − 1)`. -/
def peakLength (i : Instr) (p : Params) : Nat :=
  if i = .peakOrig then p.origLen.toNat else 2 * (p.aLen.toNat - 1)

/-- The words of a searched bin, bin 1 being the first of the searched buffer. -/
theorem words_of_searchedBin {s : State} {p : Params} {bins : List Bin} (h : p.searchedA.HoldsBins s bins) {j : Nat}
    (h1 : 1 ≤ j) (hj : j < p.aLen.toNat) :
    ∃ re im, Memory.readWord s.dmem (p.aBase.toNat + 2 * j) = some re ∧
      Memory.readWord s.dmem (p.aBase.toNat + 2 * j + 1) = some im ∧
      magnitude (F64.ofWord re, F64.ofWord im) = searchedMagnitude bins j := by
  obtain ⟨count, holds⟩ := h
  have lengths : 2 * (p.aLen.toNat - 1) = 2 * bins.length := count
  obtain ⟨re, im, hre, him, hbin⟩ := holds (j - 1) (by omega)
  have place : p.searchedA.base + 2 * (j - 1) = p.aBase.toNat + 2 * j := by
    show p.aBase.toNat + 2 + 2 * (j - 1) = _
    omega
  rw [place] at hre him
  refine ⟨re, im, hre, him, ?_⟩
  rw [searchedMagnitude, List.getD_eq_getElem?_getD, hbin, Option.getD_some]

/-- The search over bins that hold values ends at the first bin whose magnitude is NaN, or finds the first of the largest. -/
theorem peakSearch_of_holdsBins {s : State} {p : Params} {bins : List Bin} (h : p.searchedA.HoldsBins s bins)
    (hm : 2 ≤ p.aLen.toNat) :
    ∃ r, peakSearch s.dmem p.aBase.toNat 1 none (p.aLen.toNat - 1) = .ok r ∧ 1 ≤ r.bin ∧ r.bin < p.aLen.toNat ∧
      (((searchedMagnitude bins r.bin).isNaN = true ∧
          ∀ j, 1 ≤ j → j < r.bin → (searchedMagnitude bins j).isNaN = false) ∨
        FirstLargest (searchedMagnitude bins) p.aLen.toNat r.bin) := by
  have all : 1 + (p.aLen.toNat - 1) = p.aLen.toNat := by omega
  obtain ⟨r, found, low, high, result⟩ := peakSearch_spec (m := s.dmem) (base := p.aBase.toNat)
    (f := searchedMagnitude bins) (p.aLen.toNat - 1) 1 none le_rfl (by omega)
    (fun j h1 hj => words_of_searchedBin h h1 (all ▸ hj)) (fun _ => rfl) (fun b hb => by cases hb)
  rw [all] at high result
  exact ⟨r, found, low, high, result.imp And.right And.right⟩

section
variable {s : State} (href : s.cfg.datapath = .reference)
include href

theorem peakBin_of_reference (op : Operation) (count : Nat) (r : Peak) : s.peakBin op count r = r.bin := by
  simp only [State.peakBin, href]

theorem outputWord_of_reference (op : Operation) (j : Nat) (a : F64) :
    s.outputWord op j a = encodeF64 (s.draws + j) a := by
  simp only [State.outputWord, State.computed, href]

/-- On a reference datapath the bin found is the bin reported. -/
theorem peakWith_of_reference {p : Params} {derived : Bool} {n : Nat} {r : Peak}
    (found : peakSearch s.dmem p.aBase.toNat 1 none (p.aLen.toNat - 1) = .ok r) :
    peakWith s p derived n = .next (complete 0 (State.delivered 2
      { s with
        res0 := encodeF64 (s.draws + 1) (peakFreq r.bin (F64.ofWord p.fs) n)
        res1 := BitVec.ofNat 32 r.bin })) := by
  simp only [peakWith, found, peakBin_of_reference href, outputWord_of_reference href]

end

section
variable {i : Instr} {s : State} (hi : i ∈ [Instr.peakOrig, .peakDerive]) (hr : Ready i s)
include hi hr

theorem two_le_aLen_of_ready_peak : 2 ≤ s.operands.aLen.toNat := by
  obtain ⟨-, -, passed, -, -⟩ := boundaryCheck_none.1 (ready_checked hr).1
  rw [degenerateCheck_peak hi, failIf_none, decide_eq_false_iff_not] at passed
  exact Nat.not_lt.1 passed

theorem exec_peak_ready :
    exec i s = peakWith s s.operands (decide (i = .peakDerive)) (peakLength i s.operands) := by
  have checked := (ready_checked hr).1
  rcases List.mem_pair.1 hi with rfl | rfl
  · rw [exec, execPeakOrig, guarded_pass checked]
    rfl
  · rw [exec, execPeakDerive, guarded_pass checked]
    rfl

end

end Machine

open Machine

/-- Settles O27: each check fails as its rule says when those before it pass, and a command that goes on past all of them
completes with code 0. -/
theorem snrChecks : Obligations.SnrChecks := by
  unfold Obligations.SnrChecks
  intro s n a b
  refine ⟨fun hl => ?length, fun hl hn => ?degenerate, fun hl hn ho => ?range, fun hl hn ha hb t ht => ?passed⟩
  case length => exact exec_of_check (by decide) (boundaryCheck_of_length rfl (lengthCheck_snr_of_ne hl))
  case degenerate =>
    exact exec_of_check (by decide)
      (boundaryCheck_of_degenerate rfl (lengthCheck_snr_of_eq hl) (degenerateCheck_snr_of_empty hn))
  case range =>
    exact exec_of_check (by decide) (boundaryCheck_of_range rfl (lengthCheck_snr_of_eq hl)
      (degenerateCheck_snr_of_nonempty hn) (rangeCheck_snr_of_outside hl hn ho))
  case passed => exact (ran_of_checked (boundaryCheck_snr_none hl hn ha hb) rfl ht).succeeded.errCode

/-- Settles O28: the sample rate comes first; after it and, for `peak.orig`, the checks of `ORIG_LEN`, both length sources
make the same two checks. -/
theorem peakChecks : Obligations.PeakChecks := by
  unfold Obligations.PeakChecks
  intro s m a orig
  have isOrig : Instr.peakOrig ∈ [Instr.peakOrig, .peakDerive] := List.mem_cons_self
  have isDerive : Instr.peakDerive ∈ [Instr.peakOrig, .peakDerive] := List.mem_cons_of_mem _ List.mem_cons_self
  refine ⟨fun hf => ⟨?origRate, ?deriveRate⟩, fun hf => ⟨fun h0 => ?origNoLength, fun h1 hl => ?origMismatch,
    fun h1 hl => ?origDegenerate, fun h1 hl => ?origRange, ?deriveDegenerate, ?deriveRange⟩⟩
  case origRate => exact exec_of_check (by decide) (boundaryCheck_of_invalid (invalidCheck_peakOrig_of_illegalRate hf))
  case deriveRate => exact exec_of_check (by decide) (boundaryCheck_of_invalid (rateInvalid_of_illegal hf))
  case origNoLength =>
    exact exec_of_check (by decide) (boundaryCheck_of_invalid (invalidCheck_peakOrig_of_noLength hf h0))
  case origMismatch =>
    exact exec_of_check (by decide)
      (boundaryCheck_of_length (invalidCheck_peakOrig_none hf h1) (lengthCheck_peakOrig_of_ne hl))
  case origDegenerate =>
    exact exec_peak_degenerate isOrig (invalidCheck_peakOrig_none hf h1) (lengthCheck_peakOrig_of_eq hl)
  case origRange => exact exec_peak_range isOrig (invalidCheck_peakOrig_none hf h1) (lengthCheck_peakOrig_of_eq hl)
  case deriveDegenerate => exact exec_peak_degenerate isDerive (rateInvalid_none.2 hf) rfl
  case deriveRange => exact exec_peak_range isDerive (rateInvalid_none.2 hf) rfl

/-- Settles O44: the search finds the bin, and a reference datapath reports it with its frequency. -/
theorem peakCompletes : Obligations.PeakCompletes := by
  unfold Obligations.PeakCompletes
  intro s i bins hi hr href hb m mag n
  obtain ⟨r, found, low, high, result⟩ := peakSearch_of_holdsBins hb (two_le_aLen_of_ready_peak hi hr)
  have hexec := (exec_peak_ready hi hr).trans (peakWith_of_reference href found)
  have ran := ran_of_ready hr hexec
  refine ⟨_, r.bin, hexec, low, high, rfl, result.imp_right ?largest, rfl, ?memory, ran.leaves, ?succeeded⟩
  case largest =>
    rintro ⟨-, -, largest⟩
    exact largest
  case memory => rw [complete_dmem, delivered_dmem]
  case succeeded => exact resultWords_peak hi s.operands ▸ ran.succeeded

end Sys2Proof
end

section
/-! PROOFS of the statements about exceptions (rules R246, R250): what a command that ends with an error changes, and what each step does to `irq`. -/

namespace Sys2Proof
namespace Machine

/-! ### Error completion (rule R246) -/

/-- Rule R240: the largest code is 6. -/
theorem ErrorCode.code_toNat_le (c : ErrorCode) : c.code.toNat ≤ 6 := by
  cases c <;> decide

/-- Only `raiseError` leaves a code in `ERR`: a command that runs to its completion succeeds. -/
theorem raised_of_errCode_ne_zero {i : Instr} {s t : State} (h : exec i s = .next t) (hne : t.errCode ≠ 0) :
    ∃ c, t = raiseError c s := by
  rcases exec_cases h with ⟨c, raised, -⟩ | ran
  · exact ⟨c, raised⟩
  · exact absurd ran.succeeded.errCode hne

/-! ### The engine and `irq` (rule R250) -/

/-- A command that goes on completes, with success or with an error. -/
theorem exec_completes {i : Instr} {s t : State} (h : exec i s = .next t) : t.ie = s.ie ∧ t.done = true := by
  rcases exec_cases h with ⟨c, rfl, -⟩ | ran
  · exact ⟨raiseError_ie c s, raiseError_done c s⟩
  · exact ⟨ran.leaves.ie, ran.succeeded.done⟩

/-- The engine's move has no effect but a completion. -/
theorem engineMove_eq_or_completes {s t : State} (h : engineMove s = .next t) :
    (s.phase = .idle ∧ t = s) ∨ (t.ie = s.ie ∧ t.done = true) := by
  rcases engineMove_cases s with ⟨idle, e⟩ | ⟨_, _, _, _, e⟩ | ⟨_, _, _, _, e⟩ <;> rw [e] at h
  · exact .inl ⟨idle, (Host.Outcome.next.inj h).symm⟩
  · obtain rfl := Host.Outcome.next.inj h
    exact .inr ⟨raiseError_ie _ s, raiseError_done _ s⟩
  · exact .inr (exec_completes h)

theorem irq_iff {s : State} : s.irq = true ↔ s.ie = true ∧ s.done = true :=
  Bool.and_eq_true_iff

theorem irq_of_done {s : State} (h : s.done = true) : s.irq = s.ie := by
  rw [State.irq, h, Bool.and_true]

theorem engineMove_irq_of_run {s t : State} {cur : Params} (hs : s.phase = .run cur) (h : engineMove s = .next t) :
    t.irq = s.ie := by
  rcases engineMove_eq_or_completes h with ⟨idle, -⟩ | ⟨ie, done⟩
  · cases hs.symm.trans idle
  · rw [irq_of_done done, ie]

/-- The engine never drops `irq`. -/
theorem engineMove_irq {s t : State} (h : engineMove s = .next t) (hirq : s.irq = true) : t.irq = true := by
  rcases engineMove_eq_or_completes h with ⟨-, rfl⟩ | ⟨ie, done⟩
  · exact hirq
  · rw [irq_of_done done, ie]
    exact (irq_iff.1 hirq).1

/-! ### Host writes and `irq` (rule R250) -/

@[simp] theorem irq_answer (r : Reply) (s : State) : (s.answer r).irq = s.irq := rfl

@[simp] theorem irq_clearFlags (v : Word) (s : State) : (s.clearFlags v).irq = (s.irq && !v.getLsbD 1) :=
  (Bool.and_assoc s.ie s.done _).symm

theorem idle_of_not_busy {s : State} (hb : s.busy = false) : s.phase = .idle := by
  cases hp : s.phase with
  | idle => rfl
  | run cur => cases hb.symm.trans (busy_of_run hp)

/-- A write to `CTRL` leaves `irq` low when it resets or starts a command; else `irq` is the new `IE` AND `DONE`. -/
theorem irq_writeCtrl (v : Word) (s : State) :
    (writeCtrl v s).irq = (!v.getLsbD 1 && (!v.getLsbD 0 || s.busy) && (v.getLsbD 2 && s.done)) := by
  rcases writeCtrl_cases v s with ⟨h1, e⟩ | ⟨h1, h0, e⟩ | ⟨h1, h0, hb, e⟩ | ⟨h1, h0, hb, e⟩
  · rw [e, h1]; rfl
  · rw [e, h1, h0]; rfl
  · rw [e, h1, h0, hb]; exact irq_of_not_done rfl
  · rw [e, h1, h0, hb]; rfl

/-- A write to `CTRL` that drops `irq` resets, clears `IE` or starts a command. -/
theorem writeCtrl_drops_irq {v : Word} {s : State} (hirq : s.irq = true) (hlow : (writeCtrl v s).irq = false) :
    v.getLsbD 1 = true ∨ v.getLsbD 2 = false ∨ (v.getLsbD 0 = true ∧ s.phase = .idle) := by
  have done : s.done = true := (irq_iff.1 hirq).2
  have cleared : v.getLsbD 1 = true ∨ (v.getLsbD 0 = true ∧ s.busy = false) ∨ v.getLsbD 2 = false := by
    simpa only [irq_writeCtrl, done, Bool.and_true, Bool.and_eq_false_iff, Bool.or_eq_false_iff, Bool.not_eq_false',
      or_assoc] using hlow
  exact cleared.imp_right fun h => h.symm.imp_right fun ⟨start, hb⟩ => ⟨start, idle_of_not_busy hb⟩

/-- Which host accesses drop `irq`. -/
theorem perform_drops_irq {a : Access} {s t : State} (h : perform a s = .next t) (hirq : s.irq = true)
    (hlow : t.irq = false) :
    ∃ v, a.kind = .write v ∧
      ((target s.cfg a = .register (some .status) ∧ v.getLsbD 1 = true) ∨
        (target s.cfg a = .register (some .ctrl) ∧
          (v.getLsbD 1 = true ∨ v.getLsbD 2 = false ∨ (v.getLsbD 0 = true ∧ s.phase = .idle)))) := by
  rcases perform_control h with ⟨-, ie, done⟩ | ⟨v, write, status, rfl⟩ | ⟨v, write, ctrl, rfl⟩
  · rw [State.irq, ie, done] at hlow
    cases hirq.symm.trans hlow
  · rw [irq_answer, irq_clearFlags, hirq] at hlow
    exact ⟨v, write, .inl ⟨status, by simpa using hlow⟩⟩
  · exact ⟨v, write, .inr ⟨ctrl, writeCtrl_drops_irq hirq hlow⟩⟩

end Machine

open Machine

/-- Settles O21: only `raiseError` leaves a nonzero code, and its record is the one the statement writes out. -/
theorem errorCompletionEffects : Obligations.ErrorCompletionEffects := by
  unfold Obligations.ErrorCompletionEffects
  refine ⟨fun i s t h hne => ?_, fun s => ⟨rfl, rfl, rfl, rfl, rfl, rfl⟩⟩
  obtain ⟨c, rfl⟩ := raised_of_errCode_ne_zero h hne
  exact ⟨rfl, c.code_toNat_le⟩

/-- Settles O53: a completion sets `DONE` and keeps `IE`; what a write to `STATUS` or `CTRL` does to `irq` is a function of
its bits; and every other step but a reset pulse keeps it. -/
theorem interruptFollowsDone : Obligations.InterruptFollowsDone := by
  unfold Obligations.InterruptFollowsDone
  refine ⟨fun s => rfl, fun s t cur hs h => engineMove_irq_of_run hs h, fun s v h1 => ?acknowledge, fun s v h0 h1 => ?enable,
    fun s v hs h0 => ?start, fun s v h1 => ?softReset, fun s t hirq h hlow => ?drops⟩
  case acknowledge =>
    refine ⟨_, hostStep_writeReg (r := .status) rfl s v, ?_⟩
    rw [irq_answer, writeReg, irq_clearFlags, h1, Bool.not_true, Bool.and_false]
  case enable =>
    refine ⟨_, hostStep_writeCtrl s v, ?_⟩
    rw [irq_answer, irq_writeCtrl, h0, h1]; rfl
  case start =>
    refine ⟨_, hostStep_writeCtrl s v, ?_⟩
    rw [irq_answer, irq_writeCtrl, h0, busy_of_idle hs, Bool.not_true, Bool.or_false, Bool.and_false, Bool.false_and]
  case softReset =>
    refine ⟨_, hostStep_writeCtrl s v, ?_⟩
    rw [irq_answer, irq_writeCtrl, h1]; rfl
  case drops =>
    rcases step_cases s with ⟨e, -⟩ | ⟨rest, -, e⟩ | ⟨rest, pulse, -⟩ | ⟨a, rest, access, -, e⟩
    · cases hlow.symm.trans (engineMove_irq (e.symm.trans h) hirq)
    · cases hlow.symm.trans (engineMove_irq (e.symm.trans h) hirq)
    · exact .inl ⟨rest, pulse⟩
    · obtain ⟨v, write, dropped⟩ := perform_drops_irq (e.symm.trans h) hirq hlow
      exact .inr ⟨a, rest, v, access, write, dropped⟩

end Sys2Proof
end

section
/-! PROOFS of the statement about power-on reset (rule R270): what every register and every DMEM word holds after reset, and that a reset pulse in any state reaches the reset state but for fields of the model's own. -/

namespace Sys2Proof
namespace Machine

/-! ### The reset state (rule R270) -/

/-- Empty memory has every word unspecified. -/
@[simp] theorem Memory.readWord_nil (w : Nat) : Memory.readWord [] w = none := rfl

theorem readReg_resetWith (c : Config) {r : Reg} (hid : r ≠ .id) (hcaps : r ≠ .caps) :
    readReg (State.resetWith c) r = 0 := by
  cases r with
  | id => exact absurd rfl hid
  | caps => exact absurd rfl hcaps
  | status =>
    show (0 ||| 0 ||| 0 ||| 0 : Word) = 0
    decide
  | err =>
    show (0#8 ++ 0#8).setWidth 64 = 0#64
    decide
  | _ => rfl

/-! ### A reset pulse -/

theorem step_of_powerOn {s : State} {rest : List Move} (h : s.moves = .powerOn :: rest) :
    step s = .next (powerOnReset { s with moves := rest }) := by
  simp only [step, cycle, h]

/-- A reset pulse reaches the reset state of the block's configuration; only the list of moves, and what a tolerant
datapath and NaN delivery go by, live on (log 15). -/
theorem powerOnReset_eq (s : State) :
    powerOnReset s = { State.resetWith s.cfg with moves := s.moves, draws := s.draws, drawn := s.drawn } := rfl

/-- A read sees neither the moves nor the fields that outputs are drawn from. -/
theorem readReg_moves_draws_drawn (s : State) (ms : List Move) (n : Nat) (ds : List (Operation × List Word)) (r : Reg) :
    readReg { s with moves := ms, draws := n, drawn := ds } r = readReg s r := by
  cases r <;> rfl

theorem readReg_powerOnReset (s : State) (r : Reg) : readReg (powerOnReset s) r = readReg (State.resetWith s.cfg) r := by
  rw [powerOnReset_eq, readReg_moves_draws_drawn]

end Machine

open Machine

/-- Settles O49: the reset values are read off register by register, and a reset pulse reaches the reset state in every
field but three, which neither a register nor `irq` nor DMEM shows. -/
theorem resetState : Obligations.ResetState := by
  unfold Obligations.ResetState
  refine ⟨fun c r => readReg_resetWith c, fun c => ⟨rfl, rfl, rfl, rfl, Memory.readWord_nil⟩, rfl, fun s rest pulse => ?pulse⟩
  case pulse =>
    exact ⟨_, step_of_powerOn pulse, rfl, readReg_powerOnReset { s with moves := rest }, rfl, rfl, Memory.readWord_nil⟩

end Sys2Proof
end

section
/-! PROOFS of the statements about the machine's invariant (State.Inv; rules R36, R48, R55, R70, R240, R246): it holds at reset, and every step keeps it. -/

namespace Sys2Proof
namespace Machine

/-! ### The three parts of the invariant -/

/-- DMEM of `n` words is sound: canonical, inside its window, and specified word by word. -/
structure Memory.Sound (n : Nat) (m : Memory) : Prop where
  canonical : m.wf
  inWindow : ∀ c ∈ m, dmemWindow ≤ c.1 ∧ c.1 < dmemWindow + 8 * n
  wholeWords : ∀ w j k, j < 8 → k < 8 →
    (Memory.read m (wordAddr w + j)).isSome = (Memory.read m (wordAddr w + k)).isSome

/-- A running engine has the live operands and no completion flag (rules R36, R55, R121). -/
structure State.EngineSound (s : State) : Prop where
  operandsLive : ∀ cur, s.phase = .run cur → cur = s.params
  busyNotDone : s.busy = true → s.done = false ∧ s.errf = false

/-- What the registers report of the last command is consistent (rules R36, R48, R240, R246). -/
structure State.ReportSound (s : State) : Prop where
  errorHasCode : s.errf = true → s.errCode ≠ 0
  codeReported : s.errCode.toNat ≤ 6
  errorWritesNothing : s.errCode ≠ 0 → s.dLen = 0
  lengthInRange : s.dLen.toNat ≤ s.cfg.dmemWords

theorem State.inv_iff {s : State} :
    s.Inv ↔ Memory.Sound s.cfg.dmemWords s.dmem ∧ s.EngineSound ∧ s.ReportSound := by
  constructor
  · rintro ⟨canonical, window, whole, live, flags, error, code, empty, length⟩
    exact ⟨⟨canonical, window, whole⟩, ⟨live, flags⟩, ⟨error, code, empty, length⟩⟩
  · rintro ⟨⟨canonical, window, whole⟩, ⟨live, flags⟩, ⟨error, code, empty, length⟩⟩
    exact ⟨canonical, window, whole, live, flags, error, code, empty, length⟩

theorem State.EngineSound.of_idle {s : State} (h : s.phase = .idle) : s.EngineSound where
  operandsLive cur hc := by cases h.symm.trans hc
  busyNotDone hb := by cases (busy_of_idle h).symm.trans hb

/-- Without an error there is only the length to report. -/
theorem State.ReportSound.of_success {s : State} (hf : s.errf = false) (hc : s.errCode = 0)
    (hl : s.dLen.toNat ≤ s.cfg.dmemWords) : s.ReportSound where
  errorHasCode h := by cases hf.symm.trans h
  codeReported := by rw [hc]; decide
  errorWritesNothing h := absurd hc h
  lengthInRange := hl

/-- A start, or an acknowledgement, may clear `ERRF` and leaves the rest of the report. -/
theorem State.ReportSound.of_cleared {s t : State} (h : s.ReportSound) (hf : t.errf = true → s.errf = true)
    (hc : t.errCode = s.errCode) (hl : t.dLen = s.dLen) (hg : t.cfg = s.cfg) : t.ReportSound where
  errorHasCode e := hc ▸ h.errorHasCode (hf e)
  codeReported := hc ▸ h.codeReported
  errorWritesNothing e := hl ▸ h.errorWritesNothing (hc ▸ e)
  lengthInRange := hl ▸ hg ▸ h.lengthInRange

/-! ### DMEM stays sound -/

namespace Memory

theorem sound_nil (n : Nat) : Sound n [] :=
  ⟨List.Pairwise.nil, fun _ h => absurd h List.not_mem_nil, fun _ _ _ _ _ => rfl⟩

theorem Sound.writeWord {n : Nat} {m : Memory} (h : Sound n m) {w : Nat} (hw : w < n) (v : Word) :
    Sound n (Memory.writeWord m w v) where
  canonical := wf_writeWord h.canonical w v
  inWindow c hc := by
    rcases mem_writeBytes hc with inWord | old
    · simp only [wordAddr_def] at inWord
      omega
    · exact h.inWindow c old
  wholeWords x j k hj hk := by
    rw [read_writeWord_isSome m w v x j hj, read_writeWord_isSome m w v x k hk, h.wholeWords x j k hj hk]

theorem Sound.forgetWord {n : Nat} {m : Memory} (h : Sound n m) (w : Nat) : Sound n (Memory.forgetWord m w) where
  canonical := wf_forgetWord h.canonical w
  inWindow c hc := h.inWindow c (mem_eraseBytes hc)
  wholeWords x j k hj hk := by
    rw [read_forgetWord_isSome m w x j hj, read_forgetWord_isSome m w x k hk, h.wholeWords x j k hj hk]

/-- The words stored lie inside DMEM, or there are none (rule R84). -/
theorem Sound.writeWords {n : Nat} {m : Memory} (h : Sound n m) {w : Nat} {vs : List Word}
    (hw : w + vs.length ≤ n ∨ vs.length = 0) : Sound n (Memory.writeWords m w vs) := by
  induction vs generalizing m w with
  | nil => exact h
  | cons v vs ih =>
    rw [List.length_cons] at hw
    exact ih (h.writeWord (by omega) v) (by omega)

theorem Sound.forgetWords {n : Nat} {m : Memory} (h : Sound n m) (w k : Nat) : Sound n (Memory.forgetWords m w k) := by
  induction k generalizing m w with
  | zero => exact h
  | succ k ih => exact ih (h.forgetWord w) (w + 1)

theorem Sound.forgetBuffers {n : Nat} {m : Memory} (h : Sound n m) (bs : List Buffer) :
    Sound n (Machine.forgetBuffers m bs) := by
  induction bs generalizing m with
  | nil => exact h
  | cons b bs ih => exact ih (h.forgetWords b.base b.words)

theorem Sound.storeAll {n : Nat} {m : Memory} (h : Sound n m) {out : List (Buffer × List Word)}
    (hr : ∀ o ∈ out, o.1.base + o.1.words ≤ n ∨ o.1.words = 0) (hl : ∀ o ∈ out, o.2.length = o.1.words) :
    Sound n (Machine.storeAll m out) := by
  induction out generalizing m with
  | nil => exact h
  | cons o out ih =>
    have here : o.1.base + o.2.length ≤ n ∨ o.2.length = 0 := by
      rw [hl o List.mem_cons_self]
      exact hr o List.mem_cons_self
    exact ih (h.writeWords here) (fun p hp => hr p (List.mem_cons_of_mem o hp)) (fun p hp => hl p (List.mem_cons_of_mem o hp))

end Memory

/-- An abort only makes words unspecified. -/
theorem sound_abortedDmem {s : State} {n : Nat} (h : Memory.Sound n s.dmem) : Memory.Sound n s.abortedDmem := by
  unfold State.abortedDmem
  split
  · exact h
  · exact h.forgetBuffers _

/-! ### The buffers of a command that passed its checks (rules R84, R124) -/

theorem inRange_of_checked {n : Nat} {i : Instr} {p : Params} (h : boundaryCheck n i p = none) {b : Buffer}
    (hb : b ∈ sources i p ++ destinations i p) : b.base + b.words ≤ n ∨ b.words = 0 := by
  obtain ⟨-, -, -, range, -⟩ := boundaryCheck_none.1 h
  rw [rangeCheck, failIf_none, List.any_eq_false] at range
  exact inRange_iff.1 (by simpa using range b hb)

/-- The words a command writes at `D_BASE` are those of one of its destination buffers, or there are none. -/
theorem resultWords_mem (i : Instr) (p : Params) :
    resultWords i p = 0 ∨ ∃ b ∈ destinations i p, b.words = resultWords i p := by
  cases i with
  | nop => exact .inl rfl
  | firdes => exact .inr ⟨_, List.mem_cons_self, rfl⟩
  | convZero => exact .inr ⟨_, List.mem_cons_self, rfl⟩
  | lpfZero => exact .inr ⟨_, List.mem_cons_of_mem _ List.mem_cons_self, rfl⟩
  | rfft => exact .inr ⟨_, List.mem_cons_self, rfl⟩
  | mag => exact .inr ⟨_, List.mem_cons_self, rfl⟩
  | snr => exact .inl rfl
  | peakOrig => exact .inl rfl
  | peakDerive => exact .inl rfl

theorem resultWords_le {n : Nat} {i : Instr} {p : Params} (h : boundaryCheck n i p = none) : resultWords i p ≤ n := by
  rcases resultWords_mem i p with none | ⟨b, hb, hw⟩
  · omega
  · have := inRange_of_checked h (List.mem_append_right _ hb)
    omega

/-! ### Each kind of step keeps the invariant -/

theorem inv_raiseError {s : State} (h : s.Inv) (c : ErrorCode) : (raiseError c s).Inv := by
  obtain ⟨memory, -, -⟩ := State.inv_iff.1 h
  exact State.inv_iff.2 ⟨memory, .of_idle rfl,
    { errorHasCode := fun _ => c.code_ne_zero
      codeReported := c.code_toNat_le
      errorWritesNothing := fun _ => rfl
      lengthInRange := Nat.zero_le _ }⟩

/-- A command runs only when the engine is busy, and then `ERRF` is clear. -/
theorem Ran.inv {i : Instr} {s t : State} (h : Ran i s t) (hs : s.Inv) (hb : s.busy = true) : t.Inv := by
  obtain ⟨memory, engine, -⟩ := State.inv_iff.1 hs
  obtain ⟨checked, out, d, r0, r1, buffers, lengths, -, -, rfl⟩ := h
  have inside : ∀ o ∈ out, o.1.base + o.1.words ≤ s.cfg.dmemWords ∨ o.1.words = 0 := fun o ho =>
    inRange_of_checked checked (List.mem_append_right _ (buffers ▸ List.mem_map_of_mem ho))
  refine State.inv_iff.2 ⟨memory.storeAll inside lengths, .of_idle rfl, .of_success (engine.busyNotDone hb).2 rfl ?_⟩
  show (BitVec.ofNat 32 (resultWords i s.operands)).toNat ≤ s.cfg.dmemWords
  rw [BitVec.toNat_ofNat]
  exact (Nat.mod_le _ _).trans (resultWords_le checked)

theorem inv_engineMove {s t : State} (h : s.Inv) (ht : engineMove s = .next t) : t.Inv := by
  rcases engineMove_cases s with ⟨-, e⟩ | ⟨_, _, -, -, e⟩ | ⟨_, _, hp, -, e⟩ <;> rw [e] at ht
  · cases ht
    exact h
  · cases ht
    exact inv_raiseError h _
  · rcases exec_cases ht with ⟨c, rfl, -⟩ | ran
    · exact inv_raiseError h c
    · exact ran.inv h (busy_of_run hp)

/-- Every register at its reset value is as sound as the DMEM beside it. -/
theorem inv_of_reset {s : State} {m : Memory} {r : Option Reply} (h : Memory.Sound s.cfg.dmemWords m) :
    ({ resetRegisters s with dmem := m, reply := r } : State).Inv :=
  State.inv_iff.2 ⟨h, .of_idle rfl, .of_success rfl rfl (Nat.zero_le _)⟩

/-- The moves to come and the last answer are no part of the invariant. -/
theorem State.Inv.withMoves {s : State} (h : s.Inv) (ms : List Move) : ({ s with moves := ms } : State).Inv :=
  ⟨h.canonical, h.inWindow, h.wholeWords, h.operandsLive, h.busyNotDone, h.errorHasCode, h.codeReported,
    h.errorWritesNothing, h.lengthInRange⟩

theorem State.Inv.answer {s : State} (h : s.Inv) (r : Reply) : (s.answer r).Inv :=
  ⟨h.canonical, h.inWindow, h.wholeWords, h.operandsLive, h.busyNotDone, h.errorHasCode, h.codeReported,
    h.errorWritesNothing, h.lengthInRange⟩

theorem inv_clearFlags {s : State} (h : s.Inv) (v : Word) : (s.clearFlags v).Inv := by
  obtain ⟨memory, engine, report⟩ := State.inv_iff.1 h
  refine State.inv_iff.2 ⟨memory, ⟨engine.operandsLive, fun hb => ?_⟩, report.of_cleared (fun e => ?_) rfl rfl rfl⟩
  · obtain ⟨done, errf⟩ := engine.busyNotDone hb
    rw [clearFlags_done, clearFlags_errf, done, errf]
    exact ⟨rfl, rfl⟩
  · exact (Bool.and_eq_true_iff.1 e).1

theorem inv_writeCtrl {s : State} (h : s.Inv) (v : Word) : (writeCtrl v s).Inv := by
  obtain ⟨memory, engine, report⟩ := State.inv_iff.1 h
  rcases writeCtrl_cases v s with ⟨-, e⟩ | ⟨-, -, e⟩ | ⟨-, -, -, e⟩ | ⟨-, -, -, e⟩ <;> rw [e]
  · exact inv_of_reset (sound_abortedDmem memory)
  · exact State.inv_iff.2 ⟨memory, ⟨engine.operandsLive, engine.busyNotDone⟩, report.of_cleared id rfl rfl rfl⟩
  · exact State.inv_iff.2 ⟨memory, ⟨fun _ hc => (Phase.run.inj hc).symm, fun _ => ⟨rfl, rfl⟩⟩,
      report.of_cleared (fun e => absurd e Bool.false_ne_true) rfl rfl rfl⟩
  · exact State.inv_iff.2 ⟨memory, ⟨engine.operandsLive, engine.busyNotDone⟩, report.of_cleared id rfl rfl rfl⟩

theorem inv_writeReg {s : State} (h : s.Inv) (q : Reg) (v : Word) : (writeReg q v s).Inv := by
  obtain ⟨memory, engine, report⟩ := State.inv_iff.1 h
  rcases writeReg_cases q v s with e | e | e | ⟨-, e⟩ | ⟨idle, p, e⟩ <;> rw [e]
  · exact h
  · exact inv_clearFlags h v
  · exact inv_writeCtrl h v
  · exact State.inv_iff.2 ⟨memory, ⟨engine.operandsLive, engine.busyNotDone⟩, report.of_cleared id rfl rfl rfl⟩
  · exact State.inv_iff.2 ⟨memory, .of_idle (idle_of_not_busy idle), report.of_cleared id rfl rfl rfl⟩

theorem inv_accessReg {s : State} (h : s.Inv) (r : Option Reg) (k : AccessKind) : (accessReg r k s).Inv := by
  rcases accessReg_cases r k s with ⟨a, e⟩ | ⟨v, q, -, -, e⟩ <;> rw [e]
  · exact h.answer a
  · exact (inv_writeReg h q v).answer .done

theorem inv_perform {a : Access} {s t : State} (h : s.Inv) (ht : perform a s = .next t) : t.Inv := by
  rcases perform_cases ht with rfl | rfl | ⟨r, rfl⟩ | ⟨w, v, -, -, -, rfl⟩ | ⟨w, v, target, -, rfl⟩
  · exact h
  · exact h.answer _
  · exact inv_accessReg h r a.kind
  · exact h.answer _
  · obtain ⟨memory, engine, report⟩ := State.inv_iff.1 h
    exact State.inv_iff.2 ⟨memory.writeWord (target_dmem_lt target) v, ⟨engine.operandsLive, engine.busyNotDone⟩,
      report.of_cleared id rfl rfl rfl⟩

end Machine

open Machine

/-- Settles O51: a step is an engine move, a reset pulse or a host access; each keeps the three parts of the invariant. -/
theorem stepKeepsInv : Obligations.StepKeepsInv := by
  unfold Obligations.StepKeepsInv
  intro s t h ht
  rcases step_cases s with ⟨e, -⟩ | ⟨rest, -, e⟩ | ⟨rest, -, e⟩ | ⟨a, rest, -, -, e⟩ <;> rw [e] at ht
  · exact inv_engineMove h ht
  · exact inv_engineMove (h.withMoves rest) ht
  · cases ht
    exact inv_of_reset (Memory.sound_nil _)
  · exact inv_perform (h.withMoves rest) ht

/-- Settles O50: at reset DMEM is empty, the engine idle and no error reported. -/
theorem invHoldsAtReset : Obligations.InvHoldsAtReset := by
  unfold Obligations.InvHoldsAtReset
  have reset : ∀ c : Config, (State.resetWith c).Inv := fun c =>
    State.inv_iff.2 ⟨Memory.sound_nil _, .of_idle rfl, .of_success rfl rfl (Nat.zero_le _)⟩
  exact ⟨reset Config.implementation, reset⟩

end Sys2Proof
end

section
/-! PROOFS of the statements about soft reset and the abort of a command (rules R273, R274). -/

namespace Sys2Proof
namespace Machine

/-! ### DMEM after an abort (rule R274) -/

theorem hostStep_softReset {v : Word} (h1 : v.getLsbD 1 = true) (s : State) :
    s.hostStep (hostWrite s.cfg 0x010 v) = .next ((softReset s).answer .done) := by
  rw [hostStep_writeCtrl, writeCtrl_of_softReset h1]

/-- Without a buffer to forget, an abort leaves DMEM as it is. -/
theorem abortedDmem_of_noBuffers {s : State} (h : ∀ cur, s.phase = .run cur → abortedBuffers s.cfg.dmemWords cur = []) :
    s.abortedDmem = s.dmem := by
  unfold State.abortedDmem
  split
  · rfl
  · rename_i cur hp
    rw [h cur hp]
    rfl

theorem abortedBuffers_of_illegal {n : Nat} {cur : Params} {why : Illegal} (h : decode cur.cmd = .illegal why) :
    abortedBuffers n cur = [] := by
  simp only [abortedBuffers, h]

/-- A command that fails a check, or has no destination buffer, has no buffer to forget. -/
theorem abortedBuffers_of_failed {n : Nat} {cur : Params} {i : Instr} (hi : decode cur.cmd = .command i)
    (h : boundaryCheck n i cur ≠ none ∨ designFails i cur = true ∨ destinations i cur = []) : abortedBuffers n cur = [] := by
  simp only [abortedBuffers, hi]
  rcases h with failed | noDesign | noDestination
  · rw [if_pos]
    rw [Option.isSome_iff_ne_none.2 failed, Bool.true_or]
  · rw [if_pos]
    rw [noDesign, Bool.or_true]
  · rw [noDestination, ite_self]

theorem abortedBuffers_of_checked {n : Nat} {cur : Params} {i : Instr} (hi : decode cur.cmd = .command i)
    (hc : boundaryCheck n i cur = none) (hd : designFails i cur = false) : abortedBuffers n cur = destinations i cur := by
  simp only [abortedBuffers, hi, hc, hd, Option.isSome_none, Bool.or_self, Bool.false_eq_true, if_false]

theorem abortedDmem_of_run {s : State} {cur : Params} (h : s.phase = .run cur) :
    s.abortedDmem = forgetBuffers s.dmem (abortedBuffers s.cfg.dmemWords cur) := by
  simp only [State.abortedDmem, h]

/-- A forgotten buffer has no word that holds a value. -/
theorem readWord_forgetBuffers_of_mem {m : Memory} {bs : List Buffer} {b : Buffer} (hb : b ∈ bs) {j : Nat}
    (hj : j < b.words) : Memory.readWord (forgetBuffers m bs) (b.base + j) = none := by
  rw [readWord_forgetBuffers, if_pos ⟨b, hb, by omega, by omega⟩]

end Machine

open Machine

/-- Settles O8: the aborted command's buffers are none, or those of its row, and forgetting a buffer touches its words only. -/
theorem softResetAborts : Obligations.SoftResetAborts := by
  unfold Obligations.SoftResetAborts
  intro s v h1
  refine ⟨_, hostStep_softReset h1 s, rfl, fun hs => ?idle, fun cur why hs hd => ?illegal,
    fun cur i hs hi => ⟨fun h => ?failed, fun hc hd => ?aborted⟩⟩
  case idle => exact abortedDmem_of_noBuffers fun cur hp => by cases hs.symm.trans hp
  case illegal =>
    refine abortedDmem_of_noBuffers fun cur' hp => ?_
    obtain rfl := Phase.run.inj (hs.symm.trans hp)
    exact abortedBuffers_of_illegal hd
  case failed =>
    refine abortedDmem_of_noBuffers fun cur' hp => ?_
    obtain rfl := Phase.run.inj (hs.symm.trans hp)
    exact abortedBuffers_of_failed hi h
  case aborted =>
    have memory : s.abortedDmem = forgetBuffers s.dmem (destinations i cur) := by
      rw [abortedDmem_of_run hs, abortedBuffers_of_checked hi hc hd]
    refine ⟨fun a ha => ?_, fun b hb j hj => ?_⟩
    · exact (congrArg (Memory.read · a) memory).trans (read_forgetBuffers_out s.dmem _ a ha)
    · exact (congrArg (Memory.readWord · (b.base + j)) memory).trans (readWord_forgetBuffers_of_mem hb hj)

end Sys2Proof
end

section
/-! PROOFS of the statements about register reads and bus errors (rules R32 to R48, R51, R73). -/

namespace Sys2Proof
namespace Machine

theorem toNat_zext64 (v : BitVec 32) : (zext64 v).toNat = v.toNat := by
  have := v.isLt
  rw [zext64, BitVec.toNat_setWidth]
  omega

/-- The layout of `STATUS` (rule R36), for all values of its four bits. -/
theorem statusBits : ∀ busy done errf ovr : Bool,
    let w := bitAt busy 0 ||| bitAt done 1 ||| bitAt errf 2 ||| bitAt ovr 3
    w.getLsbD 0 = busy ∧ w.getLsbD 1 = done ∧ w.getLsbD 2 = errf ∧ w.getLsbD 3 = ovr ∧ w.toNat < 16 := by
  decide

theorem bitAt_two (b : Bool) : bitAt b 2 = if b = true then 4 else 0 := by
  cases b <;> rfl

/-- The layout of `ERR` (rule R39). -/
theorem toNat_errWord (op code : BitVec 8) : ((op ++ code : BitVec 16).setWidth 64).toNat = code.toNat + 256 * op.toNat := by
  have hop := op.isLt
  have hcode := code.isLt
  have whole : (op ++ code : BitVec 16).toNat = code.toNat + 256 * op.toNat := by
    rw [BitVec.toNat_append, ← Nat.shiftLeft_add_eq_or_of_lt hcode, Nat.shiftLeft_eq]
    omega
  rw [BitVec.toNat_setWidth, whole]
  omega

end Machine

open Machine

/-- Settles O12: the 32-bit fields are zero-extended, and the bits of the three other registers are read off their words. -/
theorem registerLayouts : Obligations.RegisterLayouts := by
  unfold Obligations.RegisterLayouts
  intro s
  exact ⟨bitAt_two s.ie, statusBits s.busy s.done s.errf s.ovr, toNat_errWord s.errOp s.errCode, toNat_zext64 _,
    toNat_zext64 _, toNat_zext64 _, toNat_zext64 _, toNat_zext64 _, toNat_zext64 _, toNat_zext64 _, toNat_zext64 _,
    rfl, rfl, rfl, toNat_zext64 _, toNat_zext64 _⟩

/-- Settles O11: a read at a register's offset is a read of that register, which is answered at once. -/
theorem registerReadsReturnValue : Obligations.RegisterReadsReturnValue := by
  unfold Obligations.RegisterReadsReturnValue
  intro s o r hm
  have table : ∀ e ∈ [(0x000, Reg.id), (0x008, Reg.caps), (0x010, Reg.ctrl), (0x018, Reg.status), (0x020, Reg.cmd),
      (0x028, Reg.err), (0x030, Reg.aBase), (0x038, Reg.aLen), (0x040, Reg.bBase), (0x048, Reg.bLen),
      (0x050, Reg.dBase), (0x058, Reg.nTaps), (0x060, Reg.cutoff), (0x068, Reg.fs), (0x070, Reg.origLen),
      (0x078, Reg.res0), (0x080, Reg.res1), (0x088, Reg.dLen)], Reg.at? e.1 = some e.2 := by decide
  have hat := table (o, r) hm
  obtain ⟨hlt, h8⟩ := Reg.at?_bounds hat
  exact hostStep_read s o hlt h8 hat

/-- Settles O15: the target of such an access is a bus error, which no phase of the engine holds back. -/
theorem busErrorsChangeNothing : Obligations.BusErrorsChangeNothing := by
  unfold Obligations.BusErrorsChangeNothing
  intro s o width k ho hb
  exact hostStep_busError (target_busError s.cfg o width k ho hb)

end Sys2Proof
end

section
/-! PROOFS of the statements about the steps of a running engine (rules R51, R55, R79, R90, R123, R130, R285): the command a step performs, what the host can do meanwhile, and how a command comes to its end. -/

namespace Sys2Proof
namespace Machine

/-! ### The command a step performs (rules R90, R123) -/

theorem engineMove_of_command {s : State} {cur : Params} {i : Instr} (h : s.phase = .run cur)
    (hi : decode cur.cmd = .command i) : engineMove s = exec i s := by
  simp only [engineMove, h, hi]

theorem engineMove_of_idle {s : State} (h : s.phase = .idle) : engineMove s = .next s := by
  simp only [engineMove, h]

theorem step_of_noMoves {s : State} (h : s.moves = []) : step s = engineMove s := by
  simp only [step, cycle, h]

theorem step_of_engine {s : State} {rest : List Move} (h : s.moves = .engine :: rest) :
    step s = engineMove { s with moves := rest } := by
  simp only [step, cycle, h]

theorem tableWord_toNat (w : BitVec 32) : tableWord 32 w.toNat = w := by
  rw [tableWord, Nat.mod_eq_of_lt w.isLt, BitVec.ofNat_toNat, BitVec.setWidth_eq]

/-! ### What the host can do to a running command (rules R51, R55, R79) -/

/-- The command goes on, and with it its operands, the registers of the last command's outcome and DMEM. -/
structure GoesOn (cur : Params) (s t : State) : Prop where
  phase : t.phase = .run cur
  params : t.params = s.params
  errCode : t.errCode = s.errCode
  errOp : t.errOp = s.errOp
  res0 : t.res0 = s.res0
  res1 : t.res1 = s.res1
  dLen : t.dLen = s.dLen
  dmem : t.dmem = s.dmem

/-- Rule R32: besides `CTRL` and `STATUS` a register is read-only or a parameter register. -/
theorem Reg.access_cases (q : Reg) : q = .ctrl ∨ q = .status ∨ q.isReadOnly = true ∨ q.isParam = true := by
  cases q <;> decide

section
variable {s : State} {cur : Params} (hs : s.phase = .run cur)
include hs

theorem writeCtrl_of_run (v : Word) :
    GoesOn cur s (writeCtrl v s) ∨ (v.getLsbD 1 = true ∧ (writeCtrl v s).phase = .idle) := by
  rcases writeCtrl_cases v s with ⟨h1, e⟩ | ⟨-, -, e⟩ | ⟨-, -, idle, -⟩ | ⟨-, -, -, e⟩
  · exact .inr ⟨h1, by rw [e]; rfl⟩
  · exact .inl (by rw [e]; exact ⟨hs, rfl, rfl, rfl, rfl, rfl, rfl, rfl⟩)
  · cases idle.symm.trans (busy_of_run hs)
  · exact .inl (by rw [e]; exact ⟨hs, rfl, rfl, rfl, rfl, rfl, rfl, rfl⟩)

/-- Only a soft reset ends a running command by a register write. -/
theorem writeReg_of_run (q : Reg) (v : Word) :
    GoesOn cur s (writeReg q v s) ∨ (q = .ctrl ∧ v.getLsbD 1 = true ∧ (writeReg q v s).phase = .idle) := by
  rcases Reg.access_cases q with rfl | rfl | readOnly | param
  · exact (writeCtrl_of_run hs v).imp_right fun h => ⟨rfl, h⟩
  · exact .inl ⟨hs, rfl, rfl, rfl, rfl, rfl, rfl, rfl⟩
  · rw [writeReg_of_readOnly readOnly]
    exact .inl ⟨hs, rfl, rfl, rfl, rfl, rfl, rfl, rfl⟩
  · rw [writeReg_of_param param, writeParam_of_busy (busy_of_run hs)]
    exact .inl ⟨hs, rfl, rfl, rfl, rfl, rfl, rfl, rfl⟩

/-- Rule R79: while a command runs only an access to DMEM waits; every other one lets the command go on or resets it. -/
theorem perform_of_run {a : Access} {t : State} (hh : held s a = false) (h : perform a s = .next t) :
    GoesOn cur s t ∨ ((Move.host a).resets s.cfg = true ∧ t.phase = .idle) := by
  have goesOn : GoesOn cur s s := ⟨hs, rfl, rfl, rfl, rfl, rfl, rfl, rfl⟩
  cases hg : target s.cfg a with
  | elsewhere =>
    rw [perform_eq hg] at h
    cases h
    exact .inl goesOn
  | busError =>
    rw [perform_eq hg] at h
    cases h
    exact .inl ⟨hs, rfl, rfl, rfl, rfl, rfl, rfl, rfl⟩
  | dmem w => cases hh.symm.trans (held_iff.2 ⟨busy_of_run hs, w, hg⟩)
  | register r =>
    rw [perform_eq hg] at h
    cases h
    rcases accessReg_cases r a.kind s with ⟨_, e⟩ | ⟨v, q, hk, rfl, e⟩ <;> rw [e]
    · exact .inl ⟨hs, rfl, rfl, rfl, rfl, rfl, rfl, rfl⟩
    · rcases writeReg_of_run hs q v with kept | ⟨rfl, h1, idle⟩
      · exact .inl ⟨kept.phase, kept.params, kept.errCode, kept.errOp, kept.res0, kept.res1, kept.dLen, kept.dmem⟩
      · exact .inr ⟨by simp only [Move.resets, hk, hg, h1], idle⟩

end

/-- A step of a running engine completes the command or stops it, resets the block, or lets the command go on. -/
theorem step_of_run {s : State} {cur : Params} (hs : s.phase = .run cur) :
    (∃ u, u.phase = .run cur ∧ step s = engineMove u) ∨
    (∃ m rest t, s.moves = m :: rest ∧ step s = .next t ∧ m.resets s.cfg = true ∧ t.phase = .idle) ∨
    (∃ a rest t, s.moves = .host a :: rest ∧ step s = .next t ∧ GoesOn cur s t ∧ t.moves = rest ∧ t.cfg = s.cfg) := by
  rcases step_cases s with ⟨e, -⟩ | ⟨rest, -, e⟩ | ⟨rest, hm, e⟩ | ⟨a, rest, hm, hh, e⟩
  · exact .inl ⟨s, hs, e⟩
  · exact .inl ⟨{ s with moves := rest }, hs, e⟩
  · exact .inr (.inl ⟨_, rest, _, hm, e, rfl, rfl⟩)
  · have hs' : ({ s with moves := rest } : State).phase = .run cur := hs
    have hh' : held { s with moves := rest } a = false := held_moves s a rest ▸ hh
    cases h : perform a { s with moves := rest } with
    | next t =>
      have hc : t.cfg = ({ s with moves := rest } : State).cfg := perform_cfg h
      rcases perform_of_run hs' hh' h with kept | ⟨resets, idle⟩
      · exact .inr (.inr ⟨a, rest, t, hm, e.trans h, ⟨kept.phase, kept.params, kept.errCode, kept.errOp, kept.res0,
          kept.res1, kept.dLen, kept.dmem⟩, perform_moves h, hc⟩)
      · exact .inr (.inl ⟨_, rest, t, hm, e.trans h, resets, idle⟩)
    | fault f =>
      obtain ⟨w, -, memory, -⟩ := perform_fault h
      cases hh'.symm.trans (held_iff.2 ⟨busy_of_run hs', w, memory⟩)
    | refused r => exact absurd h perform_not_refused

/-- Rule R120: a write to `CTRL` makes an idle engine busy only by a start request. -/
theorem writeCtrl_starts {s : State} {v : Word} (hs : s.phase = .idle) (hb : (writeCtrl v s).busy = true) :
    v.getLsbD 0 = true ∧ v.getLsbD 1 = false := by
  rcases writeCtrl_cases v s with ⟨-, e⟩ | ⟨-, -, e⟩ | ⟨h1, h0, -, -⟩ | ⟨-, -, busy, -⟩
  · rw [e] at hb
    cases hb
  · rw [e] at hb
    cases hb.symm.trans (busy_of_idle (s := { s with ie := _ }) hs)
  · exact ⟨h0, h1⟩
  · cases busy.symm.trans (busy_of_idle hs)

/-! ### Completion (rules R123, R285) -/

/-- A completion leaves the engine idle, `DONE` set and the opcode in `ERR.OP`. -/
structure Completed (cur : Params) (t : State) : Prop where
  idle : t.busy = false
  done : t.done = true
  errOp : t.errOp = cur.cmd.extractLsb' 0 8

theorem completed_raiseError {s : State} {cur : Params} (hs : s.phase = .run cur) (c : ErrorCode) :
    Completed cur (raiseError c s) :=
  ⟨rfl, rfl, opcode_of_run hs⟩

/-- A running command completes, or stops at an unspecified word. -/
theorem engineMove_of_run {s : State} {cur : Params} (hs : s.phase = .run cur) :
    (∃ t, engineMove s = .next t ∧ Completed cur t) ∨ (∃ w, engineMove s = .fault (.unspecifiedWord w)) := by
  rcases engineMove_cases s with ⟨idle, -⟩ | ⟨_, _, -, -, e⟩ | ⟨_, i, -, -, e⟩
  · cases hs.symm.trans idle
  · exact .inl ⟨_, e, completed_raiseError hs _⟩
  · cases h : exec i s with
    | next t =>
      refine .inl ⟨t, e.trans h, ?_⟩
      rcases exec_cases h with ⟨c, rfl, -⟩ | ran
      · exact completed_raiseError hs c
      · have done := ran.succeeded
        exact ⟨busy_of_idle done.idle, done.done, by rw [done.errOp, operands_of_run hs]⟩
    | fault f =>
      obtain ⟨-, _, -, w, -, -, -, rfl⟩ := exec_fault h
      exact .inr ⟨w, e.trans h⟩
    | refused r => exact absurd h (exec_not_refused i s r)

/-- How a run of a running engine can end (rule R285): by the command's completion, by a reset, or at an unspecified word. -/
def Ends (c : Config) (ms : List Move) (cur : Params) (k : Nat) : Result → Prop
  | .next t => t.busy = false ∧
    ((t.done = true ∧ t.errOp = cur.cmd.extractLsb' 0 8) ∨ ∃ m, ms[k - 1]? = some m ∧ m.resets c = true)
  | .fault f => ∃ w, f = .unspecifiedWord w
  | .refused _ => False

/-- By induction on the moves to come: the last of them at the latest is the command's own. -/
theorem run_ends (ms : List Move) : ∀ (s : State) (cur : Params), s.moves = ms → s.phase = .run cur →
    ∃ k, 1 ≤ k ∧ k ≤ ms.length + 1 ∧ Ends s.cfg ms cur k (Sys2Proof.core.run k s) := by
  induction ms with
  | nil =>
    intro s cur hm hs
    refine ⟨1, le_rfl, le_rfl, ?_⟩
    have e : step s = engineMove s := step_of_noMoves hm
    rcases engineMove_of_run hs with ⟨t, h, done⟩ | ⟨w, h⟩
    · rw [run_next (M := Sys2Proof.core) 0 (e.trans h)]
      exact ⟨done.idle, .inl ⟨done.done, done.errOp⟩⟩
    · rw [run_fault (M := Sys2Proof.core) 0 (e.trans h)]
      exact ⟨w, rfl⟩
  | cons m ms ih =>
    intro s cur hm hs
    rcases step_of_run hs with ⟨u, hu, e⟩ | ⟨m', rest, t, hm', e, resets, idle⟩ | ⟨a, rest, t, hm', e, kept, rfl, hc⟩
    · refine ⟨1, le_rfl, by omega, ?_⟩
      rcases engineMove_of_run hu with ⟨t, h, done⟩ | ⟨w, h⟩
      · rw [run_next (M := Sys2Proof.core) 0 (e.trans h)]
        exact ⟨done.idle, .inl ⟨done.done, done.errOp⟩⟩
      · rw [run_fault (M := Sys2Proof.core) 0 (e.trans h)]
        exact ⟨w, rfl⟩
    · refine ⟨1, le_rfl, by omega, ?_⟩
      obtain ⟨rfl, -⟩ := List.cons.inj (hm.symm.trans hm')
      rw [run_next (M := Sys2Proof.core) 0 e]
      exact ⟨busy_of_idle idle, .inr ⟨_, rfl, resets⟩⟩
    · obtain ⟨-, rfl⟩ := List.cons.inj (hm.symm.trans hm')
      obtain ⟨k, hk1, hk2, ends⟩ := ih t cur rfl kept.phase
      refine ⟨k + 1, by omega, by simpa using hk2, ?_⟩
      rw [run_next (M := Sys2Proof.core) k e]
      obtain ⟨j, rfl⟩ : ∃ j, k = j + 1 := ⟨k - 1, by omega⟩
      rw [hc] at ends
      exact ends

/-! ### A start right after reset (rule R130) -/

theorem engineMove_nop {s : State} {cur : Params} (hs : s.phase = .run cur) (h0 : cur.cmd = 0) :
    engineMove s = .next (complete 0 s) := by
  have word : decode cur.cmd = .command .nop := by
    rw [h0]
    exact decode_encode .nop
  exact engineMove_of_command hs word

/-- The block after reset, once the host has written 1 to `CTRL`. -/
def startedAfterReset (c : Config) (ms : List Move) : State :=
  { State.resetWith c with phase := .run Params.reset, moves := .engine :: ms, reply := some .done }

theorem startedAfterReset_moves (c : Config) (ms : List Move) : (startedAfterReset c ms).moves = .engine :: ms := rfl

theorem hostStep_start_afterReset (c : Config) (ms : List Move) :
    ({ State.resetWith c with moves := .engine :: ms } : State).hostStep (hostWrite c 0x010 1) =
      .next (startedAfterReset c ms) := by
  have start := hostStep_writeCtrl { State.resetWith c with moves := .engine :: ms } 1
  rw [writeCtrl_of_start (by decide) (by decide), startRequest_of_idle rfl] at start
  exact start

end Machine

open Machine

/-- Settles O4: in all three cases the step is the engine's move. -/
theorem stepRunsDecodedCommand : Obligations.StepRunsDecodedCommand := by
  unfold Obligations.StepRunsDecodedCommand
  refine fun s cur i hs hi => ⟨fun hm => ?last, fun rest hm => ?engine, fun a rest w hm hw => ?held⟩
  case last => rw [step_of_noMoves hm, engineMove_of_command hs hi]
  case engine => exact (step_of_engine hm).trans (engineMove_of_command hs hi)
  case held =>
    have waits : held s a = true := held_iff.2 ⟨busy_of_run hs, w, hw⟩
    exact (cycle_of_held hm waits).trans (engineMove_of_command hs hi)

/-- Settles O5: the word put in place is the command's, and the next move is the engine's. -/
theorem fetchWordRunsCommand : Obligations.FetchWordRunsCommand := by
  unfold Obligations.FetchWordRunsCommand
  intro s i
  rw [State.withFetchWord, tableWord_toNat]
  exact (step_of_engine rfl).trans (engineMove_of_command rfl (decode_encode i))

/-- Settles O17: a held access leaves the step to the engine, which leaves it first in line and goes idle. -/
theorem memoryAccessHeldWhileBusy : Obligations.MemoryAccessHeldWhileBusy := by
  unfold Obligations.MemoryAccessHeldWhileBusy
  refine fun s a => ⟨fun w hw hb => ?memory, fun r hr => hostStep_register hr⟩
  case memory =>
    have e : s.hostStep a = engineMove { s with moves := .host a :: s.moves } := by
      rw [hostStep_eq, if_pos (held_iff.2 ⟨hb, w, hw⟩)]
    refine ⟨e, fun t ht => ?_⟩
    obtain ⟨cfg, moves, -, idle⟩ := engineMove_keeps (e.symm.trans ht)
    have free : t.busy = false := busy_of_idle idle
    refine ⟨free, moves, (cycle_of_not_held moves (not_held_idle a free)).trans (perform_eq (g := .dmem w) ?_)⟩
    show target t.cfg a = .dmem w
    rw [cfg]
    exact hw

/-- Settles O18: only a step that lets the command go on leaves the engine busy, and only an accepted start makes it so. -/
theorem busyKeepsOperandsAndResults : Obligations.BusyKeepsOperandsAndResults := by
  unfold Obligations.BusyKeepsOperandsAndResults
  refine ⟨fun s t cur hs h hb => ?running, fun s hs => ⟨engineMove_of_idle hs, fun hm => ?last, fun rest hm => ?engine⟩,
    fun s t hs h hb => ?started⟩
  case running =>
    rcases step_of_run hs with ⟨u, -, e⟩ | ⟨_, _, u, -, e, -, idle⟩ | ⟨_, _, u, -, e, kept, -, -⟩
    · obtain ⟨-, -, -, idle⟩ := engineMove_keeps (e.symm.trans h)
      cases hb.symm.trans (busy_of_idle idle)
    · obtain rfl := Host.Outcome.next.inj (e.symm.trans h)
      cases hb.symm.trans (busy_of_idle idle)
    · obtain rfl := Host.Outcome.next.inj (e.symm.trans h)
      exact ⟨kept.phase, kept.params, kept.errCode, kept.errOp, kept.res0, kept.res1, kept.dLen, kept.dmem⟩
  case last => rw [step_of_noMoves hm, engineMove_of_idle hs]
  case engine => exact (step_of_engine hm).trans (engineMove_of_idle hs)
  case started =>
    rcases step_cases s with ⟨e, -⟩ | ⟨rest, -, e⟩ | ⟨rest, -, e⟩ | ⟨a, rest, hm, -, e⟩ <;> rw [e] at h
    · obtain ⟨-, -, -, idle⟩ := engineMove_keeps h
      cases hb.symm.trans (busy_of_idle idle)
    · obtain ⟨-, -, -, idle⟩ := engineMove_keeps h
      cases hb.symm.trans (busy_of_idle idle)
    · cases h
      cases hb
    · have hs' : ({ s with moves := rest } : State).phase = .idle := hs
      rcases perform_control h with ⟨phase, -, -⟩ | ⟨v, -, -, rfl⟩ | ⟨v, write, ctrl, rfl⟩
      · cases hb.symm.trans (busy_of_idle (phase.trans hs'))
      · cases hb.symm.trans (busy_of_idle (s := (State.clearFlags _ v).answer .done) hs')
      · exact ⟨a, rest, v, hm, write, ctrl, writeCtrl_starts hs' hb⟩

/-- Settles O29: `NOP` has no check to fail, and a start after reset copies the command word 0. -/
theorem nopCompletes : Obligations.NopCompletes := by
  unfold Obligations.NopCompletes
  refine ⟨fun s => rfl, fun s cur hs h0 => ?move, fun c ms => ?reset⟩
  case move => rw [engineMove_nop hs h0, complete, opcode_of_run hs, h0]; rfl
  case reset =>
    refine ⟨_, _, hostStep_start_afterReset c ms, rfl, decode_encode .nop,
      (step_of_engine (startedAfterReset_moves c ms)).trans (engineMove_nop rfl rfl), ?_, rfl, ?_⟩
    · show ((0#32).extractLsb' 0 8 ++ 0#8).setWidth 64 = 0#64
      decide
    · show bitAt false 0 ||| bitAt true 1 ||| bitAt false 2 ||| bitAt false 3 = 2
      decide

/-- Settles O52: by induction on the moves to come, each of which lets the command go on, ends it, or resets the block. -/
theorem everyCommandCompletes : Obligations.EveryCommandCompletes := by
  unfold Obligations.EveryCommandCompletes
  intro s cur hs
  obtain ⟨k, hk1, hk2, ends⟩ := run_ends s.moves s cur rfl hs
  refine ⟨k, hk1, hk2, ?_⟩
  cases h : Sys2Proof.core.run k s with
  | next t =>
    rw [h] at ends
    exact .inl ⟨t, rfl, ends⟩
  | fault f =>
    rw [h] at ends
    obtain ⟨w, rfl⟩ := ends
    exact .inr ⟨w, rfl⟩
  | refused r =>
    rw [h] at ends
    exact ends.elim

end Sys2Proof
end

section
/-! PROOFS of the statements about words that hold no value (rules R94, R227): which reads stop a step, and that nothing else does. -/

namespace Sys2Proof
namespace Machine

/-! ### Reads that stop (rule R94) -/

/-- A command goes on past a buffer only when all of it holds values. -/
theorem withBuffer_next {s t : State} {b : Buffer} {k : List F64 → Result} (h : withBuffer s b k = .next t) :
    b.Specified s ∧ ∃ vs, k vs = .next t := by
  rcases withBuffer_cases s b k with ⟨ws, read, length, e⟩ | ⟨w, -, -, -, e⟩
  · refine ⟨fun i hi => ?_, _, e.symm.trans h⟩
    rw [((Memory.readWords_ok_iff _ _ _ _).1 read).2 i (length ▸ hi)]
    rfl
  · cases e.symm.trans h

/-- A command that reads whole buffers goes on past its checks only when they hold values. -/
theorem specified_of_next {i : Instr} {s t : State} (hi : i ∈ [Instr.convZero, .lpfZero, .rfft, .mag, .snr])
    (hc : boundaryCheck s.cfg.dmemWords i s.operands = none) (hd : designFails i s.operands = false)
    (h : exec i s = .next t) : ∀ b ∈ sources i s.operands, b.Specified s := by
  cases i with
  | convZero =>
    rw [exec, execConvZero, guarded_pass hc] at h
    obtain ⟨signal, sig, rest⟩ := withBuffer_next h
    exact List.forall_mem_cons.2 ⟨signal, List.forall_mem_singleton.2 (withBuffer_next rest).1⟩
  | lpfZero =>
    rw [exec, execLpfZero, guarded_pass hc] at h
    rcases tapWords_cases s (F64.ofWord s.operands.cutoff) s.operands.nTaps.toNat with ⟨none, -⟩ | ⟨_, ws, -, words, -, -⟩
    · rw [designFails, none] at hd
      cases hd
    · simp only [words] at h
      exact List.forall_mem_singleton.2 (withBuffer_next h).1
  | rfft =>
    rw [exec, execRfft, guarded_pass hc] at h
    exact List.forall_mem_singleton.2 (withBuffer_next h).1
  | mag =>
    rw [exec, execMag, guarded_pass hc] at h
    exact List.forall_mem_singleton.2 (withBuffer_next h).1
  | snr =>
    rw [exec, execSnr, guarded_pass hc] at h
    obtain ⟨signal, sig, rest⟩ := withBuffer_next h
    exact List.forall_mem_cons.2 ⟨signal, List.forall_mem_singleton.2 (withBuffer_next rest).1⟩
  | _ => exact absurd hi (by decide)

/-! ### The search that stops (rule R227) -/

/-- Bin `j` of the spectrum at `base` holds a value whose magnitude is a number. -/
def BinNumber (m : Memory) (base j : Nat) : Prop :=
  ∃ re im, Memory.readWord m (base + 2 * j) = some re ∧ Memory.readWord m (base + 2 * j + 1) = some im ∧
    (magnitude (F64.ofWord re, F64.ofWord im)).isNaN = false

/-- Past a bin whose magnitude is a number the search goes on. -/
theorem peakSearch_step {m : Memory} {base k : Nat} (h : BinNumber m base k) (best : Option (Nat × F64)) (n : Nat) :
    ∃ best', peakSearch m base k best (n + 1) = peakSearch m base (k + 1) best' n := by
  obtain ⟨re, im, hre, him, number⟩ := h
  simp only [peakSearch, hre, him, number, Bool.false_eq_true, if_false]
  cases best with
  | none => exact ⟨_, rfl⟩
  | some b => exact ⟨_, rfl⟩

/-- The search reaches every bin that has only numbers before it. -/
theorem peakSearch_reaches {m : Memory} {base : Nat} (d : Nat) : ∀ (k n : Nat) (best : Option (Nat × F64)),
    (∀ j, k ≤ j → j < k + d → BinNumber m base j) →
    ∃ best', peakSearch m base k best (d + n) = peakSearch m base (k + d) best' n := by
  induction d with
  | zero => exact fun k n best _ => ⟨best, by rw [Nat.zero_add, Nat.add_zero]⟩
  | succ d ih =>
    intro k n best h
    obtain ⟨next, e⟩ := peakSearch_step (h k le_rfl (by omega)) best (d + n)
    obtain ⟨best', e'⟩ := ih (k + 1) n next fun j hj hj' => h j (by omega) (by omega)
    exact ⟨best', by rw [Nat.add_right_comm, e, e', Nat.add_right_comm, Nat.add_assoc]⟩

theorem peakSearch_unspecified {m : Memory} {base k w : Nat} (best : Option (Nat × F64)) (n : Nat)
    (h : (Memory.readWord m (base + 2 * k) = none ∧ w = base + 2 * k) ∨
      ((Memory.readWord m (base + 2 * k)).isSome = true ∧ Memory.readWord m (base + 2 * k + 1) = none ∧
        w = base + 2 * k + 1)) : peakSearch m base k best (n + 1) = .error w := by
  rcases h with ⟨hre, rfl⟩ | ⟨hre, him, rfl⟩
  · simp only [peakSearch, hre]
  · obtain ⟨re, hre⟩ := Option.isSome_iff_exists.1 hre
    simp only [peakSearch, hre, him]

theorem exec_peak_of_checked {i : Instr} {s : State} (hi : i ∈ [Instr.peakOrig, .peakDerive])
    (hc : boundaryCheck s.cfg.dmemWords i s.operands = none) :
    exec i s = peakWith s s.operands (decide (i = .peakDerive)) (peakLength i s.operands) := by
  rcases List.mem_pair.1 hi with rfl | rfl
  · rw [exec, execPeakOrig, guarded_pass hc]
    rfl
  · rw [exec, execPeakDerive, guarded_pass hc]
    rfl

theorem exec_peak_unspecified {i : Instr} {s : State} {k w : Nat} (hi : i ∈ [Instr.peakOrig, .peakDerive])
    (hc : boundaryCheck s.cfg.dmemWords i s.operands = none) (h1 : 1 ≤ k) (hk : k < s.operands.aLen.toNat)
    (numbers : ∀ j, 1 ≤ j → j < k → BinNumber s.dmem s.operands.aBase.toNat j)
    (h : (Memory.readWord s.dmem (s.operands.aBase.toNat + 2 * k) = none ∧ w = s.operands.aBase.toNat + 2 * k) ∨
      ((Memory.readWord s.dmem (s.operands.aBase.toNat + 2 * k)).isSome = true ∧
        Memory.readWord s.dmem (s.operands.aBase.toNat + 2 * k + 1) = none ∧ w = s.operands.aBase.toNat + 2 * k + 1)) :
    exec i s = .fault (.unspecifiedWord w) := by
  have count : s.operands.aLen.toNat - 1 = (k - 1) + ((s.operands.aLen.toNat - 1 - k) + 1) := by omega
  have reached : 1 + (k - 1) = k := by omega
  have stops : peakSearch s.dmem s.operands.aBase.toNat 1 none (s.operands.aLen.toNat - 1) = .error w := by
    obtain ⟨best, e⟩ := peakSearch_reaches (k - 1) 1 (s.operands.aLen.toNat - 1 - k + 1) none
      fun j hj hj' => numbers j hj (by omega)
    rw [count, e, reached]
    exact peakSearch_unspecified best _ h
  rw [exec_peak_of_checked hi hc, peakWith, stops]

/-! ### A step that stops (rules R84, R94) -/

/-- The word a command stops at lies inside DMEM. -/
theorem exec_fault_inside {i : Instr} {s : State} {f : Fault} (h : exec i s = .fault f) :
    ∃ w, f = .unspecifiedWord w ∧ w < s.cfg.dmemWords ∧ Memory.readWord s.dmem w = none := by
  obtain ⟨checked, b, hb, w, low, high, unspecified, rfl⟩ := exec_fault h
  refine ⟨w, rfl, ?_, unspecified⟩
  have := inRange_of_checked checked (List.mem_append_left _ hb)
  omega

theorem engineMove_fault {s : State} {f : Fault} (h : engineMove s = .fault f) :
    ∃ w, f = .unspecifiedWord w ∧ w < s.cfg.dmemWords ∧ Memory.readWord s.dmem w = none := by
  rcases engineMove_cases s with ⟨-, e⟩ | ⟨_, _, -, -, e⟩ | ⟨_, _, -, -, e⟩ <;> rw [e] at h
  · cases h
  · cases h
  · exact exec_fault_inside h

theorem engineMove_not_refused (s : State) (r : Refusal) : engineMove s ≠ .refused r := by
  intro h
  rcases engineMove_cases s with ⟨-, e⟩ | ⟨_, _, -, -, e⟩ | ⟨_, i, -, -, e⟩ <;> rw [e] at h
  · cases h
  · cases h
  · exact exec_not_refused i s r h

end Machine

open Machine

/-- Settles O19: a command that went on would have read its source buffers whole, and the search comes to bin `k`. -/
theorem unspecifiedReadsFault : Obligations.UnspecifiedReadsFault := by
  unfold Obligations.UnspecifiedReadsFault
  refine ⟨fun s w hw hb none => ?host, fun s i b hi hc hd hb unspecified => ?buffers,
    fun s i k hi hc h1 hk numbers => ⟨fun hre => ?real, fun hre him => ?imaginary⟩⟩
  case host =>
    have access : s.hostStep (hostRead s.cfg (0x01000000 + 8 * w)) = accessDmem w .read s :=
      hostStep_dmem (target_dmem s.cfg w .read hw) hb
    rw [access, accessDmem, none]
  case buffers =>
    cases h : exec i s with
    | next t => exact absurd (specified_of_next hi hc hd h b hb) unspecified
    | fault f =>
      obtain ⟨w, rfl, -, none⟩ := exec_fault_inside h
      exact ⟨w, none, rfl⟩
    | refused r => exact absurd h (exec_not_refused i s r)
  case real => exact exec_peak_unspecified hi hc h1 hk numbers (.inl ⟨hre, rfl⟩)
  case imaginary => exact exec_peak_unspecified hi hc h1 hk numbers (.inr ⟨hre, him, rfl⟩)

/-- Settles O20: a step stops where a command or a host read does. -/
theorem stepStopsOnlyOnUnspecified : Obligations.StepStopsOnlyOnUnspecified := by
  unfold Obligations.StepStopsOnlyOnUnspecified
  refine fun s => ⟨fun f h => ?fault, fun r h => ?refused⟩
  case fault =>
    rcases step_cases s with ⟨e, -⟩ | ⟨rest, -, e⟩ | ⟨rest, -, e⟩ | ⟨a, rest, -, -, e⟩ <;> rw [e] at h
    · exact engineMove_fault h
    · exact engineMove_fault (s := { s with moves := rest }) h
    · cases h
    · obtain ⟨w, rfl, target, unspecified⟩ := perform_fault h
      exact ⟨w, rfl, target_dmem_lt target, unspecified⟩
  case refused =>
    rcases step_cases s with ⟨e, -⟩ | ⟨rest, -, e⟩ | ⟨rest, -, e⟩ | ⟨a, rest, -, -, e⟩ <;> rw [e] at h
    · exact engineMove_not_refused _ r h
    · exact engineMove_not_refused _ r h
    · cases h
    · exact perform_not_refused h

end Sys2Proof
end

section
/-! PROOFS of the statements about the checks of the convolution engine (rules R151, R156, R172, R176). -/

namespace Sys2Proof
namespace Machine

/-! ### Commands with three buffers (rules R124, R125) -/

/-- Each destination is compared with every later destination. -/
theorem overlapsAny_of_later {srcs dests : List Buffer} {d e : Buffer} (he : e ∈ dests) (ho : d.overlap e = true) :
    overlapsAny srcs (d :: dests) = true := by
  have first : (srcs ++ dests).any d.overlap = true := List.any_eq_true.2 ⟨e, List.mem_append_right srcs he, ho⟩
  rw [overlapsAny, first, Bool.true_or]

/-- The buffers of a command that reads `a` and uses `b` and `d`, all three of them checked: `CONV` reads `b`, `LPF` writes
it. -/
structure ThreeBuffers (i : Instr) (p : Params) (b : Buffer) : Prop where
  mem : ∀ x, x ∈ sources i p ++ destinations i p ↔ x = p.signalA ∨ x = b ∨ x = p.destD p.aLen.toNat
  lengthCheck_eq : lengthCheck i p = none
  degenerateCheck_eq : degenerateCheck i p = failIf (p.aLen.toNat == 0) .degenerateInput

theorem threeBuffers_conv (p : Params) : ThreeBuffers .convZero p p.bufferB where
  mem x := by simp [sources, destinations]
  lengthCheck_eq := rfl
  degenerateCheck_eq := rfl

theorem threeBuffers_lpf (p : Params) : ThreeBuffers .lpfZero p p.tapsB where
  mem x := by simp [sources, destinations]
  lengthCheck_eq := rfl
  degenerateCheck_eq := rfl

namespace ThreeBuffers

theorem degenerateCheck_of_nonempty {i : Instr} {p : Params} {b : Buffer} (h : ThreeBuffers i p b)
    (hn : 1 ≤ p.aLen.toNat) : degenerateCheck i p = none := by
  rw [h.degenerateCheck_eq, failIf_none, beq_eq_false_iff_ne]
  exact Nat.one_le_iff_ne_zero.1 hn

theorem ne_nop {i : Instr} {p : Params} {b : Buffer} (h : ThreeBuffers i p b) : i ≠ .nop := by
  rintro rfl
  exact List.not_mem_nil ((h.mem b).2 (.inr (.inl rfl)))

section
variable {i : Instr} {s : State} {b : Buffer} (h : ThreeBuffers i s.operands b)
  (hv : invalidCheck i s.operands = none)
include h hv

theorem exec_empty (hn : s.operands.aLen.toNat = 0) : exec i s = .next (raiseError .degenerateInput s) := by
  have empty : degenerateCheck i s.operands = some .degenerateInput := by
    rw [h.degenerateCheck_eq]
    exact failIf_true (beq_iff_eq.2 hn)
  exact exec_of_check h.ne_nop (boundaryCheck_of_degenerate hv h.lengthCheck_eq empty)

theorem exec_outside (hn : 1 ≤ s.operands.aLen.toNat) (hb : 0 < b.words)
    (ho : s.cfg.dmemWords < s.operands.aBase.toNat + s.operands.aLen.toNat ∨ s.cfg.dmemWords < b.base + b.words ∨
      s.cfg.dmemWords < s.operands.dBase.toNat + s.operands.aLen.toNat) :
    exec i s = .next (raiseError .range s) := by
  have outside : rangeCheck s.cfg.dmemWords i s.operands = some .range := by
    rcases ho with signal | second | destination
    · exact rangeCheck_of_outside ((h.mem _).2 (.inl rfl)) (Nat.one_le_iff_ne_zero.1 hn) signal
    · exact rangeCheck_of_outside ((h.mem _).2 (.inr (.inl rfl))) hb.ne' second
    · exact rangeCheck_of_outside ((h.mem _).2 (.inr (.inr rfl))) (Nat.one_le_iff_ne_zero.1 hn) destination
  exact exec_of_check h.ne_nop
    (boundaryCheck_of_range hv h.lengthCheck_eq (h.degenerateCheck_of_nonempty hn) outside)

theorem exec_overlap (hn : 1 ≤ s.operands.aLen.toNat) (ha : s.operands.signalA.Inside s) (hb : b.Inside s)
    (hd : (s.operands.destD s.operands.aLen.toNat).Inside s)
    (ho : overlapsAny (sources i s.operands) (destinations i s.operands) = true) :
    exec i s = .next (raiseError .aliased s) := by
  have inside : rangeCheck s.cfg.dmemWords i s.operands = none := by
    refine rangeCheck_none fun x hx => ?_
    rcases (h.mem x).1 hx with rfl | rfl | rfl
    · exact ha
    · exact hb
    · exact hd
  exact exec_of_check h.ne_nop (boundaryCheck_of_alias hv h.lengthCheck_eq (h.degenerateCheck_of_nonempty hn)
    inside (failIf_true ho))

end

end ThreeBuffers

/-! ### The design sum (rules R151, R156) -/

theorem not_designExists_iff {p : Params} :
    ¬ p.DesignExists ↔ design (F64.ofWord p.cutoff) p.nTaps.toNat = none :=
  Option.not_isSome_iff_eq_none

theorem tapWords_of_noDesign {s : State} {fc : F64} {n : Nat} (h : design fc n = none) : s.tapWords fc n = none := by
  simp only [State.tapWords, h]

/-- A command that has a design and passed its checks raises no error. -/
theorem exec_ne_raiseError {i : Instr} {s : State} (hc : boundaryCheck s.cfg.dmemWords i s.operands = none)
    (hd : designFails i s.operands = false) (c : ErrorCode) : exec i s ≠ .next (raiseError c s) := fun h =>
  c.code_ne_zero (ran_of_checked hc hd h).succeeded.errCode

end Machine

open Machine

/-- Settles O23: `CONV` checks the number of coefficients first, and its destination against both sources last. -/
theorem convChecks : Obligations.ConvChecks := by
  unfold Obligations.ConvChecks
  intro s n m a b d
  have buffers := threeBuffers_conv s.operands
  have valid : 1 ≤ m → invalidCheck .convZero s.operands = none := fun hm =>
    failIf_none.2 (decide_eq_false (Nat.not_lt.2 hm))
  refine ⟨fun hm => ?invalid, fun hm hn => ?empty, fun hm hn ho => ?range, fun hm hn ha hb hd ho => ?aliased⟩
  case invalid => exact exec_of_check (by decide) (boundaryCheck_of_invalid (failIf_true (decide_eq_true hm)))
  case empty => exact buffers.exec_empty (valid hm) hn
  case range => exact buffers.exec_outside (valid hm) hn hm ho
  case aliased =>
    refine buffers.exec_overlap (valid hm) hn ha hb hd ?_
    rcases ho with ⟨h1, h2⟩ | ⟨h1, h2⟩
    · exact overlapsAny_of_overlap (a := s.operands.signalA) List.mem_cons_self List.mem_cons_self
        (overlap_true_iff.2 ⟨hn, hn, h1, h2⟩)
    · exact overlapsAny_of_overlap (a := s.operands.bufferB) (List.mem_cons_of_mem _ List.mem_cons_self)
        List.mem_cons_self (overlap_true_iff.2 ⟨hn, hm, h1, h2⟩)

/-- Settles O24: `LPF` checks the design's parameters first, and both destinations against the source and each other last. -/
theorem lpfChecks : Obligations.LpfChecks := by
  unfold Obligations.LpfChecks
  intro s n m a b d
  have buffers := threeBuffers_lpf s.operands
  have valid : 1 ≤ m → s.operands.CutoffLegal → invalidCheck .lpfZero s.operands = none := fun hm hc =>
    designInvalid_none.2 ⟨hm, hc⟩
  refine ⟨fun h => ?invalid, fun hm hc hn => ?empty, fun hm hc hn ho => ?range, fun hm hc hn ha hb hd ho => ?aliased⟩
  case invalid => exact exec_of_check (by decide) (boundaryCheck_of_invalid (designInvalid_of_illegal h))
  case empty => exact buffers.exec_empty (valid hm hc) hn
  case range => exact buffers.exec_outside (valid hm hc) hn hm ho
  case aliased =>
    refine buffers.exec_overlap (valid hm hc) hn ha hb hd ?_
    rcases ho with ⟨h1, h2⟩ | ⟨h1, h2⟩ | ⟨h1, h2⟩
    · exact overlapsAny_of_overlap (a := s.operands.signalA) List.mem_cons_self List.mem_cons_self
        (overlap_true_iff.2 ⟨hm, hn, h1, h2⟩)
    · exact overlapsAny_of_later List.mem_cons_self (overlap_true_iff.2 ⟨hm, hn, h1, h2⟩)
    · exact overlapsAny_of_overlap (a := s.operands.signalA) List.mem_cons_self (List.mem_cons_of_mem _ List.mem_cons_self)
        (overlap_true_iff.2 ⟨hn, hn, h1, h2⟩)

/-- Settles O25: without a design there are no words to deliver, and with one the command raises no error. -/
theorem designSumRefused : Obligations.DesignSumRefused := by
  unfold Obligations.DesignSumRefused
  refine fun s => ⟨fun hc => ⟨fun h he => ?firdesExists, fun hd => ?firdesNone⟩,
    fun hc => ⟨fun h he => ?lpfExists, fun hd => ?lpfNone⟩⟩
  case firdesExists => exact exec_ne_raiseError (i := .firdes) hc (Option.isNone_eq_false_iff.2 he) _ h
  case lpfExists => exact exec_ne_raiseError (i := .lpfZero) hc (Option.isNone_eq_false_iff.2 he) _ h
  case firdesNone =>
    rw [exec, execFirdes, guarded_pass hc]
    simp only [tapWords_of_noDesign (not_designExists_iff.1 hd)]
  case lpfNone =>
    rw [exec, execLpfZero, guarded_pass hc]
    simp only [tapWords_of_noDesign (not_designExists_iff.1 hd)]

end Sys2Proof
end

section
/-! PROOFS of the statements about the reference design and the success of `FIRDES` (rules R151, R152, R155). -/

namespace Sys2Proof
namespace Machine

/-! ### The design, operation by operation (rule R151) -/

/-- Each value of the prototype is that of the lower-half index it mirrors. -/
theorem prototypeTaps_eq (fc : F64) (n : Nat) :
    prototypeTaps fc n = (List.range n).map fun i => unnormalized fc n (min i (n - 1 - i)) := by
  refine List.map_congr_left fun i hi => ?_
  have lower : min i (n - 1 - i) < lowerHalf n + 1 := Nat.lt_succ_of_le (min_le_lowerHalf (List.mem_range.1 hi))
  rw [List.getD_eq_getElem?_getD, List.getElem?_map, List.getElem?_range lower]
  rfl

theorem dcGain_map (g : Nat → F64) (xs : List Nat) :
    dcGain (xs.map g) = xs.foldl (fun acc i => F64.add acc (g i)) F64.zero :=
  List.foldl_map

/-- More than one tap: the prototype divided by its sum, or nothing. -/
theorem design_of_ne_one {fc : F64} {n : Nat} (hn : n ≠ 1) {g : List F64} (hg : prototypeTaps fc n = g) :
    design fc n = if (dcGain g).isFinite && F64.lt F64.zero (dcGain g) then some (g.map fun x => F64.div x (dcGain g))
      else none := by
  rw [design, if_neg hn, hg]

/-- Which of an index and its mirror image lies in the lower half. -/
theorem min_mirror (n i : Nat) : min i (n - 1 - i) = if i ≤ (n - 1) / 2 then i else n - 1 - i := by
  split <;> omega

/-! ### The success of `FIRDES` -/

/-- A run's frame, for a command that leaves both result registers alone. -/
theorem Ran.frame {i : Instr} {s t : State} (h : Ran i s t) (hi : i ∈ [Instr.firdes, .convZero, .lpfZero, .rfft, .mag]) :
    SameOutside s t (destinations i s.operands) ∧ CommandLeaves s t ∧ Succeeded s t (resultWords i s.operands) ∧
      t.res0 = s.res0 ∧ t.res1 = s.res1 := by
  have other : i ≠ .snr ∧ i ≠ .peakOrig ∧ i ≠ .peakDerive := by
    fin_cases hi <;> decide
  obtain ⟨res0, res1⟩ := h.results
  exact ⟨h.sameOutside, h.leaves, h.succeeded, res0 other.1 other.2.1 other.2.2, res1 other.2.1 other.2.2⟩

end Machine

open Machine

/-- Settles O30: the lower half and its mirror image make the prototype, whose ascending sum is the DC gain. -/
theorem designFormula : Obligations.DesignFormula := by
  unfold Obligations.DesignFormula
  intro fc n c t h w g total
  have values : prototypeTaps fc n = (List.range n).map g := by
    refine (prototypeTaps_eq fc n).trans (List.map_congr_left fun i _ => ?_)
    rw [min_mirror]
    exact apply_ite (unnormalized fc n) _ _ _
  have sum : dcGain ((List.range n).map g) = total := dcGain_map g (List.range n)
  refine ⟨rfl, fun hn => ?_⟩
  have formula := design_of_ne_one (show n ≠ 1 by omega) values
  rw [sum] at formula
  refine ⟨fun positive => ?designed, fun notPositive => ?noDesign⟩
  case designed =>
    rw [formula, if_pos (Bool.and_eq_true_iff.2 positive), List.map_map]
    rfl
  case noDesign => rw [formula, if_neg fun h => notPositive (Bool.and_eq_true_iff.1 h)]

/-- Settles O31: the words of the design are stored at `D_BASE`, and a run of `FIRDES` changes nothing else. -/
theorem firdesCompletes : Obligations.FirdesCompletes := by
  unfold Obligations.FirdesCompletes
  intro s hr n d
  obtain ⟨t, taps, he, hd, -, words⟩ := exec_firdes_words hr
  exact ⟨t, taps, he, hd, design_length hd, words, (ran_of_ready hr he).frame (by decide)⟩

end Sys2Proof
end

section
/-! PROOFS of the statements about what `CONV` and `LPF` write (rules R170 to R177). -/

namespace Sys2Proof
namespace F64

/-! ### Operations that change nothing -/

theorem one_units : one.units = 2 ^ 1074 := by decide +kernel

theorem one_toInt : one.toInt = 2 ^ 1074 := by decide +kernel

theorem zero_toInt : zero.toInt = 0 := by decide

/-- Rounding a value's own units gives the value. -/
theorem round_self (s : Bool) (e f) {den : Nat} (hd : 0 < den) : round s ((F64.fin s e f).units * den) den = .fin s e f := by
  obtain ⟨finite, units⟩ := round_exact s (units_fits (.fin s e f)) hd
  have sign := round_isNeg s ((F64.fin s e f).units * den) den
  cases h : round s ((F64.fin s e f).units * den) den with
  | nan => rw [h] at finite; cases finite
  | inf t => rw [h] at finite; cases finite
  | fin t d g =>
    rw [h] at units sign
    exact fin_ext t s d e g f sign units

/-- Rounding a nonzero value's own signed units gives the value. -/
theorem roundInt_self (s : Bool) (e f) {den : Nat} (hd : 0 < den) (zeroNeg : Bool) (hz : (F64.fin s e f).isZero = false) :
    roundInt ((F64.fin s e f).toInt * den) den zeroNeg = .fin s e f := by
  have hu : 0 < (F64.fin s e f).units := by
    refine Nat.pos_of_ne_zero fun h => ?_
    cases hz.symm.trans ((units_eq_zero_iff s e f).1 h)
  have hp : 0 < ((F64.fin s e f).units : Int) * den := by positivity
  have value : (F64.fin s e f).toInt * den = if s then -((F64.fin s e f).units * den : Int) else (F64.fin s e f).units * den := by
    cases s
    · rfl
    · exact neg_mul _ _
  have sign : decide ((F64.fin s e f).toInt * den < 0) = s := by
    rw [value]
    cases s <;> simp <;> omega
  have magnitude : ((F64.fin s e f).toInt * den).natAbs = (F64.fin s e f).units * den := by
    rw [value]
    cases s <;> simp [Int.natAbs_mul]
  have nonzero : (F64.fin s e f).toInt * den ≠ 0 := by
    rw [value]
    cases s <;> simp <;> omega
  rw [roundInt, if_neg nonzero, sign, magnitude, round_self s e f hd]

theorem roundInt_self_pow (s : Bool) (e f) (k : Nat) (zeroNeg : Bool) (hz : (F64.fin s e f).isZero = false) :
    roundInt ((F64.fin s e f).toInt * 2 ^ k) (2 ^ k) zeroNeg = .fin s e f := by
  have self := roundInt_self s e f (Nat.two_pow_pos k) zeroNeg hz
  rwa [Nat.cast_pow, Nat.cast_ofNat] at self

/-- The product of `1.0` and a value is the value. -/
theorem mul_one_left (x : F64) : mul one x = x := by
  cases x with
  | nan => rfl
  | inf s => cases s <;> rfl
  | fin s e f =>
    have product : mul one (.fin s e f) = round (false ^^ s) (one.units * (F64.fin s e f).units) (2 ^ 1074) := rfl
    rw [product, one_units, Nat.mul_comm, Bool.false_xor, round_self s e f (Nat.two_pow_pos 1074)]

theorem toInt_of_isZero {s : Bool} {e f} (h : (F64.fin s e f).isZero = true) : (F64.fin s e f).toInt = 0 := by
  have hu := (units_eq_zero_iff s e f).2 h
  cases s <;> simp [toInt, hu]

/-- The sum of `+0.0` and a value is the value, but for `−0.0`. -/
theorem add_zero_left (x : F64) : add zero x = if x.isZero = true then zero else x := by
  cases x with
  | nan => rfl
  | inf s => rfl
  | fin s e f =>
    have sum : add zero (.fin s e f) = roundInt (0 + (F64.fin s e f).toInt) 1 (false && s) := rfl
    rw [sum, Int.zero_add]
    split
    next h => rw [toInt_of_isZero h]; rfl
    next h =>
      have := roundInt_self s e f Nat.one_pos (false && s) (Bool.eq_false_iff.2 h)
      rwa [Nat.cast_one, Int.mul_one] at this

/-- Fused or not, `+0.0` and the product of `1.0` with a value add up to the value, but for `−0.0`. -/
theorem mac_zero_one (fused : Bool) (x : F64) : mac fused zero one x = if x.isZero = true then zero else x := by
  cases fused with
  | false =>
    show add zero (mul one x) = _
    rw [mul_one_left, add_zero_left]
  | true =>
    cases x with
    | nan => rfl
    | inf s => cases s <;> rfl
    | fin s e f =>
      have sum : mac true zero one (.fin s e f) = roundInt (one.toInt * (F64.fin s e f).toInt + zero.toInt * 2 ^ 1074)
          (2 ^ 1074) ((false ^^ s) && false) := fma_fin false s false 1023 e 0 0 f 0
      rw [sum, one_toInt, zero_toInt, Int.zero_mul, Int.add_zero, Int.mul_comm, Bool.and_false]
      split
      next h => rw [toInt_of_isZero h, Int.zero_mul]; rfl
      next h => exact roundInt_self_pow s e f 1074 false (Bool.eq_false_iff.2 h)

end F64

namespace Machine

/-! ### What is stored reads back -/

/-- The word stored for a place of a command's result. -/
theorem readWord_completeWith {s : State} {p : Params} {op : Operation} {vs : List F64} {i : Nat} {x : F64}
    (h : vs[i]? = some x) :
    Memory.readWord (completeWith p op vs s).dmem (p.dBase.toNat + i) = some (s.outputWord op i x) := by
  have stored := readWord_outputWords (s := s) op s.dmem p.dBase.toNat 0 i vs x h
  rwa [Nat.zero_add] at stored

theorem holds_of_specified {s : State} {b : Buffer} (h : b.Specified s) : ∃ vs, b.Holds s vs := by
  obtain ⟨vs, holds, -⟩ := withBuffer_specified h fun _ => .next s
  exact ⟨vs, holds⟩

theorem specified_of_holds {s : State} {b : Buffer} {vs : List F64} (h : b.Holds s vs) : b.Specified s := by
  intro i hi
  rw [← Option.isSome_map (f := F64.ofWord), h.2 i hi, List.getElem?_eq_getElem (h.1.symm ▸ hi), Option.isSome_some]

theorem holds_congr {s t : State} {b : Buffer} {vs : List F64} (h : b.Holds s vs)
    (same : ∀ i, i < b.words → Memory.readWord t.dmem (b.base + i) = Memory.readWord s.dmem (b.base + i)) :
    b.Holds t vs := by
  refine ⟨h.1, fun i hi => ?_⟩
  rw [same i hi]
  exact h.2 i hi

/-- A buffer into which words were stored holds their values. -/
theorem holds_writeWords {t : State} {b : Buffer} {m : Memory} {ws : List Word} (hl : ws.length = b.words)
    (hm : t.dmem = Memory.writeWords m b.base ws) : b.Holds t (ws.map F64.ofWord) := by
  refine ⟨by rw [List.length_map, hl], fun i hi => ?_⟩
  have hi' : i < ws.length := hl ▸ hi
  rw [hm, Memory.readWord_writeWords m b.base ws i hi', List.getElem?_map, List.getElem?_eq_getElem hi']

/-- What a command delivers depends on the configuration, the words delivered before and the function drawn. -/
theorem outputWords_congr {s t : State} (hc : t.cfg = s.cfg) (hn : t.draws = s.draws) (hd : t.drawn = s.drawn)
    (op : Operation) (j : Nat) (vs : List F64) : t.outputWords op j vs = s.outputWords op j vs := by
  induction vs generalizing j with
  | nil => rfl
  | cons a vs ih => simp only [State.outputWords, State.outputWord, computed_congr hc hd, hn, ih]

/-! ### `CONV` (rule R172) -/

section
variable {s : State} {sig h : List F64} (hr : Ready .convZero s) (hs : s.operands.signalA.Holds s sig)
  (hh : s.operands.bufferB.Holds s h)
include hr hs hh

theorem exec_conv_words : ∃ t, exec .convZero s = .next t ∧ ∀ i, i < sig.length →
    Memory.readWord t.dmem (s.operands.dBase.toNat + i) =
      some (s.outputWord (.conv sig h) i (convAt s.cfg.macFused sig h i)) :=
  ⟨_, exec_convZero_holds hr hs hh, fun _ hi => readWord_completeWith (conv_getElem? hi)⟩

end

theorem paddedSample_of_getElem? {sig : List F64} {i : Nat} {x : F64} (h : sig[i]? = some x) :
    paddedSample sig i = x := by
  have hi : i < sig.length := (List.getElem?_eq_some_iff.1 h).1
  rw [paddedSample, if_pos ⟨Int.natCast_nonneg i, Int.ofNat_lt.2 hi⟩, Int.toNat_natCast, List.getD_eq_getElem?_getD, h,
    Option.getD_some]

/-! ### `LPF` (rules R176, R177) -/

section
variable {s : State} {sig : List F64} {ws : List Word} (hr : Ready .lpfZero s) (hs : s.operands.signalA.Holds s sig)
  (hw : s.tapWords (F64.ofWord s.operands.cutoff) s.operands.nTaps.toNat = some ws)
  (hl : ws.length = s.operands.nTaps.toNat)
include hr hs hw hl

/-- The coefficients stay where they are written, because the output is written apart from them. -/
theorem exec_lpf_words : ∃ t, exec .lpfZero s = .next t ∧
    (∀ i, i < s.operands.nTaps.toNat → Memory.readWord t.dmem (s.operands.bBase.toNat + i) = ws[i]?) ∧
    ∀ i, i < sig.length → Memory.readWord t.dmem (s.operands.dBase.toNat + i) =
      some ((State.delivered (tapDraws s.operands.nTaps.toNat) s).outputWord (.conv sig (ws.map F64.ofWord)) i
        (convAt s.cfg.macFused sig (ws.map F64.ofWord) i)) := by
  refine ⟨_, exec_lpfZero_holds hr hs hw, fun i hi => ?taps, fun i hi => ?output⟩
  case taps =>
    obtain ⟨-, -, -, -, -, -, -, apart, -, -, -⟩ := hr
    have outside : s.operands.bBase.toNat + i < s.operands.dBase.toNat ∨
        s.operands.dBase.toNat + sig.length ≤ s.operands.bBase.toNat + i := by
      have length : sig.length = s.operands.aLen.toNat := hs.1
      simp only [Buffer.Apart, Params.tapsB, Params.destD] at apart
      omega
    rw [complete_dmem, delivered_dmem, storeWords_dmem, storeWords_dmem, Memory.readWord_writeWords_out,
      Memory.readWord_writeWords _ _ _ _ (hl ▸ hi), List.getElem?_eq_getElem]
    rwa [outputWords_length, conv_length]
  case output =>
    have stored := readWord_outputWords (s := State.delivered (tapDraws s.operands.nTaps.toNat) s)
      (.conv sig (ws.map F64.ofWord)) (Memory.writeWords s.dmem s.operands.bBase.toNat ws) s.operands.dBase.toNat 0 i
      _ _ (conv_getElem? (f := s.cfg.macFused) (h := ws.map F64.ofWord) hi)
    rwa [Nat.zero_add] at stored

end

/-- The words of a design that exists. -/
theorem tapWords_of_designExists {s : State} {p : Params} (h : p.DesignExists) :
    ∃ taps ws, design (F64.ofWord p.cutoff) p.nTaps.toNat = some taps ∧
      s.tapWords (F64.ofWord p.cutoff) p.nTaps.toNat = some ws ∧ ws.length = p.nTaps.toNat ∧
      ∀ i, i < p.nTaps.toNat → ws[i]? = some (if p.nTaps.toNat = 1 then F64.one.bits
        else s.outputWord (.taps (F64.ofWord p.cutoff) p.nTaps.toNat) (min i (p.nTaps.toNat - 1 - i))
          (taps.getD (min i (p.nTaps.toNat - 1 - i)) F64.zero)) :=
  (tapWords_cases s (F64.ofWord p.cutoff) p.nTaps.toNat).resolve_left fun ⟨noDesign, _⟩ => not_designExists_iff.2 noDesign h

theorem exec_firdes_holds {s : State} {ws : List Word} (hr : Ready .firdes s)
    (hw : s.tapWords (F64.ofWord s.operands.cutoff) s.operands.nTaps.toNat = some ws) :
    exec .firdes s = .next (complete s.operands.nTaps.toNat (State.delivered (tapDraws s.operands.nTaps.toNat)
      (storeWords s.operands.dBase.toNat ws s))) := by
  rw [exec, execFirdes, guarded_pass (ready_checked hr).1]
  simp only [hw]

/-- What `LPF` asks of its operands, the coefficients stored at `B_BASE`, is what `CONV` asks with `B_LEN := NTAPS`. -/
theorem ready_conv_of_lpf {s u : State} {p : Params} {sig : List F64} {ws : List Word} (hr : Ready .lpfZero s)
    (ops : s.operands = p) (hs : p.signalA.Holds s sig) (hl : ws.length = p.nTaps.toNat) (cfg : u.cfg = s.cfg)
    (ops' : u.operands = { p with bLen := p.nTaps }) (memory : u.dmem = Memory.writeWords s.dmem p.bBase.toNat ws) :
    Ready .convZero u ∧ u.operands.signalA.Holds u sig ∧ u.operands.bufferB.Holds u (ws.map F64.ofWord) := by
  obtain ⟨taps1, -, length1, insideA, insideB, insideD, apartBA, apartBD, apartDA, -, -⟩ := hr
  simp only [ops, Buffer.Inside, ← cfg] at *
  have signal : u.operands.signalA.Holds u sig := by
    rw [ops']
    refine holds_congr hs fun i hi => ?_
    rw [memory, Memory.readWord_writeWords_out]
    simp only [Buffer.Apart, Params.tapsB, Params.signalA] at apartBA hi ⊢
    omega
  have coefficients : u.operands.bufferB.Holds u (ws.map F64.ofWord) := by
    rw [ops']
    exact holds_writeWords hl memory
  have signalSpecified := specified_of_holds signal
  have coefficientsSpecified := specified_of_holds coefficients
  refine ⟨?_, signal, coefficients⟩
  simp only [Ready, ops'] at signalSpecified coefficientsSpecified ⊢
  exact ⟨taps1, length1, insideA, insideB, insideD, apartDA, apart_comm.1 apartBD, signalSpecified, coefficientsSpecified⟩

end Machine

open Machine

/-- Settles O33: the words of the convolution are stored at `D_BASE`; the statement's sum is `convAt` written out. -/
theorem convCompletes : Obligations.ConvCompletes := by
  unfold Obligations.ConvCompletes
  intro s hr n m d
  obtain ⟨-, -, -, -, -, -, -, signal, coefficients⟩ := id hr
  obtain ⟨sig, hs⟩ := holds_of_specified signal
  obtain ⟨h, hh⟩ := holds_of_specified coefficients
  obtain ⟨t, he, words⟩ := exec_conv_words hr hs hh
  have hn : sig.length = n := hs.1
  have hm : h.length = m := hh.1
  refine ⟨t, sig, h, he, hs, hh, fun i hi => ?_, (ran_of_ready hr he).frame (by decide)⟩
  rw [words i (hn ▸ hi), convAt, ← hn, ← hm]
  rfl

/-- Settles O34: the single step adds the product of `1.0` and the sample to `+0.0`. -/
theorem convSingleTapIdentity : Obligations.ConvSingleTapIdentity := by
  unfold Obligations.ConvSingleTapIdentity
  intro fused sig i x hx
  have place : (i : Int) - (0 : Nat) + (center 1 : Nat) = i := by
    show (i : Int) - 0 + 0 = i
    omega
  have step : convAt fused sig [F64.one] i = F64.mac fused F64.zero F64.one (paddedSample sig ((i : Int) - (0 : Nat) + (center 1 : Nat))) := rfl
  rw [step, place, paddedSample_of_getElem? hx, F64.mac_zero_one]

/-- Settles O35: coefficients and outputs are stored apart from each other, and a run of `LPF` changes nothing else. -/
theorem lpfCompletes : Obligations.LpfCompletes := by
  unfold Obligations.LpfCompletes
  intro s hr n len b d
  obtain ⟨-, -, -, -, -, -, -, -, -, designed, signal⟩ := id hr
  obtain ⟨sig, hs⟩ := holds_of_specified signal
  obtain ⟨taps, ws, hd, hw, hl, spec⟩ := tapWords_of_designExists (s := s) designed
  obtain ⟨t, he, stored, output⟩ := exec_lpf_words hr hs hw hl
  have hn : sig.length = len := hs.1
  exact ⟨t, sig, taps, ws, he, hs, hd, hl, spec, stored, fun i hi => output i (hn ▸ hi),
    (ran_of_ready hr he).frame (by decide)⟩

/-- Settles O36: after `FIRDES` the coefficients `CONV` reads are those `LPF` convolves with, the signal is as it was, and as
many words have been delivered. -/
theorem lpfIsFirdesThenConv : Obligations.LpfIsFirdesThenConv := by
  unfold Obligations.LpfIsFirdesThenConv
  intro s p hp hr
  have ops : s.operands = p := operands_of_run hp
  obtain ⟨taps1, cutoff, length1, insideA, insideB, insideD, apartBA, apartBD, apartDA, designed, signal⟩ := id hr
  rw [ops] at taps1 cutoff length1 insideA insideB insideD apartBA apartBD apartDA designed signal
  obtain ⟨sig, hs⟩ := holds_of_specified signal
  obtain ⟨taps, ws, -, hw, hl, -⟩ := tapWords_of_designExists (s := s) designed
  have lpf := exec_lpfZero_holds hr (ops.symm ▸ hs) (ops.symm ▸ hw)
  rw [ops] at lpf
  have firdes : ∃ t₁, exec .firdes { s with phase := .run { p with dBase := p.bBase } } = .next t₁ ∧ t₁.cfg = s.cfg ∧
      t₁.dmem = Memory.writeWords s.dmem p.bBase.toNat ws ∧ t₁.draws = s.draws + tapDraws p.nTaps.toNat ∧
      t₁.drawn = s.drawn ∧ t₁.errCode = 0 :=
    ⟨_, exec_firdes_holds (s := { s with phase := .run { p with dBase := p.bBase } })
      ⟨taps1, cutoff, insideB, designed⟩ ((tapWords_phase s _ _ _).trans hw), rfl, rfl, rfl, rfl, rfl⟩
  obtain ⟨t₁, firdes, cfg, memory, draws, drawn, code⟩ := firdes
  obtain ⟨ready, signal', coefficients⟩ := ready_conv_of_lpf (u := { t₁ with phase := .run { p with bLen := p.nTaps } })
    hr ops hs hl cfg rfl memory
  refine ⟨_, t₁, _, lpf, firdes, exec_convZero_holds ready signal' coefficients, code, rfl, ?memory, ?length⟩
  case memory =>
    have delivered := outputWords_congr (s := State.delivered (tapDraws p.nTaps.toNat) s)
      (t := { t₁ with phase := .run { p with bLen := p.nTaps } }) cfg draws drawn (.conv sig (ws.map F64.ofWord)) 0
      (conv s.cfg.macFused sig (ws.map F64.ofWord))
    rw [← delivered, ← cfg]
    exact congrArg (Memory.writeWords · p.dBase.toNat _) memory.symm
  case length => exact congrArg (BitVec.ofNat 32) (conv_length _ _ _).symm

end Sys2Proof
end

section
/-! PROOFS of the statements about the spectral transform and the magnitude (rules R191 to R198, R201). -/

namespace Sys2Proof

/-! ### Negation and zeros -/

namespace F64

theorem neg_neg_value (a : F64) : neg (neg a) = a := by
  cases a with
  | nan => rfl
  | inf s => exact congrArg F64.inf (Bool.not_not s)
  | fin s e f => exact congrArg (F64.fin · e f) (Bool.not_not s)

theorem isFinite_cases {x : F64} (h : x.isFinite = true) : ∃ s e f, x = .fin s e f := by
  cases x with
  | nan => cases h
  | inf s => cases h
  | fin s e f => exact ⟨s, e, f, rfl⟩

/-- Rounding no units gives a zero of the sign. -/
theorem round_zero (s : Bool) {den : Nat} (hd : 0 < den) : round s 0 den = .fin s 0 0 := by
  have zero : (F64.fin s 0 0).units = 0 := rfl
  have self := round_self s 0 0 hd
  rwa [zero, Nat.zero_mul] at self

/-- A finite value times `+0.0` is a zero. -/
theorem mul_zero_of_finite {x : F64} (h : x.isFinite = true) : mul x zero = .fin x.isNeg 0 0 := by
  obtain ⟨s, e, f, rfl⟩ := isFinite_cases h
  have product : mul (.fin s e f) zero = round (s ^^ false) ((F64.fin s e f).units * 0) (2 ^ 1074) := rfl
  rw [product, Nat.mul_zero, Bool.xor_false, round_zero s (Nat.two_pow_pos 1074)]
  rfl

/-- `+0.0` less a finite value times `+0.0` is `+0.0`, fused or not. -/
theorem msub_zero (fused : Bool) {x : F64} (h : x.isFinite = true) : msub fused zero x zero = zero := by
  cases fused with
  | false =>
    have difference : msub false zero x zero = sub zero (mul x zero) := rfl
    rw [difference, mul_zero_of_finite h]
    cases x.isNeg <;> decide
  | true =>
    obtain ⟨s, e, f, rfl⟩ := isFinite_cases h
    have sum : msub true zero (.fin s e f) zero = roundInt ((F64.fin (!s) e f).toInt * zero.toInt + zero.toInt * 2 ^ 1074)
        (2 ^ 1074) ((!s ^^ false) && false) := fma_fin (!s) false false e 0 0 f 0 0
    rw [sum, zero_toInt, Int.mul_zero, Int.zero_mul, Int.add_zero, Bool.and_false]
    rfl

end F64

namespace Machine

/-! ### Twiddle factors (rule R191) -/

/-- The indices at which the table is not a mirror: 0, the quarter points, and the lower half. -/
def Unmirrored (n m : Nat) : Prop := m = 0 ∨ 2 * m = n ∨ 4 * m = n ∨ 4 * m = 3 * n ∨ 2 * m < n

theorem twiddle_of_unmirrored {n m : Nat} (h : Unmirrored n m) : twiddle n m = twiddleDirect n m := if_pos h

theorem twiddle_of_mirrored {n m : Nat} (h : ¬ Unmirrored n m) :
    twiddle n m = ((twiddleDirect n (n - m)).1, F64.neg (twiddleDirect n (n - m)).2) := if_neg h

theorem twiddle_zero (n : Nat) : twiddle n 0 = (F64.one, F64.zero) := twiddle_of_unmirrored (.inl rfl)

section
variable {n m : Nat}

theorem twiddle_half (h : 2 * m = n) (hm : m ≠ 0) : twiddle n m = (F64.neg F64.one, F64.zero) := by
  rw [twiddle_of_unmirrored (.inr (.inl h)), twiddleDirect, if_neg hm, if_pos h]
  rfl

theorem twiddle_quarter (h : 4 * m = n) (hm : m ≠ 0) : twiddle n m = (F64.zero, F64.one) := by
  rw [twiddle_of_unmirrored (.inr (.inr (.inl h))), twiddleDirect, if_neg hm, if_neg (by omega), if_pos h]

theorem twiddle_threeQuarters (h : 4 * m = 3 * n) (hm : m ≠ 0) : twiddle n m = (F64.zero, F64.neg F64.one) := by
  rw [twiddle_of_unmirrored (.inr (.inr (.inr (.inl h)))), twiddleDirect, if_neg hm, if_neg (by omega), if_neg (by omega),
    if_pos h]
  rfl

/-- Above the half the table mirrors the lower half, but at the third quarter point. -/
theorem twiddle_upper (h : n < 2 * m) (hq : 4 * m ≠ 3 * n) (hm : m < n) :
    twiddle n m = ((twiddle n (n - m)).1, F64.neg (twiddle n (n - m)).2) := by
  have mirrored : ¬ Unmirrored n m := by
    unfold Unmirrored
    omega
  have lower : Unmirrored n (n - m) := by
    unfold Unmirrored
    omega
  rw [twiddle_of_mirrored mirrored, twiddle_of_unmirrored lower]

theorem twiddle_lower (h0 : 0 < m) (h : 2 * m < n) (hq : 4 * m ≠ n) :
    twiddle n m = (F64.cos64 (F64.div (F64.mul (F64.mul F64.two F64.pi64) (F64.ofNat m)) (F64.ofNat n)),
      F64.sin64 (F64.div (F64.mul (F64.mul F64.two F64.pi64) (F64.ofNat m)) (F64.ofNat n))) := by
  rw [twiddle_of_unmirrored (.inr (.inr (.inr (.inr h)))), twiddleDirect, if_neg (by omega), if_neg (by omega), if_neg hq,
    if_neg (by omega)]

/-- The mirror of the whole table: the quarter points are each other's mirror images, and below the half the mirror image is
the upper index's clause. -/
theorem twiddle_mirror (h0 : 0 < m) (hm : m < n) (hh : 2 * m ≠ n) :
    twiddle n (n - m) = ((twiddle n m).1, F64.neg (twiddle n m).2) := by
  have sub_sub : n - (n - m) = m := by omega
  by_cases first : 4 * m = n
  · rw [twiddle_quarter first (by omega), twiddle_threeQuarters (by omega) (by omega)]
  by_cases third : 4 * m = 3 * n
  · rw [twiddle_threeQuarters third (by omega), twiddle_quarter (by omega) (by omega)]
    rfl
  rcases Nat.lt_or_gt_of_ne hh with lower | upper
  · rw [twiddle_upper (m := n - m) (by omega) (by omega) (by omega), sub_sub]
  · rw [twiddle_upper upper third hm, F64.neg_neg_value]

end

/-! ### The direct form (rules R194, R197) -/

/-- The imaginary part alone of a bin of the direct form. -/
theorem dftBin_imaginary (fused : Bool) (sig : List F64) (k : Nat) :
    (dftBin fused sig k).2 = (List.range sig.length).foldl (fun acc n =>
      F64.msub fused acc (sig.getD n F64.zero) (twiddle sig.length (k * n % sig.length)).2) F64.zero := by
  rw [dftBin]
  exact (List.foldl_hom (f := Prod.snd) fun _ _ => rfl).symm

/-- Where every twiddle's sine is `+0.0`, finite samples leave the imaginary part at `+0.0`. -/
theorem dftBin_imaginary_zero (fused : Bool) {sig : List F64} (hs : ∀ x ∈ sig, x.isFinite = true) {k : Nat}
    (hk : ∀ n, n < sig.length → (twiddle sig.length (k * n % sig.length)).2 = F64.zero) :
    (dftBin fused sig k).2 = F64.zero := by
  rw [dftBin_imaginary]
  refine List.foldlRecOn (motive := fun acc => acc = F64.zero) _ _ rfl fun acc hacc n hn => ?_
  have hn := List.mem_range.1 hn
  have finite : (sig.getD n F64.zero).isFinite = true := by
    rw [List.getD_eq_getElem?_getD, List.getElem?_eq_getElem hn]
    exact hs _ (List.getElem_mem hn)
  rw [hacc, hk n hn, F64.msub_zero fused finite]

/-- The multiples of the half, reduced, are 0 and the half. -/
theorem half_mul_mod {n : Nat} (hn : n % 2 = 0) (j : Nat) : n / 2 * j % n = 0 ∨ n / 2 * j % n = n / 2 := by
  have half : n = n / 2 * 2 := by omega
  have reduced : n / 2 * j % n = n / 2 * (j % 2) := by
    conv_lhs => rw [half, Nat.mul_div_cancel _ Nat.two_pos]
    exact Nat.mul_mod_mul_left _ _ _
  rcases Nat.mod_two_eq_zero_or_one j with h | h
  · exact .inl (by rw [reduced, h, Nat.mul_zero])
  · exact .inr (by rw [reduced, h, Nat.mul_one])

/-! ### The radix-2 form (rule R196) -/

/-- `bitrev` reverses the low `l` bits. -/
theorem bitrev_spec (l : Nat) : ∀ n, bitrev l n < 2 ^ l ∧ ∀ b, b < l → (bitrev l n).testBit b = n.testBit (l - 1 - b) := by
  induction l with
  | zero => exact fun n => ⟨Nat.one_pos, fun b hb => absurd hb (Nat.not_lt_zero b)⟩
  | succ l ih =>
    intro n
    obtain ⟨bound, bits⟩ := ih (n / 2)
    have top : n % 2 < 2 := Nat.mod_lt n Nat.two_pos
    rw [bitrev, Nat.mul_comm]
    refine ⟨?_, fun b hb => ?_⟩
    · rw [pow_succ]
      nlinarith
    · rw [Nat.testBit_two_pow_mul_add _ bound]
      split
      next low =>
        rw [bits b low, ← Nat.testBit_succ]
        congr 1
        omega
      next high =>
        obtain rfl : b = l := by omega
        rw [Nat.sub_self, Nat.add_sub_cancel, Nat.sub_self, Nat.testBit_zero, Nat.testBit_zero]
        simp

/-- A power of two is recognised. -/
theorem isPow2_two_pow {l : Nat} (hl : 1 ≤ l) : isPow2 (2 ^ l) = true := by
  have two : 2 ≤ 2 ^ l := by
    calc 2 = 2 ^ 1 := rfl
      _ ≤ 2 ^ l := Nat.pow_le_pow_right Nat.two_pos hl
  rw [isPow2, decide_eq_true two, Nat.log2_two_pow]
  simp

theorem exists_pow_of_isPow2 {n : Nat} (h : isPow2 n = true) : ∃ l, 1 ≤ l ∧ n = 2 ^ l := by
  obtain ⟨two, power⟩ := Bool.and_eq_true_iff.1 h
  have power := beq_iff_eq.1 power
  refine ⟨n.log2, ?_, power.symm⟩
  have two := of_decide_eq_true two
  by_contra hc
  rw [Nat.lt_one_iff.1 (Nat.not_le.1 hc)] at power
  omega

/-- The array the cascade starts from: the samples in bit-reversed order. -/
def bitReversed (sig : List F64) (l : Nat) : List Bin :=
  (List.range sig.length).map fun k => (sig.getD (bitrev l k) F64.zero, F64.zero)

theorem fftRadix2_eq {sig : List F64} {l : Nat} (h : sig.length = 2 ^ l) :
    fftRadix2 sig = (stages sig.length (bitReversed sig l) l).take (sig.length / 2 + 1) := by
  have log : sig.length.log2 = l := by rw [h, Nat.log2_two_pow]
  rw [fftRadix2, log]
  rfl

section
variable {c : Config} {sig : List F64}

theorem spectrum_radix2 (hc : c.fftRef = .radix2) {l : Nat} (hl : 1 ≤ l) (h : sig.length = 2 ^ l) :
    spectrum c sig = fftRadix2 sig := by
  have power : isPow2 sig.length = true := h ▸ isPow2_two_pow hl
  simp only [spectrum, hc, power, if_true]

theorem spectrum_direct (h : c.fftRef = .direct ∨ ¬ ∃ l, 1 ≤ l ∧ sig.length = 2 ^ l) :
    spectrum c sig = dftDirect c.macFused sig := by
  unfold spectrum
  split
  · rfl
  next hc =>
    have none := h.resolve_left (by rw [hc]; decide)
    rw [if_neg fun power => none (exists_pow_of_isPow2 power)]

end

/-- The place `base + j` of a block and its partner, `span` dividing all that it should. -/
theorem block_places {n span base j : Nat} (h2 : 2 ∣ span) (hn : span ∣ n) (hb : span ∣ base) (hlt : base < n)
    (hj : j < span / 2) :
    (base + j < n ∧ (base + j) % span = j) ∧ (base + j + span / 2 < n ∧ (base + j + span / 2) % span = j + span / 2) := by
  obtain ⟨h, rfl⟩ := h2
  obtain ⟨q, rfl⟩ := hn
  obtain ⟨r, rfl⟩ := hb
  have half : 2 * h / 2 = h := by omega
  rw [half] at hj ⊢
  have fits : 2 * h * r + 2 * h ≤ 2 * h * q := by
    have next : r + 1 ≤ q := Nat.lt_of_mul_lt_mul_left hlt
    calc 2 * h * r + 2 * h = 2 * h * (r + 1) := by ring
      _ ≤ 2 * h * q := Nat.mul_le_mul_left _ next
  refine ⟨⟨by omega, ?_⟩, ⟨by omega, ?_⟩⟩
  · rw [Nat.mul_add_mod, Nat.mod_eq_of_lt (by omega)]
  · rw [Nat.add_assoc, Nat.mul_add_mod, Nat.mod_eq_of_lt (by omega)]

/-- The value a stage leaves at a place, by the half of the block it stands in. -/
theorem stage_getElem? {n span p : Nat} (a : List Bin) (hp : p < n) :
    (stage n span a)[p]? = some (if p % span < span / 2 then
        (butterfly n (p % span * (n / span)) (a.getD p (F64.zero, F64.zero)) (a.getD (p + span / 2) (F64.zero, F64.zero))).1
      else (butterfly n ((p % span - span / 2) * (n / span)) (a.getD (p - span / 2) (F64.zero, F64.zero))
        (a.getD p (F64.zero, F64.zero))).2) := by
  rw [stage, List.getElem?_map, List.getElem?_range hp]
  rfl

/-! ### The words `RFFT` and `MAG` write -/

theorem exec_rfft_words {s : State} {sig : List F64} (hr : Ready .rfft s) (hs : s.operands.signalA.Holds s sig) :
    ∃ t, exec .rfft s = .next t ∧ ∀ (k : Nat) (b : Bin), (spectrum s.cfg sig)[k]? = some b →
      Memory.readWord t.dmem (s.operands.dBase.toNat + 2 * k) = some (s.outputWord (.rfft sig) (2 * k) b.1) ∧
      Memory.readWord t.dmem (s.operands.dBase.toNat + 2 * k + 1) = some (s.outputWord (.rfft sig) (2 * k + 1) b.2) := by
  refine ⟨_, exec_rfft_holds hr hs, fun k b hb => ?_⟩
  obtain ⟨real, imaginary⟩ := interleave_getElem? (spectrum s.cfg sig) k
  rw [hb] at real imaginary
  exact ⟨readWord_completeWith real, readWord_completeWith imaginary⟩

theorem exec_mag_words {s : State} {bins : List Bin} (hr : Ready .mag s) (hb : s.operands.spectrumA.HoldsBins s bins) :
    ∃ t, exec .mag s = .next t ∧ ∀ (k : Nat) (b : Bin), bins[k]? = some b →
      Memory.readWord t.dmem (s.operands.dBase.toNat + k) = some (s.outputWord (.mag bins) k (magnitude b)) := by
  refine ⟨_, exec_mag_holds hr hb, fun k b hk => readWord_completeWith ?_⟩
  rw [List.getElem?_map, hk]
  rfl

/-- A specified spectrum holds bins. -/
theorem holdsBins_of_specified {s : State} {b : Buffer} {m : Nat} (hw : b.words = 2 * m) (h : b.Specified s) :
    ∃ bins, b.HoldsBins s bins := by
  obtain ⟨vs, holds⟩ := holds_of_specified h
  exact ⟨_, holdsBins_of_holds hw holds⟩

end Machine

open Machine

/-- Settles O38: one clause of the table after the other, and the mirror of the whole table. -/
theorem twiddleTable : Obligations.TwiddleTable := by
  unfold Obligations.TwiddleTable
  intro n m hm
  refine ⟨fun h => h ▸ twiddle_zero n, fun h => twiddle_half h (by omega), fun h => twiddle_quarter h (by omega),
    fun h => twiddle_threeQuarters h (by omega), fun h hq => twiddle_upper h hq hm, fun h0 h hq => twiddle_lower h0 h hq,
    fun h0 => ⟨?cosine, fun hh => ?sine⟩⟩
  case sine => rw [twiddle_mirror h0 hm hh]
  case cosine =>
    by_cases hh : 2 * m = n
    · rw [show n - m = m by omega]
    · rw [twiddle_mirror h0 hm hh]

/-- Settles O39: the place in the block decides which half of the butterfly a stage leaves there. -/
theorem radixStageButterflies : Obligations.RadixStageButterflies := by
  unfold Obligations.RadixStageButterflies
  intro n span base j a ha h2 hn hb hlt hj u b wr wi vr vi
  obtain ⟨⟨low, lowPlace⟩, ⟨high, highPlace⟩⟩ := block_places h2 hn hb hlt hj
  refine ⟨?_, ?_, stage_length n span a⟩
  · rw [stage_getElem? a low, lowPlace, if_pos hj]
    rfl
  · rw [stage_getElem? a high, highPlace, if_neg (by omega), Nat.add_sub_cancel, Nat.add_sub_cancel]
    rfl

/-- Settles O40: the twiddle indices of bin 0 and of bin `N/2` are 0 and `N/2`, whose sine is `+0.0`. -/
theorem directSpectrumRealEnds : Obligations.DirectSpectrumRealEnds := by
  unfold Obligations.DirectSpectrumRealEnds
  refine fun fused sig hs => ⟨?first, fun even => ?middle⟩
  case first =>
    refine dftBin_imaginary_zero fused hs fun n _ => ?_
    rw [Nat.zero_mul, Nat.zero_mod, twiddle_zero]
  case middle =>
    refine dftBin_imaginary_zero fused hs fun n hn => ?_
    rcases half_mul_mod even n with index | index <;> rw [index]
    · rw [twiddle_zero]
    · rw [twiddle_half (by omega) (by omega)]

/-- Settles O37: the cascade's arrays are `stages` of the bit-reversed samples; the direct form is `dftBin` bin by bin. -/
theorem rfftCompletes : Obligations.RfftCompletes := by
  unfold Obligations.RfftCompletes
  intro s hr n d
  obtain ⟨-, -, -, -, signal⟩ := id hr
  obtain ⟨sig, hs⟩ := holds_of_specified signal
  obtain ⟨t, he, words⟩ := exec_rfft_words hr hs
  have hn : sig.length = n := hs.1
  have length : (spectrum s.cfg sig).length = n / 2 + 1 := hn ▸ spectrum_length s.cfg sig
  refine ⟨t, sig, spectrum s.cfg sig, he, hs, length, fun hc l hl power => ?radix2, fun h k hk => ?direct,
    fun k hk => ?words, (ran_of_ready hr he).frame (by decide)⟩
  case radix2 =>
    have cascade : spectrum s.cfg sig = (stages n (bitReversed sig l) l).take (n / 2 + 1) := by
      rw [spectrum_radix2 hc hl (hn.trans power), fftRadix2_eq (hn.trans power), hn]
    refine ⟨stages n (bitReversed sig l), ?_, fun j hj => ?_, fun q _ => rfl, cascade⟩
    · rw [stages, bitReversed, List.length_map, List.length_range, hn]
    · obtain ⟨bound, bits⟩ := bitrev_spec l j
      refine ⟨bitrev l j, power ▸ bound, bits, ?_⟩
      rw [stages, bitReversed, List.getElem?_map, List.getElem?_range (hn ▸ hj)]
      rfl
  case direct =>
    rw [← hn] at h hk ⊢
    rw [spectrum_direct h, dftDirect, List.getElem?_map, List.getElem?_range (Nat.lt_succ_of_le hk)]
    rfl
  case words =>
    have inside : k < (spectrum s.cfg sig).length := length ▸ Nat.lt_succ_of_le hk
    have bin := words k _ (List.getElem?_eq_getElem inside)
    rwa [← List.getD_eq_getElem _ (F64.zero, F64.zero) inside] at bin

/-- Settles O41: bin `k`'s words are those the statement names, and its magnitude is written out. -/
theorem magCompletes : Obligations.MagCompletes := by
  unfold Obligations.MagCompletes
  intro s hr m a d
  obtain ⟨-, -, -, -, specified⟩ := id hr
  obtain ⟨bins, hb⟩ := holdsBins_of_specified (b := s.operands.spectrumA) (m := m) rfl specified
  obtain ⟨t, he, words⟩ := exec_mag_words hr hb
  refine ⟨t, bins, he, hb, fun k re im hk hre him => ?_, (ran_of_ready hr he).frame (by decide)⟩
  obtain ⟨count, holds⟩ := hb
  have count : 2 * m = 2 * bins.length := count
  obtain ⟨re', im', hre', him', bin⟩ := holds k (by omega)
  obtain rfl := Option.some.inj (hre.symm.trans hre')
  obtain rfl := Option.some.inj (him.symm.trans him')
  exact words k _ bin

end Sys2Proof
end

section
/-! PROOFS of the statements about frames (rules R46, R47, R126, R128): what a command leaves unchanged when it goes on, with success or with an error. -/

namespace Sys2Proof
namespace Machine

section
variable {i : Instr} {s t : State} (h : exec i s = .next t)
include h

/-- What every command leaves unchanged, and how it leaves the engine. -/
theorem exec_leaves : SameOutside s t (destinations i s.operands) ∧ CommandLeaves s t ∧ t.phase = .idle ∧ t.done = true ∧
    t.errOp = s.operands.cmd.extractLsb' 0 8 := by
  rcases exec_cases h with ⟨c, rfl, -⟩ | ran
  · exact ⟨fun _ _ => rfl, ⟨rfl, rfl, rfl, rfl, rfl, rfl⟩, rfl, rfl, rfl⟩
  · exact ⟨ran.sameOutside, ran.leaves, ran.succeeded.idle, ran.succeeded.done, ran.succeeded.errOp⟩

/-- The result registers a command leaves alone, whether it succeeds or not. -/
theorem exec_results : (i ≠ .snr → i ≠ .peakOrig → i ≠ .peakDerive → t.res0 = s.res0) ∧
    (i ≠ .peakOrig → i ≠ .peakDerive → t.res1 = s.res1) := by
  rcases exec_cases h with ⟨c, rfl, -⟩ | ran
  · exact ⟨fun _ _ _ => rfl, fun _ _ => rfl⟩
  · exact ran.results

end

/-- A command without a destination buffer stores nothing. -/
theorem Ran.dmem_of_noDestinations {i : Instr} {s t : State} (h : Ran i s t) (hd : destinations i s.operands = []) :
    t.dmem = s.dmem := by
  obtain ⟨-, out, d, r0, r1, buffers, -, -, -, rfl⟩ := h
  obtain rfl : out = [] := List.map_eq_nil_iff.1 (buffers.trans hd)
  rfl

theorem exec_stores_nothing {i : Instr} {s t : State} (hi : i ∈ [Instr.nop, .snr, .peakOrig, .peakDerive])
    (h : exec i s = .next t) : t.dmem = s.dmem ∧ t.dLen = 0 := by
  have row : destinations i s.operands = [] ∧ resultWords i s.operands = 0 := by
    fin_cases hi <;> exact ⟨rfl, rfl⟩
  rcases exec_cases h with ⟨c, rfl, -⟩ | ran
  · exact ⟨rfl, rfl⟩
  · refine ⟨ran.dmem_of_noDestinations row.1, ?_⟩
    rw [ran.succeeded.dLen, row.2]
    rfl

end Machine

open Machine

/-- Settles O46: a command changes DMEM in the destination buffers of its row only. -/
theorem storingFrame : Obligations.StoringFrame := by
  unfold Obligations.StoringFrame
  intro s t i hi h p
  obtain ⟨same, leaves, idle, done, opcode⟩ := exec_leaves h
  obtain ⟨res0, res1⟩ := exec_results h
  have other : i ≠ .snr ∧ i ≠ .peakOrig ∧ i ≠ .peakDerive := by
    fin_cases hi <;> decide
  refine ⟨?_, ?_, ?_, ?_, res0 other.1 other.2.1 other.2.2, res1 other.2.1 other.2.2, leaves, idle, done, opcode⟩
  · rintro rfl
    exact same
  · rintro (rfl | rfl)
    · exact same
    · exact same
  · rintro rfl
    exact same
  · rintro rfl
    exact same

/-- Settles O47: a command without a destination buffer stores nothing. -/
theorem registerOnlyFrame : Obligations.RegisterOnlyFrame := by
  unfold Obligations.RegisterOnlyFrame
  intro s t i hi h
  obtain ⟨-, leaves, idle, done, opcode⟩ := exec_leaves h
  obtain ⟨res0, res1⟩ := exec_results h
  obtain ⟨dmem, dLen⟩ := exec_stores_nothing hi h
  refine ⟨fun a => congrArg (Memory.read · a) dmem, dmem, ?_, ?_, leaves, dLen, idle, done, opcode⟩
  · rintro rfl
    exact res0 (by decide) (by decide) (by decide)
  · rintro (rfl | rfl)
    · exact res1 (by decide) (by decide)
    · exact res1 (by decide) (by decide)

end Sys2Proof
end

section
/-! PROOFS of the statements about the results of the quality analyzer (rules R221 to R228). -/

namespace Sys2Proof

namespace F64

/-- A finite value less itself is `+0.0`. -/
theorem sub_self_of_finite {x : F64} (h : x.isFinite = true) : sub x x = zero := by
  obtain ⟨s, e, f, rfl⟩ := isFinite_cases h
  have opposite : (F64.fin s e f).toInt + (F64.fin (!s) e f).toInt = 0 := by
    cases s
    · exact Int.add_right_neg _
    · exact Int.add_left_neg _
  have difference : sub (.fin s e f) (.fin s e f) =
      roundInt ((F64.fin s e f).toInt + (F64.fin (!s) e f).toInt) 1 (s && !s) := add_fin s (!s) e e f f
  rw [difference, opposite, Bool.and_not_self]
  rfl

end F64

namespace Machine

/-! ### The sums of `SNR` (rules R221, R222) -/

/-- Two lists of one length, index by index. -/
theorem zip_eq_map_getD {xs ys : List F64} {n : Nat} (hx : xs.length = n) (hy : ys.length = n) :
    xs.zip ys = (List.range n).map fun i => (xs.getD i F64.zero, ys.getD i F64.zero) := by
  refine List.ext_getElem (by simp [hx, hy]) fun i h1 h2 => ?_
  have hi : i < n := by simpa using h2
  simp [hx, hy, hi]

section
variable {r x : List F64} {n : Nat} (hr : r.length = n) (hx : x.length = n)
include hr hx

theorem noiseSum_eq : (powerSums r x).1 = (List.range n).foldl (fun acc i =>
    F64.add acc (F64.mul (F64.sub (x.getD i F64.zero) (r.getD i F64.zero)) (F64.sub (x.getD i F64.zero) (r.getD i F64.zero))))
      F64.zero := by
  rw [powerSums, zip_eq_map_getD hr hx, List.foldl_map]
  exact (List.foldl_hom (f := Prod.fst) fun _ _ => rfl).symm

theorem signalSum_eq : (powerSums r x).2 = (List.range n).foldl (fun acc i =>
    F64.add acc (F64.mul (r.getD i F64.zero) (r.getD i F64.zero))) F64.zero := by
  rw [powerSums, zip_eq_map_getD hr hx, List.foldl_map]
  exact (List.foldl_hom (f := Prod.snd) fun _ _ => rfl).symm

end

/-- Finite samples have no noise against themselves. -/
theorem noiseSum_self {r : List F64} (h : ∀ x ∈ r, x.isFinite = true) : (powerSums r r).1 = F64.zero := by
  rw [noiseSum_eq rfl rfl]
  refine List.foldlRecOn (motive := fun acc => acc = F64.zero) _ _ rfl fun acc hacc i hi => ?_
  have hi := List.mem_range.1 hi
  have finite : (r.getD i F64.zero).isFinite = true := by
    rw [List.getD_eq_getElem?_getD, List.getElem?_eq_getElem hi]
    exact h _ (List.getElem_mem hi)
  rw [hacc, F64.sub_self_of_finite finite, F64.mul_zero_of_finite rfl, F64.add_zero_left]
  rfl

theorem posInf_bits : (F64.inf false).bits = 0x7FF0000000000000 := by decide

/-- What `SNR` leaves in `RES0`. -/
theorem exec_snr_res0 {s : State} {r x : List F64} (hr : Ready .snr s) (h1 : s.operands.signalA.Holds s r)
    (h2 : s.operands.bufferB.Holds s x) :
    ∃ t, exec .snr s = .next t ∧ t.res0 = if F64.eq (powerSums r x).1 F64.zero = true then 0x7FF0000000000000
      else s.outputWord (.snr r x) 0 (snrOf (powerSums r x)) := by
  rw [exec_snr_holds hr h1 h2]
  split
  · exact ⟨_, rfl, posInf_bits⟩
  · exact ⟨_, rfl, rfl⟩

/-! ### The bins a peak search reads (rules R227, R228) -/

/-- The bins from bin `k` of the spectrum at `base` on. -/
def BinsFrom (m : Memory) (base k : Nat) (bins : List Bin) : Prop :=
  ∀ j, j < bins.length → ∃ re im, Memory.readWord m (base + 2 * (k + j)) = some re ∧
    Memory.readWord m (base + 2 * (k + j) + 1) = some im ∧ bins[j]? = some (F64.ofWord re, F64.ofWord im)

theorem BinsFrom.head {m : Memory} {base k : Nat} {b : Bin} {bs : List Bin} (h : BinsFrom m base k (b :: bs)) :
    ∃ re im, Memory.readWord m (base + 2 * k) = some re ∧ Memory.readWord m (base + 2 * k + 1) = some im ∧
      b = (F64.ofWord re, F64.ofWord im) := by
  obtain ⟨re, im, hre, him, hb⟩ := h 0 (Nat.succ_pos _)
  exact ⟨re, im, hre, him, Option.some.inj hb⟩

theorem BinsFrom.tail {m : Memory} {base k : Nat} {b : Bin} {bs : List Bin} (h : BinsFrom m base k (b :: bs)) :
    BinsFrom m base (k + 1) bs := by
  intro j hj
  obtain ⟨re, im, hre, him, hb⟩ := h (j + 1) (Nat.succ_lt_succ hj)
  have place : k + (j + 1) = k + 1 + j := by omega
  exact ⟨re, im, place ▸ hre, place ▸ him, hb⟩

/-- The searched buffer's bins are those from bin 1 on. -/
theorem binsFrom_iff {s : State} {base : Nat} {bins : List Bin} :
    BinsFrom s.dmem base 1 bins ↔ (⟨base + 2, 2 * bins.length⟩ : Buffer).HoldsBins s bins := by
  have place : ∀ j, base + 2 * (1 + j) = base + 2 + 2 * j := fun j => by omega
  simp only [BinsFrom, Buffer.HoldsBins, place, true_and]

theorem binsFrom_of_searched {s : State} {p : Params} {bins : List Bin} (h : p.searchedA.HoldsBins s bins) :
    BinsFrom s.dmem p.aBase.toNat 1 bins ∧ bins.length = p.aLen.toNat - 1 := by
  obtain ⟨count, holds⟩ := h
  have length : 2 * (p.aLen.toNat - 1) = 2 * bins.length := count
  exact ⟨binsFrom_iff.2 ⟨rfl, holds⟩, by omega⟩

/-- The bins up to the first whose magnitude is NaN. -/
def upToNaN : List Bin → List Bin
  | [] => []
  | b :: bs => b :: if (magnitude b).isNaN then [] else upToNaN bs

/-- A search over bins that hold values reads them up to the first NaN; it stops there, or at the last of them. -/
theorem peakBins_eq {m : Memory} {base : Nat} {bins : List Bin} : ∀ {k n : Nat}, BinsFrom m base k bins →
    bins.length = n ∨ (bins.length ≤ n ∧ ∃ b ∈ bins, (magnitude b).isNaN = true) →
    peakBins m base k n = upToNaN bins := by
  induction bins with
  | nil =>
    rintro k n - (rfl | ⟨-, b, hb, -⟩)
    · rfl
    · cases hb
  | cons b bs ih =>
    intro k n h hn
    obtain ⟨re, im, hre, him, rfl⟩ := h.head
    rw [List.length_cons] at hn
    obtain ⟨n, rfl⟩ : ∃ q, n = q + 1 := ⟨n - 1, by omega⟩
    simp only [peakBins, hre, him, upToNaN]
    split
    · rfl
    next number =>
      rw [ih h.tail]
      rcases hn with all | ⟨some, b, hb, nan⟩
      · exact .inl (by omega)
      · rcases List.mem_cons.1 hb with rfl | hb
        · exact absurd nan number
        · exact .inr ⟨by omega, b, hb, nan⟩

theorem upToNaN_eq_self {bins : List Bin}
    (h : ∀ j, j + 1 < bins.length → (magnitude (bins.getD j (F64.zero, F64.zero))).isNaN = false) : upToNaN bins = bins := by
  induction bins with
  | nil => rfl
  | cons b bs ih =>
    rw [upToNaN]
    cases bs with
    | nil => simp [upToNaN]
    | cons c bs =>
      have number : (magnitude b).isNaN = false := h 0 (by simp)
      rw [number, ih fun j hj => h (j + 1) (Nat.succ_lt_succ hj)]
      rfl

/-! ### The bin reported (rules R17, R228, R229) -/

theorem peakBin_of_isNaN {s : State} {op : Operation} {count : Nat} {r : Peak} (h : r.isNaN = true) :
    s.peakBin op count r = r.bin := by
  unfold State.peakBin
  split
  · rfl
  · simp [h]

/-- The bin reported lies in the searched range, as the bin found does. -/
theorem peakBin_bounds (s : State) (op : Operation) {count : Nat} {r : Peak} (h1 : 1 ≤ r.bin) (h2 : r.bin < count) :
    1 ≤ s.peakBin op count r ∧ s.peakBin op count r < count := by
  unfold State.peakBin
  split
  · exact ⟨h1, h2⟩
  · simp only
    split
    next drawn =>
      simp only [Bool.and_eq_true, decide_eq_true_eq] at drawn
      exact ⟨drawn.1.2, drawn.2⟩
    · exact ⟨h1, h2⟩

theorem toNat_ofNat_of_lt {k : Nat} {v : BitVec 32} (h : k < v.toNat) : (BitVec.ofNat 32 k).toNat = k := by
  have := v.isLt
  rw [BitVec.toNat_ofNat]
  omega

theorem peakWith_of_found {s : State} {p : Params} {derived : Bool} {n : Nat} {r : Peak}
    (found : peakSearch s.dmem p.aBase.toNat 1 none (p.aLen.toNat - 1) = .ok r) :
    peakWith s p derived n = .next (complete 0 (State.delivered 2
      { s with
        res0 := s.outputWord (p.peakOperation s.dmem derived n) 1
          (peakFreq (s.peakBin (p.peakOperation s.dmem derived n) p.aLen.toNat r) (F64.ofWord p.fs) n)
        res1 := BitVec.ofNat 32 (s.peakBin (p.peakOperation s.dmem derived n) p.aLen.toNat r) })) := by
  simp only [peakWith, found]

section
variable {i : Instr} (hi : i ∈ [Instr.peakOrig, .peakDerive])
include hi

theorem searchedA_specified_of_ready {s : State} (hr : Ready i s) : s.operands.searchedA.Specified s := by
  rcases List.mem_pair.1 hi with rfl | rfl
  · obtain ⟨-, -, -, -, -, specified⟩ := hr
    exact specified
  · obtain ⟨-, -, -, specified⟩ := hr
    exact specified

/-- The checks of `PEAK` pass for a legal rate, a matching original length, two bins or more, and a spectrum inside DMEM. -/
theorem boundaryCheck_peak_none {n : Nat} {p : Params} (rate : p.RateLegal)
    (original : i = .peakOrig → 1 ≤ p.origLen.toNat ∧ p.origLen.toNat / 2 + 1 = p.aLen.toNat) (hm : 2 ≤ p.aLen.toNat)
    (inside : p.aBase.toNat + 2 * p.aLen.toNat ≤ n) : boundaryCheck n i p = none := by
  have long : degenerateCheck i p = none := by
    rw [degenerateCheck_peak hi, failIf_none]
    exact decide_eq_false (Nat.not_lt.2 hm)
  have valid : invalidCheck i p = none ∧ lengthCheck i p = none := by
    rcases List.mem_pair.1 hi with rfl | rfl
    · exact ⟨invalidCheck_peakOrig_none rate (original rfl).1, lengthCheck_peakOrig_of_eq (original rfl).2⟩
    · exact ⟨rateInvalid_none.2 rate, rfl⟩
  have noDestination : destinations i p = [] := by
    rcases List.mem_pair.1 hi with rfl | rfl <;> rfl
  have range : rangeCheck n i p = none := by
    refine rangeCheck_none fun b hb => ?_
    rw [sources_peak hi, noDestination, List.append_nil, List.mem_singleton] at hb
    rw [hb]
    exact inside
  have apart : aliasCheck i p = none := by
    rw [aliasCheck, noDestination]
    rfl
  exact boundaryCheck_none.2 ⟨valid.1, valid.2, long, range, apart⟩

end

end Machine

open Machine

/-- Settles O42: the two sums are the components of `powerSums`, and a run of `SNR` changes `RES0` only. -/
theorem snrCompletes : Obligations.SnrCompletes := by
  unfold Obligations.SnrCompletes
  intro s hr n
  obtain ⟨-, lengths, -, -, reference, test⟩ := id hr
  obtain ⟨r, h1⟩ := holds_of_specified reference
  obtain ⟨x, h2⟩ := holds_of_specified test
  obtain ⟨t, he, res0⟩ := exec_snr_res0 hr h1 h2
  have ran := ran_of_ready hr he
  have hr' : r.length = n := h1.1
  have hx : x.length = n := h2.1.trans (congrArg BitVec.toNat lengths.symm)
  refine ⟨t, r, x, he, h1, h2, ?_, ran.dmem_of_noDestinations rfl, ran.results.2 (by decide) (by decide), ran.leaves,
    ran.succeeded⟩
  rw [res0, snrOf, noiseSum_eq hr' hx, signalSum_eq hr' hx]

/-- Settles O43: each difference is `+0.0`, so that the noise sum is. -/
theorem snrAgainstItself : Obligations.SnrAgainstItself := by
  unfold Obligations.SnrAgainstItself
  intro s hr hbase hfinite
  obtain ⟨-, lengths, -, -, reference, -⟩ := id hr
  obtain ⟨r, h1⟩ := holds_of_specified reference
  have same : s.operands.bufferB = s.operands.signalA := by
    rw [Params.bufferB, Params.signalA, hbase, lengths]
  obtain ⟨t, he, res0⟩ := exec_snr_res0 hr h1 (same ▸ h1)
  refine ⟨t, he, ?_, (ran_of_ready hr he).succeeded.errCode⟩
  rw [res0, noiseSum_self (hfinite r h1), if_pos (by decide)]

/-- Settles O45: the search finds a bin, and the bin reported lies in the searched range; at a first NaN it reads no further
and the bin found is the bin reported. -/
theorem peakRunsOnEveryDatapath : Obligations.PeakRunsOnEveryDatapath := by
  unfold Obligations.PeakRunsOnEveryDatapath
  refine ⟨?ready, ?firstNaN⟩
  case ready =>
    intro s i hi hr p n
    obtain ⟨bins, hb⟩ := holdsBins_of_specified (m := p.aLen.toNat - 1) rfl (searchedA_specified_of_ready hi hr)
    have two : 2 ≤ p.aLen.toNat := two_le_aLen_of_ready_peak hi hr
    obtain ⟨r, found, low, high, -⟩ := peakSearch_of_holdsBins hb (two_le_aLen_of_ready_peak hi hr)
    have he := (exec_peak_ready hi hr).trans (peakWith_of_found found)
    have ran := ran_of_ready hr he
    obtain ⟨low, high⟩ := peakBin_bounds s (p.peakOperation s.dmem (decide (i = .peakDerive)) n) low high
    have value := toNat_ofNat_of_lt high
    have bits : ∀ j, 1 ≤ j → j < 1 + (p.aLen.toNat - 1) →
        (Memory.readWord s.dmem (p.aBase.toNat + 2 * j)).isSome = true ∧
        (Memory.readWord s.dmem (p.aBase.toNat + 2 * j + 1)).isSome = true := fun j hj hj' => by
      obtain ⟨re, im, hre, him, -⟩ := words_of_searchedBin hb hj (by omega : j < p.aLen.toNat)
      exact ⟨hre ▸ rfl, him ▸ rfl⟩
    obtain ⟨-, read, numbers, ends⟩ := peakBins_spec (p.aLen.toNat - 1) 1 bits
    refine ⟨_, _, he, ?_, ?_, binsFrom_iff.1 read, numbers, ends, ?_, ran.dmem_of_noDestinations ?_, ran.leaves, ?_⟩
    · exact low.trans_eq value.symm
    · exact value.trans_lt high
    · exact congrArg (fun b => s.outputWord (p.peakOperation s.dmem (decide (i = .peakDerive)) n) 1
        (peakFreq b (F64.ofWord p.fs) n)) value.symm
    · rcases List.mem_pair.1 hi with rfl | rfl <;> rfl
    · exact resultWords_peak hi s.operands ▸ ran.succeeded
  case firstNaN =>
    intro s i k bins hi p mag n rate original inside h1 hk holds numbers nan
    have hc : boundaryCheck s.cfg.dmemWords i p = none := boundaryCheck_peak_none hi rate original (by omega) inside
    have count : bins.length = k := by
      have : 2 * k = 2 * bins.length := holds.1
      omega
    have from1 : BinsFrom s.dmem p.aBase.toNat 1 bins := binsFrom_iff.2 (count ▸ holds)
    have found : peakSearch s.dmem p.aBase.toNat 1 none (p.aLen.toNat - 1) = .ok ⟨k, true⟩ := by
      have last : 1 + (k - 1) = k := by omega
      rw [peakSearch_firstNaN (k - 1) (p.aLen.toNat - 1) 1 none (by omega) fun j hj hj' => ?_, last]
      obtain ⟨re, im, hre, him, bin⟩ := from1 (j - 1) (by omega)
      rw [show 1 + (j - 1) = j by omega] at hre him
      have magnitude_eq : magnitude (F64.ofWord re, F64.ofWord im) = mag j := by
        show _ = magnitude (bins.getD (j - 1) _)
        rw [List.getD_eq_getElem?_getD, bin, Option.getD_some]
      refine ⟨re, im, hre, him, ?_⟩
      rw [magnitude_eq, last]
      by_cases hjk : j = k
      · rw [hjk, nan, decide_eq_true rfl]
      · rw [numbers j hj (by omega), decide_eq_false hjk]
    have read : peakBins s.dmem p.aBase.toNat 1 (p.aLen.toNat - 1) = bins := by
      have lastBin : bins.getD (k - 1) (F64.zero, F64.zero) ∈ bins := by
        rw [List.getD_eq_getElem _ _ (show k - 1 < bins.length by omega)]
        exact List.getElem_mem _
      rw [peakBins_eq from1 (.inr ⟨by omega, _, lastBin, nan⟩), upToNaN_eq_self]
      exact fun j hj => numbers (j + 1) (by omega) (by omega)
    have he := (exec_peak_of_checked hi hc).trans (peakWith_of_found found)
    rw [peakBin_of_isNaN rfl, Params.peakOperation, read] at he
    have ran := ran_of_checked hc (by rcases List.mem_pair.1 hi with rfl | rfl <;> rfl) he
    refine ⟨_, he, rfl, rfl, ran.dmem_of_noDestinations ?_, ran.leaves, ?_⟩
    · rcases List.mem_pair.1 hi with rfl | rfl <;> rfl
    · exact resultWords_peak hi s.operands ▸ ran.succeeded

end Sys2Proof
end

section
/-! PROOFS of the statements about binary64 arithmetic: correct rounding and the special cases (rule R11), words and values (rule R13), and the elementary functions (rule R15). -/

namespace Sys2Proof
namespace F64

/-! ### The sign flip -/

theorem isFinite_neg (a : F64) : (neg a).isFinite = a.isFinite := by cases a <;> rfl

theorem isZero_neg (a : F64) : (neg a).isZero = a.isZero := by cases a <;> rfl

theorem isNeg_neg {a : F64} (h : a ≠ .nan) : (neg a).isNeg = !a.isNeg := by
  cases a with
  | nan => exact absurd rfl h
  | inf s => rfl
  | fin s e f => rfl

theorem toEReal_neg (a : F64) : (neg a).toEReal = -a.toEReal := by
  cases a with
  | nan => exact neg_zero.symm
  | inf s => cases s <;> simp [neg, toEReal]
  | fin s e f => exact (congrArg Real.toEReal (toReal_neg (.fin s e f))).trans (EReal.coe_neg _)

/-! ### Finite operands: one rounding of the exact result -/

theorem toReal_add (a b : F64) : a.toReal + b.toReal = ((a.toInt + b.toInt : Int) : ℝ) / 2 ^ 1074 := by
  rw [Int.cast_add, add_div]
  rfl

theorem toReal_fma (a b c : F64) :
    a.toReal * b.toReal + c.toReal = ((a.toInt * b.toInt + c.toInt * 2 ^ 1074 : Int) : ℝ) / 2 ^ 1074 / 2 ^ 1074 := by
  unfold toReal
  rw [Int.cast_add, Int.cast_mul, Int.cast_mul, Int.cast_pow, Int.cast_ofNat]
  have hY : (2 : ℝ) ^ 1074 ≠ 0 := by positivity
  generalize (2 : ℝ) ^ 1074 = Y at *
  field_simp

theorem units_eq_zero_of_toReal {a : F64} (h : a.toReal = 0) : a.units = 0 := by
  have := abs_toReal a
  rw [h, abs_zero, eq_comm, div_eq_zero_iff] at this
  exact_mod_cast this.resolve_right (by positivity)

section
variable {a b c : F64} (ha : a.isFinite = true) (hb : b.isFinite = true) (hc : c.isFinite = true)
include ha hb

theorem sub_roundsTo : (sub a b).RoundsTo (a.toReal - b.toReal) := by
  have sum := add_roundsTo ha ((isFinite_neg b).trans hb)
  rwa [toReal_neg, ← sub_eq_add_neg] at sum

theorem add_of_finite : add a b = roundInt (a.toInt + b.toInt) 1 (a.isNeg && b.isNeg) := by
  obtain ⟨s, e, f, rfl⟩ := isFinite_cases ha
  obtain ⟨t, d, g, rfl⟩ := isFinite_cases hb
  exact add_fin s t e d f g

theorem mul_of_finite : mul a b = round (a.isNeg ^^ b.isNeg) (a.units * b.units) (2 ^ 1074) := by
  obtain ⟨s, e, f, rfl⟩ := isFinite_cases ha
  obtain ⟨t, d, g, rfl⟩ := isFinite_cases hb
  exact mul_fin s t e d f g

include hc in
theorem fma_of_finite : fma a b c =
    roundInt (a.toInt * b.toInt + c.toInt * 2 ^ 1074) (2 ^ 1074) ((a.isNeg ^^ b.isNeg) && c.isNeg) := by
  obtain ⟨s, e, f, rfl⟩ := isFinite_cases ha
  obtain ⟨t, d, g, rfl⟩ := isFinite_cases hb
  obtain ⟨u, x, y, rfl⟩ := isFinite_cases hc
  exact fma_fin s t u e d x f g y

include hc in
theorem fma_roundsTo : (fma a b c).RoundsTo (a.toReal * b.toReal + c.toReal) := by
  have rounded := roundInt_roundsTo (a.toInt * b.toInt + c.toInt * 2 ^ 1074) (Nat.two_pow_pos 1074)
    ((a.isNeg ^^ b.isNeg) && c.isNeg)
  rwa [Nat.cast_pow, Nat.cast_ofNat, ← toReal_fma, ← fma_of_finite ha hb hc] at rounded

/-! ### Exact zeros -/

theorem add_of_sum_zero (h : a.toReal + b.toReal = 0) : add a b = .fin (a.isNeg && b.isNeg) 0 0 := by
  rw [toReal_add, div_eq_zero_iff, or_iff_left (by positivity), Int.cast_eq_zero] at h
  rw [add_of_finite ha hb, roundInt, if_pos h]

theorem sub_of_difference_zero (h : a.toReal - b.toReal = 0) : sub a b = .fin (a.isNeg && !b.isNeg) 0 0 := by
  have hn : b ≠ .nan := ((isFinite_iff b).1 hb).1
  rw [sub_eq_add_neg, ← toReal_neg] at h
  rw [sub, add_of_sum_zero ha ((isFinite_neg b).trans hb) h, isNeg_neg hn]

include hc in
theorem fma_of_result_zero (h : a.toReal * b.toReal + c.toReal = 0) :
    fma a b c = .fin ((a.isNeg ^^ b.isNeg) && c.isNeg) 0 0 := by
  rw [toReal_fma, div_eq_zero_iff, or_iff_left (by positivity), div_eq_zero_iff, or_iff_left (by positivity),
    Int.cast_eq_zero] at h
  rw [fma_of_finite ha hb hc, roundInt, if_pos h]

theorem mul_of_isZero (h : a.isZero = true ∨ b.isZero = true) : mul a b = .fin (a.isNeg ^^ b.isNeg) 0 0 := by
  have product : a.units * b.units = 0 := by
    obtain ⟨s, e, f, rfl⟩ := isFinite_cases ha
    obtain ⟨t, d, g, rfl⟩ := isFinite_cases hb
    rwa [Nat.mul_eq_zero, units_eq_zero_iff, units_eq_zero_iff]
  rw [mul_of_finite ha hb, product, round_zero _ (Nat.two_pow_pos 1074)]

theorem div_of_isZero (h : a.isZero = true) (hz : b.isZero = false) : div a b = .fin (a.isNeg ^^ b.isNeg) 0 0 := by
  obtain ⟨s, e, f, rfl⟩ := isFinite_cases ha
  obtain ⟨t, d, g, rfl⟩ := isFinite_cases hb
  have divisor : 0 < (F64.fin t d g).units := by
    refine Nat.pos_of_ne_zero fun h0 => ?_
    cases hz.symm.trans ((units_eq_zero_iff t d g).1 h0)
  rw [div_fin s t e d f g hz, (units_eq_zero_iff s e f).2 h, Nat.zero_mul, round_zero _ divisor]
  rfl

theorem div_by_isZero (h : b.isZero = true) :
    div a b = if a.isZero = true then .nan else .inf (a.isNeg ^^ b.isNeg) := by
  obtain ⟨s, e, f, rfl⟩ := isFinite_cases ha
  obtain ⟨t, d, g, rfl⟩ := isFinite_cases hb
  exact if_pos h

end

/-! ### Whole numbers -/

/-- A whole number with at most 53 bits, in units of the smallest subnormal. -/
theorem fits_of_whole {n : Nat} (h : n < 2 ^ 53) : Fits (n * 2 ^ 1074) := by
  rcases Nat.eq_zero_or_pos n with rfl | hn
  · exact ⟨0, 0, Nat.zero_mul _, by decide, .inl rfl, by decide⟩
  · have hl : n.log2 ≤ 52 := Nat.le_of_lt_succ ((Nat.log2_lt hn.ne').2 h)
    have low := Nat.log2_self_le hn.ne'
    have high := Nat.lt_log2_self (n := n)
    refine ⟨n * 2 ^ (52 - n.log2), 1022 + n.log2, ?_, ?_, .inr ?_, by omega⟩
    · rw [Nat.mul_assoc, ← Nat.pow_add]
      congr 2
      omega
    · calc n * 2 ^ (52 - n.log2) < 2 ^ (n.log2 + 1) * 2 ^ (52 - n.log2) := Nat.mul_lt_mul_of_pos_right high (Nat.two_pow_pos _)
        _ = 2 ^ 53 := by rw [← Nat.pow_add]; congr 1; omega
    · calc 2 ^ 52 = 2 ^ n.log2 * 2 ^ (52 - n.log2) := by rw [← Nat.pow_add]; congr 1; omega
        _ ≤ _ := Nat.mul_le_mul_right _ low

theorem ofNat_exact {n : Nat} (h : n < 2 ^ 53) :
    (ofNat n).isFinite = true ∧ (ofNat n).toReal = n ∧ (ofNat n).isNeg = false := by
  have sign : (ofNat n).isNeg = false := round_isNeg false _ 1
  have exact := round_exact false (fits_of_whole h) Nat.one_pos
  rw [Nat.mul_one] at exact
  obtain ⟨finite, units⟩ : (ofNat n).isFinite = true ∧ (ofNat n).units = n * 2 ^ 1074 := exact
  refine ⟨finite, ?_, sign⟩
  rw [toReal_eq, units, sign, if_neg Bool.false_ne_true, one_mul, Nat.cast_mul, Nat.cast_pow, Nat.cast_ofNat,
    mul_div_cancel_right₀ _ (by positivity)]

/-! ### NaN and infinite operands -/

theorem arithmetic_nan {a b : F64} (h : a = .nan ∨ b = .nan) :
    add a b = .nan ∧ sub a b = .nan ∧ mul a b = .nan ∧ div a b = .nan ∧ ∀ c, fma a b c = .nan := by
  rcases h with rfl | rfl
  · exact ⟨rfl, rfl, rfl, rfl, fun _ => rfl⟩
  · cases a <;> exact ⟨rfl, rfl, rfl, rfl, fun _ => rfl⟩

theorem fma_nan (a b : F64) : fma a b .nan = .nan := by
  cases a <;> cases b <;> rfl

theorem arithmetic_inf_inf (s t : Bool) : add (.inf s) (.inf t) = (if s = t then .inf s else .nan) ∧
    sub (.inf s) (.inf t) = (if s = t then .nan else .inf s) ∧ mul (.inf s) (.inf t) = .inf (s ^^ t) ∧
    div (.inf s) (.inf t) = .nan := by
  cases s <;> cases t <;> exact ⟨rfl, rfl, rfl, rfl⟩

theorem arithmetic_inf_finite (s : Bool) {b : F64} (h : b.isFinite = true) :
    add (.inf s) b = .inf s ∧ add b (.inf s) = .inf s ∧ sub (.inf s) b = .inf s ∧ sub b (.inf s) = .inf (!s) ∧
    mul (.inf s) b = (if b.isZero = true then .nan else .inf (s ^^ b.isNeg)) ∧
    mul b (.inf s) = (if b.isZero = true then .nan else .inf (s ^^ b.isNeg)) ∧
    div (.inf s) b = .inf (s ^^ b.isNeg) ∧ div b (.inf s) = .fin (s ^^ b.isNeg) 0 0 := by
  obtain ⟨t, d, g, rfl⟩ := isFinite_cases h
  rw [Bool.xor_comm s]
  refine ⟨rfl, rfl, rfl, rfl, ?_, rfl, ?_, rfl⟩
  · rw [Bool.xor_comm]; rfl
  · rw [Bool.xor_comm]; rfl

section
variable {a b c : F64} (ha : a ≠ .nan) (hb : b ≠ .nan)

include ha hb in
theorem mul_of_infinite (h : a.isFinite = false ∨ b.isFinite = false) :
    mul a b = if a.isZero = true ∨ b.isZero = true then .nan else .inf (a.isNeg ^^ b.isNeg) := by
  cases a with
  | nan => exact absurd rfl ha
  | inf s => cases b <;> simp [mul, isZero, isNeg] at hb ⊢
  | fin s e f =>
    cases b with
    | nan => exact absurd rfl hb
    | inf t => simp [mul, isZero, isNeg]
    | fin t d g => simp [isFinite] at h

theorem inf_add (s : Bool) (hc : c ≠ .nan) : add (.inf s) c = if c = .inf (!s) then .nan else .inf s := by
  cases c with
  | nan => exact absurd rfl hc
  | inf t => cases s <;> cases t <;> rfl
  | fin u x y => rfl

include ha hb in
/-- A fused operation with an infinite factor adds to an infinite, or invalid, product. -/
theorem fma_of_infinite (hc : c ≠ .nan) (h : a.isFinite = false ∨ b.isFinite = false) :
    fma a b c = if a.isZero = true ∨ b.isZero = true ∨ c = .inf (!(a.isNeg ^^ b.isNeg)) then .nan
      else .inf (a.isNeg ^^ b.isNeg) := by
  have unfused : fma a b c = add (mul a b) c := by
    cases a <;> cases b <;> cases c <;> simp [isFinite] at ha hb hc h <;> rfl
  rw [unfused, mul_of_infinite ha hb h]
  by_cases hz : a.isZero = true ∨ b.isZero = true
  · rw [if_pos hz, if_pos (or_assoc.1 (.inl hz))]
    rfl
  · rw [if_neg hz, inf_add _ hc]
    simp only [← or_assoc, hz, false_or]

end

theorem fma_inf {a b : F64} (s : Bool) (ha : a.isFinite = true) (hb : b.isFinite = true) : fma a b (.inf s) = .inf s := by
  obtain ⟨_, _, _, rfl⟩ := isFinite_cases ha
  obtain ⟨_, _, _, rfl⟩ := isFinite_cases hb
  rfl

/-! ### Words (rules R10, R13) -/

/-- A NaN encoding, by its fields: exponent all ones, fraction not zero. -/
theorem isNaN_ofWord_fields (w : Word) :
    (ofWord w).isNaN = true ↔ w.extractLsb' 52 11 = 0x7FF ∧ w.extractLsb' 0 52 ≠ 0 := by
  rw [isNaN_ofWord, ne_eq, ne_eq, BitVec.toNat_eq, BitVec.toNat_eq, BitVec.extractLsb'_toNat, BitVec.extractLsb'_toNat,
    Nat.shiftRight_eq_div_pow, Nat.shiftRight_zero]
  rfl

/-! ### The elementary functions (rule R15) -/

theorem sin64_of_not_finite {a : F64} (h : a.isFinite = false) : sin64 a = .nan := by
  rw [sin64, h]
  rfl

theorem cos64_of_not_finite {a : F64} (h : a.isFinite = false) : cos64 a = .nan := by
  rw [cos64, h]
  rfl

section
variable {a : F64} (h : a.isFinite = true)
include h

theorem sin64_of_finite : sin64 a = if a.isZero = true then a else
    if a.isNeg = true then neg (Config.elementary.sin (neg a)) else Config.elementary.sin a := by
  rw [sin64, h]
  rfl

theorem cos64_of_finite : cos64 a = if a.isZero = true then one else Config.elementary.cos (abs a) := by
  rw [cos64, h]
  rfl

end

theorem sin64_neg (a : F64) : sin64 (neg a) = neg (sin64 a) := by
  cases finite : a.isFinite with
  | false => rw [sin64_of_not_finite finite, sin64_of_not_finite ((isFinite_neg a).trans finite)]; rfl
  | true =>
    have number : a ≠ .nan := ((isFinite_iff a).1 finite).1
    rw [sin64_of_finite finite, sin64_of_finite ((isFinite_neg a).trans finite), isZero_neg, isNeg_neg number]
    cases a.isZero with
    | true => rfl
    | false =>
      cases a.isNeg with
      | true => exact (neg_neg_value _).symm
      | false => exact congrArg (fun x => neg (Config.elementary.sin x)) (neg_neg_value a)

theorem abs_neg_value (a : F64) : abs (neg a) = abs a := by cases a <;> rfl

theorem cos64_neg (a : F64) : cos64 (neg a) = cos64 a := by
  cases finite : a.isFinite with
  | false => rw [cos64_of_not_finite finite, cos64_of_not_finite ((isFinite_neg a).trans finite)]
  | true =>
    rw [cos64_of_finite finite, cos64_of_finite ((isFinite_neg a).trans finite), isZero_neg, abs_neg_value]

theorem log10_of_pos {e f} (hz : (F64.fin false e f).isZero = false) :
    log10 (.fin false e f) = if F64.fin false e f = one then zero else Config.elementary.log10 (.fin false e f) := by
  rw [log10, hz]
  rfl

theorem log10_of_neg {e f} (hz : (F64.fin true e f).isZero = false) : log10 (.fin true e f) = .nan := by
  rw [log10, hz]
  rfl

theorem log10_one : log10 one = zero := (log10_of_pos (by decide)).trans (if_pos rfl)

theorem not_lt_zero_of_nonneg {a : F64} (h : a.isNeg = false) : ¬ lt a zero = true := fun below => by
  obtain ⟨-, -, order⟩ := (lt_iff_ord a zero).1 below
  rw [ord_zero, ord, h, if_neg Bool.false_ne_true] at order
  exact order.not_ge (Int.natCast_nonneg _)

theorem not_lt_zero_of_isZero {s : Bool} {e f} (h : (F64.fin s e f).isZero = true) : ¬ lt (.fin s e f) zero = true := by
  intro below
  obtain ⟨-, -, order⟩ := (lt_iff_ord _ zero).1 below
  have magBits : (F64.fin s e f).magBits = 0 := by
    obtain ⟨he, hf⟩ : e.val = 0 ∧ f.val = 0 := by simpa [isZero] using h
    simp [F64.magBits, he, hf]
  rw [ord_zero, ord, magBits, Nat.cast_zero, neg_zero, ite_self] at order
  exact order.false

theorem log10_of_lt_zero {a : F64} (h : lt a zero = true) : log10 a = .nan := by
  cases a with
  | nan => rfl
  | inf s =>
    cases s with
    | true => rfl
    | false => exact absurd h (not_lt_zero_of_nonneg rfl)
  | fin s e f =>
    cases s with
    | true => exact log10_of_neg (Bool.eq_false_iff.2 fun hz => not_lt_zero_of_isZero hz h)
    | false => exact absurd h (not_lt_zero_of_nonneg rfl)

/-! Within one unit in the last place -/

theorem ulp_nonneg (x : ℝ) : 0 ≤ ulp x := le_trans (by positivity) (ElementaryWitness.ulp_ge x)

theorem faithful_of_exact {r : F64} {x : ℝ} (finite : r.isFinite = true) (h : r.toReal = x) : r.Faithful x := by
  refine ⟨finite, ?_⟩
  rw [h, sub_self, abs_zero]
  exact ulp_nonneg x

theorem ulp_neg (x : ℝ) : ulp (-x) = ulp x := by
  simp only [ulp, neg_eq_zero, abs_neg]

theorem Faithful.neg {r : F64} {x : ℝ} (h : r.Faithful x) : (F64.neg r).Faithful (-x) := by
  obtain ⟨finite, near⟩ := h
  refine ⟨(isFinite_neg r).trans finite, ?_⟩
  rwa [toReal_neg, ulp_neg, ← neg_sub', abs_neg]

theorem toReal_of_isZero {a : F64} (h : a.isZero = true) : a.toReal = 0 := by
  cases a with
  | nan => cases h
  | inf s => cases h
  | fin s e f => rw [toReal, toInt_of_isZero h, Int.cast_zero, zero_div]

theorem toReal_one : one.toReal = 1 := by
  rw [toReal, one_toInt, Int.cast_pow, Int.cast_ofNat, div_self (by positivity)]

theorem toReal_abs (a : F64) : (abs a).toReal = |a.toReal| := by
  rw [abs_toReal]
  cases a with
  | nan => simp [abs, toReal, toInt, units]
  | inf s => simp [abs, toReal, toInt, units]
  | fin s e f => rfl

theorem isFinite_abs (a : F64) : (abs a).isFinite = a.isFinite := by cases a <;> rfl

section
variable {a : F64} (h : a.isFinite = true)
include h

theorem sin64_faithful : (sin64 a).Faithful (Real.sin a.toReal) := by
  rw [sin64_of_finite h]
  split
  next hz => exact faithful_of_exact h (by rw [toReal_of_isZero hz, Real.sin_zero])
  next =>
    split
    next =>
      have mirrored := (Config.elementary.sin_faithful (neg a) ((isFinite_neg a).trans h)).neg
      rwa [toReal_neg, Real.sin_neg, neg_neg] at mirrored
    next => exact Config.elementary.sin_faithful a h

theorem cos64_faithful : (cos64 a).Faithful (Real.cos a.toReal) := by
  rw [cos64_of_finite h]
  split
  next hz => exact faithful_of_exact rfl (by rw [toReal_of_isZero hz, Real.cos_zero, toReal_one])
  next =>
    have magnitude := Config.elementary.cos_faithful (abs a) ((isFinite_abs a).trans h)
    rwa [toReal_abs, Real.cos_abs] at magnitude

theorem log10_faithful (positive : 0 < a.toReal) : (log10 a).Faithful (Real.logb 10 a.toReal) := by
  have nonzero : a.isZero = false := Bool.eq_false_iff.2 fun hz => (toReal_of_isZero hz ▸ positive).false
  obtain ⟨s, e, f, rfl⟩ := isFinite_cases h
  cases s with
  | true =>
    rw [toReal_eq] at positive
    exact absurd positive (not_lt.2 (div_nonpos_of_nonpos_of_nonneg (by simp [isNeg]) (by positivity)))
  | false =>
    rw [log10_of_pos nonzero]
    split
    next h1 => exact faithful_of_exact rfl (by rw [h1, toReal_one, Real.logb_one, toReal_of_isZero rfl])
    next => exact Config.elementary.log10_faithful _ rfl positive

end

end F64

/-- Settles O54: finite operands give one rounding of the exact integer result; the special cases clause by clause. -/
theorem roundedToNearest : Obligations.RoundedToNearest := by
  unfold Obligations.RoundedToNearest
  refine ⟨fun a b ha hb => ?finite, fun n => F64.ofNat_exact, fun a ha => ⟨F64.isNeg_neg ha, F64.toEReal_neg a⟩,
    fun a b => F64.arithmetic_nan, F64.fma_nan, F64.arithmetic_inf_inf, fun s b => F64.arithmetic_inf_finite s,
    fun a b c => F64.fma_of_infinite, fun a b s => F64.fma_inf s, fun a b ha hb => ?zeros⟩
  case finite =>
    exact ⟨F64.add_roundsTo ha hb, F64.sub_roundsTo ha hb, F64.mul_roundsTo ha hb, F64.div_roundsTo ha hb,
      fun c => F64.fma_roundsTo ha hb⟩
  case zeros =>
    exact ⟨F64.div_by_isZero ha hb, F64.add_of_sum_zero ha hb, F64.sub_of_difference_zero ha hb,
      F64.mul_of_isZero ha hb, F64.div_of_isZero ha hb, fun c => F64.fma_of_result_zero ha hb⟩

open Machine

/-- Settles O57: encodings and values are inverse to each other; an output word encodes the computed value. -/
theorem wordsHoldValues : Obligations.WordsHoldValues := by
  unfold Obligations.WordsHoldValues
  refine ⟨F64.bits_ofWord, F64.isNaN_ofWord_fields, ofWord_encodeF64, fun s op j a => ⟨fun hc => ?reference,
    fun hc => ?tolerant, fun hn => ?number, fun ws rest hd => ?listed, fun hd => ?unlisted⟩⟩
  case reference => rw [State.outputWord, State.computed, hc]
  case tolerant => rw [State.outputWord, State.computed, hc]
  case number => rw [encodeF64, hn, if_neg Bool.false_ne_true]
  case listed => rw [State.drawnWord, hd, List.find?_cons_of_pos (by simp), Option.bind_some]
  case unlisted => rw [State.drawnWord, hd, List.find?_nil, Option.bind_none, Option.getD_none]

/-- Settles O59: law (d) of the three functions behind them, through the sign, zero and one that rule R15 fixes. -/
theorem elementaryLaws : Obligations.ElementaryLaws := by
  unfold Obligations.ElementaryLaws
  exact ⟨fun a => ⟨F64.sin64_neg a, F64.cos64_neg a⟩, ⟨rfl, rfl, F64.log10_one, rfl, rfl, rfl⟩,
    fun a => F64.log10_of_lt_zero, fun a h => ⟨F64.sin64_of_not_finite h, F64.cos64_of_not_finite h⟩,
    fun a h => ⟨F64.sin64_faithful h, F64.cos64_faithful h, F64.log10_faithful h⟩⟩

end Sys2Proof
end

section
/-! PROOFS of the statement about the square root (rule R11): the digits of the root with one sticky digit round as the exact root does. -/

namespace Sys2Proof
namespace F64

/-! ### A value between two neighbours of one grid rounds as every other value between them -/

/-- Two real numbers round to one value when they lie between `lo` and `hi` and no midpoint of two values does. Values below
`p`, itself a value not above `lo`, do not matter. -/
theorem RoundsTo.of_interval {r p : F64} {lo hi x y : ℝ} (h : r.RoundsTo x) (hp : p.isFinite = true) (p_nonneg : 0 ≤ p.toReal)
    (p_lo : p.toReal ≤ lo) (hi_bound : hi ≤ 2 ^ 1024 - 2 ^ 970) (lo_x : lo < x) (x_hi : x < hi) (lo_y : lo < y) (y_hi : y < hi)
    (gap : ∀ c d : F64, p.toReal ≤ c.toReal → p.toReal ≤ d.toReal →
      c.toReal + d.toReal ≤ 2 * lo ∨ 2 * hi ≤ c.toReal + d.toReal) : r.RoundsTo y := by
  have x_pos : 0 < x := by linarith
  have y_pos : 0 < y := by linarith
  have hr : r.isFinite = true := by
    rw [h.finite, abs_of_pos x_pos]
    linarith
  have p_r : p.toReal ≤ r.toReal := h.ge hr hp (by linarith)
  have near_x : ∀ c : F64, c.isFinite = true → 0 ≤ (c.toReal - r.toReal) * (c.toReal + r.toReal - 2 * x) := fun c hc => by
    have := sq_le_sq.2 (h.nearest hr c hc)
    nlinarith
  have beyond : ∀ c : F64, c.isFinite = true → p.toReal ≤ c.toReal → c.toReal ≠ r.toReal → |r.toReal - y| < |c.toReal - y| := by
    intro c hc hpc hne
    refine sq_lt_sq.1 ?_
    have key : 0 < (c.toReal - r.toReal) * (c.toReal + r.toReal - 2 * y) := by
      rcases gap c r hpc p_r with below | above
      · have : c.toReal - r.toReal < 0 :=
          lt_of_le_of_ne (nonpos_of_mul_nonneg_left (near_x c hc) (by linarith)) (sub_ne_zero.2 hne)
        exact mul_pos_of_neg_of_neg this (by linarith)
      · have : 0 < c.toReal - r.toReal :=
          lt_of_le_of_ne (nonneg_of_mul_nonneg_left (near_x c hc) (by linarith)) (sub_ne_zero.2 hne).symm
        exact mul_pos this (by linarith)
    nlinarith
  have far : ∀ c : F64, c.isFinite = true → c.toReal ≠ r.toReal → |r.toReal - y| < |c.toReal - y| := by
    intro c hc hne
    rcases le_or_gt p.toReal c.toReal with hpc | hpc
    · exact beyond c hc hpc hne
    · have own : |r.toReal - y| ≤ |p.toReal - y| := by
        by_cases hpr : p.toReal = r.toReal
        · rw [hpr]
        · exact (beyond p hp le_rfl hpr).le
      refine own.trans_lt ?_
      rw [abs_of_neg (by linarith), abs_of_neg (by linarith)]
      linarith
  refine ⟨fun _ => ?_, iff_of_true hr ?_, fun infinite => ?_, fun _ c hc => ?_, fun _ c hc hne tie => ?_⟩
  · rw [h.sign x_pos.ne', decide_eq_false x_pos.not_gt, decide_eq_false y_pos.not_gt]
  · rw [abs_of_pos y_pos]
    linarith
  · cases hr.symm.trans infinite
  · by_cases hne : c.toReal = r.toReal
    · rw [hne]
    · exact (far c hc hne).le
  · exact absurd tie (far c hc hne).ne'

/-! ### The digits of a root -/

/-- How many pairs of bits the root of `n` drops. -/
def rootShift (n : Nat) : Nat := (n.log2 - 108) / 2

/-- The 55 leading binary digits of the root of `n`. -/
def rootHead (n : Nat) : Nat := root56 (n / 4 ^ rootShift n)

theorem sqrt_of_pos {e f} (hz : (F64.fin false e f).isZero = false) (n : Nat) (hn : (F64.fin false e f).units * 2 ^ 1074 = n) :
    sqrt (.fin false e f) = round false
      ((2 * rootHead n + if rootHead n * rootHead n * 4 ^ rootShift n = n then 0 else 1) * 2 ^ rootShift n) 2 := by
  simp only [sqrt, hz, hn, Bool.false_eq_true, if_false, rootHead, rootShift]
  congr

section
variable {n : Nat} (hn : 2 ^ 108 ≤ n)
include hn

theorem root_quotient_bounds : 2 ^ 108 ≤ n / 4 ^ rootShift n ∧ n / 4 ^ rootShift n < 2 ^ 110 := by
  have n0 : n ≠ 0 := (lt_of_lt_of_le (by decide) hn).ne'
  have long : 108 ≤ n.log2 := (Nat.le_log2 n0).2 hn
  have low := Nat.log2_self_le n0
  have high := Nat.lt_log2_self (n := n)
  have step : (4 : Nat) ^ rootShift n = 2 ^ (2 * rootShift n) := (Nat.pow_mul 2 2 _).symm
  rw [step, Nat.le_div_iff_mul_le (Nat.two_pow_pos _), Nat.div_lt_iff_lt_mul (Nat.two_pow_pos _), ← Nat.pow_add, ← Nat.pow_add]
  unfold rootShift
  exact ⟨(Nat.pow_le_pow_right (by decide) (by omega)).trans low,
    high.trans_le (Nat.pow_le_pow_right (by decide) (by omega))⟩

theorem rootHead_bounds : 2 ^ 54 ≤ rootHead n ∧ rootHead n < 2 ^ 55 := by
  obtain ⟨low, high⟩ := root_quotient_bounds hn
  obtain ⟨below, above⟩ := root56_spec (high.trans (by decide))
  change rootHead n * rootHead n ≤ _ at below
  change _ < (rootHead n + 1) * (rootHead n + 1) at above
  constructor
  · by_contra short
    have := Nat.mul_le_mul (show rootHead n + 1 ≤ 2 ^ 54 by omega) (show rootHead n + 1 ≤ 2 ^ 54 by omega)
    omega
  · by_contra long
    have := Nat.mul_le_mul (not_lt.1 long) (not_lt.1 long)
    omega

theorem rootHead_sq_le : rootHead n * rootHead n * 4 ^ rootShift n ≤ n := by
  obtain ⟨below, -⟩ := root56_spec ((root_quotient_bounds hn).2.trans (by decide))
  exact (Nat.mul_le_mul_right _ below).trans (Nat.div_mul_le_self _ _)

theorem lt_rootHead_succ_sq : n < (rootHead n + 1) * (rootHead n + 1) * 4 ^ rootShift n := by
  obtain ⟨-, above⟩ := root56_spec ((root_quotient_bounds hn).2.trans (by decide))
  exact (Nat.div_lt_iff_lt_mul (by positivity)).1 above

end

/-! ### Values from a size on are multiples of a unit -/

theorem dvd_of_fits {n h : Nat} (fits : Fits n) (large : 2 ^ (54 + h) ≤ n) : 2 ^ (h + 2) ∣ n := by
  obtain ⟨m, k, rfl, hm, -, -⟩ := fits
  have hk : h + 2 ≤ k := by
    by_contra short
    have : m * 2 ^ k < 2 ^ 53 * 2 ^ (h + 1) :=
      Nat.mul_lt_mul_of_lt_of_le hm (Nat.pow_le_pow_right (by decide) (by omega)) (Nat.two_pow_pos _)
    rw [← Nat.pow_add, show 53 + (h + 1) = 54 + h by omega] at this
    exact large.not_gt this
  exact (Nat.pow_dvd_pow 2 hk).mul_left m

theorem units_below_overflow {q h : Nat} (digits : q ≤ 2 ^ 55) (small : h ≤ 1531) :
    ((q * 2 ^ h : Nat) : ℝ) / 2 ^ 1074 ≤ 2 ^ 1024 - 2 ^ 970 := by
  rw [div_le_iff₀ (by positivity), overflow_bound, Nat.cast_le]
  have power : 2 ^ 55 * 2 ^ h ≤ 2 ^ 2044 := by
    rw [← pow_add]
    exact Nat.pow_le_pow_right Nat.two_pos (by omega)
  refine (Nat.mul_le_mul_right _ digits).trans (power.trans ?_)
  generalize 2 ^ 2044 = top
  omega

theorem fits_pow {h : Nat} (small : h ≤ 2043) : Fits (2 ^ (54 + h)) := by
  refine ⟨2 ^ 52, h + 2, ?_, by decide, .inr le_rfl, by omega⟩
  rw [← pow_add, ← Nat.add_assoc, Nat.add_right_comm]

theorem exists_of_fits {n : Nat} (fits : Fits n) : ∃ a : F64, a.isFinite = true ∧ a.toReal = (n : ℝ) / 2 ^ 1074 := by
  obtain ⟨finite, units⟩ := ofUnits_of_fits false fits
  refine ⟨ofUnits false n, finite, ?_⟩
  rw [toReal_eq, ofUnits_isNeg, units, if_neg Bool.false_ne_true, one_mul]

/-- The value of a number that is at least a positive one, by its units. -/
theorem toReal_of_pos_le {c : F64} {x : ℝ} (hx : 0 < x) (h : x ≤ c.toReal) : c.toReal = (c.units : ℝ) / 2 ^ 1074 := by
  rw [← abs_toReal, abs_of_pos (hx.trans_le h)]

/-- No midpoint of two values from `2^(54+h)` units on lies between two successive multiples of `2^h` units. -/
theorem midpoint_gap {h r : Nat} {c d : F64} (hc : ((2 ^ (54 + h) : Nat) : ℝ) / 2 ^ 1074 ≤ c.toReal)
    (hd : ((2 ^ (54 + h) : Nat) : ℝ) / 2 ^ 1074 ≤ d.toReal) :
    c.toReal + d.toReal ≤ 2 * (((r * 2 ^ h : Nat) : ℝ) / 2 ^ 1074) ∨
      2 * ((((r + 1) * 2 ^ h : Nat) : ℝ) / 2 ^ 1074) ≤ c.toReal + d.toReal := by
  have hY : (0 : ℝ) < 2 ^ 1074 := by positivity
  have positive : (0 : ℝ) < ((2 ^ (54 + h) : Nat) : ℝ) / 2 ^ 1074 :=
    div_pos (Nat.cast_pos.2 (Nat.two_pow_pos _)) hY
  have value_c := toReal_of_pos_le positive hc
  have value_d := toReal_of_pos_le positive hd
  rw [value_c] at hc ⊢
  rw [value_d] at hd ⊢
  rw [div_le_div_iff_of_pos_right hY, Nat.cast_le] at hc hd
  rw [← add_div, ← mul_div_assoc, ← mul_div_assoc, div_le_div_iff_of_pos_right hY, div_le_div_iff_of_pos_right hY]
  obtain ⟨s, hs⟩ := dvd_of_fits (units_fits c) hc
  obtain ⟨t, ht⟩ := dvd_of_fits (units_fits d) hd
  have sum : c.units + d.units = 4 * (s + t) * 2 ^ h := by rw [hs, ht, Nat.pow_add]; ring
  have grid : 4 * (s + t) ≤ 2 * r ∨ 2 * (r + 1) ≤ 4 * (s + t) := by omega
  refine grid.imp (fun below => ?_) fun above => ?_
  · have : c.units + d.units ≤ 2 * (r * 2 ^ h) := by
      rw [sum, ← Nat.mul_assoc]
      exact Nat.mul_le_mul_right _ below
    exact_mod_cast this
  · have : 2 * ((r + 1) * 2 ^ h) ≤ c.units + d.units := by
      rw [sum, ← Nat.mul_assoc]
      exact Nat.mul_le_mul_right _ above
    exact_mod_cast this

/-! ### The root -/

theorem sqrt_toReal {a : F64} {n : Nat} (sign : a.isNeg = false) (hn : a.units * 2 ^ 1074 = n) :
    Real.sqrt a.toReal = Real.sqrt n / 2 ^ 1074 := by
  have hY : (0 : ℝ) < 2 ^ 1074 := by positivity
  have scaled : a.toReal = (n : ℝ) / (2 ^ 1074) ^ 2 := by
    rw [toReal_eq, sign, if_neg Bool.false_ne_true, one_mul, ← hn, Nat.cast_mul, Nat.cast_pow, Nat.cast_ofNat]
    generalize (2 : ℝ) ^ 1074 = Y at *
    field_simp
  rw [scaled, Real.sqrt_div (Nat.cast_nonneg n), Real.sqrt_sq hY.le]

/-- The square of a number of units `q · 2^h`. -/
theorem sq_units (q h : Nat) : (((q * 2 ^ h : Nat) : ℝ)) ^ 2 = ((q * q * 4 ^ h : Nat) : ℝ) := by
  rw [← Nat.cast_pow, show 4 = 2 ^ 2 from rfl, ← Nat.pow_mul, Nat.mul_comm 2 h, Nat.pow_mul]
  congr 1
  ring

theorem sqrt_roundsTo_of_pos {e f} (hz : (F64.fin false e f).isZero = false) :
    (sqrt (.fin false e f)).RoundsTo (Real.sqrt (F64.fin false e f).toReal) := by
  obtain ⟨n, hn⟩ : ∃ n, (F64.fin false e f).units * 2 ^ 1074 = n := ⟨_, rfl⟩
  have units_pos : 0 < (F64.fin false e f).units := Nat.pos_of_ne_zero fun h => by
    cases hz.symm.trans ((units_eq_zero_iff false e f).1 h)
  have n_large : 2 ^ 108 ≤ n := by
    rw [← hn]
    exact (Nat.pow_le_pow_right Nat.two_pos (by omega)).trans (Nat.le_mul_of_pos_left _ units_pos)
  have shift : rootShift n ≤ 1531 := by
    have n_small : n < 2 ^ 3172 := by
      calc n = (F64.fin false e f).units * 2 ^ 1074 := hn.symm
        _ < 2 ^ 2098 * 2 ^ 1074 := Nat.mul_lt_mul_of_pos_right (ElementaryWitness.units_lt _) (by positivity)
        _ = 2 ^ 3172 := (pow_add 2 2098 1074).symm
    have : n.log2 < 3172 := (Nat.log2_lt (by omega)).2 n_small
    unfold rootShift
    omega
  obtain ⟨head_low, head_high⟩ := rootHead_bounds n_large
  have root_low := rootHead_sq_le n_large
  have root_high := lt_rootHead_succ_sq n_large
  rw [sqrt_toReal rfl hn, sqrt_of_pos hz n hn]
  clear hn
  generalize rootHead n = r at *
  generalize rootShift n = h at *
  split
  next exact =>
    have root : Real.sqrt n = ((r * 2 ^ h : Nat) : ℝ) := by
      rw [← exact, ← sq_units, Real.sqrt_sq (Nat.cast_nonneg _)]
    refine round_roundsTo _ _ Nat.two_pos ?_
    rw [root, if_neg Bool.false_ne_true]
    push_cast
    ring
  next inexact =>
    have hY : (0 : ℝ) < 2 ^ 1074 := by positivity
    have half := round_roundsTo false ((2 * r + 1) * 2 ^ h) (den := 2) Nat.two_pos rfl
    obtain ⟨p, finite, value⟩ := exists_of_fits (fits_pow (h := h) (by omega))
    have low : ((r * 2 ^ h : Nat) : ℝ) < Real.sqrt n := by
      rw [Real.lt_sqrt (Nat.cast_nonneg _), sq_units, Nat.cast_lt]
      exact lt_of_le_of_ne root_low inexact
    have high : Real.sqrt n < (((r + 1) * 2 ^ h : Nat) : ℝ) := by
      rw [Real.sqrt_lt' (by positivity), sq_units, Nat.cast_lt]
      exact root_high
    have step : (((r + 1) * 2 ^ h : Nat) : ℝ) = ((r * 2 ^ h : Nat) : ℝ) + 2 ^ h := by push_cast; ring
    have middle : (((2 * r + 1) * 2 ^ h : Nat) : ℝ) / (2 : Nat) = ((r * 2 ^ h : Nat) : ℝ) + 2 ^ h / 2 := by push_cast; ring
    have unit : (0 : ℝ) < 2 ^ h := by positivity
    refine half.of_interval (p := p) (lo := ((r * 2 ^ h : Nat) : ℝ) / 2 ^ 1074) (hi := (((r + 1) * 2 ^ h : Nat) : ℝ) / 2 ^ 1074)
      finite ?_ ?_ ?_ ?_ ?_ (div_lt_div_of_pos_right low hY) (div_lt_div_of_pos_right high hY)
      fun c d hc hd => midpoint_gap (value ▸ hc) (value ▸ hd)
    · rw [value]
      positivity
    · rw [value, div_le_div_iff_of_pos_right hY, Nat.cast_le, pow_add]
      exact Nat.mul_le_mul_right _ head_low
    · exact units_below_overflow head_high shift
    · rw [middle, if_neg Bool.false_ne_true, one_mul, div_lt_div_iff_of_pos_right hY]
      linarith
    · rw [middle, if_neg Bool.false_ne_true, one_mul, step, div_lt_div_iff_of_pos_right hY]
      linarith

theorem sqrt_of_isZero {a : F64} (h : a.isZero = true) : sqrt a = a := by
  cases a with
  | nan => cases h
  | inf s => cases h
  | fin s e f =>
    obtain ⟨he, hf⟩ : e.val = 0 ∧ f.val = 0 := by simpa [isZero] using h
    rw [sqrt, h, show e = 0 from Fin.ext he, show f = 0 from Fin.ext hf]
    rfl

theorem sqrt_of_neg {a : F64} (finite : a.isFinite = true) (nonzero : a.isZero = false) (sign : a.isNeg = true) :
    sqrt a = .nan := by
  obtain ⟨s, e, f, rfl⟩ := isFinite_cases finite
  obtain rfl : s = true := sign
  rw [sqrt, nonzero]
  rfl

theorem sqrt_roundsTo {a : F64} (finite : a.isFinite = true) (sign : a.isNeg = false) :
    (sqrt a).RoundsTo (Real.sqrt a.toReal) := by
  obtain ⟨s, e, f, rfl⟩ := isFinite_cases finite
  obtain rfl : s = false := sign
  cases hz : (F64.fin false e f).isZero with
  | false => exact sqrt_roundsTo_of_pos hz
  | true =>
    have zero := roundInt_roundsTo 0 Nat.one_pos false
    rw [sqrt_of_isZero hz, toReal_of_isZero hz, Real.sqrt_zero]
    have same : F64.fin false e f = roundInt 0 1 false := fin_ext _ _ _ _ _ _ rfl ((units_eq_zero_iff _ _ _).2 hz)
    rwa [Int.cast_zero, zero_div, zero_div, ← same] at zero

end F64

/-- Settles O55: when digits are left below the 55 found, the exact root lies strictly between two multiples of their unit,
and no midpoint of two values does. -/
theorem rootRoundedToNearest : Obligations.RootRoundedToNearest := by
  unfold Obligations.RootRoundedToNearest
  exact ⟨fun a finite => ⟨F64.sqrt_of_isZero, F64.sqrt_of_neg finite, F64.sqrt_roundsTo finite⟩, rfl, rfl, rfl⟩

end Sys2Proof
end

section
/-! PROOFS of the statement that a command reads only its row's registers, and only their values (rules R128, R175, conflict C9). -/

namespace Sys2Proof
namespace Machine

/-! ### The copied operands matter by the row's registers only (rule R128) -/

section
variable {s : State} {p q : Params} (cmd : q.cmd = p.cmd)
include cmd

theorem raiseError_run (c : ErrorCode) : raiseError c { s with phase := .run q } = raiseError c { s with phase := .run p } := by
  simp only [raiseError, State.opcode, State.operands, cmd]

theorem complete_run (n : Nat) : complete n { s with phase := .run q } = complete n { s with phase := .run p } := by
  simp only [complete, State.opcode, State.operands, cmd]

theorem completeWith_run {op : Operation} {vs : List F64} (base : q.dBase = p.dBase) :
    completeWith q op vs { s with phase := .run q } = completeWith p op vs { s with phase := .run p } := by
  rw [completeWith, completeWith, outputWords_phase s (.run q), outputWords_phase s (.run p), base]
  exact complete_run cmd _ (s := State.delivered vs.length (storeWords p.dBase.toNat (s.outputWords op 0 vs) s))

/-- A guarded command depends on the operands by its checks and by what it does past them. -/
theorem guarded_run {i : Instr} {k l : Params → Result}
    (check : boundaryCheck s.cfg.dmemWords i q = boundaryCheck s.cfg.dmemWords i p)
    (rest : k q = l p) : guarded i { s with phase := .run q } k = guarded i { s with phase := .run p } l := by
  have checks : boundaryCheck { s with phase := Phase.run q }.cfg.dmemWords i (State.operands { s with phase := .run q }) =
      boundaryCheck { s with phase := Phase.run p }.cfg.dmemWords i (State.operands { s with phase := .run p }) := check
  rw [guarded, guarded, checks]
  split
  · exact congrArg _ (raiseError_run cmd _)
  · exact rest

theorem peakWith_run {derived : Bool} {n : Nat} (base : q.aBase = p.aBase) (len : q.aLen = p.aLen) (fs : q.fs = p.fs) :
    peakWith { s with phase := .run q } q derived n = peakWith { s with phase := .run p } p derived n := by
  simp only [peakWith, Params.peakOperation, base, len, fs]
  split
  · rfl
  next r _ =>
    exact congrArg Host.Outcome.next (complete_run cmd 0 (s := State.delivered 2 { s with
      res0 := s.outputWord (p.peakOperation s.dmem derived n) 1
        (peakFreq (s.peakBin (p.peakOperation s.dmem derived n) p.aLen.toNat r) (F64.ofWord p.fs) n)
      res1 := BitVec.ofNat 32 (s.peakBin (p.peakOperation s.dmem derived n) p.aLen.toNat r) }))

end

/-- The checks read the row's registers only. -/
theorem boundaryCheck_congr {n : Nat} {i : Instr} {p q : Params} (invalid : invalidCheck i q = invalidCheck i p)
    (length : lengthCheck i q = lengthCheck i p) (degenerate : degenerateCheck i q = degenerateCheck i p)
    (source : sources i q = sources i p) (destination : destinations i q = destinations i p) :
    boundaryCheck n i q = boundaryCheck n i p := by
  rw [boundaryCheck, boundaryCheck, invalid, length, degenerate, rangeCheck, rangeCheck, aliasCheck, aliasCheck, source,
    destination]

theorem exec_reads_row {i : Instr} {s : State} {p q : Params} (cmd : q.cmd = p.cmd)
    (a : i ∈ [Instr.convZero, .lpfZero, .rfft, .mag, .snr, .peakOrig, .peakDerive] → q.aBase = p.aBase ∧ q.aLen = p.aLen)
    (bBase : i ∈ [Instr.convZero, .lpfZero, .snr] → q.bBase = p.bBase)
    (bLen : i ∈ [Instr.convZero, .snr] → q.bLen = p.bLen)
    (dBase : i ∈ [Instr.firdes, .convZero, .lpfZero, .rfft, .mag] → q.dBase = p.dBase)
    (taps : i ∈ [Instr.firdes, .lpfZero] → q.nTaps = p.nTaps ∧ q.cutoff = p.cutoff)
    (fs : i ∈ [Instr.peakOrig, .peakDerive] → q.fs = p.fs) (origLen : i = .peakOrig → q.origLen = p.origLen) :
    exec i { s with phase := .run q } = exec i { s with phase := .run p } := by
  cases i with
  | nop => exact congrArg Host.Outcome.next (complete_run cmd 0)
  | firdes =>
    obtain ⟨n, fc⟩ := taps (by decide)
    have d := dBase (by decide)
    simp only [exec, execFirdes]
    refine guarded_run (i := .firdes) (s := s) cmd (boundaryCheck_congr ?_ rfl rfl rfl ?_) ?_
    · simp only [invalidCheck, designInvalid, n, fc]
    · simp only [destinations, Params.destD, n, d]
    · simp only [n, fc, d, tapWords_phase]
      cases s.tapWords (F64.ofWord p.cutoff) p.nTaps.toNat with
      | none => exact congrArg Host.Outcome.next (raiseError_run cmd _)
      | some ws =>
        exact congrArg Host.Outcome.next (complete_run cmd _
          (s := State.delivered (tapDraws p.nTaps.toNat) (storeWords p.dBase.toNat ws s)))
  | convZero =>
    obtain ⟨base, len⟩ := a (by decide)
    have b := bBase (by decide)
    have m := bLen (by decide)
    have d := dBase (by decide)
    simp only [exec, execConvZero]
    refine guarded_run (i := .convZero) (s := s) cmd (boundaryCheck_congr ?_ rfl ?_ ?_ ?_) ?_
    · simp only [invalidCheck, m]
    · simp only [degenerateCheck, len]
    · simp only [sources, Params.signalA, Params.bufferB, base, len, b, m]
    · simp only [destinations, Params.destD, d, len]
    · simp only [Params.signalA, Params.bufferB, base, len, b, m, withBuffer_phase, completeWith_run cmd d]
  | lpfZero =>
    obtain ⟨base, len⟩ := a (by decide)
    obtain ⟨n, fc⟩ := taps (by decide)
    have b := bBase (by decide)
    have d := dBase (by decide)
    simp only [exec, execLpfZero]
    refine guarded_run (i := .lpfZero) (s := s) cmd (boundaryCheck_congr ?_ rfl ?_ ?_ ?_) ?_
    · simp only [invalidCheck, designInvalid, n, fc]
    · simp only [degenerateCheck, len]
    · simp only [sources, Params.signalA, base, len]
    · simp only [destinations, Params.tapsB, Params.destD, b, n, d, len]
    · simp only [n, fc, d, b, Params.signalA, base, len, tapWords_phase, withBuffer_phase]
      cases s.tapWords (F64.ofWord p.cutoff) p.nTaps.toNat with
      | none => exact congrArg Host.Outcome.next (raiseError_run cmd _)
      | some ws =>
        refine congrArg (withBuffer s _) (funext fun sig => congrArg Host.Outcome.next ?_)
        have out : ∀ r, (State.delivered (tapDraws p.nTaps.toNat) { s with phase := .run r }).outputWords
            (.conv sig (ws.map F64.ofWord)) 0 (conv s.cfg.macFused sig (ws.map F64.ofWord)) =
            (State.delivered (tapDraws p.nTaps.toNat) s).outputWords
              (.conv sig (ws.map F64.ofWord)) 0 (conv s.cfg.macFused sig (ws.map F64.ofWord)) :=
          fun r => outputWords_phase (State.delivered (tapDraws p.nTaps.toNat) s) (.run r) _ _ _
        rw [out, out]
        exact complete_run cmd _ (s := State.delivered (tapDraws p.nTaps.toNat + sig.length)
          (storeWords p.dBase.toNat _ (storeWords p.bBase.toNat ws s)))
  | rfft =>
    obtain ⟨base, len⟩ := a (by decide)
    have d := dBase (by decide)
    simp only [exec, execRfft]
    refine guarded_run (i := .rfft) (s := s) cmd (boundaryCheck_congr rfl rfl ?_ ?_ ?_) ?_
    · simp only [degenerateCheck, len]
    · simp only [sources, Params.signalA, base, len]
    · simp only [destinations, Params.destD, d, len]
    · simp only [Params.signalA, base, len, withBuffer_phase, completeWith_run cmd d]
  | mag =>
    obtain ⟨base, len⟩ := a (by decide)
    have d := dBase (by decide)
    simp only [exec, execMag]
    refine guarded_run (i := .mag) (s := s) cmd (boundaryCheck_congr rfl rfl ?_ ?_ ?_) ?_
    · simp only [degenerateCheck, len]
    · simp only [sources, Params.spectrumA, base, len]
    · simp only [destinations, Params.destD, d, len]
    · simp only [Params.spectrumA, base, len, withBuffer_phase, completeWith_run cmd d]
  | snr =>
    obtain ⟨base, len⟩ := a (by decide)
    have b := bBase (by decide)
    have m := bLen (by decide)
    simp only [exec, execSnr]
    refine guarded_run (i := .snr) (s := s) cmd (boundaryCheck_congr rfl ?_ ?_ ?_ rfl) ?_
    · simp only [lengthCheck, len, m]
    · simp only [degenerateCheck, len]
    · simp only [sources, Params.signalA, Params.bufferB, base, len, b, m]
    · simp only [Params.signalA, Params.bufferB, base, len, b, m, withBuffer_phase]
      refine congrArg (withBuffer s _) (funext fun r => congrArg (withBuffer s _) (funext fun x => ?_))
      split
      · exact congrArg Host.Outcome.next (complete_run cmd 0 (s := { s with res0 := (F64.inf false).bits }))
      · exact congrArg Host.Outcome.next (complete_run cmd 0 (s := State.delivered 1
          { s with res0 := s.outputWord (.snr r x) 0 (snrOf (powerSums r x)) }))
  | peakOrig =>
    obtain ⟨base, len⟩ := a (by decide)
    have rate := fs (by decide)
    have original := origLen rfl
    simp only [exec, execPeakOrig]
    refine guarded_run (i := .peakOrig) (s := s) cmd (boundaryCheck_congr ?_ ?_ ?_ ?_ rfl) ?_
    · simp only [invalidCheck, rateInvalid, rate, original]
    · simp only [lengthCheck, original, len]
    · simp only [degenerateCheck, len]
    · simp only [sources, Params.spectrumA, base, len]
    · rw [original, peakWith_run cmd base len rate]
  | peakDerive =>
    obtain ⟨base, len⟩ := a (by decide)
    have rate := fs (by decide)
    simp only [exec, execPeakDerive]
    refine guarded_run (i := .peakDerive) (s := s) cmd (boundaryCheck_congr ?_ rfl ?_ ?_ rfl) ?_
    · simp only [invalidCheck, rateInvalid, rate]
    · simp only [degenerateCheck, len]
    · simp only [sources, Params.spectrumA, base, len]
    · rw [len, peakWith_run cmd base len rate]

/-! ### No step changes the function the datapath computes -/

theorem exec_drawn {i : Instr} {s t : State} (h : exec i s = .next t) : t.drawn = s.drawn := by
  rcases exec_cases h with ⟨_, rfl, -⟩ | ⟨-, _, _, _, _, -, -, -, -, rfl⟩
  · rfl
  · rfl

theorem engineMove_drawn {s t : State} (h : engineMove s = .next t) : t.drawn = s.drawn := by
  rcases engineMove_cases s with ⟨-, e⟩ | ⟨_, _, _, _, e⟩ | ⟨_, i, _, _, e⟩ <;> rw [e] at h
  · cases h; rfl
  · cases h; rfl
  · exact exec_drawn h

theorem writeCtrl_drawn (v : Word) (s : State) : (writeCtrl v s).drawn = s.drawn := by
  rcases writeCtrl_cases v s with ⟨_, e⟩ | ⟨_, _, e⟩ | ⟨_, _, _, e⟩ | ⟨_, _, _, e⟩ <;> rw [e]
  rfl

theorem writeReg_drawn (r : Reg) (v : Word) (s : State) : (writeReg r v s).drawn = s.drawn := by
  rcases writeReg_cases r v s with e | e | e | ⟨_, e⟩ | ⟨_, _, e⟩ <;> rw [e]
  · rfl
  · exact writeCtrl_drawn v s
  · rfl

theorem perform_drawn {a : Access} {s t : State} (h : perform a s = .next t) : t.drawn = s.drawn := by
  rcases perform_cases h with rfl | rfl | ⟨r, rfl⟩ | ⟨_, _, _, _, _, rfl⟩ | ⟨_, _, _, _, rfl⟩
  · rfl
  · rfl
  · rcases accessReg_cases r a.kind s with ⟨_, e⟩ | ⟨v, q, _, _, e⟩ <;> rw [e]
    · rfl
    · exact writeReg_drawn q v s
  · rfl
  · rfl

theorem step_drawn {s t : State} (h : step s = .next t) : t.drawn = s.drawn := by
  rcases step_cases s with ⟨e, _⟩ | ⟨rest, _, e⟩ | ⟨rest, _, e⟩ | ⟨a, rest, _, _, e⟩ <;> rw [e] at h
  · exact engineMove_drawn h
  · have kept := engineMove_drawn h
    exact kept
  · cases h; rfl
  · have kept := perform_drawn h
    exact kept

/-! ### Equal values read, equal values written (rule R175) -/

theorem exec_of_ready_peak {i : Instr} {s : State} (hi : i ∈ [Instr.peakOrig, .peakDerive]) (hr : Ready i s) :
    ∃ t, exec i s = .next t := by
  obtain ⟨bins, hb⟩ := holdsBins_of_specified (m := s.operands.aLen.toNat - 1) rfl (searchedA_specified_of_ready hi hr)
  obtain ⟨r, found, -⟩ := peakSearch_of_holdsBins hb (two_le_aLen_of_ready_peak hi hr)
  exact ⟨_, (exec_peak_ready hi hr).trans (peakWith_of_found found)⟩

/-- A command that is ready completes. -/
theorem exec_of_ready {i : Instr} {s : State} (hr : Ready i s) : ∃ t, exec i s = .next t := by
  cases i with
  | nop => exact ⟨_, rfl⟩
  | firdes =>
    obtain ⟨t, -, he, -⟩ := exec_firdes_words hr
    exact ⟨t, he⟩
  | convZero =>
    obtain ⟨-, -, -, -, -, -, -, signal, coefficients⟩ := id hr
    obtain ⟨sig, hs⟩ := holds_of_specified signal
    obtain ⟨h, hh⟩ := holds_of_specified coefficients
    exact ⟨_, exec_convZero_holds hr hs hh⟩
  | lpfZero =>
    obtain ⟨-, -, -, -, -, -, -, -, -, designed, signal⟩ := id hr
    obtain ⟨sig, hs⟩ := holds_of_specified signal
    obtain ⟨taps, ws, -, hw, -⟩ := tapWords_of_designExists (s := s) designed
    exact ⟨_, exec_lpfZero_holds hr hs hw⟩
  | rfft =>
    obtain ⟨-, -, -, -, signal⟩ := id hr
    obtain ⟨sig, hs⟩ := holds_of_specified signal
    exact ⟨_, exec_rfft_holds hr hs⟩
  | mag =>
    obtain ⟨-, -, -, -, bins⟩ := id hr
    obtain ⟨bins, hb⟩ := holdsBins_of_specified (m := s.operands.aLen.toNat) rfl bins
    exact ⟨_, exec_mag_holds hr hb⟩
  | snr =>
    obtain ⟨-, -, -, -, reference, test⟩ := id hr
    obtain ⟨r, h1⟩ := holds_of_specified reference
    obtain ⟨x, h2⟩ := holds_of_specified test
    obtain ⟨t, he, -⟩ := exec_snr_res0 hr h1 h2
    exact ⟨t, he⟩
  | peakOrig => exact exec_of_ready_peak (by decide) hr
  | peakDerive => exact exec_of_ready_peak (by decide) hr

theorem tapWords_some {s : State} {fc : F64} {n : Nat} {ws : List Word} (hw : s.tapWords fc n = some ws) :
    ∃ taps, design fc n = some taps ∧ ws.length = n ∧ ∀ i, i < n → ws[i]? = some (if n = 1 then F64.one.bits
      else s.outputWord (.taps fc n) (min i (n - 1 - i)) (taps.getD (min i (n - 1 - i)) F64.zero)) := by
  rcases tapWords_cases s fc n with ⟨-, h⟩ | ⟨taps, us, hd, h, hl, words⟩
  · cases hw.symm.trans h
  · obtain rfl : ws = us := Option.some.inj (hw.symm.trans h)
    exact ⟨taps, hd, hl, words⟩

section
variable {s u : State} (cfg : u.cfg = s.cfg) (drawn : u.drawn = s.drawn)
include cfg drawn

theorem ofWord_outputWord_congr (op : Operation) (j : Nat) (a : F64) :
    F64.ofWord (u.outputWord op j a) = F64.ofWord (s.outputWord op j a) := by
  rw [ofWord_outputWord, ofWord_outputWord, computed_congr cfg drawn]

theorem peakBin_congr (op : Operation) (count : Nat) (r : Peak) : u.peakBin op count r = s.peakBin op count r := by
  unfold State.peakBin State.drawnWord
  rw [cfg, drawn]

theorem completeWith_values {p q : Params} (op : Operation) {vs : List F64} {k : Nat} (hk : k < vs.length) :
    (Memory.readWord (completeWith q op vs u).dmem (q.dBase.toNat + k)).map F64.ofWord =
      (Memory.readWord (completeWith p op vs s).dmem (p.dBase.toNat + k)).map F64.ofWord := by
  have x := List.getElem?_eq_getElem hk
  rw [readWord_completeWith x, readWord_completeWith x, Option.map_some, Option.map_some,
    ofWord_outputWord_congr cfg drawn]

/-- The coefficients of one design have one value, wherever and whenever they are computed. -/
theorem tapWords_values {fc : F64} {n : Nat} {ws us : List Word} (hw : s.tapWords fc n = some ws)
    (hu : u.tapWords fc n = some us) : us.map F64.ofWord = ws.map F64.ofWord := by
  obtain ⟨taps, hd, hl, words⟩ := tapWords_some hw
  obtain ⟨taps', hd', hl', words'⟩ := tapWords_some hu
  obtain rfl : taps' = taps := Option.some.inj (hd'.symm.trans hd)
  refine List.ext_getElem? fun i => ?_
  rw [List.getElem?_map, List.getElem?_map]
  by_cases hi : i < n
  · rw [words i hi, words' i hi, Option.map_some, Option.map_some]
    split
    · rfl
    · rw [ofWord_outputWord_congr cfg drawn]
  · rw [List.getElem?_eq_none (by omega), List.getElem?_eq_none (by omega)]

end

/-! ### Equal values read, equal values written, command by command (rule R175) -/

/-- The words at two places hold the same value. -/
def SameValue (t : State) (w : Nat) (v : State) (x : Nat) : Prop :=
  (Memory.readWord v.dmem x).map F64.ofWord = (Memory.readWord t.dmem w).map F64.ofWord

section
variable {s u t v : State} (cfg : u.cfg = s.cfg) (drawn : u.drawn = s.drawn)
include cfg drawn

theorem firdes_values (hr : Ready .firdes s) (hr' : Ready .firdes u) (he : exec .firdes s = .next t)
    (he' : exec .firdes u = .next v) (n : s.operands.nTaps = u.operands.nTaps)
    (fc : s.operands.cutoff = u.operands.cutoff) :
    ∀ k, k < s.operands.nTaps.toNat → SameValue t (s.operands.dBase.toNat + k) v (u.operands.dBase.toNat + k) := by
  obtain ⟨-, -, -, designed⟩ := id hr
  obtain ⟨-, -, -, designed'⟩ := id hr'
  obtain ⟨-, ws, -, hw, hl, -⟩ := tapWords_of_designExists (s := s) designed
  obtain ⟨-, us, -, hu, hl', -⟩ := tapWords_of_designExists (s := u) designed'
  obtain rfl := Host.Outcome.next.inj (he.symm.trans (exec_firdes_holds hr hw))
  obtain rfl := Host.Outcome.next.inj (he'.symm.trans (exec_firdes_holds hr' hu))
  intro k hk
  rw [← n, ← fc] at hu
  have values := congrArg (·[k]?) (tapWords_values cfg drawn hw hu)
  rw [← n] at hl'
  simp only [List.getElem?_map, List.getElem?_eq_getElem (hl ▸ hk : k < ws.length),
    List.getElem?_eq_getElem (hl' ▸ hk : k < us.length)] at values
  simp only [SameValue, complete_dmem, delivered_dmem, storeWords_dmem, Memory.readWord_writeWords _ _ _ _ (hl ▸ hk : k < ws.length),
    Memory.readWord_writeWords _ _ _ _ (hl' ▸ hk : k < us.length), values]

theorem conv_values {sig h : List F64} (hr : Ready .convZero s) (hr' : Ready .convZero u) (he : exec .convZero s = .next t)
    (he' : exec .convZero u = .next v) (hs : s.operands.signalA.Holds s sig) (hh : s.operands.bufferB.Holds s h)
    (hs' : u.operands.signalA.Holds u sig) (hh' : u.operands.bufferB.Holds u h) :
    ∀ k, k < sig.length → SameValue t (s.operands.dBase.toNat + k) v (u.operands.dBase.toNat + k) := by
  obtain rfl := Host.Outcome.next.inj (he.symm.trans (exec_convZero_holds hr hs hh))
  obtain rfl := Host.Outcome.next.inj (he'.symm.trans (exec_convZero_holds hr' hs' hh'))
  intro k hk
  rw [SameValue, cfg]
  exact completeWith_values cfg drawn _ ((conv_length _ _ _).symm ▸ hk)

theorem lpf_values {sig : List F64} (hr : Ready .lpfZero s) (hr' : Ready .lpfZero u) (he : exec .lpfZero s = .next t)
    (he' : exec .lpfZero u = .next v) (n : s.operands.nTaps = u.operands.nTaps)
    (fc : s.operands.cutoff = u.operands.cutoff) (hs : s.operands.signalA.Holds s sig)
    (hs' : u.operands.signalA.Holds u sig) :
    (∀ k, k < s.operands.nTaps.toNat → SameValue t (s.operands.bBase.toNat + k) v (u.operands.bBase.toNat + k)) ∧
    ∀ k, k < sig.length → SameValue t (s.operands.dBase.toNat + k) v (u.operands.dBase.toNat + k) := by
  obtain ⟨-, -, -, -, -, -, -, -, -, designed, -⟩ := id hr
  obtain ⟨-, -, -, -, -, -, -, -, -, designed', -⟩ := id hr'
  obtain ⟨-, ws, -, hw, hl, -⟩ := tapWords_of_designExists (s := s) designed
  obtain ⟨-, us, -, hu, hl', -⟩ := tapWords_of_designExists (s := u) designed'
  obtain ⟨t', e, taps, output⟩ := exec_lpf_words hr hs hw hl
  obtain ⟨v', e', taps', output'⟩ := exec_lpf_words hr' hs' hu hl'
  obtain rfl := Host.Outcome.next.inj (he.symm.trans e)
  obtain rfl := Host.Outcome.next.inj (he'.symm.trans e')
  rw [← n, ← fc] at hu
  have values := tapWords_values cfg drawn hw hu
  refine ⟨fun k hk => ?coefficients, fun k hk => ?outputs⟩
  case coefficients =>
    rw [SameValue, taps k hk, taps' k (n ▸ hk), ← List.getElem?_map, ← List.getElem?_map, values]
  case outputs =>
    rw [SameValue, output k hk, output' k hk, Option.map_some, Option.map_some, values, cfg]
    exact congrArg some (ofWord_outputWord_congr (s := State.delivered _ s) (u := State.delivered _ u) cfg drawn _ _ _)

theorem rfft_values {sig : List F64} (hr : Ready .rfft s) (hr' : Ready .rfft u) (he : exec .rfft s = .next t)
    (he' : exec .rfft u = .next v) (hs : s.operands.signalA.Holds s sig) (hs' : u.operands.signalA.Holds u sig) :
    ∀ k, k < 2 * (sig.length / 2 + 1) → SameValue t (s.operands.dBase.toNat + k) v (u.operands.dBase.toNat + k) := by
  obtain rfl := Host.Outcome.next.inj (he.symm.trans (exec_rfft_holds hr hs))
  obtain rfl := Host.Outcome.next.inj (he'.symm.trans (exec_rfft_holds hr' hs'))
  intro k hk
  rw [SameValue, cfg]
  exact completeWith_values cfg drawn _ (by rwa [interleave_length, spectrum_length])

theorem mag_values {bins : List Bin} (hr : Ready .mag s) (hr' : Ready .mag u) (he : exec .mag s = .next t)
    (he' : exec .mag u = .next v) (hb : s.operands.spectrumA.HoldsBins s bins)
    (hb' : u.operands.spectrumA.HoldsBins u bins) :
    ∀ k, k < bins.length → SameValue t (s.operands.dBase.toNat + k) v (u.operands.dBase.toNat + k) := by
  obtain rfl := Host.Outcome.next.inj (he.symm.trans (exec_mag_holds hr hb))
  obtain rfl := Host.Outcome.next.inj (he'.symm.trans (exec_mag_holds hr' hb'))
  intro k hk
  exact completeWith_values cfg drawn _ (by rwa [List.length_map])

theorem snr_values {x y : List F64} (hr : Ready .snr s) (hr' : Ready .snr u) (he : exec .snr s = .next t)
    (he' : exec .snr u = .next v) (h1 : s.operands.signalA.Holds s x) (h2 : s.operands.bufferB.Holds s y)
    (h1' : u.operands.signalA.Holds u x) (h2' : u.operands.bufferB.Holds u y) : F64.ofWord v.res0 = F64.ofWord t.res0 := by
  obtain ⟨t', e, res⟩ := exec_snr_res0 hr h1 h2
  obtain ⟨v', e', res'⟩ := exec_snr_res0 hr' h1' h2'
  obtain rfl := Host.Outcome.next.inj (he.symm.trans e)
  obtain rfl := Host.Outcome.next.inj (he'.symm.trans e')
  rw [res, res']
  split
  · rfl
  · exact ofWord_outputWord_congr cfg drawn _ _ _

end

/-- A search over the same bins finds the same, wherever they lie. -/
theorem peakSearch_congr {m m' : Memory} {base base' : Nat} {bins : List Bin} : ∀ {k : Nat} (best : Option (Nat × F64)),
    BinsFrom m base k bins → BinsFrom m' base' k bins →
    peakSearch m' base' k best bins.length = peakSearch m base k best bins.length := by
  induction bins with
  | nil => exact fun _ _ _ => rfl
  | cons b bs ih =>
    intro k best h h'
    obtain ⟨re, im, hre, him, rfl⟩ := h.head
    obtain ⟨re', im', hre', him', same⟩ := h'.head
    simp only [List.length_cons, peakSearch, hre, him, hre', him', ← same]
    simp only [ih _ h.tail h'.tail]

section
variable {i : Instr} {s u t v : State} (cfg : u.cfg = s.cfg) (drawn : u.drawn = s.drawn)
include cfg drawn

theorem peak_values {bins : List Bin} (hi : i ∈ [Instr.peakOrig, .peakDerive]) (hr : Ready i s) (hr' : Ready i u)
    (he : exec i s = .next t) (he' : exec i u = .next v) (fs : s.operands.fs = u.operands.fs)
    (original : i = .peakOrig → s.operands.origLen = u.operands.origLen)
    (hb : s.operands.searchedA.HoldsBins s bins) (hb' : u.operands.searchedA.HoldsBins u bins) :
    v.res1 = t.res1 ∧ F64.ofWord v.res0 = F64.ofWord t.res0 := by
  obtain ⟨from1, count⟩ := binsFrom_of_searched hb
  obtain ⟨from1', count'⟩ := binsFrom_of_searched hb'
  have two := two_le_aLen_of_ready_peak hi hr
  have two' := two_le_aLen_of_ready_peak hi hr'
  have len : u.operands.aLen.toNat = s.operands.aLen.toNat := by omega
  have length : peakLength i u.operands = peakLength i s.operands := by
    unfold peakLength
    split
    next h => rw [original h]
    next => rw [len]
  obtain ⟨r, found, -⟩ := peakSearch_of_holdsBins hb two
  have found' := (peakSearch_congr none from1 from1').trans (count.symm ▸ found)
  have operation : u.operands.peakOperation u.dmem (decide (i = .peakDerive)) (peakLength i u.operands) =
      s.operands.peakOperation s.dmem (decide (i = .peakDerive)) (peakLength i s.operands) := by
    rw [Params.peakOperation, Params.peakOperation, peakBins_eq from1 (.inl count), peakBins_eq from1' (.inl count'), fs,
      length]
  rw [count'] at found'
  obtain rfl := Host.Outcome.next.inj (he.symm.trans ((exec_peak_ready hi hr).trans (peakWith_of_found found)))
  obtain rfl := Host.Outcome.next.inj (he'.symm.trans ((exec_peak_ready hi hr').trans (peakWith_of_found found')))
  rw [operation, len, peakBin_congr cfg drawn, length, ← fs]
  exact ⟨rfl, ofWord_outputWord_congr cfg drawn _ _ _⟩

end

end Machine

open Machine

/-- Settles O48: the row's registers are all that the checks and the meaning read; with equal values read the operation is
the same, and so are the values it draws. -/
theorem commandReadsOnlyItsRegisters : Obligations.CommandReadsOnlyItsRegisters := by
  unfold Obligations.CommandReadsOnlyItsRegisters
  refine ⟨fun i s p q => exec_reads_row, fun s t h => ⟨step_cfg h, step_drawn h⟩, ?_⟩
  intro i s u cfg drawn hr hr' p q value
  obtain ⟨t, he⟩ := exec_of_ready hr
  obtain ⟨v, he'⟩ := exec_of_ready hr'
  refine ⟨t, v, he, he', ?_, ?_, ?_, ?_, ?_, ?_, fun hi fs original bins => ?_⟩
  · rintro rfl n fc
    exact firdes_values cfg drawn hr hr' he he' n fc
  · rintro rfl sig h hs hh hs' hh'
    exact conv_values cfg drawn hr hr' he he' hs hh hs' hh'
  · rintro rfl n fc sig hs hs'
    exact lpf_values cfg drawn hr hr' he he' n fc hs hs'
  · rintro rfl sig hs hs'
    exact rfft_values cfg drawn hr hr' he he' hs hs'
  · rintro rfl bins hb hb'
    exact mag_values cfg drawn hr hr' he he' hb hb'
  · rintro rfl x y h1 h2 h1' h2'
    exact snr_values cfg drawn hr hr' he he' h1 h2 h1' h2'
  · exact peak_values cfg drawn (List.mem_pair.2 hi) hr hr' he he' fs original

end Sys2Proof
end

section
/-! PROOFS of the statement that a conforming tolerant datapath writes conforming results (rule R17). -/

namespace Sys2Proof

namespace Exact

/-! ### The exact coefficients are symmetric (rules R154, R155) -/

theorem sinc_neg (x : ℝ) : sinc (-x) = sinc x := by
  simp only [sinc, neg_eq_zero, mul_neg, Real.sin_neg, neg_div_neg_eq]

theorem windowed_mirror (fc : ℝ) {n k : Nat} (hn : 2 ≤ n) (hk : k < n) : windowed fc n (n - 1 - k) = windowed fc n k := by
  have index : ((n - 1 - k : Nat) : ℝ) = n - 1 - k := by
    rw [Nat.cast_sub (by omega), Nat.cast_sub (by omega), Nat.cast_one]
  have span : (n : ℝ) - 1 ≠ 0 := by
    have : (2 : ℝ) ≤ n := by exact_mod_cast hn
    linarith
  have place : 2 * fc * ((n : ℝ) - 1 - k - (n - 1) / 2) = -(2 * fc * (k - (n - 1) / 2)) := by ring
  have angle : 2 * Real.pi * ((n : ℝ) - 1 - k) / (n - 1) = 2 * Real.pi - 2 * Real.pi * k / (n - 1) := by
    field_simp
  rw [windowed, windowed, index, place, sinc_neg, angle, Real.cos_two_pi_sub]

theorem tap?_mirror (fc : ℝ) {n k : Nat} (hn : n ≠ 1) (hk : k < n) : tap? fc n (min k (n - 1 - k)) = tap? fc n k := by
  rcases Nat.le_total k (n - 1 - k) with h | h
  · rw [Nat.min_eq_left h]
  · rw [Nat.min_eq_right h, tap?, tap?, tap, tap, windowed_mirror fc (by omega) hk]

end Exact

namespace Machine

/-- The reference coefficients are symmetric bit for bit (rule R155). -/
theorem design_mirror {fc : F64} {n k : Nat} {taps : List F64} (hn : n ≠ 1) (h : design fc n = some taps) (hk : k < n) :
    taps.getD (min k (n - 1 - k)) F64.zero = taps.getD k F64.zero := by
  rw [design_of_ne_one hn rfl] at h
  split at h
  · obtain rfl := Option.some.inj h
    have twice : min (min k (n - 1 - k)) (n - 1 - min k (n - 1 - k)) = min k (n - 1 - k) := by omega
    rw [prototypeTaps_eq]
    simp only [List.getD_eq_getElem?_getD, List.getElem?_map, List.getElem?_range hk,
      List.getElem?_range (show min k (n - 1 - k) < n by omega), Option.map_some, twice]
  · cases h

/-! ### The words a tolerant datapath delivers -/

/-- The word at place `w` conforms to the reference result `r` and the exact result `x` (rule R17 (a)). -/
def WordConforms (tol : ℝ) (m : Memory) (w : Nat) (r : F64) (x : Option ℝ) : Prop :=
  ∃ v, Memory.readWord m w = some v ∧ F64.Conforms tol r x (F64.ofWord v)

section
variable {s : State} (ht : s.cfg.datapath = .tolerant)
include ht

theorem ofWord_outputWord_tolerant (op : Operation) (j : Nat) (a : F64) :
    F64.ofWord (s.outputWord op j a) = F64.ofWord (s.drawnWord op j) := by
  rw [ofWord_outputWord, State.computed, ht]

theorem wordConforms_of_draw {op : Operation} {j w : Nat} {r a : F64} {x : Option ℝ} {m : Memory}
    (h : DrawConforms s op j r x) (read : Memory.readWord m w = some (s.outputWord op j a)) :
    WordConforms s.cfg.fpTol m w r x :=
  ⟨_, read, (ofWord_outputWord_tolerant ht op j a).symm ▸ h⟩

/-- The coefficient words conform, the upper half as the lower. -/
theorem wordConforms_of_tapWords {fc : F64} {n k w : Nat} {ws : List Word} {taps : List F64} {m : Memory}
    (draws : ConformingDraws.TapDraws s fc n) (hw : s.tapWords fc n = some ws) (hn : n ≠ 1) (hd : design fc n = some taps)
    (hk : k < n) (read : Memory.readWord m w = ws[k]?) :
    WordConforms s.cfg.fpTol m w (taps.getD k F64.zero) (Exact.tap? fc.toReal n k) := by
  obtain ⟨taps', hd', -, words⟩ := tapWords_some hw
  obtain rfl : taps' = taps := Option.some.inj (hd'.symm.trans hd)
  rw [words k hk, if_neg hn] at read
  have draw := draws hn taps' hd _ (min_le_lowerHalf hk)
  rw [design_mirror hn hd hk, Exact.tap?_mirror _ hn hk] at draw
  exact wordConforms_of_draw ht draw read

variable {t : State}

theorem firdes_conforms (hr : Ready .firdes s) (draws : ConformingDraws .firdes s) (he : exec .firdes s = .next t)
    (hn : s.operands.nTaps.toNat ≠ 1) {taps : List F64}
    (hd : design (F64.ofWord s.operands.cutoff) s.operands.nTaps.toNat = some taps) {k : Nat}
    (hk : k < s.operands.nTaps.toNat) :
    WordConforms s.cfg.fpTol t.dmem (s.operands.dBase.toNat + k) (taps.getD k F64.zero)
      (Exact.tap? (F64.ofWord s.operands.cutoff).toReal s.operands.nTaps.toNat k) := by
  obtain ⟨-, -, -, designed⟩ := id hr
  obtain ⟨-, ws, -, hw, hl, -⟩ := tapWords_of_designExists (s := s) designed
  obtain rfl := Host.Outcome.next.inj (he.symm.trans (exec_firdes_holds hr hw))
  have hk' : k < ws.length := hl ▸ hk
  refine wordConforms_of_tapWords ht draws hw hn hd hk ?_
  rw [complete_dmem, delivered_dmem, storeWords_dmem, Memory.readWord_writeWords _ _ _ _ hk', List.getElem?_eq_getElem hk']

theorem conv_conforms {sig h : List F64} (hr : Ready .convZero s) (draws : ConformingDraws .convZero s)
    (he : exec .convZero s = .next t) (hs : s.operands.signalA.Holds s sig) (hh : s.operands.bufferB.Holds s h) {k : Nat}
    (hk : k < sig.length) : WordConforms s.cfg.fpTol t.dmem (s.operands.dBase.toNat + k)
      (convAt s.cfg.macFused sig h k) (Exact.conv? sig h k) := by
  obtain ⟨t', e, words⟩ := exec_conv_words hr hs hh
  obtain rfl := Host.Outcome.next.inj (he.symm.trans e)
  exact wordConforms_of_draw ht (draws sig h hs hh k hk) (words k hk)

/-- `LPF` writes conforming coefficients, and outputs that conform over the coefficients written. -/
theorem lpf_conforms (hr : Ready .lpfZero s) (draws : ConformingDraws .lpfZero s) (he : exec .lpfZero s = .next t) :
    (s.operands.nTaps.toNat ≠ 1 → ∀ taps, design (F64.ofWord s.operands.cutoff) s.operands.nTaps.toNat = some taps →
      ∀ k, k < s.operands.nTaps.toNat → WordConforms s.cfg.fpTol t.dmem (s.operands.bBase.toNat + k) (taps.getD k F64.zero)
        (Exact.tap? (F64.ofWord s.operands.cutoff).toReal s.operands.nTaps.toNat k)) ∧
    ∀ sig h, s.operands.signalA.Holds s sig → s.operands.tapsB.Holds t h → ∀ k, k < sig.length →
      WordConforms s.cfg.fpTol t.dmem (s.operands.dBase.toNat + k) (convAt s.cfg.macFused sig h k) (Exact.conv? sig h k) := by
  obtain ⟨-, -, -, -, -, -, -, -, -, designed, signal⟩ := id hr
  obtain ⟨-, ws, -, hw, hl, -⟩ := tapWords_of_designExists (s := s) designed
  obtain ⟨sig, hs⟩ := holds_of_specified signal
  obtain ⟨t', e, coefficients, outputs⟩ := exec_lpf_words hr hs hw hl
  obtain rfl := Host.Outcome.next.inj (he.symm.trans e)
  obtain ⟨tapDraws, convDraws⟩ := draws
  refine ⟨fun hn taps hd k hk => wordConforms_of_tapWords ht tapDraws hw hn hd hk (coefficients k hk),
    fun sig' h hs' hh k hk => ?_⟩
  obtain rfl := holds_unique hs hs'
  have written : s.operands.tapsB.Holds t (ws.map F64.ofWord) := by
    refine ⟨by rw [List.length_map, hl]; rfl, fun k hk => ?_⟩
    rw [List.getElem?_map]
    exact congrArg (Option.map F64.ofWord) (coefficients k hk)
  obtain rfl := holds_unique written hh
  exact wordConforms_of_draw (s := State.delivered _ s) ht (convDraws sig ws hs hw k hk) (outputs k hk)

theorem mag_conforms {bins : List Bin} (hr : Ready .mag s) (draws : ConformingDraws .mag s) (he : exec .mag s = .next t)
    (hb : s.operands.spectrumA.HoldsBins s bins) {k : Nat} {b : Bin} (hk : bins[k]? = some b) :
    WordConforms s.cfg.fpTol t.dmem (s.operands.dBase.toNat + k) (magnitude b) (Exact.mag? b.1 b.2) := by
  obtain ⟨t', e, words⟩ := exec_mag_words hr hb
  obtain rfl := Host.Outcome.next.inj (he.symm.trans e)
  exact wordConforms_of_draw ht (draws bins hb k b hk) (words k b hk)

theorem snr_conforms {x y : List F64} (hr : Ready .snr s) (draws : ConformingDraws .snr s) (he : exec .snr s = .next t)
    (h1 : s.operands.signalA.Holds s x) (h2 : s.operands.bufferB.Holds s y)
    (noise : F64.eq (powerSums x y).1 F64.zero = false) :
    F64.Conforms s.cfg.fpTol (snrOf (powerSums x y)) (Exact.snr? x y) (F64.ofWord t.res0) := by
  obtain ⟨t', e, res0⟩ := exec_snr_res0 hr h1 h2
  obtain rfl := Host.Outcome.next.inj (he.symm.trans e)
  rw [res0, if_neg (by rw [noise]; decide), ofWord_outputWord_tolerant ht]
  exact draws x y h1 h2 noise

/-- A component of a bin conforms, or is NaN where there is no exact result (log 27). -/
theorem binWordConforms_of_draw {op : Operation} {j w : Nat} {r a : F64} {x : Option ℝ} {m : Memory}
    (h : BinDrawConforms s op j r x) (read : Memory.readWord m w = some (s.outputWord op j a)) :
    ∃ v, Memory.readWord m w = some v ∧
      (F64.Conforms s.cfg.fpTol r x (F64.ofWord v) ∨ (x = none ∧ F64.ofWord v = .nan)) :=
  ⟨_, read, (ofWord_outputWord_tolerant ht op j a).symm ▸ h⟩

end

/-! ### The peak (rules R227, R228, R229) -/

/-- The magnitudes decide the reference's bin. -/
theorem ReferencePeak.unique {bins : List Bin} {a b : Nat} (ha : ReferencePeak bins a) (hb : ReferencePeak bins b) : a = b := by
  obtain ⟨a1, a2, ha⟩ := ha
  obtain ⟨b1, b2, hb⟩ := hb
  rcases ha with ⟨nanA, firstA⟩ | largestA <;> rcases hb with ⟨nanB, firstB⟩ | largestB
  · rcases Nat.lt_trichotomy a b with h | h | h
    · cases nanA.symm.trans (firstB a a1 h)
    · exact h
    · cases nanB.symm.trans (firstA b b1 h)
  · cases nanA.symm.trans (largestB a a1 a2).1
  · cases nanB.symm.trans (largestA b b1 b2).1
  · obtain ⟨-, leA, ltA⟩ := largestA b b1 b2
    obtain ⟨-, leB, ltB⟩ := largestB a a1 a2
    have leA := ((F64.le_iff_ord _ _).1 leA).2.2
    have leB := ((F64.le_iff_ord _ _).1 leB).2.2
    rcases Nat.lt_trichotomy a b with h | h | h
    · exact absurd ((F64.lt_iff_ord _ _).1 (ltB h)).2.2 leA.not_gt
    · exact h
    · exact absurd ((F64.lt_iff_ord _ _).1 (ltA h)).2.2 leB.not_gt

theorem getD_mem_bins {bins : List Bin} {j : Nat} (h1 : 1 ≤ j) (hj : j ≤ bins.length) :
    bins.getD (j - 1) (F64.zero, F64.zero) ∈ bins := by
  rw [List.getD_eq_getElem _ _ (show j - 1 < bins.length by omega)]
  exact List.getElem_mem _

theorem exists_searchedMagnitude {bins : List Bin} {b : Bin} (h : b ∈ bins) :
    ∃ j, 1 ≤ j ∧ j ≤ bins.length ∧ searchedMagnitude bins j = magnitude b := by
  obtain ⟨j, hj, rfl⟩ := List.getElem_of_mem h
  refine ⟨j + 1, by omega, hj, ?_⟩
  rw [searchedMagnitude, Nat.add_sub_cancel, List.getD_eq_getElem _ _ hj]

/-- The search finds the reference's bin, and says whether a NaN decided. -/
theorem peakSearch_referencePeak {s : State} {p : Params} {bins : List Bin} (h : p.searchedA.HoldsBins s bins)
    (hm : 2 ≤ p.aLen.toNat) :
    ∃ r, peakSearch s.dmem p.aBase.toNat 1 none (p.aLen.toNat - 1) = .ok r ∧ ReferencePeak bins r.bin ∧
      (r.isNaN = true ↔ ∃ b ∈ bins, (magnitude b).isNaN = true) := by
  obtain ⟨-, count⟩ := binsFrom_of_searched h
  have all : 1 + (p.aLen.toNat - 1) = p.aLen.toNat := by omega
  obtain ⟨r, found, low, high, result⟩ := peakSearch_spec (m := s.dmem) (base := p.aBase.toNat)
    (f := searchedMagnitude bins) (p.aLen.toNat - 1) 1 none le_rfl (by omega)
    (fun j h1 hj => words_of_searchedBin h h1 (all ▸ hj)) (fun _ => rfl) (fun b hb => by cases hb)
  have inside : r.bin ≤ bins.length := by omega
  rcases result with ⟨decided, nan, first⟩ | ⟨undecided, -, -, largest⟩
  · exact ⟨r, found, ⟨low, inside, .inl ⟨nan, first⟩⟩, iff_of_true decided ⟨_, getD_mem_bins low inside, nan⟩⟩
  · refine ⟨r, found, ⟨low, inside, .inr fun j h1 hj => largest j h1 (by omega)⟩, iff_of_false (by rw [undecided]; decide) ?_⟩
    rintro ⟨b, hb, nan⟩
    obtain ⟨j, h1, hj, same⟩ := exists_searchedMagnitude hb
    cases (same ▸ nan).symm.trans (largest j h1 (by omega)).1

theorem peakDraws_of_conformingDraws {i : Instr} {s : State} (hi : i ∈ [Instr.peakOrig, .peakDerive])
    (draws : ConformingDraws i s) :
    ConformingDraws.PeakDraws s s.operands (decide (i = .peakDerive)) (peakLength i s.operands) := by
  rcases List.mem_pair.1 hi with rfl | rfl
  · exact draws
  · exact draws

/-- A tolerant datapath reports the bin drawn, where it lies in the searched range and no NaN decides. -/
theorem peakBin_of_drawn {s : State} (ht : s.cfg.datapath = .tolerant) {op : Operation} {count : Nat} {r : Peak}
    (undecided : r.isNaN = false) (h1 : 1 ≤ (s.drawnWord op 0).toNat) (h2 : (s.drawnWord op 0).toNat < count) :
    s.peakBin op count r = (s.drawnWord op 0).toNat := by
  simp only [State.peakBin, ht]
  rw [if_pos (by simp [undecided, h1, h2])]

/-- What a completed search leaves in the result registers. -/
theorem exec_peak_results {i : Instr} {s t : State} {r : Peak} (hi : i ∈ [Instr.peakOrig, .peakDerive]) (hr : Ready i s)
    (he : exec i s = .next t)
    (found : peakSearch s.dmem s.operands.aBase.toNat 1 none (s.operands.aLen.toNat - 1) = .ok r) {op : Operation}
    (hop : s.operands.peakOperation s.dmem (decide (i = .peakDerive)) (peakLength i s.operands) = op) :
    t.res1 = BitVec.ofNat 32 (s.peakBin op s.operands.aLen.toNat r) ∧
    t.res0 = s.outputWord op 1 (peakFreq (s.peakBin op s.operands.aLen.toNat r) (F64.ofWord s.operands.fs)
      (peakLength i s.operands)) := by
  obtain rfl := Host.Outcome.next.inj (he.symm.trans ((exec_peak_ready hi hr).trans (peakWith_of_found found)))
  subst hop
  exact ⟨rfl, rfl⟩

section
variable {i : Instr} {s t : State} (ht : s.cfg.datapath = .tolerant) (hi : i ∈ [Instr.peakOrig, .peakDerive])
  (hr : Ready i s) (draws : ConformingDraws i s) (he : exec i s = .next t)
include ht hi hr draws he

theorem peak_conforms :
    F64.Conforms s.cfg.fpTol (peakFreq t.res1.toNat (F64.ofWord s.operands.fs) (peakLength i s.operands))
      (some (Exact.freq t.res1.toNat (F64.ofWord s.operands.fs).toReal (peakLength i s.operands))) (F64.ofWord t.res0) ∧
    ∀ (bins : List Bin) (ref : Nat), s.operands.searchedA.HoldsBins s bins → ReferencePeak bins ref →
      ((∃ b ∈ bins, (magnitude b).isNaN = true) → t.res1.toNat = ref) ∧
      ((∀ b ∈ bins, (magnitude b).isNaN = false) → PeakConforms s.cfg.fpTol bins ref t.res1.toNat) := by
  obtain ⟨bins, hb⟩ := holdsBins_of_specified (m := s.operands.aLen.toNat - 1) rfl (searchedA_specified_of_ready hi hr)
  obtain ⟨-, count⟩ := binsFrom_of_searched hb
  have two := two_le_aLen_of_ready_peak hi hr
  obtain ⟨r, found, reference, decided⟩ := peakSearch_referencePeak hb two
  obtain ⟨peakDraw, freqDraw⟩ := peakDraws_of_conformingDraws hi draws r found
  have bounds : 1 ≤ r.bin ∧ r.bin < s.operands.aLen.toNat := ⟨reference.1, by have := reference.2.1; omega⟩
  obtain ⟨op, hop⟩ : ∃ op, s.operands.peakOperation s.dmem (decide (i = .peakDerive)) (peakLength i s.operands) = op := ⟨_, rfl⟩
  obtain ⟨res1, res0⟩ := exec_peak_results hi hr he found hop
  rw [hop] at peakDraw freqDraw
  have reported : t.res1.toNat = s.peakBin op s.operands.aLen.toNat r := by
    rw [res1, toNat_ofNat_of_lt (peakBin_bounds s op bounds.1 bounds.2).2]
  rw [reported, res0, ofWord_outputWord_tolerant ht]
  refine ⟨freqDraw, fun bins' ref hb' href => ?_⟩
  obtain rfl := holdsBins_unique hb hb'
  obtain rfl := reference.unique href
  refine ⟨fun nan => peakBin_of_isNaN (decided.2 nan), fun number => ?_⟩
  have undecided : r.isNaN = false := Bool.eq_false_iff.2 fun h => by
    obtain ⟨b, hb, nan⟩ := decided.1 h
    cases nan.symm.trans (number b hb)
  have conforming := peakDraw undecided bins hb
  obtain ⟨low, high, -⟩ := id conforming
  rwa [peakBin_of_drawn ht undecided low (by omega)]

end

end Machine

open Machine

/-- Settles O60: each word lands at its place with the value drawn for it, and the upper half of a design repeats the lower
half of draws, references and exact results alike. -/
theorem tolerantOutputsWithin : Obligations.TolerantOutputsWithin := by
  unfold Obligations.TolerantOutputsWithin
  intro s t i ht hr draws he p n tol conforms conformsBin
  refine ⟨?taps, ?conv, ?lpf, ?rfft, ?mag, ?snr, ?peak⟩
  case taps =>
    rintro (rfl | rfl) hn taps hd k hk
    · exact firdes_conforms ht hr draws he hn hd hk
    · exact (lpf_conforms ht hr draws he).1 hn taps hd k hk
  case conv =>
    rintro rfl sig h hs hh k hk
    exact conv_conforms ht hr draws he hs hh hk
  case lpf =>
    rintro rfl
    exact (lpf_conforms ht hr draws he).2
  case rfft =>
    rintro rfl sig hs k b hk
    obtain ⟨t', e, words⟩ := exec_rfft_words hr hs
    obtain rfl := Host.Outcome.next.inj (he.symm.trans e)
    obtain ⟨real, imaginary⟩ := draws sig hs k b hk
    obtain ⟨realWord, imaginaryWord⟩ := words k b hk
    exact ⟨binWordConforms_of_draw ht real realWord, binWordConforms_of_draw ht imaginary imaginaryWord⟩
  case mag =>
    rintro rfl bins hb k b hk
    exact mag_conforms ht hr draws he hb hk
  case snr =>
    rintro rfl x y h1 h2 noise
    exact snr_conforms ht hr draws he h1 h2 noise
  case peak => exact fun hi => peak_conforms ht (List.mem_pair.2 hi) hr draws he

end Sys2Proof
end
